-- ==== Sys2Proof/Word.lean ====
section
/-!
DEFINITION. Word.lean: the fixed-width words of the CVG-2416 and the one byte type its frames are made of.
-/
namespace Sys2Proof

/-- One byte of a frame, a datagram or the boot record. -/
abbrev Byte := BitVec 8

/-- A 16-bit field: a tag, a generation, a UDP port, a VLAN tag control field, a sequence. -/
abbrev W16 := BitVec 16

/-- A 32-bit field: MT, DT, a client ID, a handle, a feature code, a content sum, a counter. -/
abbrev W32 := BitVec 32

/-- A MAC address. -/
abbrev W48 := BitVec 48

end Sys2Proof
end

