-- ==== Sys2Proof/Config.lean ====
section
/-!
DEFINITION. Config.lean: the sizes and limits that the manual fixes for the CVG-2416 (00_scope.md section 1.3 and the rules
named beside each). The manual leaves no value of the part open, so nothing here is a free value.
-/
namespace Sys2Proof.Config

/-- Grant slots (R25). -/
abbrev slots : Nat := 32768
/-- Waiter records (R46). -/
abbrev waiters : Nat := 4096
/-- Client entries (R64). -/
abbrev clients : Nat := 8192
/-- Pool indexes (R1). -/
abbrev pools : Nat := 1024
/-- Feature indexes (R2). -/
abbrev features : Nat := 16384
/-- Site indexes (R106). -/
abbrev sites : Nat := 256
/-- Greatest token count of a pool (R1, R108). -/
abbrev maxTokens : Nat := 1048575
/-- Entries of the notice queue (R177). -/
abbrev noticeQueue : Nat := 32
/-- Frames of one originate queue (R152). -/
abbrev originateQueue : Nat := 256
/-- Frames of one forward path (R149). -/
abbrev forwardPath : Nat := 2048
/-- Candidates in the intake of the Exchange Unit (R148). -/
abbrev exuIntake : Nat := 64
/-- Candidates in the intake of the Administration Agent (R148). -/
abbrev adaIntake : Nat := 8
/-- Longest frame a port receives, in bytes (R142). -/
abbrev maxFrame : Nat := 9216
/-- Most matches one AUDIT reports (R162). -/
abbrev auditMatches : Nat := 64
/-- Bytes of the boot record (R184). -/
abbrev bootBytes : Nat := 54
/-- Octets of the shortest Ethernet frame before its frame check sequence (R150; PRESUMED, IEEE 802.3: log entry 3). -/
abbrev minFrame : Nat := 60

end Sys2Proof.Config
end

