-- ==== Sys2Proof/Syntax.lean ====
section
/-!
DEFINITION. Syntax.lean: the commands of the CVG-2416, one constructor per row of spec/opcode_table.json. The rows give
no operands; the operands here are what reaches the device from outside at that event (a frame, a pin level, the bytes the
boot flash returned, the memory words struck since the last event) and, for a pool service round, the pool it belongs to.
Everything else an event needs stands in the state: the datagram at the head of an intake, the cursor of a pass.
-/
namespace Sys2Proof

/-- The two Ethernet ports: `f` faces the farm, `s` the server (00_scope.md 1.2). -/
inductive Port where
  | f
  | s
  deriving DecidableEq, Repr

/-- A frame on a port: its bytes from the destination address on, and the frame check sequence it carries (R142). -/
structure Frame where
  bytes : List Byte
  fcs : W32
  deriving DecidableEq, Repr

/-- The two table banks (R106). -/
inductive BankId where
  | b0
  | b1
  deriving DecidableEq, Repr

/-- The four table kinds of a bank (R106, section 12.2). -/
inductive TableKind where
  | feature
  | pool
  | site
  | global
  deriving DecidableEq, Repr

/-- One separately checked word of a protected memory (chapter 11, R171, and the Index column of R175). -/
inductive MemWord where
  /-- record memory of a grant slot -/
  | grantRec (slot : Nat)
  /-- link memory of a grant slot -/
  | grantLink (slot : Nat)
  /-- a waiter record -/
  | waiterRec (index : Nat)
  /-- the queue heads and lengths of a pool -/
  | queueStore (pool : Nat)
  /-- a client entry -/
  | clientEnt (index : Nat)
  /-- the idle-list storage -/
  | idleStore
  /-- an entry of a bank -/
  | bankEntry (bank : BankId) (kind : TableKind) (index : Nat)
  /-- the code directory of a bank at a code -/
  | codeDir (bank : BankId) (code : W32)
  /-- a pool live record -/
  | poolLive (pool : Nat)
  /-- a feature live record -/
  | featLive (feature : Nat)
  deriving DecidableEq, Repr

/-- What the check bits of a damaged word show at its next read (R171). -/
inductive Damage where
  /-- corrected in place, a soft event -/
  | correctable
  /-- the content is lost; of a code directory word, the index it gives is still legible (R110) -/
  | uncorrectable
  /-- of a code directory word, the index itself is lost (R110); elsewhere as `uncorrectable` -/
  | indexLost
  deriving DecidableEq, Repr

/-- A memory word struck by an error. -/
structure Hit where
  word : MemWord
  damage : Damage
  deriving DecidableEq, Repr

/-- Why a port goes DOWN (R142). -/
inductive DownCause where
  | signalLost
  | moduleRemoved
  deriving DecidableEq, Repr

/-- The round a POOL_SERVICE_ROUND makes: of which pool's run, and whether other events come between its two examinations (R58, R62). -/
structure Round where
  pool : Nat
  parted : Bool
  deriving DecidableEq, Repr

/-- The commands and events of the part. `hits` names the memory words struck between the previous event and this one, in
the order struck (R171: errors are found only at reads, so an error is first known to an event that reads its word). -/
inductive Instr where
  | resetN
  | bootReadCompletion (read : Option (List Byte))
  | linkUp (p : Port)
  | linkDown (p : Port) (cause : DownCause)
  | mtAdvance
  | frameArrival (p : Port) (fr : Frame)
  | portReady (p : Port)
  | claim (hits : List Hit)
  | renew (hits : List Hit)
  | renewHandle (hits : List Hit)
  | yieldGrant (hits : List Hit)
  | query (hits : List Hit)
  | withdraw (hits : List Hit)
  | poolServiceRound (pool : Round) (hits : List Hit)
  | grantPassVisit (hits : List Hit)
  | waiterPassVisit (hits : List Hit)
  | poolPassVisit (hits : List Hit)
  | clientPassVisit (hits : List Hit)
  | noticeHandoff
  | readStatus
  | readEntry (hits : List Hit)
  | readPool (hits : List Hit)
  | readFeatureLive (hits : List Hit)
  | readGrant (hits : List Hit)
  | readWaiter (hits : List Hit)
  | readClient (hits : List Hit)
  | writeEntry (hits : List Hit)
  | setTime
  | setWithhold (hits : List Hit)
  | setService (hits : List Hit)
  | revokeHandle (hits : List Hit)
  | clearCapture
  | writeBootRecord
  | flashWriteCompletion (readBack : List Byte)
  | copyBank
  | copyBankVisit (hits : List Hit)
  | copyBankCompletion
  | swapBank (hits : List Hit)
  | reconcileGrantVisit (hits : List Hit)
  | reconcileWaiterVisit (hits : List Hit)
  | reconcilePoolVisit (hits : List Hit)
  | reconcileCompletion
  | audit
  | auditVisit (hits : List Hit)
  | auditCompletion
  | scanRevoke
  | scanRevokeGrantVisit (hits : List Hit)
  | scanRevokeWaiterVisit (hits : List Hit)
  | scanRevokeCompletion
  | countRebuild
  | countRebuildVisit (hits : List Hit)
  | countRebuildCompletion (hits : List Hit)
  | serviceReset
  | serviceResetCompletion
  | resetNLow
  | modulePresenceChange (p : Port) (present : Bool)
  | cexDatagramOfOtherKind
  | adminCandidateRefused
  deriving DecidableEq, Repr

end Sys2Proof
end

