-- ==== Sys2Proof/Decode.lean ====
section
/-!
DEFINITION. Decode.lean: the command a word of the opcode table spells. spec/opcode_table.json gives no bits to any of its 58
rows (spec/98_reader.md: n_rows_with_fixed 0), because the part takes its commands as events on its pins and as datagrams, so
no word spells a command. How datagrams are read stands in Machine/Operands.lean.
-/
namespace Sys2Proof

/-- The command a table word spells: none, since no row of the table has bits. -/
def decodeTableWord (_nbits _w : Nat) : Option Instr := none

end Sys2Proof
end

