-- ==== Sys2Proof/Machine/Bytes.lean ====
section
/-!
DEFINITION. Machine/Bytes.lean: big-endian fields (00_scope.md section 4), the ones'-complement checksum of R147 and the Ethernet
frame check sequence (log entry 3).
-/
namespace Sys2Proof.Machine

/-- Byte at an offset; an absent byte reads as 0 (every caller tests lengths first). -/
def byteAt (b : List Byte) (i : Nat) : Byte := b.getD i 0

/-- Big-endian 16-bit field at an offset. -/
def be16 (b : List Byte) (i : Nat) : W16 := byteAt b i ++ byteAt b (i + 1)

/-- Big-endian 32-bit field at an offset. -/
def be32 (b : List Byte) (i : Nat) : W32 := be16 b i ++ be16 b (i + 2)

/-- Big-endian 48-bit field at an offset. -/
def be48 (b : List Byte) (i : Nat) : W48 := be32 b i ++ be16 b (i + 4)

/-- The bytes of a 16-bit field, high byte first. -/
def bytes16 (w : W16) : List Byte := [w.extractLsb' 8 8, w.extractLsb' 0 8]

/-- The bytes of a 32-bit field, high byte first. -/
def bytes32 (w : W32) : List Byte :=
  [w.extractLsb' 24 8, w.extractLsb' 16 8, w.extractLsb' 8 8, w.extractLsb' 0 8]

/-- The bytes of a 48-bit field, high byte first. -/
def bytes48 (w : W48) : List Byte :=
  [w.extractLsb' 40 8, w.extractLsb' 32 8, w.extractLsb' 24 8, w.extractLsb' 16 8, w.extractLsb' 8 8,
   w.extractLsb' 0 8]

/-- A number as a 1-byte field. -/
def nat8 (n : Nat) : List Byte := [BitVec.ofNat 8 n]
/-- A number as a 2-byte field. -/
def nat16 (n : Nat) : List Byte := bytes16 (BitVec.ofNat 16 n)
/-- A number as a 4-byte field. -/
def nat32 (n : Nat) : List Byte := bytes32 (BitVec.ofNat 32 n)
/-- A yes-or-no field (section 12.2). -/
def flag8 (b : Bool) : List Byte := [if b then 1 else 0]
/-- An index field that may hold none, carried as 0xFFFF (section 12.2). -/
def index16 : Option Nat → List Byte
  | some i => nat16 i
  | none => [0xFF, 0xFF]

/-- The 16-bit words of a byte string, a zero byte appended to an odd count (R147). -/
def words16 : List Byte → List Nat
  | [] => []
  | [a] => [(a ++ (0 : Byte)).toNat]
  | a :: b :: t => (a ++ b).toNat :: words16 t

/-- The 32-bit words of a byte string of a multiple of 4 bytes; bytes over are dropped. -/
def words32 : List Byte → List W32
  | a :: b :: c :: d :: t => (a ++ b ++ c ++ d) :: words32 t
  | _ => []

/-- Ones'-complement addition of 16-bit numbers: the carry out is added back (R147). -/
def onesAdd (a b : Nat) : Nat := if a + b < 65536 then a + b else a + b - 65535

/-- Ones'-complement sum of the 16-bit words of a byte string (R147). -/
def onesSum (b : List Byte) : Nat := (words16 b).foldl onesAdd 0

/-- The checksum field that makes the sum over the covered words 0xFFFF (R147). -/
def checksum (b : List Byte) : W16 := BitVec.ofNat 16 (65535 - onesSum b)

/-- One bit of the CRC-32 division (IEEE 802.3, reflected). -/
def crcBit (c : W32) : W32 := if c.getLsbD 0 then (c >>> 1) ^^^ 0xEDB88320#32 else c >>> 1

/-- One byte of the CRC-32 division. -/
def crcByte (c : W32) (b : Byte) : W32 :=
  crcBit (crcBit (crcBit (crcBit (crcBit (crcBit (crcBit (crcBit (c ^^^ b.setWidth 32))))))))

/-- The frame check sequence of a frame's bytes (PRESUMED: IEEE 802.3 CRC-32, log entry 3). -/
def fcsOf (b : List Byte) : W32 := (b.foldl crcByte 0xFFFFFFFF#32) ^^^ 0xFFFFFFFF#32

end Sys2Proof.Machine
end

