-- ==== Sys2Proof/Machine/Tab.lean ====
section
/-!
DEFINITION. Machine/Tab.lean: sparse tables. The record stores of the part are large and mostly at rest, so a store is kept
as the list of its (index, record) pairs that differ from the store's resting record, indexes strictly rising. Equal stores
are then equal lists. `Tab.wf` says that form holds, and Laws/Tab.lean proves that `Tab.put` keeps it.
-/
namespace Sys2Proof

/-- A sparse table: the pairs that differ from the resting value, by rising index. -/
abbrev Tab (α : Type) := List (Nat × α)

/-- The record at index `k`, the resting value `d` where none is listed. -/
def Tab.get {α : Type} (d : α) : Tab α → Nat → α
  | [], _ => d
  | (j, w) :: t, k => if j = k then w else Tab.get d t k

/-- The table without index `k`. -/
def Tab.erase {α : Type} : Tab α → Nat → Tab α
  | [], _ => []
  | (j, w) :: t, k => if j = k then Tab.erase t k else (j, w) :: Tab.erase t k

/-- Puts a pair before the first pair of a greater index. -/
def Tab.insert {α : Type} : Tab α → Nat → α → Tab α
  | [], k, v => [(k, v)]
  | (j, w) :: t, k, v => if k < j then (k, v) :: (j, w) :: t else (j, w) :: Tab.insert t k v

/-- Writes `v` at index `k`; writing the resting value `d` removes the pair. -/
def Tab.put {α : Type} [DecidableEq α] (d : α) (t : Tab α) (k : Nat) (v : α) : Tab α :=
  if v = d then Tab.erase t k else Tab.insert (Tab.erase t k) k v

/-- The canonical form: indexes strictly rising from `lo`, no pair at the resting value. -/
def Tab.wfFrom {α : Type} [DecidableEq α] (d : α) : Nat → Tab α → Bool
  | _, [] => true
  | lo, (j, w) :: t => decide (lo ≤ j) && decide (w ≠ d) && Tab.wfFrom d (j + 1) t

/-- The table is in canonical form. -/
def Tab.wf {α : Type} [DecidableEq α] (d : α) (t : Tab α) : Bool := Tab.wfFrom d 0 t

/-- The first pair whose record satisfies `p`. -/
def Tab.search {α : Type} (p : α → Bool) : Tab α → Option (Nat × α)
  | [] => none
  | (j, w) :: t => if p w then some (j, w) else Tab.search p t

/-- The lowest index from `i` on, among the next `n`, whose record does not satisfy `used`. -/
def lowestFree (used : Nat → Bool) : Nat → Nat → Option Nat
  | 0, _ => none
  | n + 1, i => if used i then lowestFree used n (i + 1) else some i

/-- The highest index below `n` that is not used. -/
def highestFree (used : Nat → Bool) : Nat → Option Nat
  | 0 => none
  | n + 1 => if used n then highestFree used n else some n

end Sys2Proof
end

