-- ==== Sys2Proof/Machine/State.lean ====
section
/-!
DEFINITION. Machine/State.lean: everything the manual gives the CVG-2416, block by block as in 00_scope.md section 1.3, as plain
data, and the state right after RESET_N is released. Links between records (owner chains, linger lists, wait queues, the idle
list) are kept once, as the ordered lists they form; the link fields the manual lists are read from those lists.
-/
namespace Sys2Proof.Machine

/-! ### Names of states, classes and reasons -/

/-- Service state, held by the Administration Agent (section 10.3). -/
inductive Service where
  | starting
  | on
  | drain
  | off
  | faulted
  | passOnly
  deriving DecidableEq, Repr

/-- Service class of a claim, grant or waiter (R11). -/
inductive Cls where
  | general
  | priority
  deriving DecidableEq, Repr

/-- State of a grant slot (R26). -/
inductive GState where
  | free
  | held
  | stale
  | linger
  | recalled
  | bad
  deriving DecidableEq, Repr

/-- Pressure state of a pool (R80). -/
inductive Pressure where
  | normal
  | constrained
  deriving DecidableEq, Repr

/-- Reasons of DENY and RECALL (section 12.1). -/
inductive Reason where
  | noTokens
  | capReached
  | groupBlocked
  | queueFull
  | queuedAhead
  | tryLater
  | notYet
  | expired
  | disabled
  | waitExpired
  | withdrawn
  | clockUnset
  | notWaiting
  | revoked
  | tableChanged
  | draining
  | clientLimit
  | malformed
  deriving DecidableEq, Repr

/-- Statuses of a RENEW REPORT (section 12.1). -/
inductive RenewStatus where
  | ok
  | late
  | lingering
  | ended
  | unknown
  | notOwner
  | foreign
  deriving DecidableEq, Repr

/-- Statuses of a YIELD REPORT (section 12.1). -/
inductive YieldStatus where
  | released
  | lingering
  | ended
  | unknown
  | notOwner
  deriving DecidableEq, Repr

/-! ### Link Unit -/

/-- The last-served mark of an egress arbiter (R153). -/
inductive Mark where
  | forward
  | originate
  deriving DecidableEq, Repr

/-- Kinds of notice (R177). -/
inductive NoticeKind where
  | poolPressure
  | grantStale
  | grantReclaimed
  | softEvent
  | hardEvent
  | tableCapacity
  | serviceState
  deriving DecidableEq, Repr

/-- A frame the device has composed (R152); `notice` says it carries a notice, and of which kind (R177). -/
structure OutFrame where
  frame : Frame
  notice : Option NoticeKind
  deriving DecidableEq, Repr

/-- One port: link state and module presence (R142), the forward path bound for this port (R149), its originate queue (R152)
and its arbiter's mark (R153). `line` is the frame the port began to send at its latest readiness (log entry 5). -/
structure PortState where
  up : Bool
  module : Bool
  forward : List Frame
  originate : List OutFrame
  mark : Mark
  line : Option Frame
  deriving DecidableEq, Repr

/-- One entry of the station list (R169). -/
structure Station where
  ip : W32
  udp : W16
  port : Port
  deriving DecidableEq, Repr

/-- The addresses loaded from the boot record (R143). -/
structure Addrs where
  partMac : W48
  mgmtIp : W32
  mgmtPort : W16
  serviceIp : W32
  servicePort : W16
  stations : List Station
  deriving DecidableEq, Repr

/-- A neighbour record: where a station's last accepted datagram came from (R143). -/
structure Neighbour where
  mac : W48
  vlan : Option W16
  deriving DecidableEq, Repr

/-- Link Unit: the two ports, the loaded addresses (none in STARTING and PASS_ONLY, R144), the neighbour records by station
number (R143) and the identification counter (R150). -/
structure Lnk where
  portF : PortState
  portS : PortState
  addrs : Option Addrs
  neighbours : Tab (Option Neighbour)
  ident : W16
  deriving DecidableEq, Repr

/-! ### Exchange Unit -/

/-- A candidate as the Link Unit hands it on: the frame as received and its frame details (R147). -/
structure Cand where
  frame : Frame
  port : Port
  dstMac : W48
  srcMac : W48
  vlan : Option W16
  srcIp : W32
  srcPort : W16
  payload : List Byte
  deriving DecidableEq, Repr

/-- The working record of a RENEW being decided handle by handle (R129). -/
structure RenewWork where
  request : Cand
  client : W32
  tag : W16
  left : List W32
  statuses : List RenewStatus
  deriving DecidableEq, Repr

/-- Exchange Unit: its intake (R148) and the working record of the RENEW in hand. -/
structure Exu where
  intake : List Cand
  work : Option RenewWork
  deriving DecidableEq, Repr

/-! ### Table Store -/

/-- A feature entry (R107). -/
structure FeatureEntry where
  code : W32
  pool : Nat
  weight : Nat
  cap : Nat
  groupMask : W16
  windowStart : W32
  windowEnd : W32
  waiting : Bool
  linger : Bool
  deriving DecidableEq, Repr

/-- A pool entry (R108). -/
structure PoolEntry where
  defined : Bool
  capacity : Nat
  rp : Nat
  rg : Nat
  lm : Nat
  hm : Nat
  mr : Nat
  lt : Nat
  ri : Nat
  sg : Nat
  mw : Nat
  mwt : Nat
  deriving DecidableEq, Repr

/-- One slot of a class map (R109). -/
structure ClassSlot where
  cls : Cls
  paceExempt : Bool
  churnExempt : Bool
  deriving DecidableEq, Repr

/-- A site entry (R109); the class map has one slot per job class 0..7. -/
structure SiteEntry where
  defined : Bool
  group : Nat
  slots : List ClassSlot
  deriving DecidableEq, Repr

/-- A global entry (R109). -/
structure GlobalEntry where
  bi : Nat
  di : Nat
  pmax : Nat
  pt : Nat
  cmax : Nat
  mh : Nat
  mp : Nat
  mg : Nat
  grantLimit : Nat
  deriving DecidableEq, Repr

/-- An entry of any table kind. -/
inductive Entry where
  | feature (e : FeatureEntry)
  | pool (e : PoolEntry)
  | site (e : SiteEntry)
  | global (e : GlobalEntry)
  deriving DecidableEq, Repr

def FeatureEntry.empty : FeatureEntry := ⟨0, 0, 0, 0, 0, 0, 0, false, false⟩
def PoolEntry.undefined : PoolEntry := ⟨false, 0, 0, 0, 0, 0, 0, 0, 0, 0, 0, 0⟩
def ClassSlot.zero : ClassSlot := ⟨.general, false, false⟩
def SiteEntry.undefined : SiteEntry := ⟨false, 0, List.replicate 8 ClassSlot.zero⟩
/-- The global entry of each bank after power-on (R109). -/
def GlobalEntry.powerOn : GlobalEntry := ⟨5, 30, 16, 12, 4, 60, 0, 0, 64⟩
/-- A global entry whose words are all 0: the content of a lost one (R171). -/
def GlobalEntry.zero : GlobalEntry := ⟨0, 0, 0, 0, 0, 0, 0, 0, 0⟩

/-- One bank: four tables, the code directory, the content sum and the damaged marks (R106). -/
structure Bank where
  features : Tab FeatureEntry
  pools : Tab PoolEntry
  sites : Tab SiteEntry
  global : GlobalEntry
  directory : Tab (Option Nat)
  sum : W32
  damagedFeatures : Tab Bool
  damagedPools : Tab Bool
  damagedSites : Tab Bool
  damagedGlobal : Bool
  deriving DecidableEq, Repr

/-- A bank after power-on (R106, R109, R113; the sum is section 12.3's 0x056E0C40). -/
def Bank.powerOn : Bank :=
  { features := [], pools := [], sites := [], global := .powerOn, directory := [], sum := 0x056E0C40#32,
    damagedFeatures := [], damagedPools := [], damagedSites := [], damagedGlobal := false }

/-- Table Store (R106). -/
structure Tbs where
  bank0 : Bank
  bank1 : Bank
  active : BankId
  differs : Tab Bool
  deriving DecidableEq, Repr

/-! ### Admission Unit -/

/-- A pool live record, less the lists kept by the Grant Table and the Wait Store (R1). -/
structure PoolLive where
  up : Nat
  ug : Nat
  w : Nat
  pressure : Pressure
  entryTime : W32
  deriving DecidableEq, Repr

def PoolLive.zero : PoolLive := ⟨0, 0, 0, .normal, 0⟩

/-- A feature live record (R2). -/
structure FeatLive where
  hf : Nat
  epoch : BitVec 8
  deriving DecidableEq, Repr

def FeatLive.zero : FeatLive := ⟨0, 0⟩

/-- What a run in progress examines next (R58, R62). -/
inductive RunStage where
  /-- the PRIORITY head, at the start of a round -/
  | priority
  /-- the GENERAL head, the PRIORITY head of the round having been found blocked; `cause`: a cause of the run has arisen since -/
  | general (cause : Bool)
  deriving DecidableEq, Repr

/-- A pool service run in progress (R57). `owed` holds the entry times of the entries to CONSTRAINED whose POOL PRESSURE
notice is queued when the run ends (R82 point 4, R84; log entry 9). -/
structure Run where
  pool : Nat
  owed : List W32
  stage : RunStage
  deriving DecidableEq, Repr

/-- Admission Unit: live records and the runs in progress. -/
structure Adm where
  pools : Tab PoolLive
  features : Tab FeatLive
  runs : List Run
  deriving DecidableEq, Repr

/-! ### Grant Table -/

/-- A grant slot (R25), less the links that the owner's chain and the linger list give. -/
structure Slot where
  state : GState
  owner : W32
  tag : W16
  feature : Nat
  epoch : BitVec 8
  pool : Nat
  cls : Cls
  units : Nat
  cost : Nat
  renew : Nat
  start : W32
  deadline : W32
  reason : Option Reason
  generation : W16
  ownerIdx : Nat
  deriving DecidableEq, Repr

def Slot.zero : Slot := ⟨.free, 0, 0, 0, 0, 0, .general, 0, 0, 0, 0, 0, none, 0, 0⟩

/-- Grant Table (R25, R29, R30, R45, R87, R159). -/
structure Grt where
  slots : Tab Slot
  freeFifo : List Nat
  exhausted : Bool
  suspect : Bool
  liveTotal : Nat
  linger : Tab (List Nat)
  deriving DecidableEq, Repr

/-! ### Wait Store -/

/-- A waiter record (R46), less the links that its queue gives. -/
structure Waiter where
  inUse : Bool
  clientIdx : Nat
  client : W32
  tag : W16
  feature : Nat
  epoch : BitVec 8
  pool : Nat
  cls : Cls
  units : Nat
  cost : Nat
  deadline : W32
  deriving DecidableEq, Repr

def Waiter.zero : Waiter := ⟨false, 0, 0, 0, 0, 0, 0, .general, 0, 0, 0⟩

/-- The two queues of a pool, waiter records from the head (R49). -/
structure Queues where
  priority : List Nat
  general : List Nat
  deriving DecidableEq, Repr

def Queues.none : Queues := ⟨[], []⟩

/-- Wait Store (R46, R47). -/
structure Wts where
  waiters : Tab Waiter
  queues : Tab Queues
  np : Nat
  ng : Nat
  deriving DecidableEq, Repr

/-! ### Client Table -/

/-- Reply address of a client entry (R64). -/
structure ReplyAddr where
  mac : W48
  vlan : Option W16
  ip : W32
  udp : W16
  port : Port
  deriving DecidableEq, Repr

def ReplyAddr.zero : ReplyAddr := ⟨0, Option.none, 0, 0, .f⟩

/-- A client entry (R64); `chain` is the owner chain whose head the entry records (R31). -/
structure Client where
  inUse : Bool
  id : W32
  reply : ReplyAddr
  lastSite : Nat
  lastJob : Nat
  rp : Nat
  activity : Bool
  ch : Nat
  grants : Nat
  chain : List Nat
  waiters : Nat
  lastActivity : W32
  deriving DecidableEq, Repr

def Client.zero : Client := ⟨false, 0, .zero, 0, 0, 0, false, 0, 0, [], 0, 0⟩

/-- Client Table: the entries and the idle list, oldest first (R64, R68). -/
structure Clt where
  clients : Tab Client
  idle : List Nat
  deriving DecidableEq, Repr

/-! ### Sweep Unit -/

/-- One sweeper pass: its cursor, and the labels of its rounds that have begun and not ended, the round in progress first
(R98). -/
structure Pass where
  cursor : Nat
  rounds : List W32
  deriving DecidableEq, Repr

def Pass.zero : Pass := ⟨0, []⟩

/-- Sweep Unit (R93, R94, R98). -/
structure Swp where
  mt : W32
  dtOffset : W32
  dtValid : Bool
  grantPass : Pass
  waiterPass : Pass
  poolPass : Pass
  clientPass : Pass
  deriving DecidableEq, Repr

/-! ### Administration Agent -/

/-- The six statistics counters (R160). -/
structure Stats where
  granted : W32
  denied : W32
  deferred : W32
  forwarded : W32
  reclaimed : W32
  dropped : W32
  deriving DecidableEq, Repr

def Stats.zero : Stats := ⟨0, 0, 0, 0, 0, 0⟩

/-- Phase of a reconcile pass or a SCAN REVOKE (R119, R120, R163). -/
inductive Phase where
  | grants
  | waiters
  | pools
  deriving DecidableEq, Repr

/-- The three counts of a reconcile pass or a SCAN REVOKE (R120, R163). -/
structure Counts where
  recalled : Nat
  released : Nat
  removed : Nat
  deriving DecidableEq, Repr

def Counts.zero : Counts := ⟨0, 0, 0⟩

/-- What an AUDIT selects (R162). -/
inductive Selector where
  | owner (id : W32)
  | pool (index : Nat)
  | feature (index : Nat)
  | state (st : GState)
  deriving DecidableEq, Repr

/-- What a SCAN REVOKE names (R163). -/
inductive Target where
  | client (id : W32)
  | feature (index : Nat)
  deriving DecidableEq, Repr

/-- One match of an AUDIT (R162). -/
structure AuditMatch where
  handle : W32
  cost : Nat
  state : GState
  pool : Nat
  deriving DecidableEq, Repr

/-- An AUDIT in flight: selector, next slot, matches so far, last slot visited. -/
structure AuditScan where
  selector : Selector
  cursor : Nat
  found : List AuditMatch
  last : Option Nat
  deriving DecidableEq, Repr

/-- Scan count and rebuilt chain of one client entry (R164). -/
structure ScanClient where
  count : Nat
  chain : List Nat
  deriving DecidableEq, Repr

def ScanClient.zero : ScanClient := ⟨0, []⟩

/-- A COUNT REBUILD in flight: cursor, scan sums, and the figures of its reply (R164 to R166). -/
structure Rebuild where
  cursor : Nat
  prioritySums : Tab Nat
  generalSums : Tab Nat
  unitSums : Tab Nat
  clients : Tab ScanClient
  live : Nat
  badFreed : Nat
  restarts : Nat
  deriving DecidableEq, Repr

def Rebuild.start : Rebuild := ⟨0, [], [], [], [], 0, 0, 0⟩

/-- The long-operation slot (R161). -/
inductive LongOp where
  | idle
  | copy (kind : TableKind) (cursor : Nat)
  | reconcile (phase : Phase) (cursor : Nat) (counts : Counts)
  | rebuild (r : Rebuild)
  | audit (scan : AuditScan)
  | scanRevoke (target : Target) (phase : Phase) (cursor : Nat) (counts : Counts)
  | reset
  deriving DecidableEq, Repr

/-- The issuing station of the long operation in flight (R161). -/
structure Issuer where
  ip : W32
  udp : W16
  mac : W48
  vlan : Option W16
  seq : W16
  station : Nat
  deriving DecidableEq, Repr

def Issuer.none : Issuer := ⟨0, 0, 0, Option.none, 0, 0⟩

/-- Flash write state (R170); `writing` keeps the record the read-back is compared with. -/
inductive FlashWrite where
  | idle
  | writing (record : List Byte)
  | done
  | failed
  deriving DecidableEq, Repr

/-- Administration Agent: intake (R148), service state, long-operation slot and issuer, counters, copy of the boot record,
flash write state, and whether the boot read has begun and not ended (R169). -/
structure Ada where
  intake : List Cand
  service : Service
  op : LongOp
  issuer : Issuer
  stats : Stats
  bootCopy : List Byte
  flash : FlashWrite
  bootReading : Bool
  deriving DecidableEq, Repr

/-! ### Fault and Notice Unit -/

/-- A capture record (R175). -/
structure Capture where
  locked : Bool
  second : Bool
  code : Byte
  index : Nat
  pool : Nat
  client : W32
  mt : W32
  deriving DecidableEq, Repr

def Capture.zero : Capture := ⟨false, false, 0, 0, 0, 0, 0⟩

/-- Store named by a TABLE CAPACITY notice (section 12.2). -/
inductive Store where
  | grantTable
  | clientTable
  | waiterStore
  deriving DecidableEq, Repr

/-- What a notice carries beside its MT and lost indication (R177). -/
inductive NoticeBody where
  | poolPressure (pool : Nat) (state : Pressure) (mt : W32) (f ce up ug w : Nat)
  | grantStale (handle owner : W32) (pool feature : Nat)
  | grantReclaimed (handle owner : W32) (pool feature : Nat)
  | softEvent (c : Capture)
  | hardEvent (c : Capture)
  | tableCapacity (store : Store) (cls : Cls) (pool : Nat) (client : W32)
  | serviceState (old new : Service) (mt : W32)
  deriving DecidableEq, Repr

/-- A queued notice and the MT at which it was queued (R177). -/
structure Notice where
  mt : W32
  body : NoticeBody
  deriving DecidableEq, Repr

/-- Fault and Notice Unit (R175, R177). FAULT_N is a function of the state (R179: `State.faultN`). -/
structure Fnu where
  soft : Capture
  hard : Capture
  notices : List Notice
  lost : Bool
  deriving DecidableEq, Repr

/-! ### The machine -/

/-- The CVG-2416. `pending` is the queue of commands waiting; `resetLow` is the level of RESET_N (low while true); `damage`
lists the memory words whose next read finds an error (R171). -/
structure State where
  pending : List Instr
  resetLow : Bool
  damage : List Hit
  lnk : Lnk
  exu : Exu
  tbs : Tbs
  adm : Adm
  grt : Grt
  wts : Wts
  clt : Clt
  swp : Swp
  ada : Ada
  fnu : Fnu
  deriving DecidableEq, Repr

/-- Why a step stops with a fault. No constructor: the manual gives the part no event that stops it, and an error of its
memories is an effect on its state (chapter 11), so no step of this model faults. -/
inductive Fault where
  deriving DecidableEq, Repr

/-- Why a step is refused. -/
inductive Refusal where
  /-- Raised by an arm of `exec` whose command has no meaning yet (no arm, now): safe, nothing can be proved of the step. -/
  | notModelled (mnemonic : String)
  deriving DecidableEq, Repr

/-- A port after power-on (R142, R149, R152, R153); no module is taken as present until its pin says so (log entry 4). -/
def PortState.powerOn : PortState := ⟨false, false, [], [], .originate, none⟩

/-- The free-slot FIFO after power-on: every slot in index order (R29). -/
def freeFifoFull : List Nat := List.range' 0 Config.slots

/-- The machine right after RESET_N is released: STARTING, the boot read begun, every reset value (R169 and the rule of each
piece of state). -/
def State.reset : State :=
  { pending := []
    resetLow := false
    damage := []
    lnk := { portF := .powerOn, portS := .powerOn, addrs := none, neighbours := [], ident := 0 }
    exu := { intake := [], work := none }
    tbs := { bank0 := .powerOn, bank1 := .powerOn, active := .b0, differs := [] }
    adm := { pools := [], features := [], runs := [] }
    grt := { slots := [], freeFifo := freeFifoFull, exhausted := false, suspect := false, liveTotal := 0, linger := [] }
    wts := { waiters := [], queues := [], np := 0, ng := 0 }
    clt := { clients := [], idle := [] }
    swp := { mt := 0, dtOffset := 0, dtValid := false,
             grantPass := .zero, waiterPass := .zero, poolPass := .zero, clientPass := .zero }
    ada := { intake := [], service := .starting, op := .idle, issuer := .none, stats := .zero,
             bootCopy := [], flash := .idle, bootReading := true }
    fnu := { soft := .zero, hard := .zero, notices := [], lost := false } }

end Sys2Proof.Machine
end

