-- ==== Sys2Proof/Machine/Operands.lean ====
section
/-!
DEFINITION. Machine/Operands.lean: what the commands carry, read from and written to bytes: frames (R145 to R150), CEX datagrams
(R124, R126, section 12.1), administration datagrams (section 12.2), bank entries (section 12.3) and the boot record (section 12.4).
-/
namespace Sys2Proof

def Port.code : Port → Nat
  | .f => 0
  | .s => 1

def TableKind.code : TableKind → Nat
  | .feature => 1
  | .pool => 2
  | .site => 3
  | .global => 4

def TableKind.ofCode : Nat → Option TableKind
  | 1 => some .feature
  | 2 => some .pool
  | 3 => some .site
  | 4 => some .global
  | _ => none

def BankId.code : BankId → Nat
  | .b0 => 0
  | .b1 => 1

/-- The other bank. -/
def BankId.other : BankId → BankId
  | .b0 => .b1
  | .b1 => .b0

/-- Words of an entry of a kind (section 12.3). -/
def TableKind.words : TableKind → Nat
  | .feature => 6
  | .pool => 9
  | .site => 3
  | .global => 4

end Sys2Proof

namespace Sys2Proof.Machine

/-! ### Frames -/

/-- A well-formed UDP datagram in a frame (R145): its addresses, its IPv4 header bytes and its UDP bytes. -/
structure Udp where
  dstMac : W48
  srcMac : W48
  vlan : Option W16
  header : List Byte
  udp : List Byte
  deriving DecidableEq, Repr

def Udp.srcIp (u : Udp) : W32 := be32 u.header 12
def Udp.dstIp (u : Udp) : W32 := be32 u.header 16
def Udp.srcPort (u : Udp) : W16 := be16 u.udp 0
def Udp.dstPort (u : Udp) : W16 := be16 u.udp 2
/-- The UDP payload, of the UDP length less 8 bytes (R145). -/
def Udp.payload (u : Udp) : List Byte := u.udp.drop 8

/-- The IPv4 packet of a frame and its VLAN tag, when its EtherType is IPv4 directly after the source address or after one
VLAN tag (R145). -/
def ipv4Of (b : List Byte) : Option (Option W16 × List Byte) :=
  if b.length < 14 then none
  else if be16 b 12 = 0x0800#16 then some (none, b.drop 14)
  else if be16 b 12 = 0x8100#16 ∧ 18 ≤ b.length ∧ be16 b 16 = 0x0800#16 then some (some (be16 b 14), b.drop 18)
  else none

/-- Reads a frame as a well-formed UDP datagram, none when a condition of R145 fails. -/
def parseUdp (b : List Byte) : Option Udp :=
  match ipv4Of b with
  | none => none
  | some (vlan, ip) =>
    let version := (byteAt ip 0).toNat / 16
    let headLen := 4 * ((byteAt ip 0).toNat % 16)
    let total := (be16 ip 2).toNat
    let udp := (ip.drop headLen).take (total - headLen)
    if version = 4 ∧ 20 ≤ headLen ∧ headLen + 8 ≤ total ∧ total ≤ ip.length
        ∧ (be16 ip 6).toNat % 16384 = 0
        ∧ byteAt ip 9 = 17#8
        ∧ (be16 udp 4).toNat = total - headLen
    then some { dstMac := be48 b 0, srcMac := be48 b 6, vlan := vlan, header := ip.take headLen, udp := udp }
    else none

/-- Both checksums of a candidate hold (R147); a UDP checksum field of 0 was not sent. -/
def Udp.checksumsGood (u : Udp) : Bool :=
  onesSum u.header == 65535 &&
    (be16 u.udp 6 == 0#16 ||
      onesSum (bytes32 u.srcIp ++ bytes32 u.dstIp ++ [0, 17] ++ nat16 u.udp.length ++ u.udp) == 65535)

/-- Classes of a frame (R146). -/
inductive FrameClass where
  | admin (u : Udp)
  | intercept (u : Udp)
  | passThrough
  deriving DecidableEq, Repr

/-- Classifies a frame arriving on port `p` (R146). DESIGN CHOICE (log entry 38): a frame that meets class 2 is an intercept
candidate although its destination MAC address is broadcast, multicast or the part MAC. -/
def classify (a : Addrs) (p : Port) (b : List Byte) : FrameClass :=
  match parseUdp b with
  | none => .passThrough
  | some u =>
    if u.dstMac = a.partMac ∧ u.dstIp = a.mgmtIp ∧ u.dstPort = a.mgmtPort then .admin u
    else if p = .f ∧ u.dstIp = a.serviceIp ∧ u.dstPort = a.servicePort
        ∧ 2 ≤ u.payload.length ∧ be16 u.payload 0 = 0xA51C#16 then .intercept u
    else .passThrough

/-- The candidate handed on, with its frame details (R147). -/
def Udp.candidate (u : Udp) (p : Port) (fr : Frame) : Cand :=
  { frame := fr, port := p, dstMac := u.dstMac, srcMac := u.srcMac, vlan := u.vlan, srcIp := u.srcIp,
    srcPort := u.srcPort, payload := u.payload }

/-- Addressing of a frame the device composes (R150, R151). -/
structure Addressing where
  dstMac : W48
  srcMac : W48
  vlan : Option W16
  srcIp : W32
  srcPort : W16
  dstIp : W32
  dstPort : W16
  deriving DecidableEq, Repr

/-- The 4 bytes of a VLAN tag (R145). -/
def vlanBytes : Option W16 → List Byte
  | some t => [0x81, 0x00] ++ bytes16 t
  | none => []

/-- The IPv4 header of a composed frame with its checksum field given (R150). -/
def ipHeader (a : Addressing) (total : Nat) (ident : W16) (sum : W16) : List Byte :=
  [0x45, 0x00] ++ nat16 total ++ bytes16 ident ++ [0, 0, 64, 17] ++ bytes16 sum ++ bytes32 a.srcIp ++ bytes32 a.dstIp

/-- The UDP datagram of a composed frame with its checksum field given (R150). -/
def udpBytes (a : Addressing) (sum : W16) (payload : List Byte) : List Byte :=
  bytes16 a.srcPort ++ bytes16 a.dstPort ++ nat16 (8 + payload.length) ++ bytes16 sum ++ payload

/-- The UDP checksum of a composed datagram, a computed 0 sent as 0xFFFF (R150). -/
def udpChecksum (a : Addressing) (payload : List Byte) : W16 :=
  let c := checksum (bytes32 a.srcIp ++ bytes32 a.dstIp ++ [0, 17] ++ nat16 (8 + payload.length) ++ udpBytes a 0 payload)
  if c = 0 then 0xFFFF else c

/-- The bytes of a composed frame, padded with zero bytes to the Ethernet minimum (R150). -/
def composeBytes (a : Addressing) (ident : W16) (payload : List Byte) : List Byte :=
  let total := 28 + payload.length
  let b := bytes48 a.dstMac ++ bytes48 a.srcMac ++ vlanBytes a.vlan ++ [0x08, 0x00]
    ++ ipHeader a total ident (checksum (ipHeader a total ident 0)) ++ udpBytes a (udpChecksum a payload) payload
  b ++ List.replicate (Config.minFrame - b.length) 0

/-- A frame the device composes, with a frame check sequence of its own (R142, R150). -/
def composeFrame (a : Addressing) (ident : W16) (payload : List Byte) : Frame :=
  let b := composeBytes a ident payload
  ⟨b, fcsOf b⟩

/-! ### Codes -/

def Cls.code : Cls → Nat
  | .general => 0
  | .priority => 1

def Pressure.code : Pressure → Nat
  | .normal => 0
  | .constrained => 1

def GState.code : GState → Nat
  | .free => 0
  | .held => 1
  | .stale => 2
  | .linger => 3
  | .recalled => 4
  | .bad => 5

/-- The grant state a code names (section 12.2). -/
def GState.ofCode : Nat → Option GState
  | 0 => some .free
  | 1 => some .held
  | 2 => some .stale
  | 3 => some .linger
  | 4 => some .recalled
  | 5 => some .bad
  | _ => none

def Service.code : Service → Nat
  | .starting => 0
  | .on => 1
  | .drain => 2
  | .off => 3
  | .faulted => 4
  | .passOnly => 5

def Reason.code : Reason → Nat
  | .noTokens => 0x01
  | .capReached => 0x02
  | .groupBlocked => 0x03
  | .queueFull => 0x04
  | .queuedAhead => 0x05
  | .tryLater => 0x06
  | .notYet => 0x07
  | .expired => 0x08
  | .disabled => 0x09
  | .waitExpired => 0x0A
  | .withdrawn => 0x0B
  | .clockUnset => 0x0C
  | .notWaiting => 0x0D
  | .revoked => 0x0E
  | .tableChanged => 0x0F
  | .draining => 0x10
  | .clientLimit => 0x11
  | .malformed => 0x12

def RenewStatus.code : RenewStatus → Nat
  | .ok => 1
  | .late => 2
  | .lingering => 3
  | .ended => 4
  | .unknown => 5
  | .notOwner => 6
  | .foreign => 7

def YieldStatus.code : YieldStatus → Nat
  | .released => 1
  | .lingering => 3
  | .ended => 4
  | .unknown => 5
  | .notOwner => 6

def NoticeKind.code : NoticeKind → Nat
  | .poolPressure => 1
  | .grantStale => 2
  | .grantReclaimed => 3
  | .softEvent => 4
  | .hardEvent => 5
  | .tableCapacity => 6
  | .serviceState => 7

def Store.code : Store → Nat
  | .grantTable => 1
  | .clientTable => 2
  | .waiterStore => 3

def Phase.code : Phase → Nat
  | .grants => 1
  | .waiters => 2
  | .pools => 3

def FlashWrite.code : FlashWrite → Nat
  | .idle => 0
  | .writing _ => 1
  | .done => 2
  | .failed => 3

/-- Result codes of administration replies (section 12.2). -/
inductive Result where
  | done
  | busy
  | badIndex
  | badValue
  | duplicateCode
  | sumMismatch
  | refusedState
  | aborted
  deriving DecidableEq, Repr

def Result.code : Result → Nat
  | .done => 0
  | .busy => 1
  | .badIndex => 2
  | .badValue => 3
  | .duplicateCode => 4
  | .sumMismatch => 5
  | .refusedState => 6
  | .aborted => 7

/-! ### Handles (R27) -/

/-- The handle of a slot at a generation: bit 31 is 1, bits 30..15 the generation, bits 14..0 the slot. -/
def handleOf (slot : Nat) (generation : W16) : W32 := 1#1 ++ generation ++ BitVec.ofNat 15 slot

/-- Bit 31 set: the handle is the device's. -/
def handleOurs (h : W32) : Bool := h.getLsbD 31
def handleSlot (h : W32) : Nat := (h.extractLsb' 0 15).toNat
def handleGeneration (h : W32) : W16 := h.extractLsb' 15 16

/-! ### CEX datagrams -/

/-- The five request kinds and every other value (R124, R125). -/
inductive CexKind where
  | claim
  | renew
  | yieldGrant
  | query
  | withdraw
  | other
  deriving DecidableEq, Repr

/-- The kind of a client datagram; `other` when the payload is too short to hold one. -/
def cexKind (p : List Byte) : CexKind :=
  if p.length < 4 then .other
  else if byteAt p 3 = 0x10#8 then .claim
  else if byteAt p 3 = 0x11#8 then .renew
  else if byteAt p 3 = 0x12#8 then .yieldGrant
  else if byteAt p 3 = 0x13#8 then .query
  else if byteAt p 3 = 0x14#8 then .withdraw
  else .other

/-- Client ID as received, 0 where its bytes are absent (R127). DESIGN CHOICE (log entry 37): 0 too where only part of them is there. -/
def cexClient (p : List Byte) : W32 := if 8 ≤ p.length then be32 p 4 else 0
/-- Tag as received, 0 where its bytes are absent (R127). DESIGN CHOICE (log entry 37): 0 too where only its first byte is there. -/
def cexTag (p : List Byte) : W16 := if 10 ≤ p.length then be16 p 8 else 0
/-- Kind byte as received, 0 when the payload is too short to hold one (R127). -/
def cexKindByte (p : List Byte) : Byte := if 4 ≤ p.length then byteAt p 3 else 0

/-- The body-length check of R126: the field equals `n` and the payload is 12 bytes plus it. -/
def cexBodyIs (p : List Byte) (n : Nat) : Bool := (be16 p 10).toNat == n && p.length == 12 + n

/-- R126: the datagram is well formed. -/
def cexWellFormed (p : List Byte) : Bool :=
  decide (12 ≤ p.length) && byteAt p 2 == 3#8 && be32 p 4 != 0#32 &&
    match cexKind p with
    | .claim => cexBodyIs p 10 && byteAt p 18 != 0#8 && decide ((byteAt p 17).toNat ≤ 7)
    | .renew =>
      let count := (byteAt p 12).toNat
      decide (13 ≤ p.length) && decide (1 ≤ count ∧ count ≤ 16) && cexBodyIs p (1 + 4 * count)
    | .yieldGrant => cexBodyIs p 4
    | .query => cexBodyIs p 6 && decide ((byteAt p 17).toNat ≤ 7)
    | .withdraw => cexBodyIs p 0
    | .other => false

/-- The body of a CLAIM (R128, section 12.1). -/
structure ClaimReq where
  client : W32
  tag : W16
  code : W32
  site : Nat
  job : Nat
  units : Nat
  wait : Bool
  waitLimit : Nat
  deriving DecidableEq, Repr

def readClaim (p : List Byte) : ClaimReq :=
  { client := be32 p 4, tag := be16 p 8, code := be32 p 12, site := (byteAt p 16).toNat, job := (byteAt p 17).toNat,
    units := (byteAt p 18).toNat, wait := (byteAt p 19).getLsbD 0, waitLimit := (be16 p 20).toNat }

/-- `n` handles from offset `i` (R129). -/
def readHandles (p : List Byte) : Nat → Nat → List W32
  | 0, _ => []
  | n + 1, i => be32 p i :: readHandles p n (i + 4)

/-- The handles of a RENEW (R129). -/
def renewHandles (p : List Byte) : List W32 := readHandles p (byteAt p 12).toNat 13

/-- What the device sends to clients (R133 to R137). -/
inductive CexMsg where
  | grant (handle : W32) (cost units : Nat) (cls : Cls) (renew : Nat) (code : W32)
  | deny (reason : Reason) (code : W32)
  | denyMalformed (kind : Byte)
  | wait (position seconds : Nat) (code : W32)
  | deferPace (retry : Nat)
  | deferRebuild (retry : Nat)
  | renewReport (statuses : List RenewStatus)
  | yieldReport (handle : W32) (status : YieldStatus)
  | queryReport (code : W32) (pool : Nat) (cls : Cls) (pressure : Pressure) (availability weight hf cap queue : Nat)
  | recall (handle : W32) (reason : Reason)
  deriving DecidableEq, Repr

/-- Kind byte of a reply (R124). -/
def CexMsg.kind : CexMsg → Byte
  | .grant .. => 0x20
  | .deny .. => 0x21
  | .denyMalformed .. => 0x21
  | .wait .. => 0x22
  | .deferPace .. => 0x23
  | .deferRebuild .. => 0x23
  | .renewReport .. => 0x24
  | .yieldReport .. => 0x25
  | .queryReport .. => 0x26
  | .recall .. => 0x27

/-- Body of a reply (section 12.1, R181). -/
def CexMsg.body : CexMsg → List Byte
  | .grant h cost units cls renew code =>
    bytes32 h ++ nat16 cost ++ nat8 units ++ nat8 cls.code ++ nat16 renew ++ bytes32 code
  | .deny r code => nat8 r.code ++ [0, 0, 0] ++ bytes32 code
  | .denyMalformed k => nat8 Reason.malformed.code ++ [0, 0, 0] ++ [0, 0, 0, k]
  | .wait pos secs code => nat16 pos ++ nat16 secs ++ bytes32 code
  | .deferPace retry => [1, 0] ++ nat16 retry
  | .deferRebuild retry => [2, 0] ++ nat16 retry
  | .renewReport sts => nat8 sts.length ++ (sts.map fun st => nat8 st.code).flatten
  | .yieldReport h st => bytes32 h ++ nat8 st.code
  | .queryReport code pool cls pr avail weight hf cap queue =>
    bytes32 code ++ nat16 pool ++ nat8 cls.code ++ nat8 pr.code ++ nat32 avail ++ nat16 weight ++ nat32 hf ++ nat16 cap
      ++ nat16 queue
  | .recall h r => bytes32 h ++ nat8 r.code

/-- A CEX datagram of the device (R124, R181). -/
def cexDatagram (client : W32) (tag : W16) (m : CexMsg) : List Byte :=
  [0xA5, 0x1C, 3, m.kind] ++ bytes32 client ++ bytes16 tag ++ nat16 m.body.length ++ m.body

/-! ### Administration datagrams -/

/-- The commands of section 10.2 (READ STATUS 0x01 to SERVICE RESET 0x15). -/
inductive AdminCode where
  | readStatus
  | readEntry
  | readPool
  | readFeatureLive
  | readGrant
  | readWaiter
  | readClient
  | writeEntry
  | setTime
  | setWithhold
  | setService
  | revokeHandle
  | clearCapture
  | writeBootRecord
  | copyBank
  | swapBank
  | audit
  | scanRevoke
  | countRebuild
  | serviceReset
  deriving DecidableEq, Repr

def AdminCode.code : AdminCode → Nat
  | .readStatus => 0x01
  | .readEntry => 0x02
  | .readPool => 0x03
  | .readFeatureLive => 0x04
  | .readGrant => 0x05
  | .readWaiter => 0x06
  | .readClient => 0x07
  | .writeEntry => 0x08
  | .setTime => 0x09
  | .setWithhold => 0x0A
  | .setService => 0x0B
  | .revokeHandle => 0x0C
  | .clearCapture => 0x0D
  | .writeBootRecord => 0x0E
  | .copyBank => 0x10
  | .swapBank => 0x11
  | .audit => 0x12
  | .scanRevoke => 0x13
  | .countRebuild => 0x14
  | .serviceReset => 0x15

/-- The command a code byte names (section 12.2). -/
def AdminCode.ofByte (b : Byte) : Option AdminCode :=
  [AdminCode.readStatus, .readEntry, .readPool, .readFeatureLive, .readGrant, .readWaiter, .readClient, .writeEntry, .setTime,
    .setWithhold, .setService, .revokeHandle, .clearCapture, .writeBootRecord, .copyBank, .swapBank, .audit, .scanRevoke,
    .countRebuild, .serviceReset].find? fun c => c.code == b.toNat

/-- Size of a command's body in bytes, given the body; a WRITE ENTRY of an unknown kind or a bad count has no size to compare
here and is answered by its argument checks (R182; log entry 20). -/
def AdminCode.bodySizeGood (c : AdminCode) (body : List Byte) : Bool :=
  match c with
  | .readStatus => body.length == 1
  | .readEntry => body.length == 8
  | .readPool => body.length == 4
  | .readFeatureLive => body.length == 4
  | .readGrant => body.length == 4
  | .readWaiter => body.length == 4
  | .readClient => body.length == 4
  | .writeEntry =>
    decide (4 ≤ body.length) &&
      match TableKind.ofCode (byteAt body 0).toNat with
      | none => true
      | some k => body.length == 4 + (byteAt body 1).toNat * (4 + 4 * k.words)
  | .setTime => body.length == 4
  | .setWithhold => body.length == 8
  | .setService => body.length == 1
  | .revokeHandle => body.length == 4
  | .clearCapture => body.length == 1
  | .writeBootRecord => body.length == Config.bootBytes
  | .copyBank => body.length == 0
  | .swapBank => body.length == 4
  | .audit => body.length == 8
  | .scanRevoke => body.length == 8
  | .countRebuild => body.length == 0
  | .serviceReset => body.length == 0

/-- R155 check 2: a whole header, the mark, the version, and the kind command. -/
def adminHeaderGood (p : List Byte) : Bool :=
  decide (10 ≤ p.length) && be16 p 0 == 0xA51D#16 && byteAt p 2 == 3#8 && byteAt p 3 == 0x40#8

def adminCode (p : List Byte) : Option AdminCode := AdminCode.ofByte (byteAt p 4)
def adminSeq (p : List Byte) : W16 := be16 p 6
def adminBody (p : List Byte) : List Byte := p.drop 10

/-- R155 check 3, second half: the body length equals the size of the command's body and the rest of the payload. -/
def adminLengthGood (c : AdminCode) (p : List Byte) : Bool :=
  (be16 p 8).toNat == (adminBody p).length && c.bodySizeGood (adminBody p)

/-- A reply datagram of the Administration Agent; `code` is the command code echoed (section 12.2). -/
def adminReplyDatagram (code : Byte) (r : Result) (seq : W16) (body : List Byte) : List Byte :=
  [0xA5, 0x1D, 3, 0x41, code] ++ nat8 r.code ++ bytes16 seq ++ nat16 body.length ++ body

/-! ### Notices -/

def NoticeBody.kind : NoticeBody → NoticeKind
  | .poolPressure .. => .poolPressure
  | .grantStale .. => .grantStale
  | .grantReclaimed .. => .grantReclaimed
  | .softEvent .. => .softEvent
  | .hardEvent .. => .hardEvent
  | .tableCapacity .. => .tableCapacity
  | .serviceState .. => .serviceState

/-- The fields of a captured event in a notice (R177). -/
def Capture.fields (c : Capture) : List Byte :=
  [c.code] ++ nat16 c.index ++ nat16 c.pool ++ bytes32 c.client ++ bytes32 c.mt

/-- The fields of a notice's kind, in the order of R177. -/
def NoticeBody.fields : NoticeBody → List Byte
  | .poolPressure pool st mt f ce up ug w =>
    nat16 pool ++ nat8 st.code ++ bytes32 mt ++ nat32 f ++ nat32 ce ++ nat32 up ++ nat32 ug ++ nat32 w
  | .grantStale h owner pool feature => bytes32 h ++ bytes32 owner ++ nat16 pool ++ nat16 feature
  | .grantReclaimed h owner pool feature => bytes32 h ++ bytes32 owner ++ nat16 pool ++ nat16 feature
  | .softEvent c => c.fields
  | .hardEvent c => c.fields
  | .tableCapacity store cls pool client => nat8 store.code ++ nat8 cls.code ++ nat16 pool ++ bytes32 client
  | .serviceState old new mt => nat8 old.code ++ nat8 new.code ++ bytes32 mt

/-- A notice datagram: MT, lost indication, 3 spare bytes, the fields of its kind (section 12.2). -/
def noticeDatagram (n : Notice) (lost : Bool) : List Byte :=
  let body := bytes32 n.mt ++ flag8 lost ++ [0, 0, 0] ++ n.body.fields
  [0xA5, 0x1D, 3, 0x42] ++ nat8 n.body.kind.code ++ [0, 0, 0] ++ nat16 body.length ++ body

/-! ### Bank entries (section 12.3) -/

def natBits (w : W32) (low width : Nat) : Nat := (w.extractLsb' low width).toNat

/-- Words of a feature entry. -/
def FeatureEntry.words (e : FeatureEntry) : List W32 :=
  [e.code, BitVec.ofNat 16 e.pool ++ BitVec.ofNat 16 e.weight, BitVec.ofNat 16 e.cap ++ e.groupMask, e.windowStart,
    e.windowEnd, BitVec.ofNat 32 ((if e.linger then 2 else 0) + (if e.waiting then 1 else 0))]

/-- Words of a pool entry. -/
def PoolEntry.words (e : PoolEntry) : List W32 :=
  [BitVec.ofNat 32 (if e.defined then 1 else 0), BitVec.ofNat 32 e.capacity, BitVec.ofNat 32 e.rp, BitVec.ofNat 32 e.rg,
    BitVec.ofNat 32 e.lm, BitVec.ofNat 32 e.hm, BitVec.ofNat 16 e.mr ++ BitVec.ofNat 16 e.lt,
    BitVec.ofNat 16 e.ri ++ BitVec.ofNat 16 e.sg, BitVec.ofNat 16 e.mw ++ BitVec.ofNat 16 e.mwt]

/-- The byte of a class-map slot. -/
def ClassSlot.byte (c : ClassSlot) : Byte :=
  BitVec.ofNat 8 (c.cls.code + (if c.paceExempt then 2 else 0) + (if c.churnExempt then 4 else 0))

/-- The class-map slot a byte holds in bits 2..0. -/
def ClassSlot.ofByte (b : Byte) : ClassSlot :=
  ⟨if b.getLsbD 0 then .priority else .general, b.getLsbD 1, b.getLsbD 2⟩

/-- The class-map slot of a job class as stored (R109). -/
def SiteEntry.slot (e : SiteEntry) (job : Nat) : ClassSlot := e.slots.getD job ClassSlot.zero

/-- Words of a site entry. -/
def SiteEntry.words (e : SiteEntry) : List W32 :=
  let b := fun j => (e.slot j).byte
  [BitVec.ofNat 8 (if e.defined then 1 else 0) ++ BitVec.ofNat 8 e.group ++ (0 : W16),
    b 0 ++ b 1 ++ b 2 ++ b 3, b 4 ++ b 5 ++ b 6 ++ b 7]

/-- Words of a global entry. -/
def GlobalEntry.words (e : GlobalEntry) : List W32 :=
  [BitVec.ofNat 8 e.bi ++ BitVec.ofNat 8 e.pmax ++ BitVec.ofNat 8 e.pt ++ BitVec.ofNat 8 e.cmax,
    BitVec.ofNat 16 e.di ++ BitVec.ofNat 16 e.mh, BitVec.ofNat 16 e.mp ++ BitVec.ofNat 16 e.mg,
    BitVec.ofNat 16 e.grantLimit ++ (0 : W16)]

def Entry.words : Entry → List W32
  | .feature e => e.words
  | .pool e => e.words
  | .site e => e.words
  | .global e => e.words

/-- Words of an entry, added modulo 2^32 (R113). -/
def Entry.sum (e : Entry) : W32 := e.words.foldl (· + ·) 0

def wordAt (ws : List W32) (i : Nat) : W32 := ws.getD i 0

/-- Ranges of a feature entry (R107). -/
def FeatureEntry.inRange (e : FeatureEntry) : Bool := decide (e.pool ≤ 1023 ∧ e.weight ≤ 4095 ∧ e.cap ≤ 65535)

/-- Ranges and relations of a defined pool entry (R108). -/
def PoolEntry.inRange (e : PoolEntry) : Bool :=
  decide (e.rp + e.rg ≤ e.capacity ∧ e.capacity ≤ Config.maxTokens ∧ e.lm ≤ e.hm ∧ e.hm ≤ Config.maxTokens
    ∧ 10 ≤ e.ri ∧ e.ri ≤ 3600 ∧ e.mw ≤ 4095 ∧ e.mr ≤ 65535 ∧ e.lt ≤ 65535 ∧ e.sg ≤ 65535 ∧ e.mwt ≤ 65535)

/-- Ranges and relations of a global entry (R109). -/
def GlobalEntry.inRange (e : GlobalEntry) : Bool :=
  decide (1 ≤ e.bi ∧ e.bi ≤ 60 ∧ 1 ≤ e.di ∧ e.di ≤ 600 ∧ 1 ≤ e.pmax ∧ e.pmax ≤ 63 ∧ e.pt ≤ 63 ∧ 1 ≤ e.cmax ∧ e.cmax ≤ 63
    ∧ e.mh ≤ 3600 ∧ e.mp + e.mg ≤ 4096 ∧ 1 ≤ e.grantLimit ∧ e.grantLimit ≤ 1024)

/-- Reads a feature entry; code 0 makes it empty (R107, R183). -/
def readFeatureEntry (ws : List W32) : Option FeatureEntry :=
  if wordAt ws 0 = 0 then some .empty
  else
    let e : FeatureEntry :=
      { code := wordAt ws 0, pool := natBits (wordAt ws 1) 16 16, weight := natBits (wordAt ws 1) 0 16,
        cap := natBits (wordAt ws 2) 16 16, groupMask := (wordAt ws 2).extractLsb' 0 16, windowStart := wordAt ws 3,
        windowEnd := wordAt ws 4, waiting := (wordAt ws 5).getLsbD 0, linger := (wordAt ws 5).getLsbD 1 }
    if e.inRange ∧ natBits (wordAt ws 5) 2 30 = 0 then some e else none

/-- Reads a pool entry; DEFINED 0 makes it undefined (R108, R183). -/
def readPoolEntry (ws : List W32) : Option PoolEntry :=
  if ¬ (wordAt ws 0).getLsbD 0 then some .undefined
  else
    let e : PoolEntry :=
      { defined := true, capacity := (wordAt ws 1).toNat, rp := (wordAt ws 2).toNat, rg := (wordAt ws 3).toNat,
        lm := (wordAt ws 4).toNat, hm := (wordAt ws 5).toNat, mr := natBits (wordAt ws 6) 16 16,
        lt := natBits (wordAt ws 6) 0 16, ri := natBits (wordAt ws 7) 16 16, sg := natBits (wordAt ws 7) 0 16,
        mw := natBits (wordAt ws 8) 16 16, mwt := natBits (wordAt ws 8) 0 16 }
    if e.inRange ∧ natBits (wordAt ws 0) 1 31 = 0 then some e else none

/-- The four bytes of a word, high byte first. -/
def wordBytes (w : W32) : List Byte := bytes32 w

/-- Reads a site entry; DEFINED 0 makes it undefined (R109, R183). -/
def readSiteEntry (ws : List W32) : Option SiteEntry :=
  let slotBytes := wordBytes (wordAt ws 1) ++ wordBytes (wordAt ws 2)
  if natBits (wordAt ws 0) 24 8 = 0 then some .undefined
  else if natBits (wordAt ws 0) 24 8 = 1 ∧ natBits (wordAt ws 0) 16 8 ≤ 15 ∧ natBits (wordAt ws 0) 0 16 = 0
      ∧ slotBytes.all (fun b => decide (b.toNat < 8)) then
    some { defined := true, group := natBits (wordAt ws 0) 16 8, slots := slotBytes.map ClassSlot.ofByte }
  else none

/-- Reads a global entry (R109, R183). -/
def readGlobalEntry (ws : List W32) : Option GlobalEntry :=
  let e : GlobalEntry :=
    { bi := natBits (wordAt ws 0) 24 8, pmax := natBits (wordAt ws 0) 16 8, pt := natBits (wordAt ws 0) 8 8,
      cmax := natBits (wordAt ws 0) 0 8, di := natBits (wordAt ws 1) 16 16, mh := natBits (wordAt ws 1) 0 16,
      mp := natBits (wordAt ws 2) 16 16, mg := natBits (wordAt ws 2) 0 16, grantLimit := natBits (wordAt ws 3) 16 16 }
  if e.inRange ∧ natBits (wordAt ws 3) 0 16 = 0 then some e else none

/-- Reads an entry in the layout form of its kind; none when a field or a spare bit fails its range check (R111, R183). -/
def readEntryWords (k : TableKind) (ws : List W32) : Option Entry :=
  match k with
  | .feature => (readFeatureEntry ws).map .feature
  | .pool => (readPoolEntry ws).map .pool
  | .site => (readSiteEntry ws).map .site
  | .global => (readGlobalEntry ws).map .global

/-! ### The boot record (section 12.4) -/

def readStation (b : List Byte) (i : Nat) : Station :=
  { ip := be32 b (20 + 8 * i), udp := be16 b (24 + 8 * i), port := if byteAt b (26 + 8 * i) = 0 then .f else .s }

/-- R184: the record is valid. -/
def bootValid (b : List Byte) : Bool :=
  b.length == Config.bootBytes && !(b.all (fun x => x == 0xFF#8)) &&
    (words16 b).foldl (· + ·) 0 % 65536 == 0 &&
    (let n := (byteAt b 18).toNat
     decide (1 ≤ n ∧ n ≤ 4) && (List.range n).all (fun i => decide ((byteAt b (26 + 8 * i)).toNat ≤ 1)))

/-- The addresses a valid boot record gives (R143, R169). -/
def bootAddrs (b : List Byte) : Addrs :=
  { partMac := be48 b 0, mgmtIp := be32 b 6, mgmtPort := be16 b 10, serviceIp := be32 b 12, servicePort := be16 b 16,
    stations := (List.range (byteAt b 18).toNat).map (readStation b) }

end Sys2Proof.Machine
end

