-- ==== Sys2Proof/Machine/Flags.lean ====
section
/-!
DEFINITION. Machine/Flags.lean: the flags and outputs that events raise: statistics counters (R160), captures (R175, R176), the
notice queue and its lost flag (R177, R178), SUSPECT (R45), the service state with its notice (R159) and FAULT_N (R179).
-/
namespace Sys2Proof.Machine

/-! ### Statistics counters: 32-bit, wrapping (R160) -/

def State.countGranted (s : State) : State := { s with ada.stats.granted := s.ada.stats.granted + 1 }
def State.countDenied (s : State) : State := { s with ada.stats.denied := s.ada.stats.denied + 1 }
def State.countDeferred (s : State) : State := { s with ada.stats.deferred := s.ada.stats.deferred + 1 }
def State.countForwarded (s : State) : State := { s with ada.stats.forwarded := s.ada.stats.forwarded + 1 }
def State.countReclaimed (s : State) : State := { s with ada.stats.reclaimed := s.ada.stats.reclaimed + 1 }
def State.countDropped (s : State) : State := { s with ada.stats.dropped := s.ada.stats.dropped + 1 }

/-! ### Captures and notices -/

/-- An event given to a capture: code, index, pool and client ID (R175). -/
structure Event where
  code : Byte
  index : Nat
  pool : Nat
  client : W32
  deriving DecidableEq, Repr

/-- An unlocked record stores the event with the current MT and locks; a locked one sets its second-error flag (R175). -/
def Capture.give (c : Capture) (e : Event) (mt : W32) : Capture :=
  if c.locked then { c with second := true }
  else { c with locked := true, code := e.code, index := e.index, pool := e.pool, client := e.client, mt := mt }

/-- The notice queue holds 32 (R177). -/
def State.noticeQueueFull (s : State) : Bool := decide (Config.noticeQueue ≤ s.fnu.notices.length)

/-- A notice joins the tail of the queue, which has room, with the MT at which it is queued (R177). -/
def State.appendNotice (b : NoticeBody) (s : State) : State :=
  { s with fnu.notices := s.fnu.notices ++ [⟨s.swp.mt, b⟩] }

/-- A notice is lost (R178): the lost flag sets and the soft capture is given code 0x0B with the notice's kind. When that
locks the capture, its SOFT EVENT notice is queued, or is itself lost and sets the second-error flag. -/
def State.noticeLost (k : NoticeKind) (s : State) : State :=
  let soft := s.fnu.soft.give ⟨0x0B, k.code, 0, 0⟩ s.swp.mt
  let s1 := { s with fnu.lost := true, fnu.soft := soft }
  if s.fnu.soft.locked then s1
  else if s1.noticeQueueFull then { s1 with fnu.soft.second := true }
  else s1.appendNotice (.softEvent soft)

/-- A notice joins the queue, or is lost at a full one (R177, R178). -/
def State.queueNotice (b : NoticeBody) (s : State) : State :=
  if s.noticeQueueFull then s.noticeLost b.kind else s.appendNotice b

/-- An event of soft severity (R175). -/
def State.softEvent (e : Event) (s : State) : State :=
  let soft := s.fnu.soft.give e s.swp.mt
  let s1 := { s with fnu.soft := soft }
  if s.fnu.soft.locked then s1 else s1.queueNotice (.softEvent soft)

/-- An event of hard severity (R175). -/
def State.hardEvent (e : Event) (s : State) : State :=
  let hard := s.fnu.hard.give e s.swp.mt
  let s1 := { s with fnu.hard := hard }
  if s.fnu.hard.locked then s1 else s1.queueNotice (.hardEvent hard)

/-- SUSPECT sets (R45). -/
def State.setSuspect (s : State) : State := { s with grt.suspect := true }

/-- A change of service state, with its SERVICE STATE notice (R159, R168, R169, R173). -/
def State.enterService (new : Service) (s : State) : State :=
  ({ s with ada.service := new }).queueNotice (.serviceState s.ada.service new s.swp.mt)

/-- FAULT_N is driven low (R179); while RESET_N is low it is released. -/
def State.faultN (s : State) : Bool :=
  !s.resetLow && (s.fnu.hard.locked || s.ada.service == .faulted || s.ada.service == .passOnly)

/-- The service states in which frames are classified and administration is served (R144, R155). -/
def Service.serving : Service → Bool
  | .on => true
  | .drain => true
  | .off => true
  | .faulted => true
  | .starting => false
  | .passOnly => false

end Sys2Proof.Machine
end

