-- ==== Sys2Proof/Machine/Ops.lean ====
section
/-!
DEFINITION. Machine/Ops.lean: the operations the commands share. First the views of the stores and the pure effects on them,
then the checked reads (R171) and the operations built on them. An operation makes its checked reads first and its writes after,
so that an operation ended by a lost word (R173 point 1) has made no write of its own (log entry 8).
-/
namespace Sys2Proof.Machine

/-! ### Views of the stores -/

def State.slot (s : State) (i : Nat) : Slot := Tab.get Slot.zero s.grt.slots i
def State.setSlot (i : Nat) (g : Slot) (s : State) : State :=
  { s with grt.slots := Tab.put Slot.zero s.grt.slots i g }

def State.lingerList (s : State) (p : Nat) : List Nat := Tab.get [] s.grt.linger p
def State.setLinger (p : Nat) (l : List Nat) (s : State) : State :=
  { s with grt.linger := Tab.put [] s.grt.linger p l }

def State.poolLive (s : State) (p : Nat) : PoolLive := Tab.get PoolLive.zero s.adm.pools p
def State.setPoolLive (p : Nat) (l : PoolLive) (s : State) : State :=
  { s with adm.pools := Tab.put PoolLive.zero s.adm.pools p l }

def State.featLive (s : State) (i : Nat) : FeatLive := Tab.get FeatLive.zero s.adm.features i
def State.setFeatLive (i : Nat) (l : FeatLive) (s : State) : State :=
  { s with adm.features := Tab.put FeatLive.zero s.adm.features i l }

def State.waiter (s : State) (i : Nat) : Waiter := Tab.get Waiter.zero s.wts.waiters i
def State.setWaiter (i : Nat) (w : Waiter) (s : State) : State :=
  { s with wts.waiters := Tab.put Waiter.zero s.wts.waiters i w }

def Queues.of (q : Queues) : Cls → List Nat
  | .priority => q.priority
  | .general => q.general

def Queues.with (q : Queues) (c : Cls) (l : List Nat) : Queues :=
  match c with
  | .priority => { q with priority := l }
  | .general => { q with general := l }

def State.queues (s : State) (p : Nat) : Queues := Tab.get Queues.none s.wts.queues p
/-- The waiters of a pool and class, head first (R49). -/
def State.queue (s : State) (p : Nat) (c : Cls) : List Nat := (s.queues p).of c
def State.setQueue (p : Nat) (c : Cls) (l : List Nat) (s : State) : State :=
  { s with wts.queues := Tab.put Queues.none s.wts.queues p ((s.queues p).with c l) }

def State.client (s : State) (i : Nat) : Client := Tab.get Client.zero s.clt.clients i
def State.setClient (i : Nat) (c : Client) (s : State) : State :=
  { s with clt.clients := Tab.put Client.zero s.clt.clients i c }

/-- The entry in use that carries a client ID (R64: at most one). -/
def State.findClient (s : State) (id : W32) : Option Nat :=
  (Tab.search (fun c => c.inUse && c.id == id) s.clt.clients).map (·.1)

def State.port (s : State) : Port → PortState
  | .f => s.lnk.portF
  | .s => s.lnk.portS

def State.setPort (p : Port) (ps : PortState) (s : State) : State :=
  match p with
  | .f => { s with lnk.portF := ps }
  | .s => { s with lnk.portS := ps }

/-! ### Banks -/

def Bank.entry (b : Bank) (k : TableKind) (i : Nat) : Entry :=
  match k with
  | .feature => .feature (Tab.get .empty b.features i)
  | .pool => .pool (Tab.get .undefined b.pools i)
  | .site => .site (Tab.get .undefined b.sites i)
  | .global => .global b.global

/-- Stores the content of an entry. -/
def Bank.store (b : Bank) (i : Nat) : Entry → Bank
  | .feature e => { b with features := Tab.put .empty b.features i e }
  | .pool e => { b with pools := Tab.put .undefined b.pools i e }
  | .site e => { b with sites := Tab.put .undefined b.sites i e }
  | .global e => { b with global := e }

def Bank.damaged (b : Bank) (k : TableKind) (i : Nat) : Bool :=
  match k with
  | .feature => Tab.get false b.damagedFeatures i
  | .pool => Tab.get false b.damagedPools i
  | .site => Tab.get false b.damagedSites i
  | .global => b.damagedGlobal

def Bank.mark (b : Bank) (k : TableKind) (i : Nat) (d : Bool) : Bank :=
  match k with
  | .feature => { b with damagedFeatures := Tab.put false b.damagedFeatures i d }
  | .pool => { b with damagedPools := Tab.put false b.damagedPools i d }
  | .site => { b with damagedSites := Tab.put false b.damagedSites i d }
  | .global => { b with damagedGlobal := d }

/-- The entry of a kind whose words are all 0. -/
def Entry.zero : TableKind → Entry
  | .feature => .feature .empty
  | .pool => .pool .undefined
  | .site => .site .undefined
  | .global => .global .zero

/-- The code of a feature entry; 0 for the other kinds. -/
def Entry.featureCode : Entry → W32
  | .feature e => e.code
  | _ => 0

/-- The index the code directory gives for a code; code 0 is never present (R180). -/
def Bank.lookup (b : Bank) (code : W32) : Option Nat :=
  if code = 0 then none else Tab.get none b.directory code.toNat

/-- The directory drops every code it gives index `i` for, and takes the new code when it is not 0 (R112). DESIGN CHOICE (log entry
40): dropping a code does not mend an error struck in its directory word and not yet found. -/
def Bank.redirect (b : Bank) (i : Nat) (code : W32) : Bank :=
  let kept := b.directory.filter (fun kv => decide (kv.2 ≠ some i))
  { b with directory := if code = 0 then kept else Tab.put none kept code.toNat (some i) }

/-- Replaces an entry: the old words leave the sum unless they cannot be read, the new words enter it, the entry is stored,
its damaged mark clears, and for a feature entry the directory follows (R112, R113, R115). -/
def Bank.write (b : Bank) (k : TableKind) (i : Nat) (e : Entry) : Bank :=
  let sum := (if b.damaged k i then b.sum else b.sum - (b.entry k i).sum) + e.sum
  let b1 := { (b.store i e).mark k i false with sum := sum }
  if k = .feature then b1.redirect i e.featureCode else b1

def State.bank (s : State) : BankId → Bank
  | .b0 => s.tbs.bank0
  | .b1 => s.tbs.bank1

def State.setBank (id : BankId) (b : Bank) (s : State) : State :=
  match id with
  | .b0 => { s with tbs.bank0 := b }
  | .b1 => { s with tbs.bank1 := b }

def State.activeBank (s : State) : Bank := s.bank s.tbs.active
def State.standby (s : State) : BankId := s.tbs.active.other
def State.standbyBank (s : State) : Bank := s.bank s.standby

/-- The active feature entry at an index, none when damaged (R122). -/
def State.featureEntry (s : State) (i : Nat) : Option FeatureEntry :=
  if Tab.get false s.activeBank.damagedFeatures i then none else some (Tab.get .empty s.activeBank.features i)

/-- The active pool entry at an index, none when undefined or damaged (R122: a damaged one is taken as undefined). -/
def State.poolEntry (s : State) (p : Nat) : Option PoolEntry :=
  let e := Tab.get .undefined s.activeBank.pools p
  if Tab.get false s.activeBank.damagedPools p || !e.defined then none else some e

/-- The active site entry at an index, none when undefined or damaged. -/
def State.siteEntry (s : State) (i : Nat) : Option SiteEntry :=
  let e := Tab.get .undefined s.activeBank.sites i
  if Tab.get false s.activeBank.damagedSites i || !e.defined then none else some e

/-- The active global entry; a damaged one reads as after power-on (R122). -/
def State.globalEntry (s : State) : GlobalEntry :=
  if s.activeBank.damagedGlobal then .powerOn else s.activeBank.global

/-- The code loaded in the active bank at a feature index, 0 when empty or lost (R33). -/
def State.loadedCode (s : State) (i : Nat) : W32 :=
  match s.featureEntry i with
  | some e => e.code
  | none => 0

/-- The pool a feature index maps to in the active bank (R41, R43). DESIGN CHOICE (log entry 44): a damaged entry, for which R122 names no
such reader, and an empty one map to none. -/
def State.mappedPool (s : State) (i : Nat) : Option Nat :=
  match s.featureEntry i with
  | some e => if e.code = 0 then none else some e.pool
  | none => none

/-! ### Time (R93 to R96) -/

/-- A deadline has passed: it less the current MT, read as a signed 32-bit number, is 0 or less (R95). -/
def State.passed (s : State) (deadline : W32) : Bool := decide ((deadline - s.swp.mt).toInt ≤ 0)

/-- The seconds until a deadline, 0 when it has passed (R50, R95). -/
def State.secondsUntil (s : State) (deadline : W32) : Nat :=
  if s.passed deadline then 0 else (deadline - s.swp.mt).toNat

/-- The current MT plus a number of seconds, modulo 2^32 (R95). -/
def State.deadlineIn (s : State) (seconds : Nat) : W32 := s.swp.mt + BitVec.ofNat 32 seconds

/-- The seconds since an MT value, modulo 2^32 (R76, R80). -/
def State.secondsSince (s : State) (t : W32) : Nat := (s.swp.mt - t).toNat

/-- DT is MT plus the offset (R94). -/
def State.dt (s : State) : W32 := s.swp.mt + s.swp.dtOffset

/-- A feature entry is in window at a DT (R96). -/
def FeatureEntry.inWindow (e : FeatureEntry) (dt : W32) : Bool :=
  (e.windowStart == 0 || decide (e.windowStart ≤ dt)) && (e.windowEnd == 0 || decide (dt < e.windowEnd))

/-- The window test of every point but the claim: out of window only while DT is valid (R96). -/
def State.outOfWindow (s : State) (e : FeatureEntry) : Bool := s.swp.dtValid && !e.inWindow s.dt

/-! ### Token arithmetic (R4 to R9) -/

/-- The cost of `u` units at weight `w` sixteenths, rounded up to whole tokens (R4). -/
def costOf (u w : Nat) : Nat := (u * w + 15) / 16

/-- Effective capacity (R5): C less W, 0 for an undefined entry or W at or above C. -/
def State.ce (s : State) (p : Nat) : Nat :=
  match s.poolEntry p with
  | some e => e.capacity - (s.poolLive p).w
  | none => 0

/-- Availability of a class, saturated at 0 (R6). -/
def State.availability (s : State) (p : Nat) (c : Cls) : Nat :=
  match s.poolEntry p with
  | none => 0
  | some e =>
    let l := s.poolLive p
    match c with
    | .priority => s.ce p - l.up - max l.ug e.rg
    | .general => s.ce p - l.ug - max l.up e.rp

/-- Free measure (R7). -/
def State.freeMeasure (s : State) (p : Nat) : Nat := s.ce p - (s.poolLive p).up - (s.poolLive p).ug

/-- LM, HM and MR of a pool, 0 for an undefined or damaged entry (R80). -/
def State.lowMark (s : State) (p : Nat) : Nat := ((s.poolEntry p).map (·.lm)).getD 0
def State.highMark (s : State) (p : Nat) : Nat := ((s.poolEntry p).map (·.hm)).getD 0
def State.minResidency (s : State) (p : Nat) : Nat := ((s.poolEntry p).map (·.mr)).getD 0

/-- The cap test of R8. -/
def capPasses (e : FeatureEntry) (hf units : Nat) : Bool := e.cap == 0 || decide (hf + units ≤ e.cap)

/-- The class map slot of a job class: job class 0 is GENERAL without exemptions whatever slot 0 holds (R11). -/
def SiteEntry.classFor (e : SiteEntry) (job : Nat) : ClassSlot := if job = 0 then .zero else e.slot job

def PoolLive.used (l : PoolLive) : Cls → Nat
  | .priority => l.up
  | .general => l.ug

def PoolLive.setUsed (l : PoolLive) (c : Cls) (n : Nat) : PoolLive :=
  match c with
  | .priority => { l with up := n }
  | .general => { l with ug := n }

/-! ### Frames the device sends (R150 to R152) -/

def Addrs.none : Addrs := ⟨0, 0, 0, 0, 0, []⟩
def Station.none : Station := ⟨0, 0, .f⟩

/-- The addresses the Link Unit holds. -/
def State.addrs (s : State) : Addrs := s.lnk.addrs.getD .none
def State.station (s : State) (n : Nat) : Station := s.addrs.stations.getD n .none

/-- A composed frame takes the identification counter and joins its port's originate queue, or is discarded there and counted;
the loss of a notice is reported (R150, R152, R178). -/
def State.originate (p : Port) (notice : Option NoticeKind) (a : Addressing) (payload : List Byte) (s : State) : State :=
  let out : OutFrame := ⟨composeFrame a s.lnk.ident payload, notice⟩
  let s1 := { s with lnk.ident := s.lnk.ident + 1 }
  let ps := s1.port p
  if ps.originate.length < Config.originateQueue then s1.setPort p { ps with originate := ps.originate ++ [out] }
  else
    match notice with
    | some k => s1.countDropped.noticeLost k
    | none => s1.countDropped

/-- A reply to a client request: to the request's source, its tag and client ID echoed (R132, R150). -/
def State.replyTo (d : Cand) (m : CexMsg) (s : State) : State :=
  s.originate .f none
    { dstMac := d.srcMac, srcMac := d.dstMac, vlan := d.vlan, srcIp := s.addrs.serviceIp, srcPort := s.addrs.servicePort,
      dstIp := d.srcIp, dstPort := d.srcPort }
    (cexDatagram (cexClient d.payload) (cexTag d.payload) m)

/-- An unsolicited client message, from the reply address of a client entry (R64, R151). -/
def State.tell (c : Client) (id : W32) (tag : W16) (m : CexMsg) (s : State) : State :=
  s.originate .f none
    { dstMac := c.reply.mac, srcMac := s.addrs.partMac, vlan := c.reply.vlan, srcIp := s.addrs.serviceIp,
      srcPort := s.addrs.servicePort, dstIp := c.reply.ip, dstPort := c.reply.udp }
    (cexDatagram id tag m)

/-- An administration reply, on the port the station list names for its station (R151). -/
def State.adminSend (dest : Issuer) (code : Nat) (r : Result) (body : List Byte) (s : State) : State :=
  s.originate (s.station dest.station).port none
    { dstMac := dest.mac, srcMac := s.addrs.partMac, vlan := dest.vlan, srcIp := s.addrs.mgmtIp, srcPort := s.addrs.mgmtPort,
      dstIp := dest.ip, dstPort := dest.udp }
    (adminReplyDatagram (BitVec.ofNat 8 code) r dest.seq body)

/-- A client datagram handed back to the Link Unit: it joins the forward path toward Port S as received, unless that path is
full, and counts in the forwarded counter (R139, R141, R148, R149). -/
def State.handBack (d : Cand) (s : State) : State :=
  let ps := s.lnk.portS
  let s1 := s.countForwarded
  if ps.forward.length < Config.forwardPath then { s1 with lnk.portS.forward := ps.forward ++ [d.frame] } else s1

/-! ### The long-operation slot (R161) -/

/-- Command code of the operation in the slot (section 12.2). -/
def LongOp.commandCode : LongOp → Nat
  | .idle => 0
  | .copy _ _ => 0x10
  | .reconcile _ _ _ => 0x11
  | .audit _ => 0x12
  | .scanRevoke _ _ _ _ => 0x13
  | .rebuild _ => 0x14
  | .reset => 0x15

/-- Slot state code of READ STATUS (section 12.2). -/
def LongOp.stateCode : LongOp → Nat
  | .idle => 0
  | .copy _ _ => 1
  | .reconcile _ _ _ => 2
  | .rebuild _ => 3
  | .audit _ => 4
  | .scanRevoke _ _ _ _ => 5
  | .reset => 6

def LongOp.phaseCode : LongOp → Nat
  | .copy k _ => k.code
  | .reconcile ph _ _ => ph.code
  | .scanRevoke _ ph _ _ => ph.code
  | _ => 0

/-- The cursor READ STATUS reports (R157). DESIGN CHOICE (log entry 21): 0 in IDLE and RESET, for which section 12.2 gives the phase
0 and no cursor. -/
def LongOp.cursor : LongOp → Nat
  | .copy _ c => c
  | .reconcile _ c _ => c
  | .scanRevoke _ _ c _ => c
  | .rebuild r => r.cursor
  | .audit a => a.cursor
  | _ => 0

def LongOp.isIdle : LongOp → Bool
  | .idle => true
  | _ => false

def LongOp.isRebuild : LongOp → Bool
  | .rebuild _ => true
  | _ => false

def LongOp.isReset : LongOp → Bool
  | .reset => true
  | _ => false

def Counts.bytes (c : Counts) : List Byte := nat32 c.recalled ++ nat32 c.released ++ nat32 c.removed

def AuditMatch.bytes (m : AuditMatch) : List Byte :=
  bytes32 m.handle ++ nat32 m.cost ++ nat8 m.state.code ++ nat16 m.pool

/-- The figures of an AUDIT's reply, in the order R162 lists them. -/
def AuditScan.bytes (a : AuditScan) : List Byte :=
  (a.found.map AuditMatch.bytes).flatten ++ index16 a.last ++ nat32 a.found.length
    ++ nat32 ((a.found.map (·.cost)).foldl (· + ·) 0)

/-- The figures an aborted operation has reached (R116, R121, R161, R163, R166). -/
def LongOp.figures : LongOp → List Byte
  | .reconcile _ _ c => c.bytes
  | .scanRevoke _ _ _ c => c.bytes
  | .audit a => a.bytes
  | .rebuild r => nat32 r.badFreed ++ nat32 0 ++ nat32 0 ++ nat32 0 ++ nat32 r.restarts
  | _ => []

/-- The reply of the operation in the slot, to its issuing station (R161). -/
def State.longReply (r : Result) (body : List Byte) (s : State) : State :=
  s.adminSend s.ada.issuer s.ada.op.commandCode r body

/-- The operation in the slot is aborted and answered ABORTED; the slot is left IDLE (R161). -/
def State.abortOp (s : State) : State :=
  { s.longReply .aborted s.ada.op.figures with ada.op := .idle }

/-- A change to the scan sums of a COUNT REBUILD that has passed slot `i` (R165). -/
def State.rebuildPassed (i : Nat) (f : Rebuild → Rebuild) (s : State) : State :=
  match s.ada.op with
  | .rebuild r => if i < r.cursor then { s with ada.op := .rebuild (f r) } else s
  | _ => s

/-! ### Pool service runs (R57) -/

/-- The run in progress of a pool. -/
def State.runOf (s : State) (p : Nat) : Option Run := s.adm.runs.find? (fun r => r.pool == p)

/-- A change to the run in progress of a pool. -/
def State.mapRun (p : Nat) (f : Run → Run) (s : State) : State :=
  { s with adm.runs := s.adm.runs.map (fun r => if r.pool == p then f r else r) }

/-- A cause that arises between the two examinations of a round is remembered until the round ends (R57, R62). -/
def RunStage.caused : RunStage → RunStage
  | .priority => .priority
  | .general _ => .general true

/-- A cause of a run: it starts one unless one of the pool is in progress or COUNT REBUILD occupies the slot (R57); the run in
progress makes its next round on the state the cause leaves, so a round it is in the middle of remembers the cause (log entry 9). -/
def State.startRun (p : Nat) (s : State) : State :=
  if s.ada.op.isRebuild then s
  else if s.adm.runs.any (fun r => r.pool == p) then s.mapRun p (fun r => { r with stage := r.stage.caused })
  else { s with adm.runs := s.adm.runs ++ [⟨p, [], .priority⟩] }

/-- A POOL PRESSURE notice with the figures as they stand (R84). -/
def State.pressureNotice (p : Nat) (st : Pressure) (t : W32) (s : State) : State :=
  let l := s.poolLive p
  s.queueNotice (.poolPressure p st t (s.freeMeasure p) (s.ce p) l.up l.ug l.w)

/-- The run of a pool ends; the notices of the entries to CONSTRAINED made before or in it are queued (R82 point 4). -/
def State.endRun (p : Nat) (s : State) : State :=
  let owed := (s.adm.runs.filter (fun r => r.pool == p)).flatMap (·.owed)
  owed.foldl (fun s t => s.pressureNotice p .constrained t)
    { s with adm.runs := s.adm.runs.filter (fun r => !(r.pool == p)) }

/-- Points 3 and 4 of an entry to CONSTRAINED: the service run, and the notice after it (R82). DESIGN CHOICE (log entry 9): while COUNT
REBUILD occupies the slot no run is started, and the notice is queued at once. -/
def State.entryService (p : Nat) (s : State) : State :=
  let t := (s.poolLive p).entryTime
  if s.ada.op.isRebuild then s.pressureNotice p .constrained t
  else
    (s.startRun p).mapRun p (fun r => { r with owed := r.owed ++ [t] })

/-! ### Client entries: counts and the idle list (R68, R70) -/

/-- The entry is idle: in use, with no live grant and no waiter (R68). -/
def Client.isIdle (c : Client) : Bool := c.inUse && c.grants == 0 && c.waiters == 0

/-- An entry that has become idle joins the tail of the idle list with the current MT (R68). -/
def State.idleIfQuiet (i : Nat) (s : State) : State :=
  if (s.client i).isIdle && !s.clt.idle.contains i then
    let s1 := s.setClient i { s.client i with lastActivity := s.swp.mt }
    { s1 with clt.idle := s1.clt.idle ++ [i] }
  else s

/-- An entry leaves the idle list, wherever it stands. -/
def State.leaveIdle (i : Nat) (s : State) : State := { s with clt.idle := s.clt.idle.erase i }

/-- A written entry that is idle moves to the tail of the idle list (R66 to R68). -/
def State.idleToTail (i : Nat) (s : State) : State :=
  if s.clt.idle.contains i then { s with clt.idle := s.clt.idle.erase i ++ [i] } else s

/-- Underflow of an entry's count: SUSPECT and a hard capture (R70). -/
def State.countUnderflow (i : Nat) (s : State) : State :=
  s.setSuspect.hardEvent ⟨0x84, i, 0, (s.client i).id⟩

/-- The live grant count of an entry falls by 1, clamped at 0 (R70). -/
def State.dropGrantCount (i : Nat) (s : State) : State :=
  let c := s.client i
  let s1 := if c.grants = 0 then s.countUnderflow i else s.setClient i { c with grants := c.grants - 1 }
  s1.idleIfQuiet i

/-- The waiter count of an entry falls by 1, clamped at 0 (R70). -/
def State.lowerWaiterCount (i : Nat) (s : State) : State :=
  let c := s.client i
  if c.waiters = 0 then s.countUnderflow i else s.setClient i { c with waiters := c.waiters - 1 }

/-- The waiter count of an entry falls by 1 at a removal, and the entry may become idle (R52 point 3). -/
def State.dropWaiterCount (i : Nat) (s : State) : State := (s.lowerWaiterCount i).idleIfQuiet i

/-! ### Grant slots -/

/-- A live grant (R26). -/
def GState.live : GState → Bool
  | .held => true
  | .stale => true
  | .linger => true
  | .recalled => true
  | .free => false
  | .bad => false

/-- The grant's epoch is the current one of its feature index. -/
def State.epochCurrent (s : State) (feature : Nat) (epoch : BitVec 8) : Bool := epoch == (s.featLive feature).epoch

/-- The units of a slot stand in Hf: not RECALLED, epoch current (R3, R26). -/
def State.unitsCounted (s : State) (g : Slot) : Bool := !(g.state == .recalled) && s.epochCurrent g.feature g.epoch

/-- The slot stands in its owner's chain (R31). -/
def State.inChain (s : State) (i : Nat) : Bool := ((s.client (s.slot i).ownerIdx).chain).contains i

/-- A count in a scan sum falls. -/
def subAt (t : Tab Nat) (k n : Nat) : Tab Nat := Tab.put 0 t k (Tab.get 0 t k - n)
/-- A count in a scan sum rises. -/
def addAt (t : Tab Nat) (k n : Nat) : Tab Nat := Tab.put 0 t k (Tab.get 0 t k + n)

/-- Underflow of a live counter at a release: SUSPECT and a hard capture (R3, R42). -/
def State.liveUnderflow (i : Nat) (g : Slot) (s : State) : State :=
  s.setSuspect.hardEvent ⟨0x83, i, g.pool, g.owner⟩

/-- The cost of a grant leaves Up or Ug of its recorded pool, clamped at 0 (R42 point 1). -/
def State.returnTokens (i : Nat) (g : Slot) (s : State) : State :=
  let l := s.poolLive g.pool
  let s1 := s.setPoolLive g.pool (l.setUsed g.cls (l.used g.cls - g.cost))
  if l.used g.cls < g.cost then s1.liveUnderflow i g else s1

/-- The units of a grant leave Hf of its feature index, clamped at 0 (R42 point 2). -/
def State.returnUnits (i : Nat) (g : Slot) (s : State) : State :=
  let l := s.featLive g.feature
  let s1 := s.setFeatLive g.feature { l with hf := l.hf - g.units }
  if l.hf < g.units then s1.liveUnderflow i g else s1

/-- The slot leaves its owner's chain and the live grant count falls; skipped when it stands in none (R42 point 3). -/
def State.leaveChain (i : Nat) (s : State) : State :=
  let o := (s.slot i).ownerIdx
  let c := s.client o
  if c.chain.contains i then (s.setClient o { c with chain := c.chain.erase i }).dropGrantCount o else s

/-- The slot leaves a pool's linger list. -/
def State.leaveLinger (i p : Nat) (s : State) : State := s.setLinger p ((s.lingerList p).erase i)

/-- Entry to FREE: generation up, recall reason cleared, tail of the FIFO, exhausted flag clears (R42 points 5 and 6). -/
def State.freeSlot (i : Nat) (s : State) : State :=
  let g := s.slot i
  let s1 := s.setSlot i { g with state := .free, reason := none, generation := g.generation + 1 }
  { s1 with grt.freeFifo := s1.grt.freeFifo ++ [i], grt.exhausted := false }

/-- Scan sums less a released grant that the rebuild has passed (R165). -/
def Rebuild.without (g : Slot) (units : Bool) (i : Nat) (r : Rebuild) : Rebuild :=
  let c := Tab.get ScanClient.zero r.clients g.ownerIdx
  { r with
    prioritySums := if g.cls = .priority then subAt r.prioritySums g.pool g.cost else r.prioritySums
    generalSums := if g.cls = .general then subAt r.generalSums g.pool g.cost else r.generalSums
    unitSums := if units then subAt r.unitSums g.feature g.units else r.unitSums
    clients := Tab.put ScanClient.zero r.clients g.ownerIdx ⟨c.count - 1, c.chain.erase i⟩
    live := r.live - 1 }

/-- Release of a live grant: the one event of R42, with R165 while a rebuild runs and the live grant total of R159. `chained` is
false for the release that changes no chain and no count (R164). -/
def State.releaseFrom (chained : Bool) (i : Nat) (s : State) : State :=
  let g := s.slot i
  let counted := s.unitsCounted g
  let s1 := s.returnTokens i g
  let s2 := if counted then s1.returnUnits i g else s1
  let s3 := if chained then s2.leaveChain i else s2
  let s4 := if g.state = .linger then s3.leaveLinger i g.pool else s3
  let s5 := s4.rebuildPassed i (Rebuild.without g counted i)
  let s6 := { s5 with grt.liveTotal := s5.grt.liveTotal - 1 }
  s6.freeSlot i

/-- Release of a live grant (R42). -/
def State.releaseSlot (i : Nat) (s : State) : State := s.releaseFrom true i

/-- What a new grant is made from: a claim or a waiter (R23, R32). -/
structure NewGrant where
  owner : W32
  ownerIdx : Nat
  tag : W16
  feature : Nat
  epoch : BitVec 8
  pool : Nat
  cls : Cls
  units : Nat
  cost : Nat
  renew : Nat
  deriving DecidableEq, Repr

/-- The record of a new grant in a slot (R23 point 3). -/
def NewGrant.slot (n : NewGrant) (s : State) (generation : W16) : Slot :=
  { state := .held, owner := n.owner, tag := n.tag, feature := n.feature, epoch := n.epoch, pool := n.pool, cls := n.cls,
    units := n.units, cost := n.cost, renew := n.renew, start := s.swp.mt, deadline := s.deadlineIn (2 * n.renew),
    reason := none, generation := generation, ownerIdx := n.ownerIdx }

/-- A grant is created in slot `i`, the head of the free-slot FIFO: one event (R23, R32, R61 point 2). -/
def State.createGrant (i : Nat) (n : NewGrant) (s : State) : State :=
  let s1 := { s with grt.freeFifo := s.grt.freeFifo.drop 1, grt.liveTotal := s.grt.liveTotal + 1 }
  let l := s1.poolLive n.pool
  let s2 := s1.setPoolLive n.pool (l.setUsed n.cls (l.used n.cls + n.cost))
  let h := s2.featLive n.feature
  let s3 := s2.setFeatLive n.feature { h with hf := h.hf + n.units }
  let s4 := s3.setSlot i (n.slot s (s.slot i).generation)
  let c := s4.client n.ownerIdx
  (s4.setClient n.ownerIdx { c with chain := c.chain ++ [i], grants := c.grants + 1 }).leaveIdle n.ownerIdx

/-- The GRANT of a slot, with a feature code (R133). -/
def State.grantMsg (s : State) (i : Nat) (code : W32) : CexMsg :=
  let g := s.slot i
  .grant (handleOf i g.generation) g.cost g.units g.cls g.renew code

/-- A lingering grant is taken back under a claim's tag (R34). -/
def State.reuseSlot (i : Nat) (tag : W16) (s : State) : State :=
  let g := s.slot i
  (s.leaveLinger i g.pool).setSlot i
    { g with state := .held, tag := tag, start := s.swp.mt, deadline := s.deadlineIn (2 * g.renew) }

/-- A HELD or STALE grant becomes RECALLED; its units leave Hf when its epoch is current (R3, R41, R165). -/
def State.recallSlot (i : Nat) (reason : Reason) (s : State) : State :=
  let g := s.slot i
  let counted := s.unitsCounted g
  let s1 := if counted then s.returnUnits i g else s
  let s2 := if counted then
      s1.rebuildPassed i (fun r => { r with unitSums := subAt r.unitSums g.feature g.units })
    else s1
  s2.setSlot i { g with state := .recalled, reason := some reason }

/-- A slot whose record memory is lost becomes BAD (R44): the record is rewritten, the slot leaves any linger list and the
free-slot FIFO, SUSPECT sets, the hard capture is given the slot. A rebuild that has passed a live slot starts again (R165). The
owner's chain and count follow in `loseRecord`, which reads them. -/
def State.slotBad (i : Nat) (s : State) : State :=
  let g := s.slot i
  let s2 := if g.state = .linger then s.leaveLinger i g.pool else s
  let s3 := if g.state = .free then { s2 with grt.freeFifo := s2.grt.freeFifo.erase i } else s2
  let s4 := s3.setSlot i { Slot.zero with state := .bad, generation := g.generation, ownerIdx := g.ownerIdx }
  let s5 := if g.state.live then
      { s4 with grt.liveTotal := s4.grt.liveTotal - 1 }.rebuildPassed i
        (fun r => { Rebuild.start with badFreed := r.badFreed, restarts := r.restarts + 1 })
    else s4
  s5.setSuspect.hardEvent ⟨0x81, i, 0, 0⟩

/-! ### Waiters -/

def Wts.addCount (w : Wts) (c : Cls) : Wts :=
  match c with
  | .priority => { w with np := w.np + 1 }
  | .general => { w with ng := w.ng + 1 }

def Wts.subCount (w : Wts) (c : Cls) : Wts :=
  match c with
  | .priority => { w with np := w.np - 1 }
  | .general => { w with ng := w.ng - 1 }

/-- A waiter leaves its queue and the store: it is not in use, Np or Ng falls (R52 points 1 and 2, R61 point 1). -/
def State.unqueue (i : Nat) (s : State) : State :=
  let w := s.waiter i
  let s1 := s.setQueue w.pool w.cls ((s.queue w.pool w.cls).erase i)
  let s2 := s1.setWaiter i { w with inUse := false }
  { s2 with wts := s2.wts.subCount w.cls }

/-- The feature code of a waiter's messages: the code at its index when its epoch is current, 0 otherwise (R50, R52). -/
def State.waiterCode (s : State) (w : Waiter) : W32 :=
  if s.epochCurrent w.feature w.epoch then s.loadedCode w.feature else 0

/-- Removal of a waiter with a message: one event (R52). The DENY answers `reply` when the cause is that WITHDRAW, and goes to
the entry's reply address otherwise (R131, R136). -/
def State.dropWaiter (i : Nat) (reason : Reason) (reply : Option Cand) (s : State) : State :=
  let w := s.waiter i
  let m := CexMsg.deny reason (s.waiterCode w)
  let s1 := (s.unqueue i).dropWaiterCount w.clientIdx
  let s2 := match reply with
    | some d => s1.replyTo d m
    | none => s1.tell (s1.client w.clientIdx) w.client w.tag m
  s2.countDenied

/-- Position of a waiter in its queue, the head being 1 (R50). -/
def State.position (s : State) (i : Nat) : Nat :=
  let w := s.waiter i
  (s.queue w.pool w.cls).idxOf i + 1

/-- The class rule of the waiter store (R48). -/
def State.storeAdmits (s : State) (c : Cls) : Bool :=
  let g := s.globalEntry
  match c with
  | .priority => decide (s.wts.np + 1 + max s.wts.ng g.mg ≤ Config.waiters)
  | .general => decide (s.wts.ng + 1 + max s.wts.np g.mp ≤ Config.waiters)

/-- The record a new waiter takes (R47): the lowest free one for PRIORITY, the highest for GENERAL. -/
def State.freeWaiter (s : State) (c : Cls) : Option Nat :=
  let used := fun i => (s.waiter i).inUse
  match c with
  | .priority => lowestFree used Config.waiters 0
  | .general => highestFree used Config.waiters

/-- A waiter is placed at the tail of its queue (R49 point 3). -/
def State.placeWaiter (i : Nat) (w : Waiter) (s : State) : State :=
  let s1 := s.setWaiter i w
  let s2 := s1.setQueue w.pool w.cls (s1.queue w.pool w.cls ++ [i])
  let s3 := { s2 with wts := s2.wts.addCount w.cls }
  let c := s3.client w.clientIdx
  (s3.setClient w.clientIdx { c with waiters := c.waiters + 1 }).leaveIdle w.clientIdx

/-! ### FAULTED (R173) -/

/-- A word that the clears of the wait store and the client table rewrite (R173). -/
def wordClearedByFaulted : MemWord → Bool
  | .waiterRec _ => true
  | .queueStore _ => true
  | .clientEnt _ => true
  | .idleStore => true
  | _ => false

/-- The wait store as after power-on (R46). -/
def Wts.clear : Wts := ⟨[], [], 0, 0⟩
/-- The client table and idle list as after power-on (R64). -/
def Clt.clear : Clt := ⟨[], []⟩

/-- Entry to FAULTED, points 3 to 6 of R173; no entry from FAULTED itself. A RENEW being decided is dropped (R129). -/
def State.enterFaulted (s : State) : State :=
  if s.ada.service = .on ∨ s.ada.service = .drain ∨ s.ada.service = .off then
    let s1 := s.enterService .faulted
    let s2 := { s1 with
      wts := .clear
      clt := .clear
      exu.work := none
      swp.grantPass.rounds := []
      swp.waiterPass.rounds := []
      swp.clientPass.rounds := []
      damage := s1.damage.filter (fun h => !wordClearedByFaulted h.word) }
    if s2.ada.op.isRebuild then s2.abortOp else s2
  else s

/-! ### Memory errors (R171, R172, R175) -/

/-- What the next read of a word finds. -/
def State.damageAt (s : State) (w : MemWord) : Option Damage :=
  (s.damage.find? (fun h => decide (h.word = w))).map (·.damage)

/-- The word is corrected or rewritten: a later read finds no error unless it is struck again (R171). -/
def State.heal (w : MemWord) (s : State) : State :=
  { s with damage := s.damage.filter (fun h => decide (h.word ≠ w)) }

def damageRank : Damage → Nat
  | .correctable => 0
  | .uncorrectable => 1
  | .indexLost => 2

/-- One word is struck; a word struck twice keeps the worse damage. -/
def addHit (l : List Hit) (h : Hit) : List Hit :=
  if l.any (fun x => decide (x.word = h.word) && decide (damageRank h.damage ≤ damageRank x.damage)) then l
  else l.filter (fun x => decide (x.word ≠ h.word)) ++ [h]

/-- The words struck since the previous event. -/
def State.strike (hits : List Hit) (s : State) : State := { s with damage := hits.foldl addHit s.damage }

/-- Soft event of a correctable error at a word (R175, codes 0x04 to 0x0A). DESIGN CHOICE (log entry 23): the index of a
directory word is that which the directory names for the code, 0 for a code that is not present, and that of the idle-list storage
is 0. -/
def wordSoftEvent (s : State) : MemWord → Event
  | .grantRec i => ⟨0x04, i, 0, 0⟩
  | .grantLink i => ⟨0x05, i, 0, 0⟩
  | .waiterRec i => ⟨0x06, i, 0, 0⟩
  | .queueStore p => ⟨0x06, 0, p, 0⟩
  | .clientEnt i => ⟨0x07, i, 0, 0⟩
  | .idleStore => ⟨0x07, 0, 0, 0⟩
  | .bankEntry b k i => ⟨0x08, i, b.code, BitVec.ofNat 32 k.code⟩
  | .codeDir b code => ⟨0x08, ((s.bank b).lookup code).getD 0, b.code, 1⟩
  | .poolLive p => ⟨0x09, p, p, 0⟩
  | .featLive i => ⟨0x0A, i, 0, 0⟩

/-- Hard event of a lost word that puts the device in FAULTED (R175, codes 0x85 to 0x89); of the others no event. -/
def wordFatalEvent : MemWord → Event
  | .waiterRec i => ⟨0x85, i, 0, 0⟩
  | .queueStore p => ⟨0x85, 0, p, 0⟩
  | .clientEnt i => ⟨0x86, i, 0, 0⟩
  | .idleStore => ⟨0x86, 0, 0, 0⟩
  | .grantLink i => ⟨0x87, i, 0, 0⟩
  | .poolLive p => ⟨0x88, p, p, 0⟩
  | .featLive i => ⟨0x89, i, 0, 0⟩
  | .grantRec i => ⟨0x81, i, 0, 0⟩
  | .bankEntry b k i => ⟨0x82, i, b.code, BitVec.ofNat 32 k.code⟩
  | .codeDir b _ => ⟨0x82, 0, b.code, 1⟩

/-- A bank entry is lost: its content reads 0, its damaged mark sets, a hard capture names it; the sum stays (R122, R171). -/
def State.damageEntry (b : BankId) (k : TableKind) (i : Nat) (s : State) : State :=
  (s.setBank b (((s.bank b).store i (Entry.zero k)).mark k i true)).hardEvent
    ⟨0x82, i, b.code, BitVec.ofNat 32 k.code⟩

/-- The directory of a bank no longer gives an index for a code. -/
def State.forgetCode (b : BankId) (code : W32) (s : State) : State :=
  s.setBank b { s.bank b with directory := Tab.erase (s.bank b).directory code.toNat }

/-- A code directory word is lost (R110): as the feature entry it names, or, its index lost, as absence of the code; the word is
rewritten with content 0 (R171), which gives no index for the code. DESIGN CHOICE (log entry 23): with the index lost, or the
code absent, no hard event is reported, since R175 has none without an index. -/
def State.loseDirectory (b : BankId) (code : W32) (indexLost : Bool) (s : State) : State :=
  let s1 := s.forgetCode b code
  if indexLost then s1
  else
    match (s.bank b).lookup code with
    | some i => s1.damageEntry b .feature i
    | none => s1

/-- A lost word is rewritten with content 0 (R171, R172); the lists of the grant link memory stand (R87). -/
def State.zeroWord (w : MemWord) (s : State) : State :=
  match w with
  | .waiterRec i => s.setWaiter i .zero
  | .queueStore p => { s with wts.queues := Tab.put .none s.wts.queues p .none }
  | .clientEnt i => s.setClient i .zero
  | .idleStore => { s with clt.idle := [] }
  | .grantLink i => s.setSlot i { s.slot i with generation := 0, ownerIdx := 0 }
  | .poolLive p => (s.setPoolLive p .zero).setSuspect
  | .featLive i => (s.setFeatLive i .zero).setSuspect
  | _ => s

/-- Why an operation ends before its last effect: a read found a word lost whose loss puts the device in FAULTED, or found one
while it is FAULTED (R173 point 1). -/
inductive Stop where
  | ended
  deriving DecidableEq, Repr

/-- An operation on the state that may end at a read; its effects up to there stand. -/
abbrev Op := EStateM Stop State

/-- A word is lost whose loss puts the device in FAULTED: it is rewritten, its hard event is reported, FAULTED is entered, and
the reading operation ends (R171 to R173). -/
def loseFatal (w : MemWord) : Op Unit := fun s =>
  .error .ended ((s.zeroWord w).hardEvent (wordFatalEvent w)).enterFaulted

/-- A checked read (R171): no error; a correctable one, corrected and reported; or `lose`, which does what the rule of the
word's owner gives for its loss. -/
def checkOr (w : MemWord) (lose : Damage → Op Unit) : Op Unit := fun s =>
  match s.damageAt w with
  | none => .ok () s
  | some d =>
    if d = .correctable then .ok () ((s.heal w).softEvent (wordSoftEvent s w)) else lose d (s.heal w)

/-- The record memory of slot `i` is lost (R44): the slot becomes BAD, and when it stands in its owner's chain the owner's entry
and the idle list are read (R71) and it leaves that chain. DESIGN CHOICE (log entry 8): the slot's own hard event comes first. -/
def loseRecord (i : Nat) : Op Unit := do
  let s ← get
  set (s.slotBad i)
  if s.inChain i then
    checkOr (.clientEnt (s.slot i).ownerIdx) (fun _ => loseFatal (.clientEnt (s.slot i).ownerIdx))
    checkOr .idleStore (fun _ => loseFatal .idleStore)
    modify (·.leaveChain i)
  else pure ()

/-- What the loss of a word does, by the rule of its owner (R44, R110, R122, R173). -/
def lose (w : MemWord) (d : Damage) : Op Unit :=
  match w with
  | .grantRec i => loseRecord i
  | .bankEntry b k i => modify (·.damageEntry b k i)
  | .codeDir b code => modify (·.loseDirectory b code (decide (d = .indexLost)))
  | .grantLink _ => loseFatal w
  | .waiterRec _ => loseFatal w
  | .queueStore _ => loseFatal w
  | .clientEnt _ => loseFatal w
  | .idleStore => loseFatal w
  | .poolLive _ => loseFatal w
  | .featLive _ => loseFatal w

/-- The checked read of a word (R171): no error; a correctable one, reported; or the loss its owner's rule gives. -/
def check (w : MemWord) : Op Unit := checkOr w (lose w)

/-- Checked reads in order. -/
def checkAll : List MemWord → Op Unit
  | [] => pure ()
  | w :: ws => do
    check w
    checkAll ws

/-- The state an operation leaves, ended early or not. -/
def settle (m : Op Unit) (s : State) : State :=
  match m s with
  | .ok _ s' => s'
  | .error _ s' => s'

/-- Runs an operation and goes on whether or not it ended at a read (R173 point 1, a long operation). -/
def attempt (m : Op Unit) : Op Unit := fun s => .ok () (settle m s)

/-- The word of an entry of the active bank. -/
def State.activeWord (s : State) (k : TableKind) (i : Nat) : MemWord := .bankEntry s.tbs.active k i

/-- Checked read of an active bank entry. -/
def checkActive (k : TableKind) (i : Nat) : Op Unit := do
  let s ← get
  check (s.activeWord k i)

/-- Checked read of a slot, link memory first; a lost record has made it BAD (R44). -/
def readSlot (i : Nat) : Op Slot := do
  check (.grantLink i)
  check (.grantRec i)
  let s ← get
  return s.slot i

/-! ### Release, pressure and recall as operations -/

/-- What a release did that the checks after it need (R43). -/
structure Released where
  pool : Nat
  feature : Nat
  lowered : Bool
  deriving DecidableEq, Repr

/-- What releasing slot `i` would do: its recorded pool, its feature, and whether Hf falls. -/
def State.releasedOf (s : State) (i : Nat) : Released :=
  let g := s.slot i
  ⟨g.pool, g.feature, s.unitsCounted g && decide (0 < (s.featLive g.feature).hf)⟩

/-- The words a release reads beside the slot's own. -/
def State.releaseWords (s : State) (i : Nat) : List MemWord :=
  let g := s.slot i
  [.poolLive g.pool, .featLive g.feature] ++ if s.inChain i then [.clientEnt g.ownerIdx, .idleStore] else []

/-- Release of a slot that is live (R42); none when it is not, or has become BAD at its read. -/
def release (i : Nat) : Op (Option Released) := do
  let g ← readSlot i
  if g.state.live then
    let s ← get
    checkAll (s.releaseWords i)
    let s ← get
    set (s.releaseSlot i)
    return some (s.releasedOf i)
  else
    return none

/-- A NORMAL pool becomes CONSTRAINED with the current MT as its entry time (R82 point 1). -/
def State.enterPressure (p : Nat) (st : Pressure) (s : State) : State :=
  s.setPoolLive p { s.poolLive p with pressure := st, entryTime := s.swp.mt }

/-- The releases of a linger list at an entry to CONSTRAINED, from the head (R82 point 2); `other` is what R43 does for a pool
that a lowered Hf maps to elsewhere. -/
def drainLinger (p : Nat) (other : Nat → Op Unit) : List Nat → Op Unit
  | [] => pure ()
  | i :: rest => do
    let r ← release i
    match r with
    | some r =>
      if r.lowered then
        checkActive .feature r.feature
        let s ← get
        match s.mappedPool r.feature with
        | some q => if q = p then pure () else other q
        | none => pure ()
      else pure ()
    | none => pure ()
    drainLinger p other rest

/-- The pressure check of a pool (R81 to R83); `leave` says its cause makes the leave test. The first argument bounds the
checks that entries to CONSTRAINED make of other pools: each pool enters once, so the number of pools is enough. -/
def pressureCheck : Nat → Nat → Bool → Op Unit
  | 0, _, _ => pure ()
  | n + 1, p, leave => do
    let s ← get
    if s.ada.service = .faulted then pure ()
    else
      check (.poolLive p)
      checkActive .pool p
      let s ← get
      match (s.poolLive p).pressure with
      | .normal =>
        if s.freeMeasure p < s.lowMark p then
          set (s.enterPressure p .constrained)
          drainLinger p (fun q => do pressureCheck n q false; modify (·.startRun q)) (s.lingerList p)
          modify (·.setLinger p [])
          modify (·.entryService p)
        else pure ()
      | .constrained =>
        if leave && decide (s.highMark p ≤ s.freeMeasure p)
            && decide (s.minResidency p ≤ s.secondsSince (s.poolLive p).entryTime) then
          set ((s.enterPressure p .normal).pressureNotice p .normal s.swp.mt)
        else pure ()

/-- The pressure check, with bound enough for every pool to enter CONSTRAINED once. -/
def pressure (p : Nat) (leave : Bool) : Op Unit := pressureCheck (Config.pools + 1) p leave

/-- A fall of Hf at a feature charged to pool `p`: the pool the feature maps to now, when another, is checked and served
(R43, R81). -/
def hfFellElsewhere (p feature : Nat) : Op Unit := do
  checkActive .feature feature
  let s ← get
  match s.mappedPool feature with
  | some q =>
    if q = p then pure ()
    else
      pressure q false
      modify (·.startRun q)
  | none => pure ()

/-- What follows a release (R43). -/
def afterRelease (r : Released) : Op Unit := do
  pressure r.pool true
  modify (·.startRun r.pool)
  if r.lowered then hfFellElsewhere r.pool r.feature else pure ()

/-- What a recall did to its slot. -/
inductive Recalled where
  | recalled
  | released
  deriving DecidableEq, Repr

/-- A HELD or STALE grant is recalled, with a RECALL to its owner when it stands in a chain (R41: after entry to FAULTED none
does). -/
def State.recallHeld (i : Nat) (reason : Reason) (s : State) : State :=
  let g := s.slot i
  let s1 := s.recallSlot i reason
  if s.inChain i then s1.tell (s1.client g.ownerIdx) g.owner g.tag (.recall (handleOf i g.generation) reason) else s1

/-- After a recall that lowered Hf: the pool the feature maps to is checked, when it is not the recorded one, and served (R41). -/
def afterRecall (pool feature : Nat) : Op Unit := do
  hfFellElsewhere pool feature
  let s ← get
  match s.mappedPool feature with
  | some q => set (s.startRun q)
  | none => pure ()

/-- Recall of a slot (R41); `note` is what the recalling operation records of it in the same event. -/
def recallGrant (i : Nat) (reason : Reason) (note : Recalled → State → State) : Op Unit := do
  let g ← readSlot i
  match g.state with
  | .held | .stale =>
    let s ← get
    checkAll ([.featLive g.feature] ++ if s.inChain i then [.clientEnt g.ownerIdx] else [])
    let s ← get
    set (note .recalled (s.recallHeld i reason))
    if s.unitsCounted g && decide (0 < (s.featLive g.feature).hf) then afterRecall g.pool g.feature else pure ()
  | .linger =>
    let r ← release i
    match r with
    | some r =>
      modify (note .released)
      afterRelease r
    | none => pure ()
  | .recalled | .free | .bad => pure ()

/-- Removal of a waiter with a message, and the service run its pool needs when it was the head (R52). -/
def removeWaiter (i : Nat) (reason : Reason) (reply : Option Cand) (serve : Bool) : Op Unit := do
  check (.waiterRec i)
  let s ← get
  let w := s.waiter i
  checkAll [.queueStore w.pool, .clientEnt w.clientIdx, .idleStore, .featLive w.feature, s.activeWord .feature w.feature]
  let s ← get
  let wasHead := (s.queue w.pool w.cls).head? == some i
  let s1 := s.dropWaiter i reason reply
  set (if serve && wasHead then s1.startRun w.pool else s1)

/-- The outcome of a command of this model: always a next state. -/
abbrev Out := Host.Outcome State Fault Refusal

end Sys2Proof.Machine
end

