-- ==== Sys2Proof/Machine/Power.lean ====
section
/-!
DEFINITION. Machine/Power.lean: power-on, the boot read and the flash write (R142, R169, R170, R179, R184).
-/
namespace Sys2Proof.Machine

/-- While RESET_N is low the device is held in its power-on state and nothing reaches it (00_scope.md 2.1). -/
def awake (s : State) (f : State → State) : State := if s.resetLow then s else f s

/-- The power-on state, with the queue of waiting commands and the levels of the module presence pins, which power-on does not
change; the boot read begins at the release of RESET_N. -/
def State.powerOn (low : Bool) (s : State) : State :=
  { State.reset with
    pending := s.pending
    resetLow := low
    lnk.portF.module := s.lnk.portF.module
    lnk.portS.module := s.lnk.portS.module
    ada.bootReading := !low }

/-- RESET_N: its release (R169). -/
def execResetN (s : State) : Out := .next (s.powerOn false)

/-- RESET_N_LOW: the device is held in its power-on state (R179). -/
def execResetNLow (s : State) : Out := .next (s.powerOn true)

/-- The end of the boot read (R169): ON with the record's addresses, or PASS_ONLY. -/
def State.bootRead (bytes : List Byte) (s : State) : State :=
  if bootValid bytes then
    { s with lnk.addrs := some (bootAddrs bytes), ada.bootCopy := bytes, ada.bootReading := false }.enterService .on
  else { s with ada.service := .passOnly, ada.bootReading := false }

/-- BOOT_READ_COMPLETION: taken while the boot read is in progress; a flash that does not answer reads as blank (R169). -/
def execBootReadCompletion (read : Option (List Byte)) (s : State) : Out :=
  .next (awake s fun s =>
    if s.ada.service = .starting ∧ s.ada.bootReading then
      s.bootRead (read.getD (List.replicate Config.bootBytes 0xFF))
    else s)

/-- FLASH_WRITE_COMPLETION: the read-back equals the record written, or not (R170). -/
def execFlashWriteCompletion (readBack : List Byte) (s : State) : Out :=
  .next (awake s fun s =>
    match s.ada.flash with
    | .writing record => { s with ada.flash := if readBack = record then .done else .failed }
    | _ => s)

end Sys2Proof.Machine
end

