-- ==== Sys2Proof/Machine/Link.lean ====
section
/-!
DEFINITION. Machine/Link.lean: ports, arriving frames, egress arbitration and the hand-off of notices (R142 to R154, R177, R178).
-/
namespace Sys2Proof.Machine

def oppositePort : Port → Port
  | .f => .s
  | .s => .f

/-- LINK_UP: the partner's signal has been acquired; a port without a module stays DOWN (R142). -/
def execLinkUp (p : Port) (s : State) : Out :=
  .next (awake s fun s => if (s.port p).module then s.setPort p { s.port p with up := true } else s)

/-- LINK_DOWN: the signal is lost or the module removed (R142). -/
def execLinkDown (p : Port) (cause : DownCause) (s : State) : Out :=
  .next (awake s fun s =>
    match cause with
    | .signalLost => s.setPort p { s.port p with up := false }
    | .moduleRemoved => s.setPort p { s.port p with up := false, module := false })

/-- MODULE_PRESENCE_CHANGE: the pin's level; a removal takes the port DOWN (R142). The pin is read while RESET_N is low too. -/
def execModulePresenceChange (p : Port) (present : Bool) (s : State) : Out :=
  .next (s.setPort p { s.port p with module := present, up := (s.port p).up && present })

/-- A frame joins the forward path toward port `q`; it is discarded when that port is DOWN or the path is full (R142, R149). -/
def State.forwardTo (q : Port) (fr : Frame) (s : State) : State :=
  let ps := s.port q
  if ps.up && decide (ps.forward.length < Config.forwardPath) then s.setPort q { ps with forward := ps.forward ++ [fr] }
  else s

/-- The frame has a good frame check sequence and is not longer than 9,216 bytes, its check sequence counted (R142). -/
def frameReceived (fr : Frame) : Bool :=
  fr.fcs == fcsOf fr.bytes && decide (fr.bytes.length + 4 ≤ Config.maxFrame)

/-- An administration candidate at its arrival (R147, R148). -/
def State.arriveAdmin (u : Udp) (p : Port) (fr : Frame) (s : State) : State :=
  if u.checksumsGood then
    if s.ada.intake.length < Config.adaIntake then { s with ada.intake := s.ada.intake ++ [u.candidate p fr] }
    else s.countDropped
  else s.countDropped

/-- A candidate at a full intake of the Exchange Unit is forwarded and counted; one that finds Port S DOWN or its forward path full
is discarded and changes no counter (R148, R149, R154). -/
def State.overflow (fr : Frame) (s : State) : State :=
  if s.lnk.portS.up && decide (s.lnk.portS.forward.length < Config.forwardPath) then s.countForwarded.forwardTo .s fr else s

/-- An intercept candidate at its arrival (R147, R148). -/
def State.arriveIntercept (u : Udp) (p : Port) (fr : Frame) (s : State) : State :=
  if u.checksumsGood then
    if s.exu.intake.length < Config.exuIntake then { s with exu.intake := s.exu.intake ++ [u.candidate p fr] }
    else s.overflow fr
  else s.countDropped

/-- A frame received on an UP port (R144, R146). -/
def State.arrive (p : Port) (fr : Frame) (s : State) : State :=
  if s.ada.service.serving then
    match classify s.addrs p fr.bytes with
    | .admin u => s.arriveAdmin u p fr
    | .intercept u => s.arriveIntercept u p fr
    | .passThrough => s.forwardTo (oppositePort p) fr
  else s.forwardTo (oppositePort p) fr

/-- FRAME_ARRIVAL: a port that is DOWN receives nothing; a bad or overlong frame is discarded (R142). -/
def execFrameArrival (p : Port) (fr : Frame) (s : State) : Out :=
  .next (awake s fun s => if (s.port p).up && frameReceived fr then s.arrive p fr else s)

/-- The egress decision of R153; `arbitrate` is false in STARTING and PASS_ONLY, where only the forward path is served and the
arbiter, which begins in ON, keeps its mark (R144). -/
def PortState.next (arbitrate : Bool) (ps : PortState) : PortState :=
  match ps.forward, ps.originate with
  | [], [] => { ps with line := none }
  | fr :: rest, [] => { ps with forward := rest, line := some fr, mark := if arbitrate then .forward else ps.mark }
  | [], o :: rest => { ps with originate := rest, line := some o.frame, mark := .originate }
  | fr :: restF, o :: restO =>
    match ps.mark with
    | .forward => { ps with originate := restO, line := some o.frame, mark := .originate }
    | .originate => { ps with forward := restF, line := some fr, mark := .forward }

/-- PORT_READY: an UP port begins its next frame (R153). -/
def execPortReady (p : Port) (s : State) : Out :=
  .next (awake s fun s =>
    if (s.port p).up then s.setPort p ((s.port p).next s.ada.service.serving) else s)

/-- Station 0's port has no notice in its originate queue (R177). -/
def State.noticeLineFree (s : State) : Bool :=
  !((s.port (s.station 0).port).originate.any (fun o => o.notice.isSome))

/-- Addressing of a notice: station 0's neighbour record, or broadcast without a tag when it is absent (R151). -/
def State.noticeAddressing (s : State) : Addressing :=
  let st := s.station 0
  let n := (Tab.get none s.lnk.neighbours 0).getD ⟨0xFFFFFFFFFFFF#48, none⟩
  { dstMac := n.mac, srcMac := s.addrs.partMac, vlan := n.vlan, srcIp := s.addrs.mgmtIp, srcPort := s.addrs.mgmtPort,
    dstIp := st.ip, dstPort := st.udp }

/-- NOTICE_HANDOFF: the head of the notice queue goes to the Link Unit when the one before has left, with the lost flag, which
clears (R177, R178). -/
def execNoticeHandoff (s : State) : Out :=
  .next (awake s fun s =>
    match s.fnu.notices with
    | [] => s
    | n :: rest =>
      if s.ada.service.serving && s.noticeLineFree then
        { s with fnu.notices := rest, fnu.lost := false }.originate (s.station 0).port (some n.body.kind)
          s.noticeAddressing (noticeDatagram n s.fnu.lost)
      else s)

end Sys2Proof.Machine
end

