-- ==== Sys2Proof/Machine/Exchange.lean ====
section
/-!
DEFINITION. Machine/Exchange.lean: the client requests taken from the intake of the Exchange Unit: the claim sequence of chapter 1,
RENEW, YIELD, QUERY, WITHDRAW and datagrams of another kind (chapters 2, 3, 4 and 8).
-/
namespace Sys2Proof.Machine

/-! ### Taking a datagram -/

/-- DENY MALFORMED: the reply, the soft capture and the denied counter (R127). -/
def State.denyMalformed (d : Cand) (s : State) : State :=
  ((s.replyTo d (.denyMalformed (cexKindByte d.payload))).softEvent ⟨0x01, 0, 0, cexClient d.payload⟩).countDenied

/-- Which service states serve a kind (R125). -/
def CexKind.servedIn (k : CexKind) (sv : Service) : Bool :=
  match k, sv with
  | _, .on => true
  | .claim, .drain => false
  | .withdraw, .drain => false
  | _, .drain => true
  | _, _ => false

/-- The datagram of kind `k` at the head of the intake is taken: forwarded by service state or a SERVICE RESET in flight,
refused as malformed, or served (R125, R126, R139, R167). The event does not arise while a RENEW is being decided, when the
intake is empty or its head is of another kind (log entry 2). -/
def takeClient (k : CexKind) (serve : Cand → Op Unit) (s : State) : State :=
  match s.exu.intake, s.exu.work with
  | d :: rest, none =>
    if s.ada.service.serving && cexKind d.payload == k then
      let s1 := { s with exu.intake := rest }
      if s.ada.op.isReset || !k.servedIn s.ada.service then s1.handBack d
      else if cexWellFormed d.payload then settle (serve d) s1
      else s1.denyMalformed d
    else s
  | _, _ => s

/-- The reply address a request's frame gives (R64, R66). -/
def Cand.replyAddr (d : Cand) : ReplyAddr := ⟨d.srcMac, d.vlan, d.srcIp, d.srcPort, d.port⟩

/-- A served RENEW, YIELD or WITHDRAW writes the reply address and the last-activity MT of its client's entry (R67). -/
def State.noteContact (i : Nat) (d : Cand) (s : State) : State :=
  (s.setClient i { s.client i with reply := d.replyAddr, lastActivity := s.swp.mt }).idleToTail i

/-- R67 as an operation: no entry is created. -/
def contact (d : Cand) : Op Unit := do
  let s ← get
  match s.findClient (cexClient d.payload) with
  | none => pure ()
  | some i =>
    checkAll [.clientEnt i, .idleStore]
    modify (·.noteContact i d)

/-! ### The claim sequence (chapter 1) -/

/-- What a claim has after step 3: the datagram, its fields, its site entry, feature index and feature entry. -/
structure ClaimCtx where
  d : Cand
  q : ClaimReq
  site : SiteEntry
  fi : Nat
  fe : FeatureEntry
  deriving DecidableEq, Repr

/-- The class map slot of the claim (R11). -/
def ClaimCtx.classSlot (x : ClaimCtx) : ClassSlot := x.site.classFor x.q.job
def ClaimCtx.cost (x : ClaimCtx) : Nat := costOf x.q.units x.fe.weight

/-- A claim is denied: the reply and the denied counter (R24). -/
def State.denyClaim (d : Cand) (r : Reason) (code : W32) (s : State) : State := (s.replyTo d (.deny r code)).countDenied

/-- A capacity refusal: the TABLE CAPACITY notice, then the soft capture (R30, R48, R65). -/
def State.capacityEvent (store : Store) (cls : Cls) (pool : Nat) (client : W32) (code : Byte) (s : State) : State :=
  (s.queueNotice (.tableCapacity store cls pool client)).softEvent ⟨code, 0, pool, client⟩

/-- With waiting (R20). -/
def ClaimCtx.withWaiting (x : ClaimCtx) (pe : PoolEntry) : Bool :=
  x.q.wait && decide (0 < x.q.waitLimit) && decide (0 < pe.mw) && x.fe.waiting

/-- The waiter a claim becomes (R20, R49). -/
def ClaimCtx.waiter (x : ClaimCtx) (pe : PoolEntry) (ci : Nat) (s : State) : Waiter :=
  { inUse := true, clientIdx := ci, client := x.q.client, tag := x.q.tag, feature := x.fi,
    epoch := (s.featLive x.fi).epoch, pool := x.fe.pool, cls := x.classSlot.cls, units := x.q.units, cost := x.cost,
    deadline := s.deadlineIn (min x.q.waitLimit pe.mwt) }

/-- The claim is enqueued or refused QUEUE_FULL (R49). DESIGN CHOICE (log entry 33): the waiter record it is placed in is written
unread. -/
def claimEnqueue (x : ClaimCtx) (pe : PoolEntry) (ci : Nat) : Op Unit := do
  checkAll [.featLive x.fi, .idleStore]
  let s ← get
  let cls := x.classSlot.cls
  if pe.mw ≤ (s.queue x.fe.pool cls).length then set (s.denyClaim x.d .queueFull x.q.code)
  else if !s.storeAdmits cls then
    set ((s.denyClaim x.d .queueFull x.q.code).capacityEvent .waiterStore cls x.fe.pool x.q.client 0x0E)
  else
    match s.freeWaiter cls with
    | none => set (s.denyClaim x.d .queueFull x.q.code)
    | some wi =>
      let s1 := (s.placeWaiter wi (x.waiter pe ci s)).heal (.waiterRec wi)
      set (s1.replyTo x.d (.wait (s1.position wi) (s1.secondsUntil (s1.waiter wi).deadline) x.q.code))

/-- A step that does not admit the claim: the queue when it is with waiting, a DENY otherwise (R20 to R22). -/
def claimWaitOrDeny (x : ClaimCtx) (pe : PoolEntry) (ci : Nat) (r : Reason) : Op Unit :=
  if x.withWaiting pe then claimEnqueue x pe ci else modify (·.denyClaim x.d r x.q.code)

/-- The grant a claim makes (R23). -/
def ClaimCtx.newGrant (x : ClaimCtx) (pe : PoolEntry) (ci : Nat) (s : State) : NewGrant :=
  { owner := x.q.client, ownerIdx := ci, tag := x.q.tag, feature := x.fi, epoch := (s.featLive x.fi).epoch,
    pool := x.fe.pool, cls := x.classSlot.cls, units := x.q.units, cost := x.cost, renew := pe.ri }

/-- Step 14 with the tokens at hand: the grant of R23, or the exhausted grant table of R30. DESIGN CHOICE (log entry 33): of the
FREE slot allocated only the link memory is read, and a lost record word is healed by the writing of the new record. -/
def claimGrant (x : ClaimCtx) (pe : PoolEntry) (ci : Nat) : Op Unit := do
  let s ← get
  match s.grt.freeFifo with
  | [] =>
    let s1 := s.denyClaim x.d .tryLater x.q.code
    set ({ s1 with grt.exhausted := true }.capacityEvent .grantTable .general x.fe.pool x.q.client 0x0C)
  | i :: _ =>
    checkAll [.grantLink i, .idleStore]
    let s ← get
    let s1 := (s.createGrant i (x.newGrant pe ci s)).heal (.grantRec i)
    set ((s1.replyTo x.d (s1.grantMsg i x.q.code)).countGranted)
    pressure x.fe.pool false

/-- Steps 12 to 14: the queue, the cap, the tokens (R21, R22). -/
def claimAdmit (x : ClaimCtx) (pe : PoolEntry) (ci : Nat) : Op Unit := do
  checkAll [.queueStore x.fe.pool, .featLive x.fi, .poolLive x.fe.pool]
  let s ← get
  if s.queue x.fe.pool x.classSlot.cls ≠ [] then claimWaitOrDeny x pe ci .queuedAhead
  else if !capPasses x.fe (s.featLive x.fi).hf x.q.units then claimWaitOrDeny x pe ci .capReached
  else if s.availability x.fe.pool x.classSlot.cls < x.cost then claimWaitOrDeny x pe ci .noTokens
  else claimGrant x pe ci

/-- The refusal of the entitlement checks after the pool is found defined (R18, orders 3 to 6). -/
def ClaimCtx.notEntitled (x : ClaimCtx) (s : State) : Option Reason :=
  if !x.fe.groupMask.getLsbD x.site.group then some .groupBlocked
  else if (x.fe.windowStart ≠ 0 ∨ x.fe.windowEnd ≠ 0) ∧ !s.swp.dtValid then some .clockUnset
  else if x.fe.windowStart ≠ 0 ∧ s.dt < x.fe.windowStart then some .notYet
  else if x.fe.windowEnd ≠ 0 ∧ x.fe.windowEnd ≤ s.dt then some .expired
  else none

/-- Steps 9 and 10: entitlement and the client's grant limit (R18, R19). -/
def claimEntitled (x : ClaimCtx) (ci : Nat) : Op Unit := do
  let s ← get
  if x.fe.weight = 0 then set (s.denyClaim x.d .disabled x.q.code)
  else
    match s.poolEntry x.fe.pool with
    | none =>
      set ((s.denyClaim x.d .disabled x.q.code).softEvent ⟨0x03, x.fi, x.fe.pool, x.q.client⟩)
    | some pe =>
      match x.notEntitled s with
      | some r => set (s.denyClaim x.d r x.q.code)
      | none =>
        if s.globalEntry.grantLimit ≤ (s.client ci).grants then set (s.denyClaim x.d .clientLimit x.q.code)
        else claimAdmit x pe ci

/-- The pace value: the lesser of RP and PMAX (R17, R74). -/
def State.paceValue (s : State) (ci : Nat) : Nat := min (s.client ci).rp s.globalEntry.pmax

/-- The retry-after of DEFER PACE (R74). -/
def State.paceRetry (s : State) (ci : Nat) : Nat :=
  max 1 (min 3600 ((s.paceValue ci - s.globalEntry.pt) * s.globalEntry.bi))

/-- Steps 7 and 8: a count rebuild in flight, and pace (R16, R17). -/
def claimPaced (x : ClaimCtx) (ci : Nat) : Op Unit := do
  let s ← get
  if s.ada.op.isRebuild then set ((s.replyTo x.d (.deferRebuild 1)).countDeferred)
  else if decide (s.globalEntry.pt < s.paceValue ci) && !x.classSlot.paceExempt then
    set ((s.replyTo x.d (.deferPace (s.paceRetry ci))).countDeferred)
  else claimEntitled x ci

/-- A lingering grant that the claim may take back (R34). -/
def ClaimCtx.reuses (x : ClaimCtx) (s : State) (g : Slot) : Bool :=
  g.state == .linger && g.feature == x.fi && s.epochCurrent g.feature g.epoch && g.units == x.q.units

/-- A lingering grant is reused and answered GRANT (R15, R24, R34). -/
def ClaimCtx.reuse (x : ClaimCtx) (i : Nat) (s : State) : State :=
  let s1 := s.reuseSlot i x.q.tag
  (s1.replyTo x.d (s1.grantMsg i x.q.code)).countGranted

/-- Step 6: the first lingering grant of the chain that matches (R15, R34). -/
def claimReuse (x : ClaimCtx) (ci : Nat) (chain : List Nat) : Op Unit := do
  check (.featLive x.fi)
  let s ← get
  match chain.find? (fun i => x.reuses s (s.slot i)) with
  | some i => set (x.reuse i s)
  | none => claimPaced x ci

/-- A live grant that the claim's tag names is released and the claim denied (R33). -/
def claimRelease (x : ClaimCtx) (i : Nat) (r : Reason) : Op Unit := do
  let done ← release i
  modify (·.denyClaim x.d r x.q.code)
  match done with
  | some rel => afterRelease rel
  | none => pure ()

/-- Step 5 at a live grant with the claim's tag (R33). -/
def claimDuplicate (x : ClaimCtx) (i : Nat) : Op Unit := do
  let s ← get
  let g := s.slot i
  check (.featLive g.feature)
  checkActive .feature g.feature
  let s ← get
  match g.state with
  | .linger => if x.reuses s g then set (x.reuse i s) else claimRelease x i .tryLater
  | .recalled => claimRelease x i (g.reason.getD .revoked)
  | .held | .stale | .free | .bad => set (s.replyTo x.d (s.grantMsg i (s.loadedCode g.feature)))

/-- A repeated claim of a waiter: its WAIT again, with its current position and seconds (R33, R50). -/
def claimWaiting (x : ClaimCtx) (wi : Nat) : Op Unit := do
  check (.waiterRec wi)
  let s ← get
  let w := s.waiter wi
  checkAll [.queueStore w.pool, .featLive w.feature, s.activeWord .feature w.feature]
  let s ← get
  set (s.replyTo x.d (.wait (s.position wi) (s.secondsUntil w.deadline) (s.waiterCode w)))

/-- The waiter of a client entry that carries a tag. -/
def State.findWaiter (s : State) (ci : Nat) (tag : W16) : Option Nat :=
  (Tab.search (fun w => w.inUse && w.clientIdx == ci && w.tag == tag) s.wts.waiters).map (·.1)

/-- The reads of a walk of an owner chain (R31): a slot found lost becomes BAD and leaves the chain. -/
def readSlots : List Nat → Op Unit
  | [] => pure ()
  | i :: rest => do
    let _ ← readSlot i
    readSlots rest

/-- Step 5: a waiter or a live grant of the client with the claim's tag (R15, R33); then step 6, whose walk would find the words
this one has just read without error. -/
def claimTag (x : ClaimCtx) (ci : Nat) : Op Unit := do
  let s ← get
  readSlots (s.client ci).chain
  let s ← get
  match s.findWaiter ci x.q.tag with
  | some wi => claimWaiting x wi
  | none =>
    let chain := (s.client ci).chain
    match chain.find? (fun i => (s.slot i).tag == x.q.tag) with
    | some i => claimDuplicate x i
    | none => claimReuse x ci chain

/-- Step 4 writes an entry it has found or created (R66). -/
def State.noteClaim (ci : Nat) (x : ClaimCtx) (s : State) : State :=
  (s.setClient ci { s.client ci with
    reply := x.d.replyAddr, lastSite := x.q.site, lastJob := x.q.job, activity := true, lastActivity := s.swp.mt }).idleToTail ci

/-- A new entry, idle, at the tail of the idle list; an evicted entry's index leaves the list from the head (R65, R69). -/
def State.newClient (ci : Nat) (id : W32) (s : State) : State :=
  let s1 := s.setClient ci { Client.zero with inUse := true, id := id }
  { s1 with clt.idle := s1.clt.idle.erase ci ++ [ci] }

/-- The index a new entry takes: the lowest free one, or the head of the idle list (R65, R69). -/
def State.newClientIndex (s : State) : Option Nat :=
  match lowestFree (fun i => (s.client i).inUse) Config.clients 0 with
  | some i => some i
  | none => s.clt.idle.head?

/-- Step 4: the client entry is found or created, or the claim denied (R14, R65, R66, R69). DESIGN CHOICE (log entry 32): the
TABLE CAPACITY notice of a full client table carries pool 0, as its soft capture does. DESIGN CHOICE (log entry 33): a creation or an
eviction reads the idle-list storage only, and an error in the entry it overwrites is gone, never found. -/
def claimClient (x : ClaimCtx) : Op Unit := do
  check .idleStore
  let s ← get
  match s.findClient x.q.client with
  | some ci =>
    check (.clientEnt ci)
    modify (·.noteClaim ci x)
    claimTag x ci
  | none =>
    match s.newClientIndex with
    | some ci =>
      set (((s.newClient ci x.q.client).heal (.clientEnt ci)).noteClaim ci x)
      claimTag x ci
    | none => set ((s.denyClaim x.d .tryLater 0).capacityEvent .clientTable .general 0 x.q.client 0x0D)

/-- Steps 2 and 3: site, feature code, and entries undamaged, or forwarded (R13). -/
def claimServe (d : Cand) : Op Unit := do
  let q := readClaim d.payload
  checkActive .site q.site
  let s ← get
  match s.siteEntry q.site with
  | none => set (s.handBack d)
  | some site =>
    check (.codeDir s.tbs.active q.code)
    let s ← get
    match s.activeBank.lookup q.code with
    | none => set (s.handBack d)
    | some fi =>
      checkActive .feature fi
      let s ← get
      match s.featureEntry fi with
      | none => set (s.handBack d)
      | some fe =>
        checkActive .pool fe.pool
        checkActive .global 0
        let s ← get
        if s.activeBank.damaged .pool fe.pool || s.activeBank.damagedGlobal then set (s.handBack d)
        else claimClient ⟨d, q, site, fi, fe⟩

/-- CLAIM (R128). -/
def execClaim (hits : List Hit) (s : State) : Out :=
  .next (awake s fun s => takeClient .claim claimServe (s.strike hits))

/-! ### RENEW (R129, R35, R36) -/

/-- A RENEW to be served keeps its handles in the working record; each is decided by a RENEW_HANDLE (R129). -/
def renewServe (d : Cand) : Op Unit := do
  let handles := renewHandles d.payload
  if handleOurs (handles.headD 0) then
    contact d
    modify fun s => { s with exu.work := some ⟨d, cexClient d.payload, cexTag d.payload, handles, []⟩ }
  else modify (·.handBack d)

/-- RENEW (R129). -/
def execRenew (hits : List Hit) (s : State) : Out :=
  .next (awake s fun s => takeClient .renew renewServe (s.strike hits))

/-- The feature of a grant is no longer entitled at a renewal (R36); a damaged entry's weight and window are not tested. -/
def State.renewalEnds (s : State) (g : Slot) : Bool :=
  !s.epochCurrent g.feature g.epoch ||
    match s.featureEntry g.feature with
    | some e => e.weight == 0 || s.outOfWindow e
    | none => false

/-- A renewed grant is HELD with a new deadline (R35). -/
def State.renewSlot (i : Nat) (s : State) : State :=
  let g := s.slot i
  s.setSlot i { g with state := .held, deadline := s.deadlineIn (2 * g.renew) }

/-- The grant a handle names for a client: validation by R28 steps 2 to 4, none with the status of a failed step. -/
def State.ownedSlot (s : State) (h client : W32) : RenewStatus × Bool :=
  let g := s.slot (handleSlot h)
  if g.generation ≠ handleGeneration h ∨ g.state = .free ∨ g.state = .bad then (.unknown, false)
  else if g.owner ≠ client then (.notOwner, false)
  else (.ok, true)

/-- One handle of a served RENEW is decided (R28, R35, R36). -/
def renewOne (h client : W32) : Op (RenewStatus × Option Released) := do
  if handleOurs h then
    let g ← readSlot (handleSlot h)
    let s ← get
    let (st, owned) := s.ownedSlot h client
    if !owned then return (st, none)
    else if g.state = .recalled then
      let r ← release (handleSlot h)
      return (.ended, r)
    else
      check (.featLive g.feature)
      checkActive .feature g.feature
      let s ← get
      if s.renewalEnds g then
        let r ← release (handleSlot h)
        return (.ended, r)
      else
        match g.state with
        | .held =>
          set (s.renewSlot (handleSlot h))
          return (.ok, none)
        | .stale =>
          set (s.renewSlot (handleSlot h))
          return (.late, none)
        | .linger | .recalled | .free | .bad => return (.lingering, none)
  else return (.foreign, none)

/-- The status of a handle joins the working record; after the last handle the RENEW REPORT is composed (R129). -/
def State.renewNote (w : RenewWork) (rest : List W32) (st : RenewStatus) (s : State) : State :=
  let sts := w.statuses ++ [st]
  match rest with
  | [] => { s with exu.work := none }.replyTo w.request (.renewReport sts)
  | _ => { s with exu.work := some { w with left := rest, statuses := sts } }

/-- The next handle of the RENEW being decided, and what its release calls for (R43, R129). -/
def renewStep (w : RenewWork) (h : W32) (rest : List W32) : Op Unit := do
  let (st, r) ← renewOne h w.client
  modify (·.renewNote w rest st)
  match r with
  | some r => afterRelease r
  | none => pure ()

/-- RENEW_HANDLE: the next handle of the RENEW in hand. A RENEW ended at a read is dropped without a report (R129, R173). -/
def execRenewHandle (hits : List Hit) (s : State) : Out :=
  .next (awake s fun s0 =>
    let s := s0.strike hits
    match s.exu.work with
    | some w =>
      match w.left with
      | h :: rest =>
        match renewStep w h rest s with
        | .ok _ s' => s'
        | .error _ s' => { s' with exu.work := none }
      | [] => s
    | none => s)

/-! ### YIELD (R37, R76, R77, R85, R86) -/

/-- The churn counter after a YIELD with a given hold (R76). -/
def churnAfter (g : GlobalEntry) (ch hold : Nat) : Nat :=
  let c := min ch g.cmax
  if hold < g.mh then (if c = g.cmax then c else c + 1) else c - 1

/-- The churn counter of the owner of slot `i` is updated (R76). -/
def State.churnUpdate (i : Nat) (s : State) : State :=
  let g := s.slot i
  let c := s.client g.ownerIdx
  s.setClient g.ownerIdx { c with ch := churnAfter s.globalEntry c.ch (s.secondsSince g.start) }

/-- The churn condition of R77, after the update. -/
def State.churnLingers (s : State) (i : Nat) : Bool :=
  let c := s.client (s.slot i).ownerIdx
  c.ch == s.globalEntry.cmax &&
    match s.siteEntry c.lastSite with
    | some e => !(e.classFor c.lastJob).churnExempt
    | none => true

/-- The linger decision (R85), after the churn update. -/
def State.lingers (s : State) (i : Nat) : Bool :=
  let g := s.slot i
  s.ada.service == .on && s.churnLingers i && s.epochCurrent g.feature g.epoch &&
    (match s.featureEntry g.feature with
     | some e => e.linger && e.pool == g.pool
     | none => false) &&
    (match s.poolEntry g.pool with
     | some e => decide (0 < e.lt)
     | none => false) &&
    (s.poolLive g.pool).pressure == .normal

/-- A yielded grant enters LINGER (R86). -/
def State.enterLinger (i : Nat) (s : State) : State :=
  let g := s.slot i
  let lt := ((s.poolEntry g.pool).map (·.lt)).getD 0
  (s.setSlot i { g with state := .linger, deadline := s.deadlineIn lt }).setLinger g.pool (s.lingerList g.pool ++ [i])

/-- The words a YIELD of a HELD or STALE grant reads beside its slot's. -/
def State.yieldWords (s : State) (g : Slot) : List MemWord :=
  [.clientEnt g.ownerIdx, s.activeWord .global 0, s.activeWord .site (s.client g.ownerIdx).lastSite, .featLive g.feature,
    s.activeWord .feature g.feature, s.activeWord .pool g.pool, .poolLive g.pool]

/-- The handle of a served YIELD is decided (R28, R37). -/
def yieldOne (h client : W32) : Op (YieldStatus × Option Released) := do
  let i := handleSlot h
  let g ← readSlot i
  let s ← get
  let (st, owned) := s.ownedSlot h client
  if !owned then return (if st = .notOwner then .notOwner else .unknown, none)
  else
    match g.state with
    | .held | .stale =>
      checkAll (s.yieldWords g)
      modify (·.churnUpdate i)
      let s ← get
      if s.lingers i then
        set (s.enterLinger i)
        return (.lingering, none)
      else
        let r ← release i
        return (.released, r)
    | .recalled =>
      let r ← release i
      return (.ended, r)
    | .linger | .free | .bad => return (.lingering, none)

/-- A YIELD to be served: its handle is decided, its report composed, then the checks a release calls for (R129, R43). -/
def yieldServe (d : Cand) : Op Unit := do
  let h := be32 d.payload 12
  if handleOurs h then
    contact d
    let (st, r) ← yieldOne h (cexClient d.payload)
    modify (·.replyTo d (.yieldReport h st))
    match r with
    | some r => afterRelease r
    | none => pure ()
  else modify (·.handBack d)

/-- YIELD (R37). -/
def execYieldGrant (hits : List Hit) (s : State) : Out :=
  .next (awake s fun s => takeClient .yieldGrant yieldServe (s.strike hits))

/-! ### QUERY (R130) -/

/-- The QUERY REPORT of a feature for a class (R130). -/
def State.queryMsg (s : State) (code : W32) (fi : Nat) (fe : FeatureEntry) (cls : Cls) : CexMsg :=
  .queryReport code fe.pool cls (s.poolLive fe.pool).pressure (s.availability fe.pool cls) fe.weight (s.featLive fi).hf
    fe.cap (s.queue fe.pool cls).length

/-- The QUERY REPORT, the words of its figures read first (R130). -/
def queryReport (d : Cand) (code : W32) (fi : Nat) (fe : FeatureEntry) (cls : Cls) : Op Unit := do
  checkAll [.featLive fi, .poolLive fe.pool, .queueStore fe.pool]
  let s ← get
  set (s.replyTo d (s.queryMsg code fi fe cls))

/-- A QUERY to be served: forwarded by its site, code or a damaged entry, or reported (R130). -/
def queryServe (d : Cand) : Op Unit := do
  let code := be32 d.payload 12
  let site := (byteAt d.payload 16).toNat
  let job := (byteAt d.payload 17).toNat
  checkActive .site site
  let s ← get
  match s.siteEntry site with
  | none => set (s.handBack d)
  | some e =>
    check (.codeDir s.tbs.active code)
    let s ← get
    match s.activeBank.lookup code with
    | none => set (s.handBack d)
    | some fi =>
      checkActive .feature fi
      let s ← get
      match s.featureEntry fi with
      | none => set (s.handBack d)
      | some fe =>
        checkActive .pool fe.pool
        checkActive .global 0
        let s ← get
        if s.activeBank.damaged .pool fe.pool || s.activeBank.damagedGlobal then set (s.handBack d)
        else queryReport d code fi fe (e.classFor job).cls

/-- QUERY (R130). -/
def execQuery (hits : List Hit) (s : State) : Out :=
  .next (awake s fun s => takeClient .query queryServe (s.strike hits))

/-! ### WITHDRAW (R51, R131) -/

/-- A WITHDRAW to be served: the waiter its tag names is removed, or the reply is DENY NOT_WAITING (R51). -/
def withdrawServe (d : Cand) : Op Unit := do
  contact d
  let s ← get
  match s.findClient (cexClient d.payload) with
  | none => set (s.replyTo d (.deny .notWaiting 0))
  | some ci =>
    match s.findWaiter ci (cexTag d.payload) with
    | none => set (s.replyTo d (.deny .notWaiting 0))
    | some wi => removeWaiter wi .withdrawn (some d) true

/-- WITHDRAW (R51). -/
def execWithdraw (hits : List Hit) (s : State) : Out :=
  .next (awake s fun s => takeClient .withdraw withdrawServe (s.strike hits))

/-- CEX_DATAGRAM_OF_OTHER_KIND: malformed in ON and DRAIN, forwarded in OFF and FAULTED (R125). -/
def execCexDatagramOfOtherKind (s : State) : Out :=
  .next (awake s fun s => takeClient .other (fun d => modify (·.denyMalformed d)) s)

end Sys2Proof.Machine
end

