-- ==== Sys2Proof/Machine/Service.lean ====
section
/-!
DEFINITION. Machine/Service.lean: the pool service, by rounds that an event may part between their two examinations (R57 to R63).
-/
namespace Sys2Proof.Machine

/-- Why a head can no longer be served (R59, in its order). -/
def State.headRefusal (s : State) (w : Waiter) : Option Reason :=
  if !s.epochCurrent w.feature w.epoch then some .tableChanged
  else
    match s.featureEntry w.feature with
    | none => some .tryLater
    | some e =>
      if e.pool ≠ w.pool then some .tableChanged
      else if e.weight = 0 ∨ (s.poolEntry w.pool).isNone then some .disabled
      else if s.outOfWindow e then some .expired
      else if s.globalEntry.grantLimit ≤ (s.client w.clientIdx).grants then some .clientLimit
      else none

/-- The head passes the cap and token parts of the fit test (R60). -/
def State.headFits (s : State) (w : Waiter) : Bool :=
  (match s.featureEntry w.feature with
   | some e => capPasses e (s.featLive w.feature).hf w.units
   | none => false) &&
    decide (w.cost ≤ s.availability w.pool w.cls)

/-- The grant a waiter becomes (R32). -/
def Waiter.newGrant (w : Waiter) (renew : Nat) : NewGrant :=
  { owner := w.client, ownerIdx := w.clientIdx, tag := w.tag, feature := w.feature, epoch := w.epoch, pool := w.pool,
    cls := w.cls, units := w.units, cost := w.cost, renew := renew }

/-- A head is granted in slot `i`: one event (R61). DESIGN CHOICE (log entry 33): the record of the slot is written unread. -/
def State.grantWaiter (wi i : Nat) (s : State) : State :=
  let w := s.waiter wi
  let ri := ((s.poolEntry w.pool).map (·.ri)).getD 0
  let s1 := (s.unqueue wi).lowerWaiterCount w.clientIdx
  let s2 := (s1.createGrant i (w.newGrant ri)).heal (.grantRec i)
  (s2.tell (s2.client w.clientIdx) w.client w.tag (s2.grantMsg i (s2.loadedCode w.feature))).countGranted

/-- A head that fits the cap and the tokens finds the free-slot FIFO empty: the exhausted flag, with the notice and the capture
when it was clear (R30, R60). -/
def State.headExhausted (w : Waiter) (s : State) : State :=
  if s.grt.exhausted then s
  else { s with grt.exhausted := true }.capacityEvent .grantTable .general w.pool w.client 0x0C

/-- The words the examination of a head reads beside its waiter record. -/
def State.headWords (s : State) (w : Waiter) : List MemWord :=
  [.featLive w.feature, s.activeWord .feature w.feature, s.activeWord .pool w.pool, s.activeWord .global 0,
    .clientEnt w.clientIdx, .poolLive w.pool]

/-- The examination of the head of a queue: removed or granted (true), or blocked or no head (false) (R58 to R61). DESIGN CHOICE
(log entry 33): of the FREE slot it allocates only the link memory is read (R29), and a lost record word is healed by the writing
of the new record. -/
def examineHead (p : Nat) (c : Cls) : Op Bool := do
  check (.queueStore p)
  let s ← get
  match s.queue p c with
  | [] => return false
  | wi :: _ =>
    check (.waiterRec wi)
    let s ← get
    let w := s.waiter wi
    checkAll (s.headWords w)
    let s ← get
    match s.headRefusal w with
    | some r =>
      removeWaiter wi r none false
      return true
    | none =>
      if s.headFits w then
        match s.grt.freeFifo with
        | [] =>
          set (s.headExhausted w)
          return false
        | i :: _ =>
          check (.grantLink i)
          modify (·.grantWaiter wi i)
          pressure p false
          return true
      else return false

/-- How an examination leaves its round (R58, R62). -/
inductive RoundEnd where
  /-- a waiter left its queue: the round ends and the run goes on -/
  | taken
  /-- neither queue gave a waiter -/
  | nothing
  /-- the PRIORITY head is blocked, and other events come before the GENERAL head is examined -/
  | parted
  deriving DecidableEq, Repr

/-- The examination of the GENERAL head, the last of a round (R58). -/
def generalHead (p : Nat) : Op RoundEnd := do
  let taken ← examineHead p .general
  return if taken then .taken else .nothing

/-- A round from its start: the PRIORITY head, then the GENERAL head (R58). `parted` says that other events come between two
examinations: with a PRIORITY head found blocked the GENERAL head is then left to the next step of the run (R62). -/
def serviceRound (p : Nat) (parted : Bool) : Op RoundEnd := do
  let taken ← examineHead p .priority
  if taken then return .taken
  else
    let s ← get
    if parted && !(s.queue p .priority).isEmpty then
      set (s.mapRun p (fun r => { r with stage := .general false }))
      return .parted
    else generalHead p

/-- A notice is owed by the run of a pool in progress (R82 point 4). -/
def State.owesNotice (p : Nat) (s : State) : Bool := s.adm.runs.any (fun r => r.pool == p && !r.owed.isEmpty)

/-- The run of a pool ends: the words that give the figures of the notices it owes are read first (R84, R110, R171). DESIGN CHOICE
(log entry 34): the notices are queued although one of these reads, or the read that ended the run, found its word lost, after the
entry to FAULTED and with the figures left by the loss. -/
def finishRun (p : Nat) : Op Unit := do
  let s ← get
  if s.owesNotice p then
    attempt (checkActive .pool p)
    attempt (check (.poolLive p))
  else pure ()
  modify (·.endRun p)

/-- What follows the examinations of a round: the run goes on when a waiter was taken, when the round is parted, and when a cause arose
in the middle of a round that took none; it ends otherwise, and at a read that ends the round. DESIGN CHOICE (log entry 9): R58 ends
the run at a round that takes no waiter and R57 has it make its next round on the state a cause has left; the model lets R57 decide. -/
def closeRound (p : Nat) (cause : Bool) : EStateM.Result Stop State RoundEnd → State
  | .ok .nothing s => if cause then s else settle (finishRun p) s
  | .ok _ s => s
  | .error _ s => settle (finishRun p) s

/-- POOL_SERVICE_ROUND: a round of the run in progress of its pool, or the rest of the round parted before (R58, R62). The run also ends
while COUNT REBUILD occupies the slot (R57, R164; log entry 9); with no run in progress there is no round. -/
def execPoolServiceRound (round : Round) (hits : List Hit) (s : State) : Out :=
  .next (awake s fun s0 =>
    let s := s0.strike hits
    match s.runOf round.pool with
    | none => s
    | some r =>
      if s.ada.op.isRebuild then settle (finishRun round.pool) s
      else
        match r.stage with
        | .priority => closeRound round.pool false (serviceRound round.pool round.parted s)
        | .general cause =>
          closeRound round.pool cause (generalHead round.pool (s.mapRun round.pool (fun r => { r with stage := .priority }))))

end Sys2Proof.Machine
end

