-- ==== Sys2Proof/Machine/Sweep.lean ====
section
/-!
DEFINITION. Machine/Sweep.lean: the seconds count and the four sweeper passes (R93, R98 to R104).
-/
namespace Sys2Proof.Machine

/-- The four passes (R98). -/
inductive PassId where
  | grant
  | waiter
  | pool
  | client
  deriving DecidableEq, Repr

def Swp.pass (w : Swp) : PassId → Pass
  | .grant => w.grantPass
  | .waiter => w.waiterPass
  | .pool => w.poolPass
  | .client => w.clientPass

def Swp.setPass (w : Swp) (id : PassId) (p : Pass) : Swp :=
  match id with
  | .grant => { w with grantPass := p }
  | .waiter => { w with waiterPass := p }
  | .pool => { w with poolPass := p }
  | .client => { w with clientPass := p }

/-- Indexes a round visits (R98). -/
def PassId.size : PassId → Nat
  | .grant => Config.slots
  | .waiter => Config.waiters
  | .pool => Config.pools
  | .client => Config.clients

/-- The pass runs in a service state (R104). -/
def PassId.runsIn (id : PassId) : Service → Bool
  | .starting => false
  | .passOnly => false
  | .on => true
  | .drain => true
  | .off => true
  | .faulted => id == .pool

/-- A round of the pass begins when MT becomes `mt`: at a multiple of 2 for the grant pass, at any value otherwise (R98). -/
def PassId.begins (id : PassId) (mt : W32) : Bool :=
  match id with
  | .grant => mt.toNat % 2 == 0
  | _ => true

/-- The round labelled with the new MT begins, its visits coming after those of the rounds that have not ended (R98). -/
def Swp.beginRound (id : PassId) (sv : Service) (w : Swp) : Swp :=
  if id.runsIn sv && id.begins w.mt then
    w.setPass id { w.pass id with rounds := (w.pass id).rounds ++ [w.mt] }
  else w

/-- MT_ADVANCE: MT rises by 1, wrapping, and opens the rounds of the running passes (R93, R98). -/
def execMtAdvance (s : State) : Out :=
  .next (awake s fun s =>
    let w := { s.swp with mt := s.swp.mt + 1 }
    let sv := s.ada.service
    { s with swp := (((w.beginRound .grant sv).beginRound .waiter sv).beginRound .pool sv).beginRound .client sv })

/-- The cursor moves on; after the last index the round ends and the next one of the pass, if begun, is in progress. A pass
stopped by its own visit keeps its cursor (R98, R105). -/
def Pass.advance (size : Nat) (p : Pass) : Pass :=
  match p.rounds with
  | [] => p
  | _ :: later => if p.cursor + 1 < size then { p with cursor := p.cursor + 1 } else ⟨0, later⟩

/-- A visit of a pass at its cursor, given the label of its round; with no round in progress there is no visit. -/
def passVisit (id : PassId) (act : W32 → Nat → Op Unit) (s : State) : State :=
  match (s.swp.pass id).rounds with
  | [] => s
  | label :: _ =>
    let s1 := settle (act label (s.swp.pass id).cursor) s
    { s1 with swp := s1.swp.setPass id ((s1.swp.pass id).advance id.size) }

/-- A HELD grant whose renew deadline has passed becomes STALE, with its notice (R38). -/
def State.makeStale (i : Nat) (s : State) : State :=
  let g := s.slot i
  let sg := ((s.poolEntry g.pool).map (·.sg)).getD 0
  (s.setSlot i { g with state := .stale, deadline := s.deadlineIn sg }).queueNotice
    (.grantStale (handleOf i g.generation) g.owner g.pool g.feature)

/-- A grant pass visit to slot `i` (R38, R39, R99). DESIGN CHOICE (log entry 35): the GRANT RECLAIMED notice is queued before the
notices of the checks that follow the release. -/
def grantVisit (i : Nat) : Op Unit := do
  let g ← readSlot i
  let s ← get
  if g.state.live && s.passed g.deadline then
    match g.state with
    | .held =>
      checkActive .pool g.pool
      modify (·.makeStale i)
    | .stale =>
      let r ← release i
      modify fun s =>
        (s.queueNotice (.grantReclaimed (handleOf i g.generation) g.owner g.pool g.feature)).countReclaimed
      match r with
      | some r => afterRelease r
      | none => pure ()
    | .linger | .recalled | .free | .bad =>
      let r ← release i
      match r with
      | some r => afterRelease r
      | none => pure ()
  else pure ()

/-- GRANT_PASS_VISIT (R99). -/
def execGrantPassVisit (hits : List Hit) (s : State) : Out :=
  .next (awake s fun s => passVisit .grant (fun _ i => grantVisit i) (s.strike hits))

/-- Why a waiter pass visit removes a waiter (R53, in its order). -/
def State.waiterRefusal (s : State) (w : Waiter) : Option Reason :=
  if s.passed w.deadline then some .waitExpired
  else if !s.epochCurrent w.feature w.epoch then some .tableChanged
  else
    match s.featureEntry w.feature with
    | none => none
    | some e =>
      if e.pool ≠ w.pool then some .tableChanged
      else if e.weight = 0 ∨ (s.poolEntry w.pool).isNone then some .disabled
      else if s.outOfWindow e then some .expired
      else none

/-- A waiter pass visit to record `i` (R53, R100). -/
def waiterVisit (i : Nat) : Op Unit := do
  check (.waiterRec i)
  let s ← get
  let w := s.waiter i
  if w.inUse then
    checkAll [.featLive w.feature, s.activeWord .feature w.feature, s.activeWord .pool w.pool]
    let s ← get
    match s.waiterRefusal w with
    | some r => removeWaiter i r none true
    | none => pure ()
  else pure ()

/-- WAITER_PASS_VISIT (R100). -/
def execWaiterPassVisit (hits : List Hit) (s : State) : Out :=
  .next (awake s fun s => passVisit .waiter (fun _ i => waiterVisit i) (s.strike hits))

/-- A pool pass visit to pool `p`: its live record is read in every state, FAULTED included (R101, R104). -/
def poolVisit (p : Nat) : Op Unit := do
  check (.poolLive p)
  pressure p true
  modify (·.startRun p)

/-- POOL_PASS_VISIT (R101). -/
def execPoolPassVisit (hits : List Hit) (s : State) : Out :=
  .next (awake s fun s => passVisit .pool (fun _ p => poolVisit p) (s.strike hits))

/-- The pace counter and the activity flag at the visit for second `sec` (R73). -/
def Client.pace (g : GlobalEntry) (sec : Nat) (c : Client) : Client :=
  let c1 :=
    if sec % g.bi = 0 then
      let rp := min c.rp g.pmax
      { c with rp := if c.activity ∧ rp ≠ g.pmax then rp + 1 else rp, activity := false }
    else c
  if sec % g.di = 0 then { c1 with rp := min c1.rp g.pmax - 1 } else c1

/-- A client pass visit to entry `i` for the second of its round's label (R73, R102). DEDUCED (log entry 8): every visit reads the
entry and the idle-list storage. -/
def clientVisit (label : W32) (i : Nat) : Op Unit := do
  checkAll [.clientEnt i, .idleStore]
  let s ← get
  if (s.client i).inUse then
    checkActive .global 0
    modify fun s => s.setClient i ((s.client i).pace s.globalEntry label.toNat)
  else pure ()

/-- CLIENT_PASS_VISIT (R102). -/
def execClientPassVisit (hits : List Hit) (s : State) : Out :=
  .next (awake s fun s => passVisit .client clientVisit (s.strike hits))

end Sys2Proof.Machine
end

