-- ==== Sys2Proof/WellFormed.lean ====
section
/-!
DEFINITION. WellFormed.lean: which commands name only things the part has. A command that is not well formed names a memory
word, a pool or a boot record that does not exist.
-/
namespace Sys2Proof

/-- Size of a table of a bank (R106). -/
def TableKind.size : TableKind → Nat
  | .feature => Config.features
  | .pool => Config.pools
  | .site => Config.sites
  | .global => 1

/-- The word exists in the part's memories (00_scope.md 1.3). -/
def MemWord.inPart : MemWord → Bool
  | .grantRec i => i < Config.slots
  | .grantLink i => i < Config.slots
  | .waiterRec i => i < Config.waiters
  | .queueStore p => p < Config.pools
  | .clientEnt i => i < Config.clients
  | .idleStore => true
  | .bankEntry _ k i => i < k.size
  | .codeDir _ code => code ≠ 0#32
  | .poolLive p => p < Config.pools
  | .featLive i => i < Config.features

/-- The damage is one the word can show: only a code directory word can lose its index alone (R110). -/
def Hit.wellFormed (h : Hit) : Bool :=
  h.word.inPart && match h.damage, h.word with
    | .indexLost, .codeDir _ _ => true
    | .indexLost, _ => false
    | _, _ => true

def hitsWellFormed (hits : List Hit) : Bool := hits.all Hit.wellFormed

/-- A command's operands name only what the part has. -/
def Instr.wellFormed : Instr → Bool
  | .resetN => true
  | .bootReadCompletion none => true
  | .bootReadCompletion (some bytes) => bytes.length == Config.bootBytes
  | .linkUp _ => true
  | .linkDown _ _ => true
  | .mtAdvance => true
  | .frameArrival _ _ => true
  | .portReady _ => true
  | .claim hits => hitsWellFormed hits
  | .renew hits => hitsWellFormed hits
  | .renewHandle hits => hitsWellFormed hits
  | .yieldGrant hits => hitsWellFormed hits
  | .query hits => hitsWellFormed hits
  | .withdraw hits => hitsWellFormed hits
  | .poolServiceRound pool hits => pool.pool < Config.pools && hitsWellFormed hits
  | .grantPassVisit hits => hitsWellFormed hits
  | .waiterPassVisit hits => hitsWellFormed hits
  | .poolPassVisit hits => hitsWellFormed hits
  | .clientPassVisit hits => hitsWellFormed hits
  | .noticeHandoff => true
  | .readStatus => true
  | .readEntry hits => hitsWellFormed hits
  | .readPool hits => hitsWellFormed hits
  | .readFeatureLive hits => hitsWellFormed hits
  | .readGrant hits => hitsWellFormed hits
  | .readWaiter hits => hitsWellFormed hits
  | .readClient hits => hitsWellFormed hits
  | .writeEntry hits => hitsWellFormed hits
  | .setTime => true
  | .setWithhold hits => hitsWellFormed hits
  | .setService hits => hitsWellFormed hits
  | .revokeHandle hits => hitsWellFormed hits
  | .clearCapture => true
  | .writeBootRecord => true
  | .flashWriteCompletion bytes => bytes.length == Config.bootBytes
  | .copyBank => true
  | .copyBankVisit hits => hitsWellFormed hits
  | .copyBankCompletion => true
  | .swapBank hits => hitsWellFormed hits
  | .reconcileGrantVisit hits => hitsWellFormed hits
  | .reconcileWaiterVisit hits => hitsWellFormed hits
  | .reconcilePoolVisit hits => hitsWellFormed hits
  | .reconcileCompletion => true
  | .audit => true
  | .auditVisit hits => hitsWellFormed hits
  | .auditCompletion => true
  | .scanRevoke => true
  | .scanRevokeGrantVisit hits => hitsWellFormed hits
  | .scanRevokeWaiterVisit hits => hitsWellFormed hits
  | .scanRevokeCompletion => true
  | .countRebuild => true
  | .countRebuildVisit hits => hitsWellFormed hits
  | .countRebuildCompletion hits => hitsWellFormed hits
  | .serviceReset => true
  | .serviceResetCompletion => true
  | .resetNLow => true
  | .modulePresenceChange _ _ => true
  | .cexDatagramOfOtherKind => true
  | .adminCandidateRefused => true

end Sys2Proof
end

