-- ==== Sys2Proof/Machine/Admin.lean ====
section
/-!
DEFINITION. Machine/Admin.lean: taking administration datagrams, the read commands and the other short commands (R155 to R160, R170,
R176, R182).
-/
namespace Sys2Proof.Machine

/-! ### Taking a command -/

/-- The number of the first station entry that matches a source (R155 check 1). -/
def State.stationOf (s : State) (d : Cand) : Option Nat :=
  s.addrs.stations.findIdx? (fun st => st.ip == d.srcIp && st.udp == d.srcPort)

/-- An accepted command: the station it came from, its reply address and sequence, and its body. -/
structure AdmCtx where
  code : AdminCode
  issuer : Issuer
  body : List Byte
  deriving DecidableEq, Repr

/-- The reply of an accepted command (R151, R155). -/
def State.adminReply (x : AdmCtx) (r : Result) (body : List Byte) (s : State) : State :=
  s.adminSend x.issuer x.code.code r body

/-- The issuing station of a command's frame (R161). -/
def Cand.issuer (d : Cand) (station : Nat) : Issuer :=
  ⟨d.srcIp, d.srcPort, d.srcMac, d.vlan, adminSeq d.payload, station⟩

/-- The Link Unit writes the station's neighbour record from the frame of an accepted datagram (R143). -/
def State.noteNeighbour (station : Nat) (d : Cand) (s : State) : State :=
  { s with lnk.neighbours := Tab.put none s.lnk.neighbours station (some ⟨d.srcMac, d.vlan⟩) }

/-- The command `c` at the head of the intake is taken: accepted by R155 checks 1 and 2 and naming this command, it is answered
BAD_VALUE for its body length (check 3) or run; a command ended at a read is answered REFUSED_STATE (R173). A head that is no
such command leaves the state as it is (log entry 2): it is another command's, or ADMIN_CANDIDATE_REFUSED's. -/
def takeAdmin (c : AdminCode) (run : AdmCtx → Op Unit) (s : State) : State :=
  match s.ada.intake with
  | [] => s
  | d :: rest =>
    match s.stationOf d with
    | none => s
    | some station =>
      if s.ada.service.serving && adminHeaderGood d.payload && (adminCode d.payload == some c) then
        let s1 := { s with ada.intake := rest }.noteNeighbour station d
        let x : AdmCtx := ⟨c, d.issuer station, adminBody d.payload⟩
        if adminLengthGood c d.payload then
          match run x s1 with
          | .ok _ s2 => s2
          | .error _ s2 => s2.adminReply x .refusedState []
        else s1.adminReply x .badValue []
      else s

/-- ADMIN_CANDIDATE_REFUSED: the head of the intake fails check 1, check 2 or names no command of section 10.2 (R155). -/
def execAdminCandidateRefused (s : State) : Out :=
  .next (awake s fun s =>
    match s.ada.intake with
    | [] => s
    | d :: rest =>
      if s.ada.service.serving then
        let s1 := { s with ada.intake := rest }
        match s.stationOf d with
        | none => s1.softEvent ⟨0x02, d.srcPort.toNat, 0, d.srcIp⟩
        | some station =>
          if !adminHeaderGood d.payload then s1.countDropped
          else
            match adminCode d.payload with
            | some _ => s
            | none =>
              let s2 := s1.noteNeighbour station d
              s2.adminSend (d.issuer station) (byteAt d.payload 4).toNat .badValue []
      else s)

/-- The fields of a command body. -/
def AdmCtx.u8 (x : AdmCtx) (i : Nat) : Nat := (byteAt x.body i).toNat
def AdmCtx.u16 (x : AdmCtx) (i : Nat) : Nat := (be16 x.body i).toNat
def AdmCtx.u32 (x : AdmCtx) (i : Nat) : W32 := be32 x.body i

/-- Answers and ends a command. -/
def answer (x : AdmCtx) (r : Result) (body : List Byte) : Op Unit := modify (·.adminReply x r body)

/-! ### Links read from the lists they form -/

/-- The element after `i` in a list. -/
def nextIn (i : Nat) : List Nat → Option Nat
  | a :: b :: t => if a = i then some b else nextIn i (b :: t)
  | _ => none

/-- The element before `i` in a list. -/
def prevIn (i : Nat) (l : List Nat) : Option Nat := nextIn i l.reverse

/-- The previous and next links of `i` in a list, none when it does not stand there. -/
def linkBytes (i : Nat) (l : List Nat) : List Byte := index16 (prevIn i l) ++ index16 (nextIn i l)

/-! ### Reply bodies of the read commands (R157) -/

def Stats.bytes (t : Stats) : List Byte :=
  bytes32 t.granted ++ bytes32 t.denied ++ bytes32 t.deferred ++ bytes32 t.forwarded ++ bytes32 t.reclaimed
    ++ bytes32 t.dropped

/-- A VLAN tag in a reply: the tag, or 4 bytes of 0 (section 12.2). -/
def vlanField : Option W16 → List Byte
  | some t => vlanBytes (some t)
  | none => [0, 0, 0, 0]

def Issuer.bytes (i : Issuer) : List Byte :=
  bytes32 i.ip ++ bytes16 i.udp ++ bytes48 i.mac ++ vlanField i.vlan ++ bytes16 i.seq

/-- READ STATUS, the figures in the order of R157, the copy of the boot record last (R169; log entry 21). -/
def State.statusBytes (s : State) : List Byte :=
  nat8 s.ada.service.code ++ nat8 s.tbs.active.code ++ bytes32 s.tbs.bank0.sum ++ bytes32 s.tbs.bank1.sum
    ++ bytes32 s.swp.mt ++ bytes32 s.dt ++ flag8 s.swp.dtValid ++ flag8 s.grt.suspect ++ flag8 s.grt.exhausted
    ++ nat32 s.grt.liveTotal ++ nat16 s.wts.np ++ nat16 s.wts.ng
    ++ nat8 s.ada.op.stateCode ++ nat8 s.ada.op.phaseCode ++ nat16 s.ada.op.cursor ++ s.ada.issuer.bytes
    ++ nat8 s.ada.flash.code ++ s.ada.stats.bytes
    ++ flag8 s.fnu.soft.locked ++ flag8 s.fnu.soft.second ++ flag8 s.fnu.hard.locked ++ flag8 s.fnu.hard.second
    ++ flag8 s.fnu.lost ++ s.ada.bootCopy

/-- READ POOL (R157). -/
def State.poolBytes (s : State) (p : Nat) : List Byte :=
  let l := s.poolLive p
  nat32 l.up ++ nat32 l.ug ++ nat32 l.w ++ nat8 l.pressure.code ++ bytes32 l.entryTime
    ++ nat16 (s.lingerList p).length ++ index16 (s.lingerList p).head?
    ++ nat16 (s.queue p .priority).length ++ index16 (s.queue p .priority).head?
    ++ nat16 (s.queue p .general).length ++ index16 (s.queue p .general).head?
    ++ nat32 (s.ce p) ++ nat32 (s.availability p .priority) ++ nat32 (s.availability p .general) ++ nat32 (s.freeMeasure p)

def FeatLive.bytes (l : FeatLive) : List Byte := nat32 l.hf ++ [l.epoch]

/-- READ GRANT: every field of R25 in its order, then the handle (R157). -/
def State.grantBytes (s : State) (i : Nat) : List Byte :=
  let g := s.slot i
  nat8 g.state.code ++ bytes32 g.owner ++ bytes16 g.tag ++ nat16 g.feature ++ [g.epoch] ++ nat16 g.pool ++ nat8 g.cls.code
    ++ nat8 g.units ++ nat32 g.cost ++ nat16 g.renew ++ bytes32 g.start ++ bytes32 g.deadline
    ++ nat8 ((g.reason.map Reason.code).getD 0) ++ bytes16 g.generation ++ nat16 g.ownerIdx
    ++ linkBytes i (s.client g.ownerIdx).chain ++ linkBytes i (s.lingerList g.pool) ++ bytes32 (handleOf i g.generation)

/-- READ WAITER: every field of R46 in its order; for a waiter in use, its position and seconds (R157). -/
def State.waiterBytes (s : State) (i : Nat) : List Byte :=
  let w := s.waiter i
  flag8 w.inUse ++ nat16 w.clientIdx ++ bytes32 w.client ++ bytes16 w.tag ++ nat16 w.feature ++ [w.epoch] ++ nat16 w.pool
    ++ nat8 w.cls.code ++ nat8 w.units ++ nat32 w.cost ++ bytes32 w.deadline ++ linkBytes i (s.queue w.pool w.cls)
    ++ if w.inUse then nat16 (s.position i) ++ nat16 (s.secondsUntil w.deadline) else []

/-- READ CLIENT: the index and every field of R64 in its order (R157). -/
def State.clientBytes (s : State) (i : Nat) : List Byte :=
  let c := s.client i
  nat16 i ++ flag8 c.inUse ++ bytes32 c.id
    ++ bytes48 c.reply.mac ++ vlanField c.reply.vlan ++ bytes32 c.reply.ip ++ bytes16 c.reply.udp ++ nat8 c.reply.port.code
    ++ nat8 c.lastSite ++ nat8 c.lastJob ++ nat8 c.rp ++ flag8 c.activity ++ nat8 c.ch ++ nat32 c.grants
    ++ index16 c.chain.head? ++ nat16 c.waiters ++ bytes32 c.lastActivity ++ linkBytes i s.clt.idle

/-- READ ENTRY: for one index, a damaged indication, and without damage the entry's words (R157, R183; log entry 21). -/
def State.entryBytes (s : State) (b : BankId) (k : TableKind) (i : Nat) : List Byte :=
  if (s.bank b).damaged k i then flag8 true
  else flag8 false ++ (((s.bank b).entry k i).words.map bytes32).flatten

/-! ### The read commands -/

/-- READ STATUS; its flag clears the counters after their values are placed in the reply (R157, R160). DESIGN CHOICE (log entry 42): they
are cleared before the reply is queued, so the loss of that reply at a full originate queue leaves dropped at 1. -/
def readStatusRun (x : AdmCtx) : Op Unit :=
  if 1 < x.u8 0 then answer x .badValue []
  else do
    let s ← get
    let body := s.statusBytes
    let s1 := if x.u8 0 = 1 then { s with ada.stats := .zero } else s
    set (s1.adminReply x .done body)

/-- READ_STATUS (R157). -/
def execReadStatus (s : State) : Out :=
  .next (awake s fun s => takeAdmin .readStatus readStatusRun s)

/-- The bank a byte names. -/
def bankOf : Nat → Option BankId
  | 0 => some .b0
  | 1 => some .b1
  | _ => none

/-- Checked reads of entries `i` on, `n` of them. -/
def readEntries (b : BankId) (k : TableKind) : Nat → Nat → Op Unit
  | 0, _ => pure ()
  | n + 1, i => do
    check (.bankEntry b k i)
    readEntries b k n (i + 1)

/-- READ ENTRY with its arguments good. -/
def readEntryReport (x : AdmCtx) (b : BankId) (k : TableKind) (first count : Nat) : Op Unit := do
  readEntries b k count first
  let s ← get
  set (s.adminReply x .done (((List.range count).map (fun j => s.entryBytes b k (first + j))).flatten))

/-- READ ENTRY (R157, R182). -/
def readEntryRun (x : AdmCtx) : Op Unit :=
  match TableKind.ofCode (x.u8 1) with
  | none => answer x .badValue []
  | some k =>
    if x.u8 5 ≠ 0 ∨ x.u16 6 ≠ 0 ∨ x.u8 4 = 0 ∨ 16 < x.u8 4 then answer x .badValue []
    else
      match bankOf (x.u8 0) with
      | none => answer x .badIndex []
      | some b =>
        if k.size < x.u16 2 + x.u8 4 then answer x .badIndex []
        else readEntryReport x b k (x.u16 2) (x.u8 4)

/-- READ_ENTRY (R157). -/
def execReadEntry (hits : List Hit) (s : State) : Out :=
  .next (awake s fun s => takeAdmin .readEntry readEntryRun (s.strike hits))

/-- A read of one record by its index: the spare bytes, the index, the checked reads, the report (R157, R182). -/
def readOne (size : Nat) (words : Nat → List MemWord) (report : State → Nat → List Byte) (x : AdmCtx) : Op Unit :=
  if x.u16 2 ≠ 0 then answer x .badValue []
  else if size ≤ x.u16 0 then answer x .badIndex []
  else do
    checkAll (words (x.u16 0))
    let s ← get
    set (s.adminReply x .done (report s (x.u16 0)))

/-- The words READ POOL reads: the live record, the queues, the active entry, and the link memory of every slot of the linger
list, which holds its head and length (R1, R87; log entry 8). -/
def State.poolWords (s : State) (p : Nat) : List MemWord :=
  [.poolLive p, .queueStore p, s.activeWord .pool p] ++ (s.lingerList p).map .grantLink

/-- READ_POOL (R157). -/
def execReadPool (hits : List Hit) (s : State) : Out :=
  .next (awake s fun s => takeAdmin .readPool (readOne Config.pools s.poolWords State.poolBytes) (s.strike hits))

/-- READ_FEATURE_LIVE (R157). -/
def execReadFeatureLive (hits : List Hit) (s : State) : Out :=
  .next (awake s fun s =>
    takeAdmin .readFeatureLive
      (readOne Config.features (fun i => [.featLive i]) (fun s i => (s.featLive i).bytes)) (s.strike hits))

/-- READ_GRANT (R157): a slot found lost is reported BAD. -/
def execReadGrant (hits : List Hit) (s : State) : Out :=
  .next (awake s fun s =>
    takeAdmin .readGrant (readOne Config.slots (fun i => [.grantLink i, .grantRec i]) State.grantBytes) (s.strike hits))

/-- READ_WAITER (R157). DESIGN CHOICE (log entry 8): it reads the record and the queue storage of the record's pool, in use or not, and no
record ahead of it. -/
def execReadWaiter (hits : List Hit) (s : State) : Out :=
  .next (awake s fun s =>
    takeAdmin .readWaiter
      (readOne Config.waiters (fun i => [.waiterRec i, .queueStore (s.waiter i).pool]) State.waiterBytes) (s.strike hits))

/-- READ CLIENT: the entry in use that carries the ID (R157). DESIGN CHOICE (log entry 8): it reads the entry and the idle-list storage,
idle or not. -/
def readClientRun (x : AdmCtx) : Op Unit :=
  if x.u32 0 = 0 then answer x .badValue []
  else do
    let s ← get
    match s.findClient (x.u32 0) with
    | none => set (s.adminReply x .badIndex [])
    | some i =>
      checkAll [.clientEnt i, .idleStore]
      let s ← get
      set (s.adminReply x .done (s.clientBytes i))

/-- READ_CLIENT (R157). -/
def execReadClient (hits : List Hit) (s : State) : Out :=
  .next (awake s fun s => takeAdmin .readClient readClientRun (s.strike hits))

/-! ### The other short commands -/

/-- SET TIME: the offset and the valid flag (R94). -/
def setTimeRun (x : AdmCtx) : Op Unit :=
  modify fun s => { s with swp.dtOffset := x.u32 0, swp.dtValid := true }.adminReply x .done []

/-- SET_TIME (R94). -/
def execSetTime (s : State) : Out :=
  .next (awake s fun s => takeAdmin .setTime setTimeRun s)

/-- SET WITHHOLD: W, the pressure check, and the service when W fell (R90, R158). -/
def setWithholdRun (x : AdmCtx) : Op Unit :=
  let p := x.u16 0
  let w := (x.u32 4).toNat
  if x.u16 2 ≠ 0 then answer x .badValue []
  else if Config.pools ≤ p then answer x .badIndex []
  else if Config.maxTokens < w then answer x .badValue []
  else do
    check (.poolLive p)
    let s ← get
    let old := (s.poolLive p).w
    set (s.setPoolLive p { s.poolLive p with w := w })
    pressure p false
    modify fun s => (if w < old then s.startRun p else s).adminReply x .done []

/-- SET_WITHHOLD (R90). -/
def execSetWithhold (hits : List Hit) (s : State) : Out :=
  .next (awake s fun s => takeAdmin .setWithhold setWithholdRun (s.strike hits))

/-- Every waiter, the pools in index order, PRIORITY before GENERAL, each queue from the head (R55). -/
def State.allWaiters (s : State) : List Nat := s.wts.queues.flatMap (fun kv => kv.2.priority ++ kv.2.general)

/-- Removals with one reason and no service run (R55). -/
def removeAll (r : Reason) : List Nat → Op Unit
  | [] => pure ()
  | i :: rest => do
    removeWaiter i r none false
    removeAll r rest

/-- Entry to DRAIN (R55, R159). DESIGN CHOICE (log entry 41): the waiters are removed before the state changes and its notice is
queued. -/
def enterDrain : Op Unit := do
  let s ← get
  removeAll .draining s.allWaiters
  modify (·.enterService .drain)

/-- SET SERVICE (R156, R159). DESIGN CHOICE (log entry 26): the reply is queued after the DENY DRAINING frames of its event. -/
def setServiceRun (x : AdmCtx) : Op Unit := do
  let s ← get
  if s.ada.service = .faulted then answer x .refusedState []
  else if s.ada.op.isReset then answer x .busy []
  else if x.u8 0 = 1 then
    if s.ada.service = .on then answer x .done []
    else
      set (s.enterService .on)
      answer x .done []
  else if x.u8 0 = 2 then
    match s.ada.service with
    | .on =>
      enterDrain
      answer x .done []
    | .drain => answer x .done []
    | .starting | .off | .faulted | .passOnly => answer x .refusedState []
  else if x.u8 0 = 3 then
    match s.ada.service with
    | .off => answer x .done []
    | .drain =>
      if s.grt.liveTotal = 0 ∧ s.wts.np + s.wts.ng = 0 then
        set (s.enterService .off)
        answer x .done []
      else answer x .refusedState []
    | .starting | .on | .faulted | .passOnly => answer x .refusedState []
  else answer x .badValue []

/-- SET_SERVICE (R159). -/
def execSetService (hits : List Hit) (s : State) : Out :=
  .next (awake s fun s => takeAdmin .setService setServiceRun (s.strike hits))

/-- REVOKE HANDLE (R28, R158). DESIGN CHOICE (log entry 26): the reply is queued after the RECALL of its event. -/
def revokeHandleRun (x : AdmCtx) : Op Unit :=
  let h := x.u32 0
  let i := handleSlot h
  if !handleOurs h then answer x .badValue []
  else do
    let g ← readSlot i
    if g.generation ≠ handleGeneration h ∨ g.state = .free ∨ g.state = .bad then answer x .badIndex []
    else
      recallGrant i .revoked (fun _ s => s)
      modify fun s => s.adminReply x .done (nat8 g.state.code ++ nat8 (s.slot i).state.code)

/-- REVOKE_HANDLE (R158). -/
def execRevokeHandle (hits : List Hit) (s : State) : Out :=
  .next (awake s fun s => takeAdmin .revokeHandle revokeHandleRun (s.strike hits))

/-- The content of a capture as CLEAR CAPTURE returns it (R176). -/
def Capture.bytes (c : Capture) : List Byte :=
  flag8 c.locked ++ flag8 c.second ++ [c.code] ++ nat16 c.index ++ nat16 c.pool ++ bytes32 c.client ++ bytes32 c.mt

/-- CLEAR CAPTURE (R176). -/
def clearCaptureRun (x : AdmCtx) : Op Unit := do
  let s ← get
  if x.u8 0 = 1 then set ({ s with fnu.soft := .zero }.adminReply x .done s.fnu.soft.bytes)
  else if x.u8 0 = 2 then set ({ s with fnu.hard := .zero }.adminReply x .done s.fnu.hard.bytes)
  else set (s.adminReply x .badValue [])

/-- CLEAR_CAPTURE (R176). -/
def execClearCapture (s : State) : Out :=
  .next (awake s fun s => takeAdmin .clearCapture clearCaptureRun s)

/-- WRITE BOOT RECORD (R170). -/
def writeBootRecordRun (x : AdmCtx) : Op Unit := do
  let s ← get
  if s.ada.flash.code = 1 then set (s.adminReply x .busy [])
  else if bootValid x.body then set ({ s with ada.flash := .writing x.body }.adminReply x .done [])
  else set (s.adminReply x .badValue [])

/-- WRITE_BOOT_RECORD (R170). -/
def execWriteBootRecord (s : State) : Out :=
  .next (awake s fun s => takeAdmin .writeBootRecord writeBootRecordRun s)

end Sys2Proof.Machine
end

