-- ==== Sys2Proof/Machine/Banks.lean ====
section
/-!
DEFINITION. Machine/Banks.lean: writing the standby bank, COPY BANK, SWAP BANK and the reconcile pass (R106 to R123).
-/
namespace Sys2Proof.Machine

/-! ### WRITE ENTRY (R111, R112) -/

/-- One entry as a WRITE ENTRY carries it: its index, the spare bytes after it, its words. -/
structure Carried where
  index : Nat
  spare : W16
  words : List W32
  deriving DecidableEq, Repr

/-- The entries of a WRITE ENTRY body, `n` of them (R182). -/
def carriedEntries (wordCount : Nat) : Nat → List Byte → List Carried
  | 0, _ => []
  | n + 1, b =>
    ⟨(be16 b 0).toNat, be16 b 2, words32 ((b.drop 4).take (4 * wordCount))⟩
      :: carriedEntries wordCount n (b.drop (4 + 4 * wordCount))

/-- The standby bank as earlier entries of the datagram would leave it (R111). -/
def Bank.writeAll (k : TableKind) (b : Bank) (l : List (Nat × Entry)) : Bank := l.foldl (fun b x => b.write k x.1 x.2) b

/-- A nonzero code is in the directory at another index (R111). -/
def Bank.duplicate (b : Bank) (i : Nat) (code : W32) : Bool :=
  match b.lookup code with
  | some j => j ≠ i
  | none => false

/-- The checks of one carried entry in their order (R111), with the checked reads of the directory and of the old content. -/
def checkCarried (k : TableKind) (c : Carried) (earlier : List (Nat × Entry)) : Op (Except Result Entry) :=
  if k.size ≤ c.index then return .error .badIndex
  else if c.spare ≠ 0 then return .error .badValue
  else
    match readEntryWords k c.words with
    | none => return .error .badValue
    | some e => do
      let s ← get
      if e.featureCode ≠ 0 then check (.codeDir s.standby e.featureCode) else pure ()
      let s ← get
      if (s.standbyBank.writeAll k earlier).duplicate c.index e.featureCode then return .error .duplicateCode
      else
        check (.bankEntry s.standby k c.index)
        let s ← get
        if s.standbyBank.damaged k c.index then return .error .refusedState else return .ok e

/-- The checks of the entries in the order carried: the entries, or the first refusal with its position (R111; position 0 is the
first entry: log entry 22). DESIGN CHOICE (log entry 43): an entry that has passed is not checked again, although the read of a
later entry may damage the standby entry at its index. -/
def checkAllCarried (k : TableKind) : List Carried → List (Nat × Entry) → Op (Except (Result × Nat) (List (Nat × Entry)))
  | [], done => return .ok done
  | c :: rest, done => do
    match ← checkCarried k c done with
    | .error r => return .error (r, done.length)
    | .ok e => checkAllCarried k rest (done ++ [(c.index, e)])

/-- The differs flag of a feature index for a standby code (R114): true when the active entry is damaged. -/
def State.differsFrom (s : State) (i : Nat) (code : W32) : Bool :=
  match s.featureEntry i with
  | some e => e.code ≠ code
  | none => true

def State.setDiffers (i : Nat) (d : Bool) (s : State) : State := { s with tbs.differs := Tab.put false s.tbs.differs i d }

/-- One entry is written to the standby bank; a feature entry sets its differs flag anew (R112, R114). -/
def State.writeStandby (k : TableKind) (i : Nat) (e : Entry) (s : State) : State :=
  let s1 := s.setBank s.standby (s.standbyBank.write k i e)
  if k = .feature then s1.setDiffers i (s1.differsFrom i e.featureCode) else s1

/-- The writes of a WRITE ENTRY, with the read of each active feature entry that a differs flag compares. -/
def writeCarried (k : TableKind) : List (Nat × Entry) → Op Unit
  | [] => pure ()
  | (i, e) :: rest => do
    if k = .feature then checkActive .feature i else pure ()
    modify (·.writeStandby k i e)
    writeCarried k rest

/-- WRITE ENTRY with its kind, count and spare bytes good (R111, R112). -/
def writeEntries (x : AdmCtx) (k : TableKind) (count : Nat) : Op Unit := do
  match ← checkAllCarried k (carriedEntries k.words count (x.body.drop 4)) [] with
  | .error (r, n) => answer x r (nat16 n)
  | .ok l =>
    writeCarried k l
    answer x .done []

def LongOp.isCopy : LongOp → Bool
  | .copy _ _ => true
  | _ => false

/-- WRITE ENTRY (R111, R112, R182): BUSY while COPY BANK is in flight. -/
def writeEntryRun (x : AdmCtx) : Op Unit := do
  let s ← get
  if s.ada.op.isCopy then answer x .busy []
  else
    match TableKind.ofCode (x.u8 0) with
    | none => answer x .badValue []
    | some k =>
      if x.u16 2 ≠ 0 ∨ x.u8 1 = 0 ∨ 16 < x.u8 1 then answer x .badValue [] else writeEntries x k (x.u8 1)

/-- WRITE_ENTRY (R112). -/
def execWriteEntry (hits : List Hit) (s : State) : Out :=
  .next (awake s fun s => takeAdmin .writeEntry writeEntryRun (s.strike hits))

/-! ### COPY BANK (R115, R116) -/

/-- A long command takes the slot with its issuing station (R161). -/
def State.takeSlot (x : AdmCtx) (op : LongOp) (s : State) : State := { s with ada.op := op, ada.issuer := x.issuer }

/-- COPY BANK takes the slot, or is BUSY (R115). -/
def copyBankRun (x : AdmCtx) : Op Unit := do
  let s ← get
  if s.ada.op.isIdle then set (s.takeSlot x (.copy .feature 0)) else set (s.adminReply x .busy [])

/-- COPY_BANK (R115). -/
def execCopyBank (s : State) : Out :=
  .next (awake s fun s => takeAdmin .copyBank copyBankRun s)

/-- The standby entry after the copy of its index: the active content, its mark clear; or, the active entry damaged, no content
written and its mark set (R115, R123). A feature index's differs flag becomes false. DESIGN CHOICE (log entry 36): the standby code
directory keeps what it gave for an index whose active entry is damaged, or becomes so after its copy. DESIGN CHOICE (log entry 40):
the directory words are updated unread, and an error struck in one of them and not yet found stays. -/
def State.copyEntry (k : TableKind) (i : Nat) (s : State) : State :=
  let b := s.standbyBank
  let s1 := s.setBank s.standby
    (if s.activeBank.damaged k i then b.mark k i true else b.write k i (s.activeBank.entry k i))
  if k = .feature then s1.setDiffers i false else s1

/-- A visit of the copy to an index: the active entry is read, and the standby entry whose words leave the sum. DESIGN CHOICE (log entry
8): the standby entry is read although the active one is damaged, its words then staying in the sum. -/
def copyVisit (k : TableKind) (i : Nat) : Op Unit := do
  checkActive k i
  let s ← get
  check (.bankEntry s.standby k i)
  modify (·.copyEntry k i)

/-- The cursor of a copy moves on: features, pools, sites, the global entry; past the global entry it stays there at 1 (R115). -/
def copyAdvance (k : TableKind) (c : Nat) : LongOp :=
  if c + 1 < k.size then .copy k (c + 1)
  else
    match k with
    | .feature => .copy .pool 0
    | .pool => .copy .site 0
    | .site => .copy .global 0
    | .global => .copy .global 1

/-- COPY_BANK_VISIT (R115). -/
def execCopyBankVisit (hits : List Hit) (s : State) : Out :=
  .next (awake s fun s0 =>
    let s := s0.strike hits
    match s.ada.op with
    | .copy k c =>
      if c < k.size then
        let s1 := settle (copyVisit k c) s
        { s1 with ada.op := copyAdvance k c }
      else s
    | _ => s)

/-- The completion of a copy: the standby sum and directory are the active ones, no differs flag is set (R115). DESIGN CHOICE (log
entry 40): no directory word is read, and an error struck in one of them and not yet found stays. -/
def State.copyDone (s : State) : State :=
  let s1 := s.setBank s.standby
    { s.standbyBank with sum := s.activeBank.sum, directory := s.activeBank.directory }
  { { s1 with tbs.differs := [] }.longReply .done [] with ada.op := .idle }

/-- COPY_BANK_COMPLETION: after the visit of the global entry (R115). -/
def execCopyBankCompletion (s : State) : Out :=
  .next (awake s fun s => if s.ada.op = .copy .global 1 then s.copyDone else s)

/-! ### SWAP BANK (R117, R118) -/

/-- The epoch of a feature index advances and its Hf becomes 0 (R118). -/
def State.advanceEpoch (i : Nat) (s : State) : State := s.setFeatLive i ⟨0, (s.featLive i).epoch + 1⟩

/-- The epochs of the indexes whose differs flags are set; a live record lost at its read keeps what its loss left, and the flip
goes on (R118, R172, R173). -/
def advanceEpochs : List Nat → Op Unit
  | [] => pure ()
  | i :: rest => do
    attempt (do
      check (.featLive i)
      modify (·.advanceEpoch i))
    advanceEpochs rest

/-- A run of every pool's service is started (R118, R166). -/
def State.startAllRuns (s : State) : State := (List.range Config.pools).foldl (fun s p => s.startRun p) s

/-- The active-bank pointer changes (R118 point 1). -/
def State.flipPointer (s : State) : State := { s with tbs.active := s.standby }

/-- The flip (R118). -/
def flip : Op Unit := do
  modify (·.flipPointer)
  let s ← get
  advanceEpochs (s.tbs.differs.map (·.1))
  modify (·.startAllRuns)

/-- SWAP BANK (R117). -/
def swapBankRun (x : AdmCtx) : Op Unit := do
  let s ← get
  if !s.ada.op.isIdle then set (s.adminReply x .busy [])
  else if s.standbyBank.sum ≠ x.u32 0 then set (s.adminReply x .sumMismatch (bytes32 s.standbyBank.sum))
  else
    set (s.takeSlot x (.reconcile .grants 0 .zero))
    flip

/-- SWAP_BANK (R117). -/
def execSwapBank (hits : List Hit) (s : State) : Out :=
  .next (awake s fun s => takeAdmin .swapBank swapBankRun (s.strike hits))

/-! ### The reconcile pass (R119 to R121) -/

/-- Records a phase visits (R119, R120, R163). -/
def Phase.size : Phase → Nat
  | .grants => Config.slots
  | .waiters => Config.waiters
  | .pools => Config.pools

def Phase.next : Phase → Phase
  | .grants => .waiters
  | .waiters => .pools
  | .pools => .pools

/-- The phase and cursor after a visit; past the last record of the last phase the cursor stays there. -/
def Phase.advance (last ph : Phase) (c : Nat) : Phase × Nat :=
  if c + 1 < ph.size ∨ ph = last then (ph, c + 1) else (ph.next, 0)

def Counts.note (r : Recalled) (c : Counts) : Counts :=
  match r with
  | .recalled => { c with recalled := c.recalled + 1 }
  | .released => { c with released := c.released + 1 }

/-- A change of the counts of the reconcile pass or SCAN REVOKE in flight. -/
def State.mapCounts (f : Counts → Counts) (s : State) : State :=
  match s.ada.op with
  | .reconcile ph c n => { s with ada.op := .reconcile ph c (f n) }
  | .scanRevoke t ph c n => { s with ada.op := .scanRevoke t ph c (f n) }
  | .idle | .copy _ _ | .rebuild _ | .audit _ | .reset => s

/-- A recall by the operation in the slot enters its counts. -/
def State.noteRecall (r : Recalled) (s : State) : State := s.mapCounts (Counts.note r)

/-- A removal by the operation in the slot enters its counts. -/
def State.noteRemoved (s : State) : State := s.mapCounts (fun c => { c with removed := c.removed + 1 })

/-- The cursor of the reconcile pass or SCAN REVOKE in flight moves on. -/
def State.phaseOn (s : State) : State :=
  match s.ada.op with
  | .reconcile ph c n => { s with ada.op := .reconcile (Phase.advance .pools ph c).1 (Phase.advance .pools ph c).2 n }
  | .scanRevoke t ph c n =>
    { s with ada.op := .scanRevoke t (Phase.advance .waiters ph c).1 (Phase.advance .waiters ph c).2 n }
  | .idle | .copy _ _ | .rebuild _ | .audit _ | .reset => s

/-- A visit of the reconcile pass in phase `ph`: its action at the cursor, then the cursor moves on, a visit ended at a read
included (R119 to R121, R173 point 1). -/
def reconcileVisit (ph : Phase) (act : Nat → Op Unit) (s : State) : State :=
  match s.ada.op with
  | .reconcile q c _ => if q = ph ∧ c < ph.size then (settle (act c) s).phaseOn else s
  | _ => s

/-- A visit to slot `i` (R119). -/
def reconcileGrant (i : Nat) : Op Unit := do
  let g ← readSlot i
  match g.state with
  | .held | .stale | .linger =>
    check (.featLive g.feature)
    let s ← get
    if s.epochCurrent g.feature g.epoch then pure () else recallGrant i .tableChanged State.noteRecall
  | .recalled | .free | .bad => pure ()

/-- RECONCILE_GRANT_VISIT (R119). -/
def execReconcileGrantVisit (hits : List Hit) (s : State) : Out :=
  .next (awake s fun s => reconcileVisit .grants reconcileGrant (s.strike hits))

/-- The reconcile pass removes a waiter (R120): its epoch is not current, or its feature maps to another pool; the pool of a
damaged feature entry is not compared. -/
def State.waiterReplaced (s : State) (w : Waiter) : Bool :=
  !s.epochCurrent w.feature w.epoch ||
    match s.featureEntry w.feature with
    | some e => e.pool ≠ w.pool
    | none => false

/-- A visit to waiter record `i` (R120). -/
def reconcileWaiter (i : Nat) : Op Unit := do
  check (.waiterRec i)
  let s ← get
  let w := s.waiter i
  if w.inUse then
    checkAll [.featLive w.feature, s.activeWord .feature w.feature]
    let s ← get
    if s.waiterReplaced w then
      removeWaiter i .tableChanged none true
      modify State.noteRemoved
    else pure ()
  else pure ()

/-- RECONCILE_WAITER_VISIT (R120). -/
def execReconcileWaiterVisit (hits : List Hit) (s : State) : Out :=
  .next (awake s fun s => reconcileVisit .waiters reconcileWaiter (s.strike hits))

/-- A visit to pool `p`: the pressure check with the leave test, then the service (R120). -/
def reconcilePool (p : Nat) : Op Unit := do
  pressure p true
  modify (·.startRun p)

/-- RECONCILE_POOL_VISIT (R120). -/
def execReconcilePoolVisit (hits : List Hit) (s : State) : Out :=
  .next (awake s fun s => reconcileVisit .pools reconcilePool (s.strike hits))

/-- The operation in the slot completes: its reply, then IDLE (R161). -/
def State.completeOp (body : List Byte) (s : State) : State := { s.longReply .done body with ada.op := .idle }

/-- RECONCILE_COMPLETION: after the last pool visit, DONE with the three counts (R120). -/
def execReconcileCompletion (s : State) : Out :=
  .next (awake s fun s =>
    match s.ada.op with
    | .reconcile .pools c n => if Config.pools ≤ c then s.completeOp n.bytes else s
    | _ => s)

end Sys2Proof.Machine
end

