-- ==== Sys2Proof/Machine/LongOps.lean ====
section
/-!
DEFINITION. Machine/LongOps.lean: AUDIT, SCAN REVOKE, COUNT REBUILD and SERVICE RESET (R161 to R168).
-/
namespace Sys2Proof.Machine

/-! ### AUDIT (R162) -/

/-- The selector of an AUDIT from its kind and value, or the refusal of its range (R156, R162, R182). -/
def selectorOf (kind : Nat) (value : W32) : Except Result Selector :=
  match kind with
  | 1 => if value = 0 then .error .badValue else .ok (.owner value)
  | 2 => if Config.pools ≤ value.toNat then .error .badIndex else .ok (.pool value.toNat)
  | 3 => if Config.features ≤ value.toNat then .error .badIndex else .ok (.feature value.toNat)
  | 4 =>
    match GState.ofCode value.toNat with
    | some st => .ok (.state st)
    | none => .error .badValue
  | _ => .error .badValue

/-- A slot matches a selector (R162). -/
def Selector.picks (sel : Selector) (g : Slot) : Bool :=
  match sel with
  | .owner id => g.state.live && g.owner == id
  | .pool p => g.state.live && g.pool == p
  | .feature f => g.state.live && g.feature == f
  | .state st => g.state == st

/-- AUDIT takes the slot, its arguments good (R162). DESIGN CHOICE (log entry 16): the spare byte is tested first, then the selector, then
the start slot. -/
def auditRun (x : AdmCtx) : Op Unit := do
  let s ← get
  if !s.ada.op.isIdle then set (s.adminReply x .busy [])
  else if x.u8 1 ≠ 0 then set (s.adminReply x .badValue [])
  else
    match selectorOf (x.u8 0) (x.u32 4) with
    | .error r => set (s.adminReply x r [])
    | .ok sel =>
      if Config.slots ≤ x.u16 2 then set (s.adminReply x .badIndex [])
      else set (s.takeSlot x (.audit ⟨sel, x.u16 2, [], none⟩))

/-- AUDIT (R162). -/
def execAudit (s : State) : Out :=
  .next (awake s fun s => takeAdmin .audit auditRun s)

/-- The scan is over: 64 matches, or slot 32,767 visited (R162). -/
def AuditScan.over (a : AuditScan) : Bool := decide (Config.auditMatches ≤ a.found.length ∨ Config.slots ≤ a.cursor)

/-- A match as AUDIT reports it (R162). -/
def Slot.match (i : Nat) (g : Slot) : AuditMatch := ⟨handleOf i g.generation, g.cost, g.state, g.pool⟩

/-- A slot read by the scan enters its matches when it is picked. -/
def AuditScan.see (i : Nat) (g : Slot) (a : AuditScan) : AuditScan :=
  if a.selector.picks g then { a with found := a.found ++ [g.match i] } else a

/-- The cursor of the scan moves past the slot visited. -/
def AuditScan.moveOn (a : AuditScan) : AuditScan := { a with cursor := a.cursor + 1, last := some a.cursor }

/-- A visit of the scan: the slot is read and matched as it stands (a lost one as BAD); a visit ended at a read matches nothing,
and the scan goes on (R162, R173 point 1). -/
def State.auditStep (a : AuditScan) (s : State) : State :=
  match readSlot a.cursor s with
  | .ok g s1 => { s1 with ada.op := .audit (a.see a.cursor g).moveOn }
  | .error _ s1 => { s1 with ada.op := .audit a.moveOn }

/-- AUDIT_VISIT (R162). -/
def execAuditVisit (hits : List Hit) (s : State) : Out :=
  .next (awake s fun s0 =>
    let s := s0.strike hits
    match s.ada.op with
    | .audit a => if a.over then s else s.auditStep a
    | _ => s)

/-- AUDIT_COMPLETION (R162). -/
def execAuditCompletion (s : State) : Out :=
  .next (awake s fun s =>
    match s.ada.op with
    | .audit a => if a.over then s.completeOp a.bytes else s
    | _ => s)

/-! ### SCAN REVOKE (R163) -/

/-- The target of a SCAN REVOKE from its kind and value, or the refusal of its range (R156, R163, R182). -/
def targetOf (kind : Nat) (value : W32) : Except Result Target :=
  match kind with
  | 1 => if value = 0 then .error .badValue else .ok (.client value)
  | 2 => if Config.features ≤ value.toNat then .error .badIndex else .ok (.feature value.toNat)
  | _ => .error .badValue

def Target.picks (t : Target) (owner : W32) (feature : Nat) : Bool :=
  match t with
  | .client id => owner == id
  | .feature f => feature == f

/-- SCAN REVOKE takes the slot, its arguments good (R163). -/
def scanRevokeRun (x : AdmCtx) : Op Unit := do
  let s ← get
  if !s.ada.op.isIdle then set (s.adminReply x .busy [])
  else if x.u8 1 ≠ 0 ∨ x.u16 2 ≠ 0 then set (s.adminReply x .badValue [])
  else
    match targetOf (x.u8 0) (x.u32 4) with
    | .error r => set (s.adminReply x r [])
    | .ok t => set (s.takeSlot x (.scanRevoke t .grants 0 .zero))

/-- SCAN_REVOKE (R163). -/
def execScanRevoke (s : State) : Out :=
  .next (awake s fun s => takeAdmin .scanRevoke scanRevokeRun s)

/-- A visit of SCAN REVOKE in phase `ph`, as a reconcile visit. -/
def scanVisit (ph : Phase) (act : Target → Nat → Op Unit) (s : State) : State :=
  match s.ada.op with
  | .scanRevoke t q c _ => if q = ph ∧ c < ph.size then (settle (act t c) s).phaseOn else s
  | _ => s

/-- A visit to slot `i`: a grant of the target is recalled whatever its epoch (R163). -/
def scanGrant (t : Target) (i : Nat) : Op Unit := do
  let g ← readSlot i
  if t.picks g.owner g.feature then recallGrant i .revoked State.noteRecall else pure ()

/-- SCAN_REVOKE_GRANT_VISIT (R163). -/
def execScanRevokeGrantVisit (hits : List Hit) (s : State) : Out :=
  .next (awake s fun s => scanVisit .grants scanGrant (s.strike hits))

/-- A visit to waiter record `i` (R56, R163). -/
def scanWaiter (t : Target) (i : Nat) : Op Unit := do
  check (.waiterRec i)
  let s ← get
  let w := s.waiter i
  if w.inUse && t.picks w.client w.feature then
    removeWaiter i .revoked none true
    modify State.noteRemoved
  else pure ()

/-- SCAN_REVOKE_WAITER_VISIT (R163). -/
def execScanRevokeWaiterVisit (hits : List Hit) (s : State) : Out :=
  .next (awake s fun s => scanVisit .waiters scanWaiter (s.strike hits))

/-- SCAN_REVOKE_COMPLETION: after the last waiter visit, DONE with the three counts (R163). -/
def execScanRevokeCompletion (s : State) : Out :=
  .next (awake s fun s =>
    match s.ada.op with
    | .scanRevoke _ .waiters c n => if Config.waiters ≤ c then s.completeOp n.bytes else s
    | _ => s)

/-! ### COUNT REBUILD (R164 to R166) -/

/-- COUNT REBUILD takes the slot when it is IDLE and the device is not in FAULTED (R156, R164). -/
def countRebuildRun (x : AdmCtx) : Op Unit := do
  let s ← get
  if s.ada.service = .faulted then set (s.adminReply x .refusedState [])
  else if !s.ada.op.isIdle then set (s.adminReply x .busy [])
  else set (s.takeSlot x (.rebuild .start))

/-- COUNT_REBUILD (R164). -/
def execCountRebuild (s : State) : Out :=
  .next (awake s fun s => takeAdmin .countRebuild countRebuildRun s)

/-- The scan sums with a live grant added (R164). -/
def Rebuild.adding (i : Nat) (g : Slot) (units : Bool) (r : Rebuild) : Rebuild :=
  let c := Tab.get ScanClient.zero r.clients g.ownerIdx
  { r with
    prioritySums := if g.cls = .priority then addAt r.prioritySums g.pool g.cost else r.prioritySums
    generalSums := if g.cls = .general then addAt r.generalSums g.pool g.cost else r.generalSums
    unitSums := if units then addAt r.unitSums g.feature g.units else r.unitSums
    clients := Tab.put ScanClient.zero r.clients g.ownerIdx ⟨c.count + 1, c.chain ++ [i]⟩
    live := r.live + 1 }

def State.mapRebuild (f : Rebuild → Rebuild) (s : State) : State :=
  match s.ada.op with
  | .rebuild r => { s with ada.op := .rebuild (f r) }
  | .idle | .copy _ _ | .reconcile _ _ _ | .audit _ | .scanRevoke _ _ _ _ | .reset => s

/-- The slot is visited: the cursor moves past it, so it lies below the cursor from the visit on (R165). -/
def Rebuild.moveOn (r : Rebuild) : Rebuild := { r with cursor := r.cursor + 1 }

/-- The slot's owner entry index names its owner's entry (R164). -/
def State.ownerStands (s : State) (g : Slot) : Bool :=
  let c := s.client g.ownerIdx
  c.inUse && c.id == g.owner

/-- A visit of the rebuild to a live slot whose owner stands: its amounts are added (R164). -/
def State.rebuildAdd (i : Nat) (s : State) : State :=
  let g := s.slot i
  s.mapRebuild (fun r => (r.adding i g (s.unitsCounted g)).moveOn)

/-- A visit of the rebuild to a live slot whose owner does not stand: a release that changes no chain and no count (R164). -/
def State.rebuildOrphan (i : Nat) (s : State) : State := (s.releaseFrom false i).mapRebuild Rebuild.moveOn

/-- A visit of the rebuild to a BAD slot: it is freed (R44, R164). -/
def State.rebuildFree (i : Nat) (s : State) : State :=
  (s.freeSlot i).mapRebuild (fun r => { r.moveOn with badFreed := r.badFreed + 1 })

/-- The visit of a live slot. -/
def rebuildLive (i : Nat) (g : Slot) : Op Unit := do
  checkAll [.clientEnt g.ownerIdx, .featLive g.feature]
  let s ← get
  if s.ownerStands g then set (s.rebuildAdd i)
  else
    check (.poolLive g.pool)
    let s ← get
    set (s.rebuildOrphan i)
    afterRelease (s.releasedOf i)

/-- A visit of the rebuild to slot `i` (R164): a slot found lost at the read is freed at the same visit. -/
def rebuildVisit (i : Nat) : Op Unit := do
  let g ← readSlot i
  match g.state with
  | .held | .stale | .linger | .recalled => rebuildLive i g
  | .bad => modify (·.rebuildFree i)
  | .free => modify (·.mapRebuild Rebuild.moveOn)

/-- COUNT_REBUILD_VISIT (R164). A visit ended at a read has put the device in FAULTED, which aborts the rebuild (R173 point 6). -/
def execCountRebuildVisit (hits : List Hit) (s : State) : Out :=
  .next (awake s fun s0 =>
    let s := s0.strike hits
    match s.ada.op with
    | .rebuild r => if r.cursor < Config.slots then settle (rebuildVisit r.cursor) s else s
    | _ => s)

/-- An index joins a list of rising indexes. -/
def addKey (k : Nat) : List Nat → List Nat
  | [] => [k]
  | j :: t => if k < j then k :: j :: t else if j = k then j :: t else j :: addKey k t

/-- The indexes a table lists join a list of rising indexes. -/
def keysWith {α : Type} (t : Tab α) (ks : List Nat) : List Nat := t.foldl (fun l kv => addKey kv.1 l) ks

/-- The pools whose Up or Ug may change: at every other pool the counters and the sums are both 0. -/
def State.rebuildPools (r : Rebuild) (s : State) : List Nat :=
  keysWith r.generalSums (keysWith r.prioritySums (keysWith s.adm.pools []))

/-- The feature indexes whose Hf may change. -/
def State.rebuildFeatures (r : Rebuild) (s : State) : List Nat := keysWith r.unitSums (keysWith s.adm.features [])

/-- Up and Ug of a pool take the pool sums, and whether either changed (R166 point 1). -/
def Rebuild.pool (r : Rebuild) (p : Nat) (l : PoolLive) : PoolLive :=
  { l with up := Tab.get 0 r.prioritySums p, ug := Tab.get 0 r.generalSums p }

/-- Hf of a feature index takes the units sum (R166 point 2). -/
def Rebuild.feature (r : Rebuild) (i : Nat) (l : FeatLive) : FeatLive := { l with hf := Tab.get 0 r.unitSums i }

/-- The scan record of a client entry. -/
def Rebuild.client (r : Rebuild) (i : Nat) : ScanClient := Tab.get ScanClient.zero r.clients i

/-- The indexes of the client entries in use, rising. -/
def State.clientsInUse (s : State) : List Nat := (s.clt.clients.filter (fun kv => kv.2.inUse)).map (·.1)

/-- A client entry in use takes its scan count and chain, with the idle list's rules (R166 point 3). -/
def State.installClient (r : Rebuild) (i : Nat) (s : State) : State :=
  let c := s.client i
  let n := (r.client i).count
  let s1 := s.setClient i { c with grants := n, chain := (r.client i).chain }
  if n = 0 then (if c.grants ≠ 0 then s1.idleIfQuiet i else s1) else s1.leaveIdle i

/-- How many indexes of a list a test holds of. -/
def countWhere (f : Nat → Bool) (l : List Nat) : Nat := (l.filter f).length

/-- The figures of COUNT REBUILD's reply (R166 point 5). DESIGN CHOICE (log entry 15): 4 bytes each, since section 12.2 names none
of the five. -/
def State.rebuildFigures (r : Rebuild) (s : State) : List Byte :=
  nat32 r.badFreed
    ++ nat32 (countWhere (fun p => r.pool p (s.poolLive p) ≠ s.poolLive p) (s.rebuildPools r))
    ++ nat32 (countWhere (fun i => r.feature i (s.featLive i) ≠ s.featLive i) (s.rebuildFeatures r))
    ++ nat32 (countWhere (fun i => (r.client i).count ≠ (s.client i).grants) s.clientsInUse)
    ++ nat32 r.restarts

/-- The completion event of a rebuild (R166 points 1 to 5). -/
def State.rebuildDone (r : Rebuild) (s : State) : State :=
  let s1 := (s.rebuildPools r).foldl (fun s p => s.setPoolLive p (r.pool p (s.poolLive p))) s
  let s2 := (s.rebuildFeatures r).foldl (fun s i => s.setFeatLive i (r.feature i (s.featLive i))) s1
  let s3 := s.clientsInUse.foldl (fun s i => s.installClient r i) s2
  { s3 with grt.liveTotal := r.live, grt.suspect := false }.completeOp (s.rebuildFigures r)

/-- A word the completion of a rebuild reads: the live records and client entries it changes (log entry 8). -/
def wordReadByRebuildDone : MemWord → Bool
  | .poolLive _ => true
  | .featLive _ => true
  | .clientEnt _ => true
  | .idleStore => true
  | _ => false

/-- The pressure check, without a leave test, and the service run of each pool (R166). -/
def servePools : List Nat → Op Unit
  | [] => pure ()
  | p :: rest => do
    pressure p false
    modify (·.startRun p)
    servePools rest

/-- The completion of a rebuild with the checks and runs that follow it (R166). DESIGN CHOICE (log entry 39): the pools are taken
in index order, each checked and its run started before the next. -/
def rebuildFinish (r : Rebuild) : Op Unit := do
  let s ← get
  checkAll ((s.damage.map (·.word)).filter wordReadByRebuildDone)
  modify (·.rebuildDone r)
  servePools (List.range Config.pools)

/-- COUNT_REBUILD_COMPLETION: when the cursor has passed slot 32,767 (R166). -/
def execCountRebuildCompletion (hits : List Hit) (s : State) : Out :=
  .next (awake s fun s0 =>
    let s := s0.strike hits
    match s.ada.op with
    | .rebuild r => if Config.slots ≤ r.cursor then settle (rebuildFinish r) s else s
    | _ => s)

/-! ### SERVICE RESET (R167, R168) -/

/-- SERVICE RESET takes the slot, any other long operation aborted; BUSY while it is already RESET (R161, R167). -/
def serviceResetRun (x : AdmCtx) : Op Unit := do
  let s ← get
  if s.ada.op.isReset then set (s.adminReply x .busy [])
  else set ((if s.ada.op.isIdle then s else s.abortOp).takeSlot x .reset)

/-- SERVICE_RESET (R167). -/
def execServiceReset (s : State) : Out :=
  .next (awake s fun s => takeAdmin .serviceReset serviceResetRun s)

/-- A word of a memory that the completion of SERVICE RESET rewrites (R168). -/
def wordClearedByReset : MemWord → Bool
  | .grantRec _ => true
  | .grantLink _ => true
  | .waiterRec _ => true
  | .queueStore _ => true
  | .clientEnt _ => true
  | .idleStore => true
  | .poolLive _ => true
  | .featLive _ => true
  | .bankEntry _ _ _ => false
  | .codeDir _ _ => false

/-- The grant table after power-on and after SERVICE RESET (R25, R29). -/
def Grt.clear : Grt :=
  { slots := [], freeFifo := freeFifoFull, exhausted := false, suspect := false, liveTotal := 0, linger := [] }

/-- The records, flags and counters SERVICE RESET clears (R168). -/
def State.clearRecords (s : State) : State :=
  { s with
    grt := .clear
    wts := .clear
    clt := .clear
    adm.pools := []
    adm.features := []
    ada.stats := .zero
    damage := s.damage.filter (fun h => !wordClearedByReset h.word) }

/-- The passes that FAULTED stopped begin again from cursor 0 (R105, R168). -/
def State.restartPasses (s : State) : State :=
  if s.ada.service = .faulted then
    { s with swp.grantPass.cursor := 0, swp.waiterPass.cursor := 0, swp.clientPass.cursor := 0 }
  else s

/-- The service state becomes ON, with a notice when it changed (R168). -/
def State.serviceOn (s : State) : State := if s.ada.service = .on then s else s.enterService .on

/-- The completion of SERVICE RESET (R168). DESIGN CHOICE (log entry 42): the counters are cleared before the reply is queued, so the loss
of that reply at a full originate queue leaves dropped at 1. -/
def State.resetDone (s : State) : State := s.clearRecords.restartPasses.serviceOn.completeOp []

/-- SERVICE_RESET_COMPLETION (R168). -/
def execServiceResetCompletion (s : State) : Out :=
  .next (awake s fun s => if s.ada.op.isReset then s.resetDone else s)

end Sys2Proof.Machine
end

