-- ==== Sys2Proof/Machine/Dispatch.lean ====
section
/-!
DEFINITION. Machine/Dispatch.lean: one arm per command, each one call of its meaning.
-/
namespace Sys2Proof.Machine

def exec (i : Instr) (s : State) : Host.Outcome State Fault Refusal :=
  match i with
  | .resetN => Sys2Proof.Machine.execResetN s
  | .bootReadCompletion read => Sys2Proof.Machine.execBootReadCompletion read s
  | .linkUp p => Sys2Proof.Machine.execLinkUp p s
  | .linkDown p cause => Sys2Proof.Machine.execLinkDown p cause s
  | .mtAdvance => Sys2Proof.Machine.execMtAdvance s
  | .frameArrival p fr => Sys2Proof.Machine.execFrameArrival p fr s
  | .portReady p => Sys2Proof.Machine.execPortReady p s
  | .claim hits => Sys2Proof.Machine.execClaim hits s
  | .renew hits => Sys2Proof.Machine.execRenew hits s
  | .renewHandle hits => Sys2Proof.Machine.execRenewHandle hits s
  | .yieldGrant hits => Sys2Proof.Machine.execYieldGrant hits s
  | .query hits => Sys2Proof.Machine.execQuery hits s
  | .withdraw hits => Sys2Proof.Machine.execWithdraw hits s
  | .poolServiceRound pool hits => Sys2Proof.Machine.execPoolServiceRound pool hits s
  | .grantPassVisit hits => Sys2Proof.Machine.execGrantPassVisit hits s
  | .waiterPassVisit hits => Sys2Proof.Machine.execWaiterPassVisit hits s
  | .poolPassVisit hits => Sys2Proof.Machine.execPoolPassVisit hits s
  | .clientPassVisit hits => Sys2Proof.Machine.execClientPassVisit hits s
  | .noticeHandoff => Sys2Proof.Machine.execNoticeHandoff s
  | .readStatus => Sys2Proof.Machine.execReadStatus s
  | .readEntry hits => Sys2Proof.Machine.execReadEntry hits s
  | .readPool hits => Sys2Proof.Machine.execReadPool hits s
  | .readFeatureLive hits => Sys2Proof.Machine.execReadFeatureLive hits s
  | .readGrant hits => Sys2Proof.Machine.execReadGrant hits s
  | .readWaiter hits => Sys2Proof.Machine.execReadWaiter hits s
  | .readClient hits => Sys2Proof.Machine.execReadClient hits s
  | .writeEntry hits => Sys2Proof.Machine.execWriteEntry hits s
  | .setTime => Sys2Proof.Machine.execSetTime s
  | .setWithhold hits => Sys2Proof.Machine.execSetWithhold hits s
  | .setService hits => Sys2Proof.Machine.execSetService hits s
  | .revokeHandle hits => Sys2Proof.Machine.execRevokeHandle hits s
  | .clearCapture => Sys2Proof.Machine.execClearCapture s
  | .writeBootRecord => Sys2Proof.Machine.execWriteBootRecord s
  | .flashWriteCompletion readBack => Sys2Proof.Machine.execFlashWriteCompletion readBack s
  | .copyBank => Sys2Proof.Machine.execCopyBank s
  | .copyBankVisit hits => Sys2Proof.Machine.execCopyBankVisit hits s
  | .copyBankCompletion => Sys2Proof.Machine.execCopyBankCompletion s
  | .swapBank hits => Sys2Proof.Machine.execSwapBank hits s
  | .reconcileGrantVisit hits => Sys2Proof.Machine.execReconcileGrantVisit hits s
  | .reconcileWaiterVisit hits => Sys2Proof.Machine.execReconcileWaiterVisit hits s
  | .reconcilePoolVisit hits => Sys2Proof.Machine.execReconcilePoolVisit hits s
  | .reconcileCompletion => Sys2Proof.Machine.execReconcileCompletion s
  | .audit => Sys2Proof.Machine.execAudit s
  | .auditVisit hits => Sys2Proof.Machine.execAuditVisit hits s
  | .auditCompletion => Sys2Proof.Machine.execAuditCompletion s
  | .scanRevoke => Sys2Proof.Machine.execScanRevoke s
  | .scanRevokeGrantVisit hits => Sys2Proof.Machine.execScanRevokeGrantVisit hits s
  | .scanRevokeWaiterVisit hits => Sys2Proof.Machine.execScanRevokeWaiterVisit hits s
  | .scanRevokeCompletion => Sys2Proof.Machine.execScanRevokeCompletion s
  | .countRebuild => Sys2Proof.Machine.execCountRebuild s
  | .countRebuildVisit hits => Sys2Proof.Machine.execCountRebuildVisit hits s
  | .countRebuildCompletion hits => Sys2Proof.Machine.execCountRebuildCompletion hits s
  | .serviceReset => Sys2Proof.Machine.execServiceReset s
  | .serviceResetCompletion => Sys2Proof.Machine.execServiceResetCompletion s
  | .resetNLow => Sys2Proof.Machine.execResetNLow s
  | .modulePresenceChange p present => Sys2Proof.Machine.execModulePresenceChange p present s
  | .cexDatagramOfOtherKind => Sys2Proof.Machine.execCexDatagramOfOtherKind s
  | .adminCandidateRefused => Sys2Proof.Machine.execAdminCandidateRefused s

end Sys2Proof.Machine
end

