-- ==== Sys2Proof/Safety.lean ====
section
/-!
DEFINITION. Safety.lean: what statements about the part take for granted and what they call safe: the conditions under which a
command arises, the bounds of the queues, the canonical form of the sparse stores, the ranges of the stored bank entries, the
allowed changes of service state, and the schedule of the sweeper rounds.
-/
namespace Sys2Proof

/-! ### What a command is -/

/-- The commands that begin the device anew. -/
def Instr.isPowerOn : Instr → Bool
  | .resetN => true
  | .resetNLow => true
  | _ => false

/-- The memory words struck before a command. -/
def Instr.hits : Instr → List Hit
  | .claim h | .renew h | .renewHandle h | .yieldGrant h | .query h | .withdraw h => h
  | .poolServiceRound _ h | .grantPassVisit h | .waiterPassVisit h | .poolPassVisit h | .clientPassVisit h => h
  | .readEntry h | .readPool h | .readFeatureLive h | .readGrant h | .readWaiter h | .readClient h => h
  | .writeEntry h | .setWithhold h | .setService h | .revokeHandle h => h
  | .copyBankVisit h | .swapBank h | .reconcileGrantVisit h | .reconcileWaiterVisit h | .reconcilePoolVisit h => h
  | .auditVisit h | .scanRevokeGrantVisit h | .scanRevokeWaiterVisit h | .countRebuildVisit h | .countRebuildCompletion h => h
  | .resetN | .bootReadCompletion _ | .linkUp _ | .linkDown _ _ | .mtAdvance | .frameArrival _ _ | .portReady _
  | .noticeHandoff | .readStatus | .setTime | .clearCapture | .writeBootRecord | .flashWriteCompletion _ | .copyBank
  | .copyBankCompletion | .reconcileCompletion | .audit | .auditCompletion | .scanRevoke | .scanRevokeCompletion
  | .countRebuild | .serviceReset | .serviceResetCompletion | .resetNLow | .modulePresenceChange _ _
  | .cexDatagramOfOtherKind | .adminCandidateRefused => []

/-- The kind of client datagram a command takes. -/
def Instr.clientKind : Instr → Option Machine.CexKind
  | .claim _ => some .claim
  | .renew _ => some .renew
  | .yieldGrant _ => some .yieldGrant
  | .query _ => some .query
  | .withdraw _ => some .withdraw
  | .cexDatagramOfOtherKind => some .other
  | _ => none

/-- The administration command a command takes. -/
def Instr.adminKind : Instr → Option Machine.AdminCode
  | .readStatus => some .readStatus
  | .readEntry _ => some .readEntry
  | .readPool _ => some .readPool
  | .readFeatureLive _ => some .readFeatureLive
  | .readGrant _ => some .readGrant
  | .readWaiter _ => some .readWaiter
  | .readClient _ => some .readClient
  | .writeEntry _ => some .writeEntry
  | .setTime => some .setTime
  | .setWithhold _ => some .setWithhold
  | .setService _ => some .setService
  | .revokeHandle _ => some .revokeHandle
  | .clearCapture => some .clearCapture
  | .writeBootRecord => some .writeBootRecord
  | .copyBank => some .copyBank
  | .swapBank _ => some .swapBank
  | .audit => some .audit
  | .scanRevoke => some .scanRevoke
  | .countRebuild => some .countRebuild
  | .serviceReset => some .serviceReset
  | _ => none

end Sys2Proof

namespace Sys2Proof.Machine

/-! ### Conditions of a command -/

/-- RESET_N is high and no memory word is damaged: every read finds no error (R171). -/
structure State.Quiet (s : State) : Prop where
  high : s.resetLow = false
  sound : s.damage = []

/-- The head of the administration intake is an accepted command `c` of station number `st`, its body length good (R155). -/
structure State.AdminHead (s : State) (c : AdminCode) (d : Cand) (rest : List Cand) (st : Nat) : Prop where
  quiet : s.Quiet
  serving : s.ada.service.serving = true
  head : s.ada.intake = d :: rest
  station : s.stationOf d = some st
  header : adminHeaderGood d.payload = true
  code : adminCode d.payload = some c
  length : adminLengthGood c d.payload = true

/-- The state after an accepted command is taken: it has left the intake, and its station's neighbour record is written (R143,
R155). -/
def State.adminTaken (s : State) (d : Cand) (rest : List Cand) (st : Nat) : State :=
  { s with
    ada.intake := rest
    lnk.neighbours := Tab.put none s.lnk.neighbours st (some ⟨d.srcMac, d.vlan⟩) }

/-- An accepted command as its meaning sees it. -/
def adminCtx (c : AdminCode) (d : Cand) (st : Nat) : AdmCtx := ⟨c, d.issuer st, adminBody d.payload⟩

/-- The head of the client intake is a datagram of kind `k`, and no RENEW is being decided. -/
structure State.ClientHead (s : State) (k : CexKind) (d : Cand) (rest : List Cand) : Prop where
  quiet : s.Quiet
  serving : s.ada.service.serving = true
  head : s.exu.intake = d :: rest
  free : s.exu.work = none
  kind : cexKind d.payload = k

/-- The head of the client intake is a well-formed datagram of kind `k` in a service state that serves it, and no SERVICE RESET is
in flight (R125, R126, R167). -/
structure State.ServedHead (s : State) (k : CexKind) (d : Cand) (rest : List Cand) : Prop where
  head : s.ClientHead k d rest
  noReset : s.ada.op.isReset = false
  served : k.servedIn s.ada.service = true
  formed : cexWellFormed d.payload = true

/-- The state after a client datagram has left the intake. -/
def State.clientTaken (s : State) (rest : List Cand) : State := { s with exu.intake := rest }

/-- A pressure check of the pool would change nothing: the device is FAULTED, or the pool is NORMAL with F at LM or above, or it is
CONSTRAINED and the leave test is not made or does not hold (R81 to R83). -/
def State.PressureStands (s : State) (p : Nat) (leave : Bool) : Prop :=
  s.ada.service = .faulted ∨
    ((s.poolLive p).pressure = .normal ∧ s.lowMark p ≤ s.freeMeasure p) ∨
    ((s.poolLive p).pressure = .constrained ∧
      (leave = true → s.freeMeasure p < s.highMark p ∨ s.secondsSince (s.poolLive p).entryTime < s.minResidency p))

/-- A pressure check of the pool enters CONSTRAINED (R81, R82). -/
abbrev State.PressureEnters (s : State) (p : Nat) : Prop :=
  s.ada.service ≠ .faulted ∧ (s.poolLive p).pressure = .normal ∧ s.freeMeasure p < s.lowMark p

/-- A pressure check of the pool that makes the leave test leaves CONSTRAINED (R83). -/
abbrev State.PressureLeaves (s : State) (p : Nat) : Prop :=
  s.ada.service ≠ .faulted ∧ (s.poolLive p).pressure = .constrained ∧ s.highMark p ≤ s.freeMeasure p ∧
    s.minResidency p ≤ s.secondsSince (s.poolLive p).entryTime

/-- A check of the pool goes no further than the pool: if it enters CONSTRAINED, its linger list holds lingering grants of the pool, each
once, whose features map to no other pool (R43, R82, R87). -/
def State.PressureSettles (s : State) (p : Nat) : Prop :=
  s.PressureEnters p →
    (s.lingerList p).Nodup ∧
      ∀ i ∈ s.lingerList p, (s.slot i).state = .linger ∧ (s.slot i).pool = p ∧
        ∀ q, s.mappedPool (s.slot i).feature = some q → q = p

/-- Points 1 and 2 of an entry to CONSTRAINED: the live record, and the linger list released from its head (R82). -/
def State.lingerReleased (s : State) (p : Nat) : State :=
  ((s.lingerList p).foldl (fun t i => t.releaseSlot i)
    (s.setPoolLive p { s.poolLive p with pressure := .constrained, entryTime := s.swp.mt })).setLinger p []

/-- What a pressure check leaves: the pool as it was, CONSTRAINED with points 1 to 4 of R82, or NORMAL with its notice (R81 to R84). -/
def State.checked (s : State) (p : Nat) (leave : Bool) : State :=
  if s.PressureEnters p then (s.lingerReleased p).entryService p
  else if leave = true ∧ s.PressureLeaves p then
    (s.setPoolLive p { s.poolLive p with pressure := .normal, entryTime := s.swp.mt }).pressureNotice p .normal s.swp.mt
  else s

/-- What follows a release: the recorded pool's check, with its leave test, and run; then, Hf having fallen at a feature that maps to
another pool, that pool's (R43). -/
def State.releaseChecked (t : State) (r : Released) : State :=
  let u := (t.checked r.pool true).startRun r.pool
  match t.mappedPool r.feature with
  | some q => if r.lowered = true ∧ q ≠ r.pool then (u.checked q false).startRun q else u
  | none => u

/-- The checks that follow a release go no further than their pools. -/
def State.ReleaseSettles (t : State) (r : Released) : Prop :=
  t.PressureSettles r.pool ∧
    ∀ q, r.lowered = true → t.mappedPool r.feature = some q → q ≠ r.pool →
      ((t.checked r.pool true).startRun r.pool).PressureSettles q

/-- The checks that follow a release would change nothing: the recorded pool's with its leave test, and, Hf having fallen, that of the
pool the feature maps to when it is another (R43). -/
def State.ReleaseStands (t : State) (r : Released) : Prop :=
  t.PressureStands r.pool true ∧
    (r.lowered = true → ∀ q, t.mappedPool r.feature = some q → q = r.pool ∨ t.PressureStands q false)

/-- The service runs that follow a release (R43). -/
def State.releaseRuns (t : State) (r : Released) : State :=
  match t.mappedPool r.feature with
  | some q => if r.lowered = true ∧ q ≠ r.pool then (t.startRun r.pool).startRun q else t.startRun r.pool
  | none => t.startRun r.pool

/-- Hf of a grant's feature falls at its recall (R41). -/
def State.recallLowers (s : State) (i : Nat) : Prop := s.unitsCounted (s.slot i) = true ∧ 0 < (s.featLive (s.slot i).feature).hf

/-- The check that follows a recall would change nothing (R41, R81). -/
def State.RecallStands (s : State) (i : Nat) (t : State) : Prop :=
  s.recallLowers i → ∀ q, s.mappedPool (s.slot i).feature = some q → q = (s.slot i).pool ∨ t.PressureStands q false

/-- The service run that follows a recall that lowered Hf (R41). -/
def State.recallRuns (s : State) (i : Nat) (t : State) : State :=
  match s.mappedPool (s.slot i).feature with
  | some q => if s.unitsCounted (s.slot i) && decide (0 < (s.featLive (s.slot i).feature).hf) then t.startRun q else t
  | none => t

/-- What follows a recall that lowered Hf: the check of the pool the feature maps to when it is not the recorded one, and its run
(R41, R81). -/
def State.recallChecked (s : State) (i : Nat) (t : State) : State :=
  match s.mappedPool (s.slot i).feature with
  | some q =>
    if s.unitsCounted (s.slot i) && decide (0 < (s.featLive (s.slot i).feature).hf) then
      (if q = (s.slot i).pool then t else t.checked q false).startRun q
    else t
  | none => t

/-- The check that follows a recall goes no further than its pool. -/
def State.RecallSettles (s : State) (i : Nat) (t : State) : Prop :=
  s.recallLowers i → ∀ q, s.mappedPool (s.slot i).feature = some q → q = (s.slot i).pool ∨ t.PressureSettles q

/-! ### Conditions of a claim -/

/-- The state after step 4 of a claim: its entry found or created, and written (R65, R66). -/
def State.claimStart (s : State) (rest : List Cand) (x : ClaimCtx) (ci : Nat) : State :=
  (if (s.findClient x.q.client).isSome then s.clientTaken rest else (s.clientTaken rest).newClient ci x.q.client).noteClaim ci x

/-- A served claim that passes steps 2 to 4: its site, code and entries are loaded and undamaged, and entry `ci` is its client's, found
or to be created (R13, R14). -/
structure State.ClaimHead (s : State) (d : Cand) (rest : List Cand) (x : ClaimCtx) (ci : Nat) : Prop where
  served : s.ServedHead .claim d rest
  datagram : x.d = d
  request : x.q = readClaim d.payload
  site : s.siteEntry x.q.site = some x.site
  code : s.activeBank.lookup x.q.code = some x.fi
  feature : s.featureEntry x.fi = some x.fe
  poolSound : s.activeBank.damaged .pool x.fe.pool = false
  globalSound : s.activeBank.damagedGlobal = false
  client : s.findClient x.q.client = some ci ∨ (s.findClient x.q.client = none ∧ s.newClientIndex = some ci)

/-- It also passes steps 5 and 6: no waiter and no live grant of the client carries its tag, and no lingering grant can be reused (R15). -/
structure State.ClaimReaches (s : State) (d : Cand) (rest : List Cand) (x : ClaimCtx) (ci : Nat) : Prop where
  head : s.ClaimHead d rest x ci
  noWaiter : (s.claimStart rest x ci).findWaiter ci x.q.tag = none
  noGrant : ∀ i ∈ ((s.claimStart rest x ci).client ci).chain, (s.slot i).tag ≠ x.q.tag
  noReuse : ∀ i ∈ ((s.claimStart rest x ci).client ci).chain, x.reuses s (s.slot i) = false

/-- It also passes step 7, step 8, the entitlement checks and the client's limit: pool entry `pe` is its pool's (R16 to R19). -/
structure State.ClaimEntitled (s : State) (rest : List Cand) (x : ClaimCtx) (ci : Nat) (pe : PoolEntry) : Prop where
  noRebuild : s.ada.op.isRebuild = false
  pace : x.classSlot.paceExempt = true ∨ (s.claimStart rest x ci).paceValue ci ≤ s.globalEntry.pt
  weight : x.fe.weight ≠ 0
  pool : s.poolEntry x.fe.pool = some pe
  group : x.fe.groupMask.getLsbD x.site.group = true
  window : (x.fe.windowStart = 0 ∧ x.fe.windowEnd = 0) ∨ (s.swp.dtValid = true ∧ x.fe.inWindow s.dt = true)
  limit : ((s.claimStart rest x ci).client ci).grants < s.globalEntry.grantLimit

/-! ### Conditions of a WRITE ENTRY -/

/-- A carried entry passes its checks, the standby bank read as the entries before it leave it: its content is `e` (R111). -/
def Carried.Passes (k : TableKind) (b : Bank) (earlier : List (Nat × Entry)) (c : Carried) (e : Entry) : Prop :=
  c.index < k.size ∧ c.spare = 0 ∧ readEntryWords k c.words = some e ∧
    (∀ j, (b.writeAll k earlier).lookup e.featureCode = some j → j = c.index) ∧ b.damaged k c.index = false

/-- The first check of a carried entry that fails, by its result (R111; log entry 24 for the damaged mark). -/
def Carried.Fails (k : TableKind) (b : Bank) (earlier : List (Nat × Entry)) (c : Carried) (r : Result) : Prop :=
  (k.size ≤ c.index ∧ r = .badIndex) ∨
    (c.index < k.size ∧ (c.spare ≠ 0 ∨ readEntryWords k c.words = none) ∧ r = .badValue) ∨
    (c.index < k.size ∧ c.spare = 0 ∧ ∃ e, readEntryWords k c.words = some e ∧
      (((∃ j, (b.writeAll k earlier).lookup e.featureCode = some j ∧ j ≠ c.index) ∧ r = .duplicateCode) ∨
        ((∀ j, (b.writeAll k earlier).lookup e.featureCode = some j → j = c.index) ∧ b.damaged k c.index = true ∧
          r = .refusedState)))

/-- The carried entries all pass, in order, and `l` holds what they write (R111). -/
def CarriedPass (k : TableKind) (b : Bank) : List (Nat × Entry) → List Carried → List (Nat × Entry) → Prop
  | earlier, [], l => l = earlier
  | earlier, c :: rest, l => ∃ e, c.Passes k b earlier e ∧ CarriedPass k b (earlier ++ [(c.index, e)]) rest l

/-! ### Conditions of the other requests, the sweeper and the pool service -/

/-- DT is valid and lies before the entry's window start or at or after its window end (R36, R53, R59). -/
def State.OutsideWindow (s : State) (e : FeatureEntry) : Prop :=
  s.swp.dtValid = true ∧ ((e.windowStart ≠ 0 ∧ s.dt < e.windowStart) ∨ (e.windowEnd ≠ 0 ∧ e.windowEnd ≤ s.dt))

/-- The feature of a grant is no longer entitled at its renewal (R36). -/
def State.RenewalEnds (s : State) (g : Slot) : Prop :=
  g.epoch ≠ (s.featLive g.feature).epoch ∨
    ∃ e, s.featureEntry g.feature = some e ∧ (e.weight = 0 ∨ s.OutsideWindow e)

/-- The five conditions under which a yielded grant lingers, and that the state is ON (R85); read after the churn update. -/
structure State.LingerHolds (s : State) (i : Nat) : Prop where
  service : s.ada.service = .on
  churn : (s.client (s.slot i).ownerIdx).ch = s.globalEntry.cmax
  notExempt : ∀ e, s.siteEntry (s.client (s.slot i).ownerIdx).lastSite = some e →
    (s.client (s.slot i).ownerIdx).lastJob = 0 ∨ (e.slot (s.client (s.slot i).ownerIdx).lastJob).churnExempt = false
  epoch : (s.slot i).epoch = (s.featLive (s.slot i).feature).epoch
  feature : ∃ e, s.featureEntry (s.slot i).feature = some e ∧ e.linger = true ∧ e.pool = (s.slot i).pool
  pool : ∃ e, s.poolEntry (s.slot i).pool = some e ∧ 0 < e.lt
  normal : (s.poolLive (s.slot i).pool).pressure = .normal

/-- The first test of a waiter pass visit that holds, by its reason (R53). -/
def State.WaiterRefused (s : State) (w : Waiter) (r : Reason) : Prop :=
  ((w.deadline - s.swp.mt).toInt ≤ 0 ∧ r = .waitExpired) ∨
    (0 < (w.deadline - s.swp.mt).toInt ∧
      ((w.epoch ≠ (s.featLive w.feature).epoch ∧ r = .tableChanged) ∨
        (w.epoch = (s.featLive w.feature).epoch ∧ ∃ e, s.featureEntry w.feature = some e ∧
          ((e.pool ≠ w.pool ∧ r = .tableChanged) ∨
            (e.pool = w.pool ∧
              (((e.weight = 0 ∨ s.poolEntry w.pool = none) ∧ r = .disabled) ∨
                (e.weight ≠ 0 ∧ s.poolEntry w.pool ≠ none ∧ s.OutsideWindow e ∧ r = .expired)))))))

/-- The first test of the examination of a head that holds, by its reason (R59). -/
def State.HeadRefused (s : State) (w : Waiter) (r : Reason) : Prop :=
  (w.epoch ≠ (s.featLive w.feature).epoch ∧ r = .tableChanged) ∨
    (w.epoch = (s.featLive w.feature).epoch ∧
      ((s.featureEntry w.feature = none ∧ r = .tryLater) ∨
        ∃ e, s.featureEntry w.feature = some e ∧
          ((e.pool ≠ w.pool ∧ r = .tableChanged) ∨
            (e.pool = w.pool ∧
              (((e.weight = 0 ∨ s.poolEntry w.pool = none) ∧ r = .disabled) ∨
                (e.weight ≠ 0 ∧ s.poolEntry w.pool ≠ none ∧
                  ((s.OutsideWindow e ∧ r = .expired) ∨
                    (¬ s.OutsideWindow e ∧ s.globalEntry.grantLimit ≤ (s.client w.clientIdx).grants ∧ r = .clientLimit))))))))

/-- A head passes the six tests of R59 with feature entry `e` and pool entry `pe`. -/
structure State.HeadServable (s : State) (w : Waiter) (e : FeatureEntry) (pe : PoolEntry) : Prop where
  epoch : w.epoch = (s.featLive w.feature).epoch
  feature : s.featureEntry w.feature = some e
  pool : e.pool = w.pool
  weight : e.weight ≠ 0
  defined : s.poolEntry w.pool = some pe
  window : ¬ s.OutsideWindow e
  limit : (s.client w.clientIdx).grants < s.globalEntry.grantLimit

/-- A servable head passes the cap and token parts of the fit test (R8, R60). -/
def State.HeadFits (s : State) (w : Waiter) (e : FeatureEntry) : Prop :=
  (e.cap = 0 ∨ (s.featLive w.feature).hf + w.units ≤ e.cap) ∧ w.cost ≤ s.availability w.pool w.cls

/-- A queue does not stop the round: it is empty, or its head is servable and blocked at the cap or the tokens (R58, R60). -/
def State.RoundPasses (s : State) (p : Nat) (c : Cls) : Prop :=
  s.queue p c = [] ∨
    ∃ wi rest e pe, s.queue p c = wi :: rest ∧ s.HeadServable (s.waiter wi) e pe ∧ ¬ s.HeadFits (s.waiter wi) e

/-- A run of the pool's service is in progress at stage `x`, and no COUNT REBUILD holds the slot (R57). -/
structure State.InRun (s : State) (p : Nat) (x : RunStage) : Prop where
  quiet : s.Quiet
  run : ∃ r, s.runOf p = some r ∧ r.stage = x
  noRebuild : s.ada.op.isRebuild = false

/-- The run of the pool goes to stage `x`; every other run stands. -/
def State.atStage (s : State) (p : Nat) (x : RunStage) : State :=
  { s with adm.runs := s.adm.runs.map (fun r => if r.pool = p then { r with stage := x } else r) }

/-- The grant of head `wi`, whose feature and pool entries are `e` and `pe`, in slot `i` (R61). -/
def State.headServed (s : State) (wi i : Nat) (e : FeatureEntry) (pe : PoolEntry) : State :=
  let w := s.waiter wi
  State.countGranted
    (State.tell (s.client w.clientIdx) w.client w.tag
      (.grant (handleOf i (s.slot i).generation) w.cost w.units w.cls pe.ri e.code)
      (((s.unqueue wi).lowerWaiterCount w.clientIdx).createGrant i
        { owner := w.client, ownerIdx := w.clientIdx, tag := w.tag, feature := w.feature, epoch := w.epoch,
          pool := w.pool, cls := w.cls, units := w.units, cost := w.cost, renew := pe.ri }))

/-- A head that fits finds no FREE slot: the exhausted flag, with its notice and soft capture when it was clear (R30, R60). -/
def State.headUnslotted (s : State) (w : Waiter) : State :=
  if s.grt.exhausted then s
  else (State.queueNotice (.tableCapacity .grantTable .general w.pool w.client)
    { s with grt.exhausted := true }).softEvent ⟨0x0C, 0, w.pool, w.client⟩

/-- The state after a visit of a pass: its cursor has moved on (R98). -/
def State.passOn (s : State) (id : PassId) : State := { s with swp := s.swp.setPass id ((s.swp.pass id).advance id.size) }

/-- A removal of a waiter and the service run that follows when it was its queue's head (R52). -/
def State.removed (s : State) (i : Nat) (r : Reason) (reply : Option Cand) : State :=
  if (s.queue (s.waiter i).pool (s.waiter i).cls).head? = some i then (s.dropWaiter i r reply).startRun (s.waiter i).pool
  else s.dropWaiter i r reply

/-- The state after a served RENEW, YIELD or WITHDRAW has written its client's entry, if it has one (R67). -/
def State.contacted (s : State) (d : Cand) : State :=
  match s.findClient (cexClient d.payload) with
  | some i => s.noteContact i d
  | none => s

/-- Nothing of the state changed but the ports' output: the originate queues, the identification counter, and the dropped counter of
a frame that found its queue full (R150, R152). -/
structure SameButOutput (s t : State) : Prop where
  pending : t.pending = s.pending
  resetLow : t.resetLow = s.resetLow
  damage : t.damage = s.damage
  exu : t.exu = s.exu
  tbs : t.tbs = s.tbs
  adm : t.adm = s.adm
  grt : t.grt = s.grt
  wts : t.wts = s.wts
  clt : t.clt = s.clt
  swp : t.swp = s.swp
  fnu : t.fnu = s.fnu
  ada : t.ada = { s.ada with stats.dropped := t.ada.stats.dropped }
  lnk : t.lnk = { s.lnk with
    portF.originate := t.lnk.portF.originate, portS.originate := t.lnk.portS.originate, ident := t.lnk.ident }

/-! ### Invariants -/

/-- No queue holds more than its size (R148, R149, R152, R177). -/
structure State.QueuesBounded (s : State) : Prop where
  notices : s.fnu.notices.length ≤ Config.noticeQueue
  originateF : s.lnk.portF.originate.length ≤ Config.originateQueue
  originateS : s.lnk.portS.originate.length ≤ Config.originateQueue
  forwardF : s.lnk.portF.forward.length ≤ Config.forwardPath
  forwardS : s.lnk.portS.forward.length ≤ Config.forwardPath
  exuIntake : s.exu.intake.length ≤ Config.exuIntake
  adaIntake : s.ada.intake.length ≤ Config.adaIntake

/-- The sparse tables of a bank are in canonical form. -/
structure Bank.Canonical (b : Bank) : Prop where
  features : Tab.wf .empty b.features = true
  pools : Tab.wf .undefined b.pools = true
  sites : Tab.wf .undefined b.sites = true
  directory : Tab.wf none b.directory = true
  damagedFeatures : Tab.wf false b.damagedFeatures = true
  damagedPools : Tab.wf false b.damagedPools = true
  damagedSites : Tab.wf false b.damagedSites = true

/-- Every sparse store is in its one canonical form, so that equal stores are equal data. -/
structure State.Canonical (s : State) : Prop where
  bank0 : s.tbs.bank0.Canonical
  bank1 : s.tbs.bank1.Canonical
  differs : Tab.wf false s.tbs.differs = true
  poolLive : Tab.wf PoolLive.zero s.adm.pools = true
  featLive : Tab.wf FeatLive.zero s.adm.features = true
  slots : Tab.wf Slot.zero s.grt.slots = true
  linger : Tab.wf [] s.grt.linger = true
  waiters : Tab.wf Waiter.zero s.wts.waiters = true
  queues : Tab.wf Queues.none s.wts.queues = true
  clients : Tab.wf Client.zero s.clt.clients = true
  neighbours : Tab.wf none s.lnk.neighbours = true

/-- The table kind of an entry. -/
def Entry.kind : Entry → TableKind
  | .feature _ => .feature
  | .pool _ => .pool
  | .site _ => .site
  | .global _ => .global

/-- An entry as R107 to R109 allow it to be stored: empty, undefined, or every field and relation in its range. -/
def Entry.Stored : Entry → Prop
  | .feature e => e = .empty ∨ (e.code ≠ 0 ∧ e.inRange = true)
  | .pool e => e = .undefined ∨ (e.defined = true ∧ e.inRange = true)
  | .site e => e = .undefined ∨ (e.defined = true ∧ e.group ≤ 15 ∧ e.slots.length = 8)
  | .global e => e.inRange = true

/-- Every entry of a bank that is not damaged is as R107 to R109 allow. -/
def Bank.EntriesStored (b : Bank) : Prop := ∀ k i, b.damaged k i = false → (b.entry k i).Stored

/-- Both banks hold only entries in range (R107 to R109, R183). -/
structure State.BanksInRange (s : State) : Prop where
  bank0 : s.tbs.bank0.EntriesStored
  bank1 : s.tbs.bank1.EntriesStored

/-- In STARTING and PASS_ONLY the device only forwards (R144): no long operation, nothing in the intakes, the originate queues and
the notice queue, no counter changed since power-on, no round and no service run. -/
structure State.OnlyForwards (s : State) : Prop where
  op : s.ada.op = .idle
  exu : s.exu = ⟨[], none⟩
  intake : s.ada.intake = []
  stats : s.ada.stats = .zero
  notices : s.fnu.notices = []
  originateF : s.lnk.portF.originate = []
  originateS : s.lnk.portS.originate = []
  rounds : ∀ id, (s.swp.pass id).rounds = []
  runs : s.adm.runs = []

/-- A device that does not serve only forwards. -/
def State.StartupSilent (s : State) : Prop := s.ada.service.serving = false → s.OnlyForwards

/-! ### Token balance (R45) -/

/-- The sum of `f` over the numbers below `n`. -/
def sumBelow (f : Nat → Nat) (n : Nat) : Nat := ((List.range n).map f).sum

/-- What a slot adds to the used tokens of a pool and class: its cost while it holds a live grant of theirs (R1). -/
def Slot.tokens (g : Slot) (p : Nat) (c : Cls) : Nat := if g.state.live = true ∧ g.pool = p ∧ g.cls = c then g.cost else 0

/-- What a slot adds to the live grant total (R159). -/
def Slot.counts (g : Slot) : Nat := if g.state.live = true then 1 else 0

/-- The costs of the live grants of a pool and class in the slots below `n`. -/
def State.tokensBelow (s : State) (n p : Nat) (c : Cls) : Nat := sumBelow (fun i => (s.slot i).tokens p c) n

/-- The live grants in the slots below `n`. -/
def State.liveBelow (s : State) (n : Nat) : Nat := sumBelow (fun i => (s.slot i).counts) n

/-- The costs of the live grants of a pool and class, from the grant records. -/
def State.tokenSum (s : State) (p : Nat) (c : Cls) : Nat := s.tokensBelow Config.slots p c

/-- Up and Ug of every pool are the sums of the costs of its live grants (R1, R45). -/
def State.TokensBalanced (s : State) : Prop := ∀ p c, (s.poolLive p).used c = s.tokenSum p c

/-- The pool sum of a rebuild's scan for a class (R164). -/
def Rebuild.sum (r : Rebuild) (c : Cls) (p : Nat) : Nat :=
  match c with
  | .priority => Tab.get 0 r.prioritySums p
  | .general => Tab.get 0 r.generalSums p

/-- The grant table is sound: the free-slot FIFO holds every FREE slot once and no other (R29); a live grant stands in a slot of the
table, and the live grant total counts them (R159); while SUSPECT is clear, Up and Ug are the sums of the live grants' costs (R45); and
the scan of a COUNT REBUILD counts the live grants it has passed, with their costs (R164, R165). -/
structure State.GrantsSound (s : State) : Prop where
  once : s.grt.freeFifo.Nodup
  fifo : ∀ i, i ∈ s.grt.freeFifo ↔ i < Config.slots ∧ (s.slot i).state = .free
  range : ∀ i, (s.slot i).state.live = true → i < Config.slots
  total : s.grt.liveTotal = s.liveBelow Config.slots
  balance : s.grt.suspect = false → s.TokensBalanced
  scan : ∀ r, s.ada.op = .rebuild r → r.live = s.liveBelow r.cursor ∧ ∀ p c, r.sum c p = s.tokensBelow r.cursor p c

/-- Every waiter a queue lists is in use and carries that queue's pool and class, and stands there once (R49). -/
structure State.QueuesSound (s : State) : Prop where
  member : ∀ p c wi, wi ∈ s.queue p c → (s.waiter wi).inUse = true ∧ (s.waiter wi).pool = p ∧ (s.waiter wi).cls = c
  once : ∀ p c, (s.queue p c).Nodup

/-- The wait store is sound: its queues are, their table is in canonical form, and where no claim can have been queued, or all
waiters were cleared, it is as after power-on (R46, R49). -/
structure State.WaitStoreSound (s : State) : Prop where
  queues : s.QueuesSound
  form : Tab.wf Queues.none s.wts.queues = true
  cleared : s.ada.service ≠ .on → s.ada.service ≠ .drain → s.ada.service ≠ .off → s.wts = .clear

/-! ### The client table (R31, R64, R68, R70) -/

/-- The service states in which the client table and the wait store stand: outside them both are as after power-on (R173). -/
def Service.attends : Service → Bool
  | .on => true
  | .drain => true
  | .off => true
  | .starting => false
  | .passOnly => false
  | .faulted => false

/-- The live grants of a client entry in the slots below `n`, rising. -/
def State.chainBelow (s : State) (n ci : Nat) : List Nat :=
  (List.range n).filter fun i => (s.slot i).state.live && (s.slot i).ownerIdx == ci

/-- The waiters of a client entry in the records below `n`. -/
def State.waitersBelow (s : State) (n ci : Nat) : Nat :=
  sumBelow (fun wi => if (s.waiter wi).inUse = true ∧ (s.waiter wi).clientIdx = ci then 1 else 0) n

/-- The waiters of a class in the records below `n`. -/
def State.classBelow (s : State) (n : Nat) (c : Cls) : Nat :=
  sumBelow (fun wi => if (s.waiter wi).inUse = true ∧ (s.waiter wi).cls = c then 1 else 0) n

/-- The waiters stored of a class (R47). -/
def Wts.count (w : Wts) : Cls → Nat
  | .priority => w.np
  | .general => w.ng

/-- The client table but for the idle list's members. Both stores are in canonical form. An entry in use lies in the table and no two
serve one client (R64). While the table stands every live grant is in the chain of its owner's entry (R31); a chain holds the entry's live
grants, each once, and the live grant count is its length (R31, R70); the waiter count is the number of the entry's waiters, each of them
waiting in its queue for the client of an entry in use, and the class counts are those of the records (R46, R47, R49, R70). No entry
stands twice in the idle list (R68). Outside ON, DRAIN and OFF no entry is in use (R173), and before them no grant is live (R144). A
rebuild's scan has the chains of the slots it has passed (R164, R165). -/
structure State.ClientsCore (s : State) : Prop where
  form : Tab.wf Client.zero s.clt.clients = true
  wform : Tab.wf Waiter.zero s.wts.waiters = true
  range : ∀ ci, (s.client ci).inUse = true → ci < Config.clients
  unique : ∀ ci cj, (s.client ci).inUse = true → (s.client cj).inUse = true → (s.client ci).id = (s.client cj).id → ci = cj
  chained : s.ada.service.attends = true → ∀ i, (s.slot i).state.live = true →
    i ∈ (s.client (s.slot i).ownerIdx).chain ∧ (s.client (s.slot i).ownerIdx).inUse = true ∧
      (s.client (s.slot i).ownerIdx).id = (s.slot i).owner
  member : ∀ ci i, i ∈ (s.client ci).chain → (s.slot i).state.live = true ∧ (s.slot i).ownerIdx = ci
  once : ∀ ci, (s.client ci).chain.Nodup
  counted : ∀ ci, (s.client ci).grants = (s.client ci).chain.length
  waiting : ∀ ci, (s.client ci).waiters = s.waitersBelow Config.waiters ci
  held : ∀ wi, (s.waiter wi).inUse = true → wi < Config.waiters ∧ (s.client (s.waiter wi).clientIdx).inUse = true ∧
    (s.client (s.waiter wi).clientIdx).id = (s.waiter wi).client ∧ wi ∈ s.queue (s.waiter wi).pool (s.waiter wi).cls
  stored : ∀ c, s.wts.count c = s.classBelow Config.waiters c
  idleOnce : s.clt.idle.Nodup
  cleared : s.ada.service.attends = false → ∀ ci, (s.client ci).inUse = false ∧ (s.client ci).chain = []
  asleep : s.ada.service = .starting ∨ s.ada.service = .passOnly → ∀ i, (s.slot i).state.live = false
  rebuilt : ∀ r, s.ada.op = .rebuild r → s.ada.service.attends = true → ∀ ci,
    r.client ci = ⟨(s.chainBelow r.cursor ci).length, s.chainBelow r.cursor ci⟩

/-- The idle list holds the entries in use with no live grant and no waiter, and no other (R68). -/
def State.IdleExact (s : State) : Prop := ∀ ci, ci ∈ s.clt.idle ↔ (s.client ci).isIdle = true

/-- The client table is sound, the idle list with it. -/
structure State.ClientsSound (s : State) : Prop extends s.ClientsCore where
  idle : s.IdleExact

/-! ### Changes of service state -/

/-- A word of waiter, client, grant link or live record memory: its loss puts the device in FAULTED (R173). -/
def fatalWord : MemWord → Bool
  | .waiterRec _ => true
  | .queueStore _ => true
  | .clientEnt _ => true
  | .idleStore => true
  | .grantLink _ => true
  | .poolLive _ => true
  | .featLive _ => true
  | .grantRec _ => false
  | .bankEntry _ _ _ => false
  | .codeDir _ _ => false

/-- A word of those memories is lost: struck before, or before this command, with an error that cannot be corrected. -/
def State.HoldsLoss (s : State) : Prop := ∃ w d, fatalWord w = true ∧ s.damageAt w = some d ∧ d ≠ .correctable

/-- Which command may take the device from one service state to another (R159, R168, R169, R173); power-on is set apart. -/
def serviceMove (c : Instr) (s : State) (new : Service) : Prop :=
  match s.ada.service, new with
  | .starting, .on => ∃ read, c = .bootReadCompletion read
  | .starting, .passOnly => ∃ read, c = .bootReadCompletion read
  | .on, .drain => ∃ hits, c = .setService hits
  | .drain, .on => (∃ hits, c = .setService hits) ∨ c = .serviceResetCompletion
  | .drain, .off => ∃ hits, c = .setService hits
  | .off, .on => (∃ hits, c = .setService hits) ∨ c = .serviceResetCompletion
  | .faulted, .on => c = .serviceResetCompletion
  | .on, .faulted => (s.strike c.hits).HoldsLoss
  | .drain, .faulted => (s.strike c.hits).HoldsLoss
  | .off, .faulted => (s.strike c.hits).HoldsLoss
  | _, _ => False

/-! ### The schedule of rounds -/

/-- A round's visits are made while MT holds its label or its label + 1 (R98). -/
def State.roundOnTime (s : State) (label : W32) : Bool := label == s.swp.mt || label + 1 == s.swp.mt

/-- The environment keeps R98 and R103: no round that has begun and not ended has been overrun by MT. -/
def State.onSchedule (s : State) : Bool :=
  [PassId.grant, .waiter, .pool, .client].all (fun id => (s.swp.pass id).rounds.all s.roundOnTime)

end Sys2Proof.Machine
end

