-- ==== Sys2Proof/Certificates/Slice0/Obligations.lean ====
section
/-!
DEFINITION. Certificates/Slice0/Obligations.lean: the statements about this model, from the numbered rules of the manual. Each says in its
docstring which rule it formalises. Their witnesses stand in Tests/Slice0.lean.
-/
open Sys2Proof Sys2Proof.Machine

/-! ### Steps, power-on and reset -/

/-- A step runs the command at the front of the queue on the state with the rest of the queue. The model's choice (log entry 1): with no
command waiting a step changes nothing. -/
def Obligations.StepRunsFrontCommandOrIdles : Prop :=
  (∀ (c : Instr) (rest : List Instr) (s : State), s.pending = c :: rest → step s = exec c { s with pending := rest }) ∧
  (∀ s : State, s.pending = [] → step s = .next s)

/-- What power-on leaves (the reset clauses of R1, R2, R25, R29, R46, R64, R80, R93, R94, R106, R109, R113, R142, R149, R152, R153, R159 to
R161, R169, R170, R175, R177). -/
def Obligations.PowerOnStateHoldsResetValues : Prop :=
  State.reset.ada.service = .starting ∧ State.reset.ada.op = .idle ∧ State.reset.ada.stats = .zero ∧
  State.reset.ada.flash = .idle ∧ State.reset.ada.bootReading = true ∧ State.reset.ada.intake = [] ∧
  State.reset.swp.mt = 0 ∧ State.reset.swp.dtOffset = 0 ∧ State.reset.swp.dtValid = false ∧
  (∀ id, (State.reset.swp.pass id).cursor = 0) ∧
  State.reset.tbs.active = .b0 ∧ State.reset.tbs.bank0 = State.reset.tbs.bank1 ∧
  State.reset.tbs.bank0.sum = 0x056E0C40#32 ∧
  State.reset.tbs.bank0.global = ⟨5, 30, 16, 12, 4, 60, 0, 0, 64⟩ ∧
  (∀ i, State.reset.tbs.bank0.entry .feature i = .feature .empty) ∧
  (∀ i, State.reset.tbs.bank0.entry .pool i = .pool .undefined) ∧
  (∀ i, State.reset.tbs.bank0.entry .site i = .site .undefined) ∧
  (∀ code, State.reset.tbs.bank0.lookup code = none) ∧ (∀ k i, State.reset.tbs.bank0.damaged k i = false) ∧
  State.reset.tbs.differs = [] ∧
  (∀ p, State.reset.poolLive p = ⟨0, 0, 0, .normal, 0⟩ ∧ State.reset.lingerList p = [] ∧
    (∀ c, State.reset.queue p c = [])) ∧
  (∀ i, State.reset.featLive i = ⟨0, 0⟩) ∧
  (∀ i, State.reset.slot i = .zero ∧ (State.reset.slot i).state = .free ∧ (State.reset.slot i).generation = 0) ∧
  State.reset.grt.freeFifo = List.range Config.slots ∧ State.reset.grt.exhausted = false ∧
  State.reset.grt.suspect = false ∧ State.reset.grt.liveTotal = 0 ∧
  (∀ i, State.reset.waiter i = .zero ∧ (State.reset.waiter i).inUse = false) ∧ State.reset.wts.np = 0 ∧ State.reset.wts.ng = 0 ∧
  (∀ i, State.reset.client i = .zero ∧ (State.reset.client i).inUse = false) ∧ State.reset.clt.idle = [] ∧
  State.reset.fnu.soft = .zero ∧ State.reset.fnu.hard = .zero ∧ State.reset.fnu.notices = [] ∧
  State.reset.fnu.lost = false ∧ State.reset.faultN = false ∧
  (∀ p, (State.reset.port p).up = false ∧ (State.reset.port p).forward = [] ∧ (State.reset.port p).originate = [] ∧
    (State.reset.port p).mark = .originate) ∧
  State.reset.lnk.addrs = none ∧ (∀ n, Tab.get none State.reset.lnk.neighbours n = none) ∧ State.reset.lnk.ident = 0 ∧ State.reset.exu = ⟨[], none⟩

/-- RESET_N: its release puts the device in its power-on state with the boot read begun; while it is low the device is held there (R169,
R179). The model's choices: the release does so from any state (log entry 27), the queue of waiting commands and the levels of the module
presence pins stand (log entry 4), and while RESET_N is low no command but its release and the pins reaches the device (log entry 2). -/
def Obligations.ResetNHoldsAndPowersOn : Prop :=
  (∀ s : State,
     exec .resetN s = .next
       { State.reset with
         pending := s.pending, lnk.portF.module := s.lnk.portF.module, lnk.portS.module := s.lnk.portS.module } ∧
     exec .resetNLow s = .next
       { State.reset with
         pending := s.pending, resetLow := true, ada.bootReading := false
         lnk.portF.module := s.lnk.portF.module, lnk.portS.module := s.lnk.portS.module }) ∧
  (∀ (c : Instr) (s : State), s.resetLow = true → c.isPowerOn = false → (∀ p b, c ≠ .modulePresenceChange p b) →
     exec c s = .next s)

/-! ### Boot record and flash -/

/-- A boot record is valid when its 27 words sum to 0, it is not blank, its station count is 1 to 4 and each station's port code is 0 or 1
(R184). -/
def Obligations.BootRecordValidByItsWords : Prop :=
  ∀ b : List Byte, bootValid b = true ↔
    b.length = 54 ∧ (∃ x ∈ b, x ≠ 0xFF#8) ∧
    ((List.range 27).map (fun i => (be16 b (2 * i)).toNat)).sum % 65536 = 0 ∧
    1 ≤ (byteAt b 18).toNat ∧ (byteAt b 18).toNat ≤ 4 ∧
    ∀ i, i < (byteAt b 18).toNat → (byteAt b (26 + 8 * i)).toNat ≤ 1

/-- The end of the boot read: a valid record loads its addresses and the device enters ON with a SERVICE STATE notice; any other, a flash
that did not answer included, takes it to PASS_ONLY with FAULT_N low (R169), a change that queues no notice (the model's reading, log
entry 14). WRITE BOOT RECORD: BUSY while a write runs; BAD_VALUE for a
record that is not valid; otherwise DONE and the write begins, and its end compares the read-back with the record (R170). -/
def Obligations.BootReadAndBootRecordWrite : Prop :=
  (∀ (s : State) (read : Option (List Byte)) (b : List Byte),
     s.resetLow = false → s.ada.service = .starting → s.ada.bootReading = true →
     b = read.getD (List.replicate 54 0xFF#8) →
     (bootValid b = true →
       exec (.bootReadCompletion read) s = .next
         (State.queueNotice (.serviceState .starting .on s.swp.mt)
           { s with
             lnk.addrs := some (bootAddrs b), ada.bootCopy := b, ada.bootReading := false, ada.service := .on })) ∧
     (bootValid b = false →
       exec (.bootReadCompletion read) s = .next { s with ada.service := .passOnly, ada.bootReading := false } ∧
       State.faultN { s with ada.service := .passOnly, ada.bootReading := false } = true)) ∧
  ((∀ (s : State) (d : Cand) (rest : List Cand) (st : Nat), s.AdminHead .writeBootRecord d rest st →
     ((∃ r, s.ada.flash = .writing r) →
       exec .writeBootRecord s = .next ((s.adminTaken d rest st).adminReply (adminCtx .writeBootRecord d st) .busy [])) ∧
     ((∀ r, s.ada.flash ≠ .writing r) → bootValid (adminBody d.payload) = false →
       exec .writeBootRecord s = .next ((s.adminTaken d rest st).adminReply (adminCtx .writeBootRecord d st) .badValue [])) ∧
     ((∀ r, s.ada.flash ≠ .writing r) → bootValid (adminBody d.payload) = true →
       exec .writeBootRecord s = .next
         (State.adminReply (adminCtx .writeBootRecord d st) .done []
           { s.adminTaken d rest st with ada.flash := .writing (adminBody d.payload) }))) ∧
   (∀ (s : State) (record readBack : List Byte), s.resetLow = false → s.ada.flash = .writing record →
     exec (.flashWriteCompletion readBack) s = .next
       { s with ada.flash := if readBack = record then .done else .failed }))

/-! ### Ports and frames -/

/-- Link and module events: a port comes UP only with a module, goes DOWN when its signal is lost or its module removed, and follows the
module pin (R142). Every other part of the state stands. The model's choice (log entries 2 and 4): the pin is followed while RESET_N is low
too. -/
def Obligations.LinkEventsMoveOneportState : Prop :=
  ∀ (s : State) (p : Port),
    (s.resetLow = false → (s.port p).module = true →
      exec (.linkUp p) s = .next (s.setPort p { s.port p with up := true })) ∧
    (s.resetLow = false → (s.port p).module = false → exec (.linkUp p) s = .next s) ∧
    (s.resetLow = false → exec (.linkDown p .signalLost) s = .next (s.setPort p { s.port p with up := false })) ∧
    (s.resetLow = false →
      exec (.linkDown p .moduleRemoved) s = .next (s.setPort p { s.port p with up := false, module := false })) ∧
    exec (.modulePresenceChange p true) s = .next (s.setPort p { s.port p with module := true }) ∧
    exec (.modulePresenceChange p false) s = .next (s.setPort p { s.port p with module := false, up := false })

/-- The egress decision of R153 on an UP port in a state that serves; a DOWN port begins no frame. In STARTING and PASS_ONLY the forward head
is sent; that the mark stands there is the model's choice (log entry 13). -/
def Obligations.PortReadyServesByMark : Prop :=
  ∀ (s : State) (p : Port), s.resetLow = false →
    ((s.port p).up = false → exec (.portReady p) s = .next s) ∧
    ((s.port p).up = true → s.ada.service.serving = true →
      ((s.port p).forward = [] → (s.port p).originate = [] →
        exec (.portReady p) s = .next (s.setPort p { s.port p with line := none })) ∧
      (∀ fr rest, (s.port p).forward = fr :: rest →
        (s.port p).originate = [] ∨ (s.port p).mark = .originate →
        exec (.portReady p) s = .next
          (s.setPort p { s.port p with forward := rest, line := some fr, mark := .forward })) ∧
      (∀ o rest, (s.port p).originate = o :: rest →
        (s.port p).forward = [] ∨ (s.port p).mark = .forward →
        exec (.portReady p) s = .next
          (s.setPort p { s.port p with originate := rest, line := some o.frame, mark := .originate }))) ∧
    ((s.port p).up = true → s.ada.service.serving = false → (s.port p).originate = [] →
      ((s.port p).forward = [] → exec (.portReady p) s = .next (s.setPort p { s.port p with line := none })) ∧
      (∀ fr rest, (s.port p).forward = fr :: rest →
        exec (.portReady p) s = .next (s.setPort p { s.port p with forward := rest, line := some fr })))

/-- A frame at its arrival (R142, R144, R146 to R149): not received on a DOWN port, with a bad check sequence or too long; forwarded whatever
it holds in STARTING and PASS_ONLY; otherwise by its class. A candidate with a bad checksum is dropped and counted. An intercept candidate at
a full intake is forwarded and counted, or, Port S DOWN or its path full, discarded uncounted (R154). The check sequence function, and the
9,216 bytes counted with the four check bytes, are the model's (log entry 3), as is the count only of a frame that joins the path (log
entry 12). -/
def Obligations.ArrivingFrameGoesByItsClass : Prop :=
  ∀ (s : State) (p : Port) (fr : Frame), s.resetLow = false →
    ((s.port p).up = false ∨ fr.fcs ≠ fcsOf fr.bytes ∨ 9216 < fr.bytes.length + 4 →
      exec (.frameArrival p fr) s = .next s) ∧
    ((s.port p).up = true → fr.fcs = fcsOf fr.bytes → fr.bytes.length + 4 ≤ 9216 →
      (s.ada.service.serving = false ∨ classify s.addrs p fr.bytes = .passThrough →
        exec (.frameArrival p fr) s = .next (s.forwardTo (oppositePort p) fr)) ∧
      (∀ u, s.ada.service.serving = true → classify s.addrs p fr.bytes = .intercept u ∨ classify s.addrs p fr.bytes = .admin u →
        u.checksumsGood = false → exec (.frameArrival p fr) s = .next s.countDropped) ∧
      (∀ u, s.ada.service.serving = true → classify s.addrs p fr.bytes = .intercept u → u.checksumsGood = true →
        exec (.frameArrival p fr) s = .next
          (if s.exu.intake.length < 64 then { s with exu.intake := s.exu.intake ++ [u.candidate p fr] }
           else if s.lnk.portS.up = true ∧ s.lnk.portS.forward.length < 2048 then
             { s.countForwarded with lnk.portS.forward := s.lnk.portS.forward ++ [fr] }
           else s)) ∧
      (∀ u, s.ada.service.serving = true → classify s.addrs p fr.bytes = .admin u → u.checksumsGood = true →
        exec (.frameArrival p fr) s = .next
          (if s.ada.intake.length < 8 then { s with ada.intake := s.ada.intake ++ [u.candidate p fr] }
           else s.countDropped)))

/-- A frame the device composes reads back as the datagram it was composed from, with good checksums (R145, R147, R150). -/
def Obligations.ComposedFrameReadsBack : Prop :=
  ∀ (a : Addressing) (ident : W16) (payload : List Byte), payload.length ≤ 65507 →
    ∃ u, parseUdp (composeFrame a ident payload).bytes = some u ∧ u.checksumsGood = true ∧
      u.dstMac = a.dstMac ∧ u.srcMac = a.srcMac ∧ u.vlan = a.vlan ∧ u.srcIp = a.srcIp ∧ u.dstIp = a.dstIp ∧
      u.srcPort = a.srcPort ∧ u.dstPort = a.dstPort ∧ u.payload = payload

/-- A composed frame joins the tail of its originate queue and takes the identification counter; a full queue discards it, counts it, and
reports a lost notice (R150, R152, R178). A reply to a client, an unsolicited client message and an administration reply change nothing
but the ports' output: the originate queues, the identification counter and the dropped counter (R150 to R152). -/
def Obligations.ComposedFramesChangeOnlyOutput : Prop :=
  (∀ (s : State) (p : Port) (n : Option NoticeKind) (a : Addressing) (payload : List Byte),
     ((s.port p).originate.length < 256 →
       s.originate p n a payload =
         State.setPort p { s.port p with originate := (s.port p).originate ++ [⟨composeFrame a s.lnk.ident payload, n⟩] }
           { s with lnk.ident := s.lnk.ident + 1 }) ∧
     (256 ≤ (s.port p).originate.length →
       (n = none → s.originate p n a payload = State.countDropped { s with lnk.ident := s.lnk.ident + 1 }) ∧
       (∀ k, n = some k →
         s.originate p n a payload = (State.countDropped { s with lnk.ident := s.lnk.ident + 1 }).noticeLost k))) ∧
  ((∀ (s : State) (d : Cand) (m : CexMsg), SameButOutput s (s.replyTo d m)) ∧
   (∀ (s : State) (c : Client) (id : W32) (tag : W16) (m : CexMsg), SameButOutput s (s.tell c id tag m)) ∧
   (∀ (s : State) (x : AdmCtx) (r : Result) (body : List Byte), SameButOutput s (s.adminReply x r body)))

/-! ### Time -/

/-- MT rises by 1, wrapping, and opens the round labelled with the new MT of each pass that runs, the grant pass at even values only; DT
keeps its offset and nothing else changes (R93, R98, R104). A visit moves the cursor on, and after the last index the round ends (R98). The
model's choices: the labels of the rounds begun and not ended stand in a queue (log entry 11), and a pass visit with no round in progress
does nothing (log entry 2). -/
def Obligations.MtAdvanceOpensRoundsVisitedOnce : Prop :=
  (∀ s : State, s.resetLow = false →
     ∃ t, exec .mtAdvance s = .next t ∧ t = { s with swp := t.swp } ∧ t.swp.mt = s.swp.mt + 1 ∧
       t.swp.dtOffset = s.swp.dtOffset ∧ t.swp.dtValid = s.swp.dtValid ∧
       ∀ id, (t.swp.pass id).cursor = (s.swp.pass id).cursor ∧
         (t.swp.pass id).rounds =
           if id.runsIn s.ada.service = true ∧ (id = .grant → (s.swp.mt + 1).toNat % 2 = 0)
           then (s.swp.pass id).rounds ++ [s.swp.mt + 1] else (s.swp.pass id).rounds) ∧
  ((∀ (s : State), s.resetLow = false → s.swp.grantPass.rounds = [] → exec (.grantPassVisit []) s = .next s) ∧
   (∀ (s : State), s.resetLow = false → s.swp.waiterPass.rounds = [] → exec (.waiterPassVisit []) s = .next s) ∧
   (∀ (s : State), s.resetLow = false → s.swp.poolPass.rounds = [] → exec (.poolPassVisit []) s = .next s) ∧
   (∀ (s : State), s.resetLow = false → s.swp.clientPass.rounds = [] → exec (.clientPassVisit []) s = .next s) ∧
   (∀ (s : State) (id : PassId) (label : W32) (later : List W32), (s.swp.pass id).rounds = label :: later →
     ((s.swp.pass id).cursor + 1 < id.size →
       ((s.passOn id).swp.pass id) = ⟨(s.swp.pass id).cursor + 1, label :: later⟩) ∧
     (id.size ≤ (s.swp.pass id).cursor + 1 → ((s.passOn id).swp.pass id) = ⟨0, later⟩) ∧
     (∀ other, other ≠ id → (s.passOn id).swp.pass other = s.swp.pass other)) ∧
   PassId.size .grant = 32768 ∧ PassId.size .waiter = 4096 ∧ PassId.size .pool = 1024 ∧ PassId.size .client = 8192)

/-- Only MT_ADVANCE and power-on change MT (R93: no administration command writes it, SERVICE RESET and a swap leave it). -/
def Obligations.OnlyMtAdvanceMovesMT : Prop :=
  ∀ (c : Instr) (s t : State), c ≠ .mtAdvance → c.isPowerOn = false → exec c s = .next t → t.swp.mt = s.swp.mt

/-- SET TIME writes the DT offset and sets the DT valid flag; DT is then MT plus the offset (R94). -/
def Obligations.SetTimeWritesOffset : Prop :=
  ∀ (s : State) (d : Cand) (rest : List Cand) (st : Nat), s.AdminHead .setTime d rest st →
    exec .setTime s = .next
      (State.adminReply (adminCtx .setTime d st) .done []
        { s.adminTaken d rest st with swp.dtOffset := be32 (adminBody d.payload) 0, swp.dtValid := true }) ∧
    (State.adminReply (adminCtx .setTime d st) .done []
        { s.adminTaken d rest st with swp.dtOffset := be32 (adminBody d.payload) 0, swp.dtValid := true }).dt
      = s.swp.mt + be32 (adminBody d.payload) 0

/-! ### Taking administration datagrams -/

/-- A candidate from a foreign source is discarded with a soft capture, one with a bad header is dropped and counted, and an accepted one
whose command code is none of section 10.2 is answered BAD_VALUE (R155). A command of section 10.2 whose body length is not its own is
answered BAD_VALUE and does nothing else, whichever of the twenty commands it is (R155 check 3). -/
def Obligations.AdminDatagramsAreCheckedFirst : Prop :=
  (∀ (s : State) (d : Cand) (rest : List Cand), s.resetLow = false → s.ada.service.serving = true → s.ada.intake = d :: rest →
     (s.stationOf d = none →
       exec .adminCandidateRefused s = .next
         (State.softEvent ⟨0x02, d.srcPort.toNat, 0, d.srcIp⟩ { s with ada.intake := rest })) ∧
     (∀ st, s.stationOf d = some st → adminHeaderGood d.payload = false →
       exec .adminCandidateRefused s = .next (State.countDropped { s with ada.intake := rest })) ∧
     (∀ st, s.stationOf d = some st → adminHeaderGood d.payload = true → adminCode d.payload = none →
       exec .adminCandidateRefused s = .next
         ((s.adminTaken d rest st).adminSend (d.issuer st) (byteAt d.payload 4).toNat .badValue []))) ∧
  (∀ (c : Instr) (k : AdminCode) (s : State) (d : Cand) (rest : List Cand) (st : Nat),
     c.adminKind = some k → s.resetLow = false → s.ada.service.serving = true → s.ada.intake = d :: rest →
     s.stationOf d = some st → adminHeaderGood d.payload = true → adminCode d.payload = some k →
     adminLengthGood k d.payload = false →
     exec c s = .next (((s.strike c.hits).adminTaken d rest st).adminReply (adminCtx k d st) .badValue []))

/-! ### The read commands -/

/-- READ POOL, READ FEATURE LIVE, READ GRANT and READ WAITER are answered BAD_VALUE for a spare byte not 0, BAD_INDEX for an index past the
table, and otherwise DONE with the record as it stands; they change nothing but the intake, the neighbour record and the ports' output
(R156, R157, R182). READ CLIENT reports the entry in use that carries the ID (R157). The model's choices: the spare byte is tested before
the index (log entry 16), and the layout of the record bytes (log entry 15). -/
def Obligations.RecordReadsReportAsItStands : Prop :=
  (∀ (s : State) (d : Cand) (rest : List Cand) (st i : Nat) (spare : W16),
     (be16 (adminBody d.payload) 0).toNat = i → be16 (adminBody d.payload) 2 = spare →
     let t := s.adminTaken d rest st
     (s.AdminHead .readPool d rest st →
       let x := adminCtx .readPool d st
       (spare ≠ 0 → exec (.readPool []) s = .next (t.adminReply x .badValue [])) ∧
       (spare = 0 → 1024 ≤ i → exec (.readPool []) s = .next (t.adminReply x .badIndex [])) ∧
       (spare = 0 → i < 1024 → exec (.readPool []) s = .next (t.adminReply x .done (s.poolBytes i)))) ∧
     (s.AdminHead .readFeatureLive d rest st →
       let x := adminCtx .readFeatureLive d st
       (spare ≠ 0 → exec (.readFeatureLive []) s = .next (t.adminReply x .badValue [])) ∧
       (spare = 0 → 16384 ≤ i → exec (.readFeatureLive []) s = .next (t.adminReply x .badIndex [])) ∧
       (spare = 0 → i < 16384 → exec (.readFeatureLive []) s = .next (t.adminReply x .done (s.featLive i).bytes))) ∧
     (s.AdminHead .readGrant d rest st →
       let x := adminCtx .readGrant d st
       (spare ≠ 0 → exec (.readGrant []) s = .next (t.adminReply x .badValue [])) ∧
       (spare = 0 → 32768 ≤ i → exec (.readGrant []) s = .next (t.adminReply x .badIndex [])) ∧
       (spare = 0 → i < 32768 → exec (.readGrant []) s = .next (t.adminReply x .done (s.grantBytes i)))) ∧
     (s.AdminHead .readWaiter d rest st →
       let x := adminCtx .readWaiter d st
       (spare ≠ 0 → exec (.readWaiter []) s = .next (t.adminReply x .badValue [])) ∧
       (spare = 0 → 4096 ≤ i → exec (.readWaiter []) s = .next (t.adminReply x .badIndex [])) ∧
       (spare = 0 → i < 4096 → exec (.readWaiter []) s = .next (t.adminReply x .done (s.waiterBytes i))))) ∧
  (∀ (s : State) (d : Cand) (rest : List Cand) (st : Nat) (id : W32), s.AdminHead .readClient d rest st →
     be32 (adminBody d.payload) 0 = id →
     (id = 0 →
       exec (.readClient []) s = .next ((s.adminTaken d rest st).adminReply (adminCtx .readClient d st) .badValue [])) ∧
     (id ≠ 0 → s.findClient id = none →
       exec (.readClient []) s = .next ((s.adminTaken d rest st).adminReply (adminCtx .readClient d st) .badIndex [])) ∧
     (∀ i, id ≠ 0 → s.findClient id = some i →
       exec (.readClient []) s = .next
         ((s.adminTaken d rest st).adminReply (adminCtx .readClient d st) .done (s.clientBytes i))))

/-- READ STATUS reports the figures of R157; with its clear flag the six counters become 0 after their values are placed in the reply, and
without it they stand (R157, R160). READ ENTRY reports the entries of the named bank and kind in order; a first index plus count past the
table is BAD_INDEX, a count of 0 or above 16 BAD_VALUE (R157). The model's choices: the layouts of both replies and the cursor 0 of a slot
in IDLE or RESET (log entry 21), the issuing station reported in IDLE (log entry 28), and that a bad kind, spare byte or count is tested
before the bank and the index, a bank other than 0 or 1 being BAD_INDEX (log entry 16). That the counters are cleared before the reply is
queued is the model's choice (log entry 42). -/
def Obligations.StatusAndEntryReadsReport : Prop :=
  (∀ (s : State) (d : Cand) (rest : List Cand) (st : Nat), s.AdminHead .readStatus d rest st →
     (byteAt (adminBody d.payload) 0 = 0 →
       exec .readStatus s = .next ((s.adminTaken d rest st).adminReply (adminCtx .readStatus d st) .done s.statusBytes)) ∧
     (byteAt (adminBody d.payload) 0 = 1 →
       exec .readStatus s = .next
         (State.adminReply (adminCtx .readStatus d st) .done s.statusBytes
           { s.adminTaken d rest st with ada.stats := .zero })) ∧
     (1 < (byteAt (adminBody d.payload) 0).toNat →
       exec .readStatus s = .next ((s.adminTaken d rest st).adminReply (adminCtx .readStatus d st) .badValue []))) ∧
  (∀ (s : State) (d : Cand) (rest : List Cand) (st : Nat) (k : TableKind) (first count : Nat),
     s.AdminHead .readEntry d rest st → TableKind.ofCode (byteAt (adminBody d.payload) 1).toNat = some k →
     (be16 (adminBody d.payload) 2).toNat = first → (byteAt (adminBody d.payload) 4).toNat = count →
     byteAt (adminBody d.payload) 5 = 0 → be16 (adminBody d.payload) 6 = 0 →
     (count = 0 ∨ 16 < count →
       exec (.readEntry []) s = .next ((s.adminTaken d rest st).adminReply (adminCtx .readEntry d st) .badValue [])) ∧
     (∀ b, 1 ≤ count → count ≤ 16 → bankOf (byteAt (adminBody d.payload) 0).toNat = some b →
       (first + count ≤ k.size →
         exec (.readEntry []) s = .next
           ((s.adminTaken d rest st).adminReply (adminCtx .readEntry d st) .done
             (((List.range count).map (fun j => s.entryBytes b k (first + j))).flatten))) ∧
       (k.size < first + count →
         exec (.readEntry []) s = .next ((s.adminTaken d rest st).adminReply (adminCtx .readEntry d st) .badIndex []))) ∧
     (1 ≤ count → count ≤ 16 → 1 < (byteAt (adminBody d.payload) 0).toNat →
       exec (.readEntry []) s = .next ((s.adminTaken d rest st).adminReply (adminCtx .readEntry d st) .badIndex []))) ∧
  (∀ (s : State) (d : Cand) (rest : List Cand) (st : Nat), s.AdminHead .readEntry d rest st →
     TableKind.ofCode (byteAt (adminBody d.payload) 1).toNat = none ∨ byteAt (adminBody d.payload) 5 ≠ 0 ∨
       be16 (adminBody d.payload) 6 ≠ 0 →
     exec (.readEntry []) s = .next ((s.adminTaken d rest st).adminReply (adminCtx .readEntry d st) .badValue []))

/-! ### The other short commands -/

/-- SET WITHHOLD writes W of the pool, makes its pressure check, which may enter CONSTRAINED, and serves the pool when W fell (R5, R81, R82,
R90, R158). A pool or a W out of range changes no state (R156); a pool out of range is BAD_INDEX whatever W (the model's choice, log entry
16). That an entry to CONSTRAINED which such a check makes under COUNT REBUILD queues its notice at once is the model's choice (log entry
9). -/
def Obligations.SetWithholdWritesW : Prop :=
  ∀ (s : State) (d : Cand) (rest : List Cand) (st p w : Nat), s.AdminHead .setWithhold d rest st →
    (be16 (adminBody d.payload) 0).toNat = p → (be32 (adminBody d.payload) 4).toNat = w →
    be16 (adminBody d.payload) 2 = 0 →
    (1024 ≤ p →
      exec (.setWithhold []) s = .next ((s.adminTaken d rest st).adminReply (adminCtx .setWithhold d st) .badIndex [])) ∧
    (p < 1024 → 1048575 < w →
      exec (.setWithhold []) s = .next ((s.adminTaken d rest st).adminReply (adminCtx .setWithhold d st) .badValue [])) ∧
    (p < 1024 → w ≤ 1048575 →
      let t := (s.adminTaken d rest st).setPoolLive p { s.poolLive p with w := w }
      (t.PressureStands p false →
        exec (.setWithhold []) s = .next
          (State.adminReply (adminCtx .setWithhold d st) .done [] (if w < (s.poolLive p).w then t.startRun p else t))) ∧
      (t.PressureSettles p →
        exec (.setWithhold []) s = .next
          (State.adminReply (adminCtx .setWithhold d st) .done []
            (if w < (s.poolLive p).w then (t.checked p false).startRun p else t.checked p false))) ∧
      (t.PressureEnters p → t.lingerList p = [] → s.ada.op.isRebuild = false → (∀ r ∈ s.adm.runs, r.pool ≠ p) →
        exec (.setWithhold []) s = .next
          (State.adminReply (adminCtx .setWithhold d st) .done []
            { (t.setPoolLive p { t.poolLive p with pressure := .constrained, entryTime := s.swp.mt }).setLinger p [] with
              adm.runs := s.adm.runs ++ [⟨p, [s.swp.mt], .priority⟩] })))

/-- SET SERVICE decides by the table of R159; FAULTED and a SERVICE RESET in flight refuse it (R156), FAULTED first where both hold (the
model's choice, log entry 17). Entry to DRAIN removes every waiter, each with DENY DRAINING, the pools in index order and PRIORITY before
GENERAL, and starts no service; the reply comes after them (the model's choice, log entry 26). From a state whose queues are sound, all
queues are empty in the state after, and the denied counter has risen by the number of waiters (R52, R55). That the removals come before the
change of state is the model's choice (log entry 41). -/
def Obligations.SetServiceFollowsTable : Prop :=
  (∀ (s : State) (d : Cand) (rest : List Cand) (st n : Nat), s.AdminHead .setService d rest st →
     (byteAt (adminBody d.payload) 0).toNat = n →
     (s.ada.service = .faulted →
       exec (.setService []) s = .next ((s.adminTaken d rest st).adminReply (adminCtx .setService d st) .refusedState [])) ∧
     (s.ada.service ≠ .faulted → s.ada.op = .reset →
       exec (.setService []) s = .next ((s.adminTaken d rest st).adminReply (adminCtx .setService d st) .busy [])) ∧
     (s.ada.service ≠ .faulted → s.ada.op ≠ .reset →
       (n = 0 ∨ 3 < n →
         exec (.setService []) s = .next ((s.adminTaken d rest st).adminReply (adminCtx .setService d st) .badValue [])) ∧
       (n = s.ada.service.code →
         exec (.setService []) s = .next ((s.adminTaken d rest st).adminReply (adminCtx .setService d st) .done [])) ∧
       (n = 1 → s.ada.service = .drain ∨ s.ada.service = .off →
         exec (.setService []) s = .next
           (((s.adminTaken d rest st).enterService .on).adminReply (adminCtx .setService d st) .done [])) ∧
       (n = 2 → s.ada.service = .on → s.allWaiters = [] →
         exec (.setService []) s = .next
           (((s.adminTaken d rest st).enterService .drain).adminReply (adminCtx .setService d st) .done [])) ∧
       (n = 3 → s.ada.service = .drain → s.grt.liveTotal = 0 → s.wts.np + s.wts.ng = 0 →
         exec (.setService []) s = .next
           (((s.adminTaken d rest st).enterService .off).adminReply (adminCtx .setService d st) .done [])) ∧
       (n = 3 → s.ada.service = .drain → s.grt.liveTotal ≠ 0 ∨ s.wts.np + s.wts.ng ≠ 0 →
         exec (.setService []) s = .next
           ((s.adminTaken d rest st).adminReply (adminCtx .setService d st) .refusedState [])) ∧
       (n = 2 ∧ s.ada.service = .off ∨ n = 3 ∧ s.ada.service = .on →
         exec (.setService []) s = .next
           ((s.adminTaken d rest st).adminReply (adminCtx .setService d st) .refusedState [])))) ∧
  (∀ (s : State) (d : Cand) (rest : List Cand) (st : Nat), s.AdminHead .setService d rest st →
     byteAt (adminBody d.payload) 0 = 2 → s.ada.service = .on → s.ada.op ≠ .reset → s.QueuesSound → s.Canonical →
     ∃ t, exec (.setService []) s = .next t ∧ t.ada.service = .drain ∧ (∀ p c, t.queue p c = []) ∧
       t.wts.np = s.wts.np - ((s.wts.queues.flatMap (fun kv => kv.2.priority)).length) ∧
       t.wts.ng = s.wts.ng - ((s.wts.queues.flatMap (fun kv => kv.2.general)).length) ∧
       t.ada.stats.denied = s.ada.stats.denied + BitVec.ofNat 32 s.allWaiters.length ∧
       t.grt.slots = s.grt.slots ∧ t.adm = s.adm ∧ t.tbs = s.tbs) ∧
  (∀ (s : State) (d : Cand) (rest : List Cand) (st : Nat), s.AdminHead .setService d rest st →
     byteAt (adminBody d.payload) 0 = 2 → s.ada.service = .on → s.ada.op ≠ .reset →
     exec (.setService []) s = .next
       (((s.allWaiters.foldl (fun t i => t.dropWaiter i .draining none) (s.adminTaken d rest st)).enterService .drain).adminReply
         (adminCtx .setService d st) .done []))

/-- REVOKE HANDLE: a server's handle is BAD_VALUE; a handle whose generation differs or whose slot is FREE or BAD is BAD_INDEX; a HELD or
STALE grant becomes RECALLED with reason REVOKED, a LINGER grant is released, a RECALLED grant stands; the checks and runs of R41 and R43
follow, here first with checks that change nothing, then with checks that go no further than their pools (R28, R41, R158). That the reply is
composed after the RECALL frame of its event is the model's choice (log entry 26). That an entry to CONSTRAINED which such a check makes
under COUNT REBUILD queues its notice at once is the model's choice (log entry 9). That a damaged or empty feature entry maps to no pool to
be checked and served is the model's choice (log entry 44). -/
def Obligations.RevokeHandleRecalls : Prop :=
  ∀ (s : State) (d : Cand) (rest : List Cand) (st : Nat) (h : W32), s.AdminHead .revokeHandle d rest st →
    be32 (adminBody d.payload) 0 = h →
    (handleOurs h = false →
      exec (.revokeHandle []) s = .next ((s.adminTaken d rest st).adminReply (adminCtx .revokeHandle d st) .badValue [])) ∧
    (handleOurs h = true →
      (s.slot (handleSlot h)).generation ≠ handleGeneration h ∨ (s.slot (handleSlot h)).state = .free ∨
        (s.slot (handleSlot h)).state = .bad →
      exec (.revokeHandle []) s = .next ((s.adminTaken d rest st).adminReply (adminCtx .revokeHandle d st) .badIndex [])) ∧
    (handleOurs h = true → (s.slot (handleSlot h)).generation = handleGeneration h →
      ((s.slot (handleSlot h)).state = .recalled →
        exec (.revokeHandle []) s = .next
          ((s.adminTaken d rest st).adminReply (adminCtx .revokeHandle d st) .done [4, 4])) ∧
      ((s.slot (handleSlot h)).state = .held ∨ (s.slot (handleSlot h)).state = .stale →
        s.RecallStands (handleSlot h) ((s.adminTaken d rest st).recallHeld (handleSlot h) .revoked) →
        exec (.revokeHandle []) s = .next
          ((s.recallRuns (handleSlot h) ((s.adminTaken d rest st).recallHeld (handleSlot h) .revoked)).adminReply
            (adminCtx .revokeHandle d st) .done (nat8 (s.slot (handleSlot h)).state.code ++ [4]))) ∧
      ((s.slot (handleSlot h)).state = .held ∨ (s.slot (handleSlot h)).state = .stale →
        s.RecallSettles (handleSlot h) ((s.adminTaken d rest st).recallHeld (handleSlot h) .revoked) →
        exec (.revokeHandle []) s = .next
          ((s.recallChecked (handleSlot h) ((s.adminTaken d rest st).recallHeld (handleSlot h) .revoked)).adminReply
            (adminCtx .revokeHandle d st) .done (nat8 (s.slot (handleSlot h)).state.code ++ [4]))) ∧
      ((s.slot (handleSlot h)).state = .linger →
        ((s.adminTaken d rest st).releaseSlot (handleSlot h)).ReleaseStands (s.releasedOf (handleSlot h)) →
        exec (.revokeHandle []) s = .next
          ((((s.adminTaken d rest st).releaseSlot (handleSlot h)).releaseRuns (s.releasedOf (handleSlot h))).adminReply
            (adminCtx .revokeHandle d st) .done [3, 0])) ∧
      ((s.slot (handleSlot h)).state = .linger →
        ((s.adminTaken d rest st).releaseSlot (handleSlot h)).ReleaseSettles (s.releasedOf (handleSlot h)) →
        exec (.revokeHandle []) s = .next
          ((((s.adminTaken d rest st).releaseSlot (handleSlot h)).releaseChecked (s.releasedOf (handleSlot h))).adminReply
            (adminCtx .revokeHandle d st) .done [3, 0])))

/-- The first event given to a capture locks it with the event's fields and the current MT and queues its notice; a later one only sets the
second-error flag (R175). CLEAR CAPTURE answers with the record as it stood and clears it (R176). -/
def Obligations.CapturesLockAndClear : Prop :=
  (∀ (s : State) (e : Event),
     (s.fnu.soft.locked = false →
       s.softEvent e =
         State.queueNotice (.softEvent ⟨true, s.fnu.soft.second, e.code, e.index, e.pool, e.client, s.swp.mt⟩)
           { s with fnu.soft := ⟨true, s.fnu.soft.second, e.code, e.index, e.pool, e.client, s.swp.mt⟩ }) ∧
     (s.fnu.soft.locked = true → s.softEvent e = { s with fnu.soft.second := true }) ∧
     (s.fnu.hard.locked = false →
       s.hardEvent e =
         State.queueNotice (.hardEvent ⟨true, s.fnu.hard.second, e.code, e.index, e.pool, e.client, s.swp.mt⟩)
           { s with fnu.hard := ⟨true, s.fnu.hard.second, e.code, e.index, e.pool, e.client, s.swp.mt⟩ }) ∧
     (s.fnu.hard.locked = true → s.hardEvent e = { s with fnu.hard.second := true })) ∧
  (∀ (s : State) (d : Cand) (rest : List Cand) (st : Nat), s.AdminHead .clearCapture d rest st →
     (byteAt (adminBody d.payload) 0 = 1 →
       exec .clearCapture s = .next
         (State.adminReply (adminCtx .clearCapture d st) .done s.fnu.soft.bytes
           { s.adminTaken d rest st with fnu.soft := .zero })) ∧
     (byteAt (adminBody d.payload) 0 = 2 →
       exec .clearCapture s = .next
         (State.adminReply (adminCtx .clearCapture d st) .done s.fnu.hard.bytes
           { s.adminTaken d rest st with fnu.hard := .zero })) ∧
     (byteAt (adminBody d.payload) 0 ≠ 1 → byteAt (adminBody d.payload) 0 ≠ 2 →
       exec .clearCapture s = .next ((s.adminTaken d rest st).adminReply (adminCtx .clearCapture d st) .badValue [])))

/-! ### Captures, notices, FAULT_N -/

/-- A notice joins the tail of a queue of fewer than 32; a notice that finds 32 sets the lost flag and gives the soft capture code 0x0B,
whose own notice is then lost too, setting the second-error flag (R177, R178). The head of the notice queue goes to the Link Unit when
station 0's port holds no notice, carrying the lost flag, which clears; with one there it waits (R151, R177, R178). -/
def Obligations.NoticesQueueAndLeave : Prop :=
  (∀ (s : State) (b : NoticeBody),
     (s.fnu.notices.length < 32 → s.queueNotice b = { s with fnu.notices := s.fnu.notices ++ [⟨s.swp.mt, b⟩] }) ∧
     (32 ≤ s.fnu.notices.length → s.fnu.soft.locked = true →
       s.queueNotice b = { s with fnu.lost := true, fnu.soft.second := true }) ∧
     (32 ≤ s.fnu.notices.length → s.fnu.soft.locked = false →
       s.queueNotice b = { s with
         fnu.lost := true, fnu.soft := ⟨true, true, 0x0B, b.kind.code, 0, 0, s.swp.mt⟩ })) ∧
  (∀ (s : State) (n : Notice) (rest : List Notice), s.resetLow = false → s.ada.service.serving = true →
     s.fnu.notices = n :: rest →
     ((∃ o ∈ (s.port (s.station 0).port).originate, o.notice.isSome = true) → exec .noticeHandoff s = .next s) ∧
     ((∀ o ∈ (s.port (s.station 0).port).originate, o.notice = none) →
       exec .noticeHandoff s = .next
         (State.originate (s.station 0).port (some n.body.kind) s.noticeAddressing (noticeDatagram n s.fnu.lost)
           { s with fnu.notices := rest, fnu.lost := false })))

/-- FAULT_N is low exactly while RESET_N is high and the hard capture is locked or the service state is FAULTED or PASS_ONLY (R179). -/
def Obligations.FaultNFollowsItsConditions : Prop :=
  ∀ s : State, s.faultN = true ↔
    s.resetLow = false ∧ (s.fnu.hard.locked = true ∨ s.ada.service = .faulted ∨ s.ada.service = .passOnly)

/-! ### Client datagrams: forwarding and refusal -/

/-- A client datagram is handed back, counted in the forwarded counter, in a service state that does not serve its kind and while a SERVICE
RESET is in flight; its frame joins the forward path toward Port S unchanged, unless that path holds 2,048 (R12, R125, R139, R141, R148,
R149, R167). A datagram of any kind that fails a check of R126, and in ON and DRAIN one of a kind that is no request, is answered DENY
MALFORMED with its kind byte, gives the soft capture code 0x01 and raises the denied counter; CEX_DATAGRAM_OF_OTHER_KIND completes so
(R125 to R127). The model's reading (log entry 12): the forwarded counter rises although the path is full, and the frame joins the path
whatever the state of Port S. -/
def Obligations.ClientDatagramsForwardedOrMalformed : Prop :=
  ((∀ (c : Instr) (k : CexKind) (s : State) (d : Cand) (rest : List Cand),
     c.clientKind = some k → s.resetLow = false → s.ada.service.serving = true → s.exu.intake = d :: rest → s.exu.work = none →
     cexKind d.payload = k → s.ada.op = .reset ∨ k.servedIn s.ada.service = false →
     exec c s = .next (((s.strike c.hits).clientTaken rest).handBack d)) ∧
   (∀ (s : State) (d : Cand),
     (s.lnk.portS.forward.length < 2048 →
       s.handBack d = { s.countForwarded with lnk.portS.forward := s.lnk.portS.forward ++ [d.frame] }) ∧
     (2048 ≤ s.lnk.portS.forward.length → s.handBack d = s.countForwarded))) ∧
  (∀ (c : Instr) (k : CexKind) (s : State) (d : Cand) (rest : List Cand),
     c.clientKind = some k → s.resetLow = false → s.ada.service.serving = true → s.exu.intake = d :: rest → s.exu.work = none →
     cexKind d.payload = k → s.ada.op ≠ .reset → k.servedIn s.ada.service = true → cexWellFormed d.payload = false →
     exec c s = .next
       (((((s.strike c.hits).clientTaken rest).replyTo d (.denyMalformed (cexKindByte d.payload))).softEvent
         ⟨0x01, 0, 0, cexClient d.payload⟩).countDenied)) ∧
  (∀ (s : State) (d : Cand) (rest : List Cand),
     s.resetLow = false → s.ada.service = .on ∨ s.ada.service = .drain → s.exu.intake = d :: rest → s.exu.work = none →
     cexKind d.payload = .other → s.ada.op ≠ .reset →
     exec .cexDatagramOfOtherKind s = .next
       ((((s.clientTaken rest).replyTo d (.denyMalformed (cexKindByte d.payload))).softEvent
         ⟨0x01, 0, 0, cexClient d.payload⟩).countDenied))

/-! ### CLAIM -/

/-- Steps 2 and 3: a claim whose site is undefined or damaged, whose code is not loaded, or one of whose entries is damaged, is forwarded
(R13). Step 4 with every entry in use and none idle: DENY TRY_LATER with feature code 0, a TABLE CAPACITY notice and a soft capture (R14,
R65). The pool 0 of that notice is the model's choice (log entry 32), as is the class it carries, the store having none (log entry 15). -/
def Obligations.ClaimOutsideTablesOrClientTableFull : Prop :=
  (∀ (s : State) (d : Cand) (rest : List Cand), s.ServedHead .claim d rest →
     s.siteEntry (readClaim d.payload).site = none ∨ s.activeBank.lookup (readClaim d.payload).code = none ∨
       (∃ fi, s.activeBank.lookup (readClaim d.payload).code = some fi ∧
         (s.featureEntry fi = none ∨ (∃ fe, s.featureEntry fi = some fe ∧ s.activeBank.damaged .pool fe.pool = true) ∨
           s.activeBank.damagedGlobal = true)) →
     exec (.claim []) s = .next ((s.clientTaken rest).handBack d)) ∧
  (∀ (s : State) (d : Cand) (rest : List Cand) (q : ClaimReq) (site : SiteEntry) (fi : Nat) (fe : FeatureEntry),
     s.ServedHead .claim d rest → q = readClaim d.payload → s.siteEntry q.site = some site →
     s.activeBank.lookup q.code = some fi → s.featureEntry fi = some fe → s.activeBank.damaged .pool fe.pool = false →
     s.activeBank.damagedGlobal = false → s.findClient q.client = none → s.newClientIndex = none →
     exec (.claim []) s = .next
       (((((s.clientTaken rest).replyTo d (.deny .tryLater 0)).countDenied.queueNotice
         (.tableCapacity .clientTable .general 0 q.client))).softEvent ⟨0x0D, 0, 0, q.client⟩))

/-- Step 5: a repeated claim of a HELD or STALE grant is answered that grant's GRANT, with the code now loaded at its index, and one of a
waiter its WAIT with its current position and seconds; no record changes but the client's entry, and no counter (R15, R24, R33). Step 5 at a
lingering grant with the tag that the claim cannot reuse, and at a RECALLED one: the grant is released and the claim denied TRY_LATER or
with the recall reason; the checks and runs after the release follow, here first with checks that change nothing, then with checks that go
no further than their pools (R33, R42, R43). That an entry to CONSTRAINED which such a check makes under COUNT REBUILD queues its notice at
once is the model's choice (log entry 9). That a damaged or empty feature entry maps to no pool to be checked and served is the model's
choice (log entry 44). -/
def Obligations.RepeatedClaimIsSettledAtItsRecord : Prop :=
  (∀ (s : State) (d : Cand) (rest : List Cand) (x : ClaimCtx) (ci : Nat), s.ClaimHead d rest x ci →
     (∀ wi, (s.claimStart rest x ci).findWaiter ci x.q.tag = some wi →
       exec (.claim []) s = .next
         ((s.claimStart rest x ci).replyTo d
           (.wait (s.position wi) (s.secondsUntil (s.waiter wi).deadline) (s.waiterCode (s.waiter wi))))) ∧
     (∀ i, (s.claimStart rest x ci).findWaiter ci x.q.tag = none →
       ((s.claimStart rest x ci).client ci).chain.find? (fun i => (s.slot i).tag == x.q.tag) = some i →
       (s.slot i).state = .held ∨ (s.slot i).state = .stale →
       exec (.claim []) s = .next
         ((s.claimStart rest x ci).replyTo d
           (.grant (handleOf i (s.slot i).generation) (s.slot i).cost (s.slot i).units (s.slot i).cls (s.slot i).renew
             (s.loadedCode (s.slot i).feature))))) ∧
  (∀ (s : State) (d : Cand) (rest : List Cand) (x : ClaimCtx) (ci i : Nat) (r : Reason), s.ClaimHead d rest x ci →
     (s.claimStart rest x ci).findWaiter ci x.q.tag = none →
     ((s.claimStart rest x ci).client ci).chain.find? (fun i => (s.slot i).tag == x.q.tag) = some i →
     ((s.slot i).state = .linger ∧ x.reuses s (s.slot i) = false ∧ r = .tryLater) ∨
       ((s.slot i).state = .recalled ∧ (s.slot i).reason = some r) →
     let t := ((s.claimStart rest x ci).releaseSlot i).denyClaim d r x.q.code
     (t.ReleaseStands ((s.claimStart rest x ci).releasedOf i) →
       exec (.claim []) s = .next (t.releaseRuns ((s.claimStart rest x ci).releasedOf i))) ∧
     (t.ReleaseSettles ((s.claimStart rest x ci).releasedOf i) →
       exec (.claim []) s = .next (t.releaseChecked ((s.claimStart rest x ci).releasedOf i))))

/-- Steps 5 and 6: a lingering grant of the client that the claim can reuse, found by the claim's tag or, no grant carrying that tag, by the
walk of the chain, is taken back as HELD under the claim's tag, off its linger list, with a new start and deadline, and answered GRANT with
its own handle, cost, units, class and interval (R15, R33, R34). -/
def Obligations.MatchingClaimReusesLingeringGrant : Prop :=
  ∀ (s : State) (d : Cand) (rest : List Cand) (x : ClaimCtx) (ci i : Nat), s.ClaimHead d rest x ci →
    (s.claimStart rest x ci).findWaiter ci x.q.tag = none →
    (((s.claimStart rest x ci).client ci).chain.find? (fun j => (s.slot j).tag == x.q.tag) = some i ∧ x.reuses s (s.slot i) = true) ∨
      ((∀ j ∈ ((s.claimStart rest x ci).client ci).chain, (s.slot j).tag ≠ x.q.tag) ∧
        ((s.claimStart rest x ci).client ci).chain.find? (fun j => x.reuses s (s.slot j)) = some i) →
    exec (.claim []) s = .next
      (((((s.claimStart rest x ci).setLinger (s.slot i).pool ((s.lingerList (s.slot i).pool).erase i)).setSlot i
        { s.slot i with
          state := .held, tag := x.q.tag, start := s.swp.mt
          deadline := s.swp.mt + BitVec.ofNat 32 (2 * (s.slot i).renew) }).replyTo d
        (.grant (handleOf i (s.slot i).generation) (s.slot i).cost (s.slot i).units (s.slot i).cls (s.slot i).renew
          x.q.code)).countGranted)

/-- Steps 7 and 8: DEFER REBUILD with retry-after 1 while COUNT REBUILD holds the slot, and DEFER PACE above the threshold, with the
retry-after of R74 (R16, R17, R74). Steps 9 and 10 in their order: DISABLED for weight 0, and for an undefined pool with a soft capture;
GROUP_BLOCKED; CLOCK_UNSET; NOT_YET; EXPIRED; CLIENT_LIMIT (R18, R19). -/
def Obligations.ClaimDeferredOrNotEntitled : Prop :=
  (∀ (s : State) (d : Cand) (rest : List Cand) (x : ClaimCtx) (ci : Nat), s.ClaimReaches d rest x ci →
     (s.ada.op.isRebuild = true →
       exec (.claim []) s = .next (((s.claimStart rest x ci).replyTo d (.deferRebuild 1)).countDeferred)) ∧
     (s.ada.op.isRebuild = false → x.classSlot.paceExempt = false →
       s.globalEntry.pt < min ((s.claimStart rest x ci).client ci).rp s.globalEntry.pmax →
       exec (.claim []) s = .next
         (((s.claimStart rest x ci).replyTo d
           (.deferPace (max 1 (min 3600
             ((min ((s.claimStart rest x ci).client ci).rp s.globalEntry.pmax - s.globalEntry.pt) * s.globalEntry.bi))))).countDeferred))) ∧
  (∀ (s : State) (d : Cand) (rest : List Cand) (x : ClaimCtx) (ci : Nat), s.ClaimReaches d rest x ci →
     s.ada.op.isRebuild = false →
     x.classSlot.paceExempt = true ∨ (s.claimStart rest x ci).paceValue ci ≤ s.globalEntry.pt →
     (x.fe.weight = 0 → exec (.claim []) s = .next ((s.claimStart rest x ci).denyClaim d .disabled x.q.code)) ∧
     (x.fe.weight ≠ 0 → s.poolEntry x.fe.pool = none →
       exec (.claim []) s = .next
         (((s.claimStart rest x ci).denyClaim d .disabled x.q.code).softEvent ⟨0x03, x.fi, x.fe.pool, x.q.client⟩)) ∧
     (∀ pe, x.fe.weight ≠ 0 → s.poolEntry x.fe.pool = some pe →
       (x.fe.groupMask.getLsbD x.site.group = false →
         exec (.claim []) s = .next ((s.claimStart rest x ci).denyClaim d .groupBlocked x.q.code)) ∧
       (x.fe.groupMask.getLsbD x.site.group = true →
         (x.fe.windowStart ≠ 0 ∨ x.fe.windowEnd ≠ 0 → s.swp.dtValid = false →
           exec (.claim []) s = .next ((s.claimStart rest x ci).denyClaim d .clockUnset x.q.code)) ∧
         (s.swp.dtValid = true → x.fe.windowStart ≠ 0 → s.dt < x.fe.windowStart →
           exec (.claim []) s = .next ((s.claimStart rest x ci).denyClaim d .notYet x.q.code)) ∧
         (s.swp.dtValid = true → x.fe.windowStart = 0 ∨ x.fe.windowStart ≤ s.dt → x.fe.windowEnd ≠ 0 → x.fe.windowEnd ≤ s.dt →
           exec (.claim []) s = .next ((s.claimStart rest x ci).denyClaim d .expired x.q.code)) ∧
         ((x.fe.windowStart = 0 ∧ x.fe.windowEnd = 0) ∨ (s.swp.dtValid = true ∧ x.fe.inWindow s.dt = true) →
           s.globalEntry.grantLimit ≤ ((s.claimStart rest x ci).client ci).grants →
           exec (.claim []) s = .next ((s.claimStart rest x ci).denyClaim d .clientLimit x.q.code)))))

/-- Steps 12 to 14 for a claim without waiting: QUEUED_AHEAD, CAP_REACHED, NO_TOKENS, in that order (R20 to R22). Steps 12 to 14 for a claim
with waiting that is not admitted: it joins the tail of its queue in the record its class takes, and is answered WAIT with its position
and seconds; or QUEUE_FULL at MW waiters, and with a TABLE CAPACITY notice and a soft capture when the class rule fails (R20 to R22, R47
to R50). -/
def Obligations.ClaimNotAdmittedWaitsOrIsDenied : Prop :=
  (∀ (s : State) (d : Cand) (rest : List Cand) (x : ClaimCtx) (ci : Nat) (pe : PoolEntry), s.ClaimReaches d rest x ci →
     s.ClaimEntitled rest x ci pe → x.q.wait = false ∨ x.q.waitLimit = 0 ∨ pe.mw = 0 ∨ x.fe.waiting = false →
     (s.queue x.fe.pool x.classSlot.cls ≠ [] →
       exec (.claim []) s = .next ((s.claimStart rest x ci).denyClaim d .queuedAhead x.q.code)) ∧
     (s.queue x.fe.pool x.classSlot.cls = [] →
       (x.fe.cap ≠ 0 → x.fe.cap < (s.featLive x.fi).hf + x.q.units →
         exec (.claim []) s = .next ((s.claimStart rest x ci).denyClaim d .capReached x.q.code)) ∧
       (x.fe.cap = 0 ∨ (s.featLive x.fi).hf + x.q.units ≤ x.fe.cap →
         s.availability x.fe.pool x.classSlot.cls < costOf x.q.units x.fe.weight →
         exec (.claim []) s = .next ((s.claimStart rest x ci).denyClaim d .noTokens x.q.code)))) ∧
  (∀ (s : State) (d : Cand) (rest : List Cand) (x : ClaimCtx) (ci : Nat) (pe : PoolEntry), s.ClaimReaches d rest x ci →
     s.ClaimEntitled rest x ci pe → s.QueuesSound → x.q.wait = true → 0 < x.q.waitLimit → 0 < pe.mw → x.fe.waiting = true →
     (s.queue x.fe.pool x.classSlot.cls ≠ [] ∨ (x.fe.cap ≠ 0 ∧ x.fe.cap < (s.featLive x.fi).hf + x.q.units) ∨
       s.availability x.fe.pool x.classSlot.cls < costOf x.q.units x.fe.weight) →
     (pe.mw ≤ (s.queue x.fe.pool x.classSlot.cls).length →
       exec (.claim []) s = .next ((s.claimStart rest x ci).denyClaim d .queueFull x.q.code)) ∧
     ((s.queue x.fe.pool x.classSlot.cls).length < pe.mw → s.storeAdmits x.classSlot.cls = false →
       exec (.claim []) s = .next
         ((((s.claimStart rest x ci).denyClaim d .queueFull x.q.code).queueNotice
           (.tableCapacity .waiterStore x.classSlot.cls x.fe.pool x.q.client)).softEvent ⟨0x0E, 0, x.fe.pool, x.q.client⟩)) ∧
     (∀ wi, (s.queue x.fe.pool x.classSlot.cls).length < pe.mw → s.storeAdmits x.classSlot.cls = true →
       s.freeWaiter x.classSlot.cls = some wi →
       exec (.claim []) s = .next
         (((s.claimStart rest x ci).placeWaiter wi
             { inUse := true, clientIdx := ci, client := x.q.client, tag := x.q.tag, feature := x.fi,
               epoch := (s.featLive x.fi).epoch, pool := x.fe.pool, cls := x.classSlot.cls, units := x.q.units,
               cost := costOf x.q.units x.fe.weight, deadline := s.swp.mt + BitVec.ofNat 32 (min x.q.waitLimit pe.mwt) }).replyTo d
           (.wait ((s.queue x.fe.pool x.classSlot.cls).length + 1) (min x.q.waitLimit pe.mwt) x.q.code))))

/-- Step 14 with the tokens and a slot: the claim is granted in the slot at the head of the free-slot FIFO and answered GRANT, and the
pool's pressure check is made, here first one that changes nothing, then one that may enter CONSTRAINED; with the FIFO empty it is denied
TRY_LATER, whether or not it is with waiting, and the exhausted flag sets (R22, R23, R30, R81, R82). Obligations.CreatedGrantIsCounted says
what the grant writes. The class in the TABLE CAPACITY notice of the empty FIFO, the grant table having none, is the model's choice (log
entry 15). -/
def Obligations.FittingClaimIsGranted : Prop :=
  ∀ (s : State) (d : Cand) (rest : List Cand) (x : ClaimCtx) (ci : Nat) (pe : PoolEntry), s.ClaimReaches d rest x ci →
    s.ClaimEntitled rest x ci pe → s.queue x.fe.pool x.classSlot.cls = [] →
    x.fe.cap = 0 ∨ (s.featLive x.fi).hf + x.q.units ≤ x.fe.cap →
    costOf x.q.units x.fe.weight ≤ s.availability x.fe.pool x.classSlot.cls →
    (s.grt.freeFifo = [] →
      exec (.claim []) s = .next
        ((State.queueNotice (.tableCapacity .grantTable .general x.fe.pool x.q.client)
          { (s.claimStart rest x ci).denyClaim d .tryLater x.q.code with grt.exhausted := true }).softEvent
          ⟨0x0C, 0, x.fe.pool, x.q.client⟩)) ∧
    (∀ i fifo, s.grt.freeFifo = i :: fifo →
      let t := (((s.claimStart rest x ci).createGrant i
          { owner := x.q.client, ownerIdx := ci, tag := x.q.tag, feature := x.fi, epoch := (s.featLive x.fi).epoch,
            pool := x.fe.pool, cls := x.classSlot.cls, units := x.q.units, cost := costOf x.q.units x.fe.weight,
            renew := pe.ri }).replyTo d
        (.grant (handleOf i (s.slot i).generation) (costOf x.q.units x.fe.weight) x.q.units x.classSlot.cls pe.ri
          x.q.code)).countGranted
      (t.PressureStands x.fe.pool false → exec (.claim []) s = .next t) ∧
      (t.PressureSettles x.fe.pool → exec (.claim []) s = .next (t.checked x.fe.pool false)))

/-- What the creation of a grant writes, and that it writes nothing else (R3, R23, R31, R32). -/
def Obligations.CreatedGrantIsCounted : Prop :=
  ∀ (s : State) (i : Nat) (n : NewGrant),
    let t := s.createGrant i n
    t.slot i =
      { state := .held, owner := n.owner, tag := n.tag, feature := n.feature, epoch := n.epoch, pool := n.pool, cls := n.cls,
        units := n.units, cost := n.cost, renew := n.renew, start := s.swp.mt,
        deadline := s.swp.mt + BitVec.ofNat 32 (2 * n.renew), reason := none, generation := (s.slot i).generation,
        ownerIdx := n.ownerIdx } ∧
    (∀ j, j ≠ i → t.slot j = s.slot j) ∧
    (t.poolLive n.pool).used n.cls = (s.poolLive n.pool).used n.cls + n.cost ∧
    (∀ p c, p ≠ n.pool ∨ c ≠ n.cls → (t.poolLive p).used c = (s.poolLive p).used c) ∧
    (∀ p, (t.poolLive p).w = (s.poolLive p).w ∧ (t.poolLive p).pressure = (s.poolLive p).pressure ∧
      (t.poolLive p).entryTime = (s.poolLive p).entryTime) ∧
    t.featLive n.feature = ⟨(s.featLive n.feature).hf + n.units, (s.featLive n.feature).epoch⟩ ∧
    (∀ j, j ≠ n.feature → t.featLive j = s.featLive j) ∧
    t.grt.freeFifo = s.grt.freeFifo.drop 1 ∧ t.grt.liveTotal = s.grt.liveTotal + 1 ∧ t.grt.linger = s.grt.linger ∧
    t.grt.exhausted = s.grt.exhausted ∧ t.grt.suspect = s.grt.suspect ∧
    t.client n.ownerIdx =
      { s.client n.ownerIdx with
        chain := (s.client n.ownerIdx).chain ++ [i], grants := (s.client n.ownerIdx).grants + 1 } ∧
    (∀ j, j ≠ n.ownerIdx → t.client j = s.client j) ∧ t.clt.idle = s.clt.idle.erase n.ownerIdx ∧
    t.adm.runs = s.adm.runs ∧ t.wts = s.wts ∧ t.tbs = s.tbs ∧ t.swp = s.swp ∧ t.lnk = s.lnk ∧ t.exu = s.exu ∧ t.ada = s.ada ∧
    t.fnu = s.fnu ∧ t.damage = s.damage ∧ t.pending = s.pending ∧ t.resetLow = s.resetLow

/-! ### RENEW, YIELD, QUERY, WITHDRAW -/

/-- A served RENEW whose first handle is the server's is forwarded whole; any other writes its client's entry, if it has one, and keeps its
handles to be decided one after another (R28, R67, R129). Each handle of a RENEW is decided at its slot: FOREIGN, UNKNOWN, NOT_OWNER, OK,
LATE, LINGERING or ENDED; an ended grant is released, and the checks and runs of R43 follow; after the last handle the RENEW REPORT carries
the statuses in order (R28, R35, R36, R43, R129). That an entry to CONSTRAINED which such a check makes under COUNT REBUILD queues its
notice at once is the model's choice (log entry 9). That a damaged or empty feature entry maps to no pool to be checked and served is the
model's choice (log entry 44). -/
def Obligations.RenewDecidesItsHandles : Prop :=
  (∀ (s : State) (d : Cand) (rest : List Cand), s.ServedHead .renew d rest →
     (handleOurs ((renewHandles d.payload).headD 0) = false →
       exec (.renew []) s = .next ((s.clientTaken rest).handBack d)) ∧
     (handleOurs ((renewHandles d.payload).headD 0) = true →
       exec (.renew []) s = .next
         { (s.clientTaken rest).contacted d with
           exu.work := some ⟨d, cexClient d.payload, cexTag d.payload, renewHandles d.payload, []⟩ })) ∧
  ((∀ (s : State) (w : RenewWork) (h : W32) (rest : List W32) (i : Nat) (g : Slot),
     s.Quiet → s.exu.work = some w → w.left = h :: rest → i = handleSlot h → g = s.slot i →
     (handleOurs h = false → exec (.renewHandle []) s = .next (s.renewNote w rest .foreign)) ∧
     (handleOurs h = true → g.generation ≠ handleGeneration h ∨ g.state = .free ∨ g.state = .bad →
       exec (.renewHandle []) s = .next (s.renewNote w rest .unknown)) ∧
     (handleOurs h = true → g.generation = handleGeneration h → g.state.live = true →
       (g.owner ≠ w.client → exec (.renewHandle []) s = .next (s.renewNote w rest .notOwner)) ∧
       (g.owner = w.client →
         (g.state = .recalled ∨ s.RenewalEnds g →
           ((s.releaseSlot i).renewNote w rest .ended).ReleaseStands (s.releasedOf i) →
           exec (.renewHandle []) s = .next (((s.releaseSlot i).renewNote w rest .ended).releaseRuns (s.releasedOf i))) ∧
         (g.state = .recalled ∨ s.RenewalEnds g →
           ((s.releaseSlot i).renewNote w rest .ended).ReleaseSettles (s.releasedOf i) →
           exec (.renewHandle []) s = .next (((s.releaseSlot i).renewNote w rest .ended).releaseChecked (s.releasedOf i))) ∧
         (¬ s.RenewalEnds g →
           (g.state = .held →
             exec (.renewHandle []) s = .next
               ((s.setSlot i { g with deadline := s.swp.mt + BitVec.ofNat 32 (2 * g.renew) }).renewNote w rest .ok)) ∧
           (g.state = .stale →
             exec (.renewHandle []) s = .next
               ((s.setSlot i { g with state := .held, deadline := s.swp.mt + BitVec.ofNat 32 (2 * g.renew) }).renewNote w rest
                 .late)) ∧
           (g.state = .linger → exec (.renewHandle []) s = .next (s.renewNote w rest .lingering)))))) ∧
   (∀ (s : State) (w : RenewWork) (st : RenewStatus),
     s.renewNote w [] st =
       State.replyTo w.request (.renewReport (w.statuses ++ [st])) { s with exu.work := none } ∧
     ∀ h rest, s.renewNote w (h :: rest) st =
       { s with exu.work := some { w with left := h :: rest, statuses := w.statuses ++ [st] } }))

/-- A YIELD is decided at its slot. At a HELD or STALE grant the churn counter moves by the hold; the grant then lingers when the conditions
of R85 hold and is released otherwise. A LINGER grant stands, a RECALLED one is released and answered ENDED. The checks and runs of R43
follow a release (R28, R37, R43, R76, R77, R85, R86, R129). That an entry to CONSTRAINED which such a check makes under COUNT REBUILD queues
its notice at once is the model's choice (log entry 9). That a damaged or empty feature entry maps to no pool to be checked and served is
the model's choice (log entry 44). -/
def Obligations.YieldIsDecidedAtItsSlot : Prop :=
  (∀ (s : State) (d : Cand) (rest : List Cand) (h : W32) (i : Nat) (g : Slot), s.ServedHead .yieldGrant d rest →
    be32 d.payload 12 = h → i = handleSlot h → g = s.slot i →
    (handleOurs h = false → exec (.yieldGrant []) s = .next ((s.clientTaken rest).handBack d)) ∧
    (handleOurs h = true →
      let c := (s.clientTaken rest).contacted d
      (g.generation ≠ handleGeneration h ∨ g.state = .free ∨ g.state = .bad →
        exec (.yieldGrant []) s = .next (c.replyTo d (.yieldReport h .unknown))) ∧
      (g.generation = handleGeneration h → g.state.live = true → g.owner ≠ cexClient d.payload →
        exec (.yieldGrant []) s = .next (c.replyTo d (.yieldReport h .notOwner))) ∧
      (g.generation = handleGeneration h → g.owner = cexClient d.payload →
        (g.state = .linger → exec (.yieldGrant []) s = .next (c.replyTo d (.yieldReport h .lingering))) ∧
        (g.state = .recalled → ((c.releaseSlot i).replyTo d (.yieldReport h .ended)).ReleaseStands (c.releasedOf i) →
          exec (.yieldGrant []) s = .next
            (((c.releaseSlot i).replyTo d (.yieldReport h .ended)).releaseRuns (c.releasedOf i))) ∧
        (g.state = .recalled → ((c.releaseSlot i).replyTo d (.yieldReport h .ended)).ReleaseSettles (c.releasedOf i) →
          exec (.yieldGrant []) s = .next
            (((c.releaseSlot i).replyTo d (.yieldReport h .ended)).releaseChecked (c.releasedOf i))) ∧
        (g.state = .held ∨ g.state = .stale →
          let u := c.setClient g.ownerIdx { c.client g.ownerIdx with
            ch := churnAfter c.globalEntry (c.client g.ownerIdx).ch (s.swp.mt - g.start).toNat }
          (∀ pe, u.LingerHolds i → u.poolEntry g.pool = some pe →
            exec (.yieldGrant []) s = .next
              (((u.setSlot i { g with state := .linger, deadline := s.swp.mt + BitVec.ofNat 32 pe.lt }).setLinger g.pool
                (u.lingerList g.pool ++ [i])).replyTo d (.yieldReport h .lingering))) ∧
          (¬ u.LingerHolds i →
            ((u.releaseSlot i).replyTo d (.yieldReport h .released)).ReleaseStands (u.releasedOf i) →
            exec (.yieldGrant []) s = .next
              (((u.releaseSlot i).replyTo d (.yieldReport h .released)).releaseRuns (u.releasedOf i))) ∧
          (¬ u.LingerHolds i →
            ((u.releaseSlot i).replyTo d (.yieldReport h .released)).ReleaseSettles (u.releasedOf i) →
            exec (.yieldGrant []) s = .next
              (((u.releaseSlot i).replyTo d (.yieldReport h .released)).releaseChecked (u.releasedOf i))))))) ∧
  (∀ (e : GlobalEntry) (ch hold : Nat),
    churnAfter e ch hold = if hold < e.mh then min (min ch e.cmax + 1) e.cmax else min ch e.cmax - 1)

/-- A served QUERY is forwarded when its site is undefined or damaged, its code not loaded, or one of its entries damaged, and is otherwise
answered with the figures of R130 as they stand; it changes no record and no counter (R11, R130). -/
def Obligations.QueryReportsFiguresOrIsForwarded : Prop :=
  ∀ (s : State) (d : Cand) (rest : List Cand) (code : W32) (site job : Nat), s.ServedHead .query d rest →
    be32 d.payload 12 = code → (byteAt d.payload 16).toNat = site → (byteAt d.payload 17).toNat = job →
    (s.siteEntry site = none ∨ s.activeBank.lookup code = none ∨
      (∃ fi, s.activeBank.lookup code = some fi ∧
        (s.featureEntry fi = none ∨ (∃ fe, s.featureEntry fi = some fe ∧ s.activeBank.damaged .pool fe.pool = true) ∨
          s.activeBank.damagedGlobal = true)) →
      exec (.query []) s = .next ((s.clientTaken rest).handBack d)) ∧
    (∀ e fi fe c, s.siteEntry site = some e → s.activeBank.lookup code = some fi → s.featureEntry fi = some fe →
      s.activeBank.damaged .pool fe.pool = false → s.activeBank.damagedGlobal = false →
      c = (if job = 0 then .general else (e.slot job).cls) →
      exec (.query []) s = .next
        ((s.clientTaken rest).replyTo d
          (.queryReport code fe.pool c (s.poolLive fe.pool).pressure (s.availability fe.pool c) fe.weight (s.featLive fi).hf
            fe.cap (s.queue fe.pool c).length)))

/-- A served WITHDRAW writes its client's entry, if it has one, and removes the waiter its tag names, the DENY WITHDRAWN being the reply;
with no such waiter it is answered DENY NOT_WAITING with feature code 0 and counts nothing (R51, R52, R67, R131). What the removal of a
waiter with a message writes, its client's waiter count not being 0, and that it writes nothing else: the DENY, with the reason, the code
loaded at the waiter's index when its epoch is current and 0 otherwise, goes to its client's reply address with the waiter's tag, or, as
the reply to a WITHDRAW, to that datagram's source with its client ID and tag; a full originate queue drops it (R50, R52, R131, R132,
R136, R150 to R152). -/
def Obligations.WithdrawRemovesNamedWaiter : Prop :=
  (∀ (s : State) (d : Cand) (rest : List Cand), s.Canonical → s.ServedHead .withdraw d rest →
     let c := (s.clientTaken rest).contacted d
     (s.findClient (cexClient d.payload) = none ∨
       (∃ ci, s.findClient (cexClient d.payload) = some ci ∧ s.findWaiter ci (cexTag d.payload) = none) →
       exec (.withdraw []) s = .next (c.replyTo d (.deny .notWaiting 0))) ∧
     (∀ ci wi, s.findClient (cexClient d.payload) = some ci → s.findWaiter ci (cexTag d.payload) = some wi →
       exec (.withdraw []) s = .next (c.removed wi .withdrawn (some d)))) ∧
  (∀ (s : State) (i : Nat) (r : Reason) (reply : Option Cand),
     0 < (s.client (s.waiter i).clientIdx).waiters →
     let w := s.waiter i
     let t := s.dropWaiter i r reply
     t.waiter i = { w with inUse := false } ∧ (∀ j, j ≠ i → t.waiter j = s.waiter j) ∧
     t.queue w.pool w.cls = (s.queue w.pool w.cls).erase i ∧
     (∀ p c, p ≠ w.pool ∨ c ≠ w.cls → t.queue p c = s.queue p c) ∧
     (t.wts.np = if w.cls = .priority then s.wts.np - 1 else s.wts.np) ∧
     (t.wts.ng = if w.cls = .general then s.wts.ng - 1 else s.wts.ng) ∧
     t.client w.clientIdx =
       { s.client w.clientIdx with
         waiters := (s.client w.clientIdx).waiters - 1, lastActivity := (t.client w.clientIdx).lastActivity } ∧
     (∀ j, j ≠ w.clientIdx → t.client j = s.client j) ∧
     ((s.client w.clientIdx).inUse = true → (s.client w.clientIdx).grants = 0 → (s.client w.clientIdx).waiters = 1 →
       w.clientIdx ∉ s.clt.idle →
       t.clt.idle = s.clt.idle ++ [w.clientIdx] ∧ (t.client w.clientIdx).lastActivity = s.swp.mt) ∧
     ((s.client w.clientIdx).grants ≠ 0 ∨ (s.client w.clientIdx).waiters ≠ 1 →
       t.clt.idle = s.clt.idle ∧ (t.client w.clientIdx).lastActivity = (s.client w.clientIdx).lastActivity) ∧
     t.ada = { s.ada with stats.denied := s.ada.stats.denied + 1, stats.dropped := t.ada.stats.dropped } ∧
     t.lnk = { s.lnk with portF.originate := t.lnk.portF.originate, ident := s.lnk.ident + 1 } ∧
     (s.lnk.portF.originate.length < 256 →
       let code := if w.epoch = (s.featLive w.feature).epoch then s.loadedCode w.feature else 0
       let c := s.client w.clientIdx
       t.ada.stats.dropped = s.ada.stats.dropped ∧
       (reply = none →
         t.lnk.portF.originate = s.lnk.portF.originate ++
           [⟨composeFrame
               { dstMac := c.reply.mac, srcMac := s.addrs.partMac, vlan := c.reply.vlan, srcIp := s.addrs.serviceIp,
                 srcPort := s.addrs.servicePort, dstIp := c.reply.ip, dstPort := c.reply.udp }
               s.lnk.ident (cexDatagram w.client w.tag (.deny r code)), none⟩]) ∧
       (∀ d, reply = some d →
         t.lnk.portF.originate = s.lnk.portF.originate ++
           [⟨composeFrame
               { dstMac := d.srcMac, srcMac := d.dstMac, vlan := d.vlan, srcIp := s.addrs.serviceIp,
                 srcPort := s.addrs.servicePort, dstIp := d.srcIp, dstPort := d.srcPort }
               s.lnk.ident (cexDatagram (cexClient d.payload) (cexTag d.payload) (.deny r code)), none⟩])) ∧
     (256 ≤ s.lnk.portF.originate.length →
       t.lnk.portF.originate = s.lnk.portF.originate ∧ t.ada.stats.dropped = s.ada.stats.dropped + 1) ∧
     t.grt = s.grt ∧ t.adm = s.adm ∧ t.tbs = s.tbs ∧ t.swp = s.swp ∧ t.exu = s.exu ∧ t.fnu = s.fnu ∧
     t.damage = s.damage ∧ t.pending = s.pending ∧ t.resetLow = s.resetLow)

/-! ### Release and recall -/

/-- What the release of a live grant writes, no counter underflowing, the slot standing in its owner's chain and no COUNT REBUILD running,
and that it writes nothing else (R3, R31, R42, R68). What the recall of a HELD or STALE grant writes, Hf not underflowing and no COUNT
REBUILD running: its state and reason, its units out of Hf when its epoch is current, and a RECALL to its owner when it stands in a
chain; its tokens, deadline, chain and count stand (R3, R41). A release that would take a counter below 0 leaves it at 0, sets SUSPECT and
gives the hard capture, unless locked, code 0x83, or 0x84 for its owner's count (R3, R42, R70). A release of a slot in no chain changes no
client entry (R42). While a COUNT REBUILD runs, a release or recall of a slot below its cursor changes the scan sums too, and one at or above
it does not (R165). -/
def Obligations.ReleaseAndRecallMoveCounts : Prop :=
  (∀ (s : State) (i : Nat) (g : Slot), g = s.slot i → g.state.live = true →
     g.cost ≤ (s.poolLive g.pool).used g.cls →
     (s.unitsCounted g = true → g.units ≤ (s.featLive g.feature).hf) →
     i ∈ (s.client g.ownerIdx).chain → 0 < (s.client g.ownerIdx).grants → s.ada.op.isRebuild = false →
     let t := s.releaseSlot i
     t.slot i = { g with state := .free, reason := none, generation := g.generation + 1 } ∧
     (∀ j, j ≠ i → t.slot j = s.slot j) ∧
     (t.poolLive g.pool).used g.cls = (s.poolLive g.pool).used g.cls - g.cost ∧
     (∀ p c, p ≠ g.pool ∨ c ≠ g.cls → (t.poolLive p).used c = (s.poolLive p).used c) ∧
     (∀ p, (t.poolLive p).w = (s.poolLive p).w ∧ (t.poolLive p).pressure = (s.poolLive p).pressure ∧
       (t.poolLive p).entryTime = (s.poolLive p).entryTime) ∧
     (g.state ≠ .recalled → g.epoch = (s.featLive g.feature).epoch →
       (t.featLive g.feature).hf = (s.featLive g.feature).hf - g.units) ∧
     (g.state = .recalled ∨ g.epoch ≠ (s.featLive g.feature).epoch → t.featLive g.feature = s.featLive g.feature) ∧
     (∀ j, (t.featLive j).epoch = (s.featLive j).epoch ∧ (j ≠ g.feature → t.featLive j = s.featLive j)) ∧
     t.grt.freeFifo = s.grt.freeFifo ++ [i] ∧ t.grt.exhausted = false ∧ t.grt.liveTotal = s.grt.liveTotal - 1 ∧
     t.grt.suspect = s.grt.suspect ∧
     (t.lingerList g.pool = if g.state = .linger then (s.lingerList g.pool).erase i else s.lingerList g.pool) ∧
     (∀ p, p ≠ g.pool → t.lingerList p = s.lingerList p) ∧
     t.client g.ownerIdx =
       { s.client g.ownerIdx with
         chain := (s.client g.ownerIdx).chain.erase i, grants := (s.client g.ownerIdx).grants - 1
         lastActivity := (t.client g.ownerIdx).lastActivity } ∧
     (∀ j, j ≠ g.ownerIdx → t.client j = s.client j) ∧
     ((s.client g.ownerIdx).inUse = true → (s.client g.ownerIdx).grants = 1 → (s.client g.ownerIdx).waiters = 0 →
       g.ownerIdx ∉ s.clt.idle →
       t.clt.idle = s.clt.idle ++ [g.ownerIdx] ∧ (t.client g.ownerIdx).lastActivity = s.swp.mt) ∧
     ((s.client g.ownerIdx).grants ≠ 1 ∨ (s.client g.ownerIdx).waiters ≠ 0 →
       t.clt.idle = s.clt.idle ∧ (t.client g.ownerIdx).lastActivity = (s.client g.ownerIdx).lastActivity) ∧
     t.adm.runs = s.adm.runs ∧ t.wts = s.wts ∧ t.tbs = s.tbs ∧ t.swp = s.swp ∧ t.lnk = s.lnk ∧ t.exu = s.exu ∧ t.ada = s.ada ∧
     t.fnu = s.fnu ∧ t.damage = s.damage ∧ t.pending = s.pending ∧ t.resetLow = s.resetLow) ∧
  (∀ (s : State) (i : Nat) (g : Slot) (r : Reason), g = s.slot i → g.state = .held ∨ g.state = .stale →
     (s.unitsCounted g = true → g.units ≤ (s.featLive g.feature).hf) → s.ada.op.isRebuild = false →
     let t := s.recallHeld i r
     t.slot i = { g with state := .recalled, reason := some r } ∧ (∀ j, j ≠ i → t.slot j = s.slot j) ∧
     (∀ p, t.poolLive p = s.poolLive p) ∧
     (g.epoch = (s.featLive g.feature).epoch →
       t.featLive g.feature = ⟨(s.featLive g.feature).hf - g.units, (s.featLive g.feature).epoch⟩) ∧
     (g.epoch ≠ (s.featLive g.feature).epoch → t.featLive g.feature = s.featLive g.feature) ∧
     (∀ j, j ≠ g.feature → t.featLive j = s.featLive j) ∧
     t.grt = { s.grt with slots := t.grt.slots } ∧ t.adm.runs = s.adm.runs ∧ t.clt = s.clt ∧ t.wts = s.wts ∧ t.tbs = s.tbs ∧
     t.swp = s.swp ∧ t.exu = s.exu ∧ t.fnu = s.fnu ∧ t.damage = s.damage ∧ t.pending = s.pending ∧ t.resetLow = s.resetLow ∧
     (i ∉ (s.client g.ownerIdx).chain → t.lnk = s.lnk ∧ t.ada = s.ada) ∧
     (i ∈ (s.client g.ownerIdx).chain → s.lnk.portF.originate.length < 256 →
       t.ada = s.ada ∧
       t.lnk = { s.lnk with
         ident := s.lnk.ident + 1
         portF.originate := s.lnk.portF.originate ++
           [⟨composeFrame
               { dstMac := (s.client g.ownerIdx).reply.mac, srcMac := s.addrs.partMac, vlan := (s.client g.ownerIdx).reply.vlan,
                 srcIp := s.addrs.serviceIp, srcPort := s.addrs.servicePort, dstIp := (s.client g.ownerIdx).reply.ip,
                 dstPort := (s.client g.ownerIdx).reply.udp }
               s.lnk.ident (cexDatagram g.owner g.tag (.recall (handleOf i g.generation) r)), none⟩] })) ∧
  (∀ (s : State) (i : Nat) (g : Slot), g = s.slot i → g.state.live = true →
     let t := s.releaseSlot i
     let o := g.ownerIdx
     let within := g.cost ≤ (s.poolLive g.pool).used g.cls ∧ (s.unitsCounted g = true → g.units ≤ (s.featLive g.feature).hf)
     ((s.poolLive g.pool).used g.cls < g.cost →
       (t.poolLive g.pool).used g.cls = 0 ∧ t.grt.suspect = true ∧ t.fnu.hard.locked = true ∧
       (s.fnu.hard.locked = false →
         t.fnu.hard.code = 0x83 ∧ t.fnu.hard.index = i ∧ t.fnu.hard.pool = g.pool ∧ t.fnu.hard.client = g.owner)) ∧
     (s.unitsCounted g = true → (s.featLive g.feature).hf < g.units →
       (t.featLive g.feature).hf = 0 ∧ t.grt.suspect = true ∧ t.fnu.hard.locked = true ∧
       (s.fnu.hard.locked = false →
         t.fnu.hard.code = 0x83 ∧ t.fnu.hard.index = i ∧ t.fnu.hard.pool = g.pool ∧ t.fnu.hard.client = g.owner)) ∧
     (i ∈ (s.client o).chain → (s.client o).grants = 0 →
       (t.client o).grants = 0 ∧ t.grt.suspect = true ∧ t.fnu.hard.locked = true ∧
       (s.fnu.hard.locked = false → within →
         t.fnu.hard.code = 0x84 ∧ t.fnu.hard.index = o ∧ t.fnu.hard.pool = 0 ∧ t.fnu.hard.client = (s.client o).id)) ∧
     (i ∉ (s.client o).chain →
       t.clt = s.clt ∧ t.slot i = { g with state := .free, reason := none, generation := g.generation + 1 } ∧
       (t.poolLive g.pool).used g.cls = (s.poolLive g.pool).used g.cls - g.cost ∧ t.grt.freeFifo = s.grt.freeFifo ++ [i] ∧
       (within → t.fnu = s.fnu ∧ t.grt.suspect = s.grt.suspect)) ∧
     (∀ rb, s.ada.op = .rebuild rb →
       (rb.cursor ≤ i → t.ada.op = s.ada.op) ∧
       (i < rb.cursor →
         ∃ r2, t.ada.op = .rebuild r2 ∧ r2.cursor = rb.cursor ∧ r2.badFreed = rb.badFreed ∧ r2.restarts = rb.restarts ∧
           r2.live = rb.live - 1 ∧
           (∀ p, Tab.get 0 r2.prioritySums p =
             Tab.get 0 rb.prioritySums p - if g.cls = .priority ∧ p = g.pool then g.cost else 0) ∧
           (∀ p, Tab.get 0 r2.generalSums p =
             Tab.get 0 rb.generalSums p - if g.cls = .general ∧ p = g.pool then g.cost else 0) ∧
           (∀ f, Tab.get 0 r2.unitSums f =
             Tab.get 0 rb.unitSums f - if f = g.feature ∧ s.unitsCounted g = true then g.units else 0) ∧
           (∀ j, r2.client j = if j = o then ⟨(rb.client j).count - 1, (rb.client j).chain.erase i⟩ else rb.client j)))) ∧
  (∀ (s : State) (i : Nat) (g : Slot) (r : Reason), g = s.slot i → g.state = .held ∨ g.state = .stale →
     let t := s.recallHeld i r
     (s.unitsCounted g = true → (s.featLive g.feature).hf < g.units →
       (t.featLive g.feature).hf = 0 ∧ t.grt.suspect = true ∧ t.fnu.hard.locked = true ∧
       (s.fnu.hard.locked = false →
         t.fnu.hard.code = 0x83 ∧ t.fnu.hard.index = i ∧ t.fnu.hard.pool = g.pool ∧ t.fnu.hard.client = g.owner)) ∧
     (∀ rb, s.ada.op = .rebuild rb →
       (rb.cursor ≤ i ∨ s.unitsCounted g = false → t.ada.op = s.ada.op) ∧
       (i < rb.cursor → s.unitsCounted g = true →
         ∃ r2, t.ada.op = .rebuild r2 ∧ r2 = { rb with unitSums := r2.unitSums } ∧
           ∀ f, Tab.get 0 r2.unitSums f = Tab.get 0 rb.unitSums f - if f = g.feature then g.units else 0)))

/-- Creating a grant in a FREE slot, releasing a live grant and recalling one each leave Up and Ug of every pool equal to the sums of the
costs of its live grants, when they were so before (R1, R3, R45). Every step keeps the grant table sound: the free-slot FIFO holds the FREE
slots, each once (R29); while SUSPECT is clear, Up and Ug of every pool are the sums of its live grants' costs (R45); and the scan of a
COUNT REBUILD counts what it has passed (R164, R165). With it, every step keeps the client table sound: each owner chain holds its entry's
live grants (R31), the counts of an entry are those of its grants and waiters (R70), and the idle list holds the idle entries (R68). The
sound wait store, and that a device which does not serve only forwards, are premises of the last clause, and invariants of their own. -/
def Obligations.GrantsKeepTokenBalance : Prop :=
  (∀ (s : State) (i : Nat), i < 32768 → s.TokensBalanced →
     (∀ n, (s.slot i).state = .free → (s.createGrant i n).TokensBalanced) ∧
     ((s.slot i).state.live = true → (s.releaseSlot i).TokensBalanced) ∧
     (∀ r, (s.slot i).state = .held ∨ (s.slot i).state = .stale → (s.recallHeld i r).TokensBalanced)) ∧
  (∀ s t : State, s.GrantsSound → step s = .next t → t.GrantsSound) ∧
  (∀ s t : State, s.GrantsSound → s.WaitStoreSound → s.StartupSilent → s.ClientsSound → step s = .next t → t.ClientsSound)

/-! ### The pool service -/

/-- A round examines the PRIORITY head and, that queue empty or its head blocked, the GENERAL head. A head that can no longer be served is
removed with the reason of R59; one that fits is granted at its stored cost in the slot at the head of the FIFO, the pressure check not
holding here; either ends the round and leaves the run in progress. A round that takes no waiter ends the run (R57 to R61). A round may be
parted at a blocked PRIORITY head: the run then stands before the GENERAL examination, other events come between (R62), and the next
POOL_SERVICE_ROUND of the pool examines the GENERAL head on the state they left. A cause starts a run; with the run of the pool in progress
it starts none, and a parted round remembers it (R57). The model's choices (log entry 9): a parted round that takes no waiter leaves the run
in progress when a cause arose in it; while COUNT REBUILD holds the slot a round ends the run; and with no run of the pool in progress there
is no round. The class in the TABLE CAPACITY notice of an empty FIFO is the model's choice too (log entry 15). -/
def Obligations.ServiceRoundServesHeads : Prop :=
  (∀ (s : State) (p : Nat) (b : Bool), s.InRun p .priority → s.QueuesSound → (b = true → s.queue p .priority = []) →
     (s.RoundPasses p .priority → s.RoundPasses p .general → exec (.poolServiceRound ⟨p, b⟩ []) s = .next (s.endRun p)) ∧
     (∀ c wi rest w, s.queue p c = wi :: rest → w = s.waiter wi → (c = .general → s.RoundPasses p .priority) →
       (∀ r, s.HeadRefused w r → exec (.poolServiceRound ⟨p, b⟩ []) s = .next (s.dropWaiter wi r none)) ∧
       (∀ e pe i fifo, s.HeadServable w e pe → s.HeadFits w e → s.grt.freeFifo = i :: fifo →
         (s.headServed wi i e pe).PressureStands p false →
         exec (.poolServiceRound ⟨p, b⟩ []) s = .next (s.headServed wi i e pe)) ∧
       (∀ e pe, s.HeadServable w e pe → s.HeadFits w e → s.grt.freeFifo = [] →
         (c = .general ∨ s.RoundPasses p .general) →
         exec (.poolServiceRound ⟨p, b⟩ []) s = .next ((s.headUnslotted w).endRun p)))) ∧
  (∀ (s : State) (p wi : Nat) (rest : List Nat) (w : Waiter), s.InRun p .priority → s.QueuesSound →
     s.queue p .priority = wi :: rest → w = s.waiter wi →
     (∀ r, s.HeadRefused w r → exec (.poolServiceRound ⟨p, true⟩ []) s = .next (s.dropWaiter wi r none)) ∧
     (∀ e pe, s.HeadServable w e pe →
       (¬ s.HeadFits w e → exec (.poolServiceRound ⟨p, true⟩ []) s = .next (s.atStage p (.general false))) ∧
       (s.HeadFits w e → s.grt.freeFifo = [] →
         exec (.poolServiceRound ⟨p, true⟩ []) s = .next ((s.headUnslotted w).atStage p (.general false))) ∧
       (∀ i fifo, s.HeadFits w e → s.grt.freeFifo = i :: fifo → (s.headServed wi i e pe).PressureStands p false →
         exec (.poolServiceRound ⟨p, true⟩ []) s = .next (s.headServed wi i e pe)))) ∧
  (∀ (s u : State) (p : Nat) (cause b : Bool), s.InRun p (.general cause) → s.QueuesSound → u = s.atStage p .priority →
     (s.RoundPasses p .general → exec (.poolServiceRound ⟨p, b⟩ []) s = .next (if cause then u else u.endRun p)) ∧
     (∀ wi rest w, s.queue p .general = wi :: rest → w = s.waiter wi →
       (∀ r, s.HeadRefused w r → exec (.poolServiceRound ⟨p, b⟩ []) s = .next (u.dropWaiter wi r none)) ∧
       (∀ e pe i fifo, s.HeadServable w e pe → s.HeadFits w e → s.grt.freeFifo = i :: fifo →
         (s.headServed wi i e pe).PressureStands p false →
         exec (.poolServiceRound ⟨p, b⟩ []) s = .next (u.headServed wi i e pe)) ∧
       (∀ e pe, s.HeadServable w e pe → s.HeadFits w e → s.grt.freeFifo = [] →
         exec (.poolServiceRound ⟨p, b⟩ []) s = .next (if cause then u.headUnslotted w else (u.headUnslotted w).endRun p)))) ∧
  (∀ (s : State) (p : Nat) (b : Bool), s.Quiet →
     ((∀ r ∈ s.adm.runs, r.pool ≠ p) → exec (.poolServiceRound ⟨p, b⟩ []) s = .next s) ∧
     ((∃ r ∈ s.adm.runs, r.pool = p) → s.ada.op.isRebuild = true → exec (.poolServiceRound ⟨p, b⟩ []) s = .next (s.endRun p))) ∧
  (∀ (s : State) (p : Nat),
     (s.ada.op.isRebuild = true → s.startRun p = s) ∧
     (s.ada.op.isRebuild = false → (∀ r ∈ s.adm.runs, r.pool ≠ p) →
       s.startRun p = { s with adm.runs := s.adm.runs ++ [⟨p, [], .priority⟩] }) ∧
     (s.ada.op.isRebuild = false → (∃ r ∈ s.adm.runs, r.pool = p) →
       (s.startRun p) = { s with adm.runs := (s.startRun p).adm.runs } ∧
       (s.startRun p).adm.runs = s.adm.runs.map (fun r =>
         if r.pool = p ∧ r.stage ≠ .priority then { r with stage := .general true } else r)))

/-! ### The sweeper -/

/-- At a grant pass visit a HELD grant whose deadline has passed becomes STALE with the pool's stale grace, SG taken as 0 when its pool entry
is undefined or damaged, and a GRANT STALE notice is queued; a grant whose deadline has not passed, and a FREE or BAD slot, stand (R38). -/
def Obligations.HeldGrantBecomesStaleAtDeadline : Prop :=
  ∀ (s : State) (label : W32) (later : List W32) (i : Nat) (g : Slot),
    s.Quiet → s.swp.grantPass.rounds = label :: later → i = s.swp.grantPass.cursor → g = s.slot i →
    (g.state = .held → (g.deadline - s.swp.mt).toInt ≤ 0 →
      (∀ sg, (∃ pe, s.poolEntry g.pool = some pe ∧ sg = pe.sg) ∨ (s.poolEntry g.pool = none ∧ sg = 0) →
        exec (.grantPassVisit []) s = .next
          ((State.queueNotice (.grantStale (handleOf i g.generation) g.owner g.pool g.feature)
            (s.setSlot i { g with state := .stale, deadline := s.swp.mt + BitVec.ofNat 32 sg })).passOn .grant))) ∧
    (0 < (g.deadline - s.swp.mt).toInt ∨ g.state = .free ∨ g.state = .bad →
      exec (.grantPassVisit []) s = .next (s.passOn .grant))

/-- At a grant pass visit a STALE, LINGER or RECALLED grant whose deadline has passed is released; the STALE one is reclaimed, with its
notice and the reclaimed counter; the checks and runs of R43 follow, here first with checks that change nothing, then with checks that enter
or leave CONSTRAINED (R39, R43, R81 to R83, R99). That the GRANT RECLAIMED notice comes before theirs is the model's choice (log entry 35).
That an entry to CONSTRAINED which such a check makes under COUNT REBUILD queues its notice at once is the model's choice (log entry 9).
That a damaged or empty feature entry maps to no pool to be checked and served is the model's choice (log entry 44). -/
def Obligations.PassedGrantIsReleased : Prop :=
  ∀ (s : State) (label : W32) (later : List W32) (i : Nat) (g : Slot),
    s.Quiet → s.swp.grantPass.rounds = label :: later → i = s.swp.grantPass.cursor → g = s.slot i →
    (g.deadline - s.swp.mt).toInt ≤ 0 →
    (g.state = .stale →
      let t := State.countReclaimed
        (State.queueNotice (.grantReclaimed (handleOf i g.generation) g.owner g.pool g.feature) (s.releaseSlot i))
      (t.ReleaseStands (s.releasedOf i) →
        exec (.grantPassVisit []) s = .next ((t.releaseRuns (s.releasedOf i)).passOn .grant)) ∧
      (t.ReleaseSettles (s.releasedOf i) →
        exec (.grantPassVisit []) s = .next ((t.releaseChecked (s.releasedOf i)).passOn .grant))) ∧
    (g.state = .linger ∨ g.state = .recalled →
      ((s.releaseSlot i).ReleaseStands (s.releasedOf i) →
        exec (.grantPassVisit []) s = .next (((s.releaseSlot i).releaseRuns (s.releasedOf i)).passOn .grant)) ∧
      ((s.releaseSlot i).ReleaseSettles (s.releasedOf i) →
        exec (.grantPassVisit []) s = .next (((s.releaseSlot i).releaseChecked (s.releasedOf i)).passOn .grant)))

/-- A waiter pass visit removes a waiter in use at the first test of R53 that holds, and leaves any other record as it is (R53, R100). A
pool pass visit makes the pressure check with its leave test and runs the pool's service; where the leave test holds the pool becomes NORMAL
with its notice (R83, R84, R101). A client pass visit for second n updates the pace counter and the activity flag of an entry in use: at a
multiple of BI a rise when the flag is set, then at a multiple of DI a fall (R73, R102). That an entry to CONSTRAINED which such a check
makes under COUNT REBUILD queues its notice at once is the model's choice (log entry 9). -/
def Obligations.WaiterPoolAndClientPassesAct : Prop :=
  (∀ (s : State) (label : W32) (later : List W32) (i : Nat),
     s.Quiet → s.swp.waiterPass.rounds = label :: later → i = s.swp.waiterPass.cursor →
     (∀ r, (s.waiter i).inUse = true → s.WaiterRefused (s.waiter i) r →
       exec (.waiterPassVisit []) s = .next ((s.removed i r none).passOn .waiter)) ∧
     ((s.waiter i).inUse = false ∨ (∀ r, ¬ s.WaiterRefused (s.waiter i) r) →
       exec (.waiterPassVisit []) s = .next (s.passOn .waiter))) ∧
  (∀ (s : State) (label : W32) (later : List W32),
     s.Quiet → s.swp.poolPass.rounds = label :: later →
     let p := s.swp.poolPass.cursor
     (s.PressureStands p true → exec (.poolPassVisit []) s = .next ((s.startRun p).passOn .pool)) ∧
     (s.PressureSettles p → exec (.poolPassVisit []) s = .next (((s.checked p true).startRun p).passOn .pool)) ∧
     (s.PressureLeaves p →
       exec (.poolPassVisit []) s = .next
         (((State.queueNotice
           (.poolPressure p .normal s.swp.mt (s.freeMeasure p) (s.ce p) (s.poolLive p).up (s.poolLive p).ug (s.poolLive p).w)
           (s.setPoolLive p { s.poolLive p with pressure := .normal, entryTime := s.swp.mt })).startRun p).passOn .pool))) ∧
  (∀ (s : State) (label : W32) (later : List W32) (i n : Nat) (c : Client) (e : GlobalEntry),
     s.Quiet → s.swp.clientPass.rounds = label :: later → i = s.swp.clientPass.cursor → n = label.toNat → c = s.client i →
     e = s.globalEntry →
     (c.inUse = false → exec (.clientPassVisit []) s = .next (s.passOn .client)) ∧
     (c.inUse = true → ∀ rise fall,
       rise = (if n % e.bi = 0 then (if c.activity = true then min (min c.rp e.pmax + 1) e.pmax else min c.rp e.pmax)
         else c.rp) →
       fall = (if n % e.di = 0 then min rise e.pmax - 1 else rise) →
       exec (.clientPassVisit []) s = .next
         ((s.setClient i { c with rp := fall, activity := if n % e.bi = 0 then false else c.activity }).passOn .client)))

/-! ### Token arithmetic and pressure -/

/-- A cost is the product of units and weight in sixteenths rounded up to whole tokens, within its range; Ce and the availabilities are the
saturated differences of R5 and R6; and a claim whose cost fits leaves Up + Ug within Ce (R4, R5, R6, R9). -/
def Obligations.CostAndAvailabilityAreExact : Prop :=
  (∀ u w k : Nat, costOf u w = k ↔ u * w ≤ 16 * k ∧ 16 * k < u * w + 16) ∧
  (∀ u w : Nat, 1 ≤ u → u ≤ 255 → 1 ≤ w → w ≤ 4095 → 1 ≤ costOf u w ∧ costOf u w ≤ 65265) ∧
  (∀ (s : State) (p : Nat), s.poolEntry p = none →
    s.ce p = 0 ∧ (∀ c, s.availability p c = 0)) ∧
  (∀ (s : State) (p : Nat) (pe : PoolEntry), s.poolEntry p = some pe →
    (s.ce p : Int) = max 0 ((pe.capacity : Int) - (s.poolLive p).w) ∧
    (s.availability p .priority : Int) =
      max 0 ((s.ce p : Int) - (s.poolLive p).up - max ((s.poolLive p).ug : Int) pe.rg) ∧
    (s.availability p .general : Int) =
      max 0 ((s.ce p : Int) - (s.poolLive p).ug - max ((s.poolLive p).up : Int) pe.rp)) ∧
  (∀ (s : State) (p k : Nat) (c : Cls), 0 < k → k ≤ s.availability p c →
    (s.poolLive p).up + (s.poolLive p).ug + k ≤ s.ce p)

/-- The free measure is Ce - Up - Ug saturated at 0, whatever the reserves, lies in 0..1,048,575, is at least each availability, and is what
the pressure check compares with LM in NORMAL and with HM in CONSTRAINED (R7). -/
def Obligations.FreeMeasureBoundsAvailability : Prop :=
  ∀ (s : State) (p : Nat), s.BanksInRange →
    (s.freeMeasure p : Int) = max 0 ((s.ce p : Int) - (s.poolLive p).up - (s.poolLive p).ug) ∧
    s.freeMeasure p ≤ 1048575 ∧ (∀ c, s.availability p c ≤ s.freeMeasure p) ∧
    (∀ leave, s.Quiet → s.ada.service ≠ .faulted → (s.poolLive p).pressure = .normal → s.lingerList p = [] →
      ∃ t, pressure p leave s = .ok () t ∧ ((t.poolLive p).pressure = .constrained ↔ s.freeMeasure p < s.lowMark p)) ∧
    (s.Quiet → s.ada.service ≠ .faulted → (s.poolLive p).pressure = .constrained →
      s.minResidency p ≤ (s.swp.mt - (s.poolLive p).entryTime).toNat →
      ∃ t, pressure p true s = .ok () t ∧ ((t.poolLive p).pressure = .normal ↔ s.highMark p ≤ s.freeMeasure p))

/-- A NORMAL pool with F below LM enters CONSTRAINED: its live record takes the state and the MT, its lingering grants, whose features map
to it, are released from the head, their costs leaving Up and Ug and their units Hf, and its service runs unless a COUNT REBUILD holds the
slot; its notice, with the figures as they then stand, is queued after that run, or, the run being in progress already, owed by it, or at
once with no run. A CONSTRAINED pool at a leave test with F at HM or above and MR past becomes NORMAL with a notice. In FAULTED no check is
made (R80 to R84; log entry 9). The end of a run queues the notice of each entry it owes, in their order, with the figures of that end (R82
point 4, R84). With COUNT REBUILD in the slot no run is started and the notice of an entry is queued at once (the model's choice, log entry
9). -/
def Obligations.PressureEntersAndLeaves : Prop :=
  (∀ (s : State) (p : Nat) (leave : Bool), s.Quiet →
    (s.ada.service = .faulted → pressure p leave s = .ok () s) ∧
    (s.PressureEnters p → s.PressureSettles p →
      let e := s.setPoolLive p { s.poolLive p with pressure := .constrained, entryTime := s.swp.mt }
      let t := ((s.lingerList p).foldl (fun u i => u.releaseSlot i) e).setLinger p []
      (s.ada.op.isRebuild = true →
        pressure p leave s = .ok () (State.queueNotice
          (.poolPressure p .constrained s.swp.mt (t.freeMeasure p) (t.ce p) (t.poolLive p).up (t.poolLive p).ug (t.poolLive p).w) t)) ∧
      (s.ada.op.isRebuild = false → (∀ r ∈ s.adm.runs, r.pool ≠ p) →
        pressure p leave s = .ok () { t with adm.runs := s.adm.runs ++ [⟨p, [s.swp.mt], .priority⟩] }) ∧
      (s.ada.op.isRebuild = false → (∃ r ∈ s.adm.runs, r.pool = p) →
        pressure p leave s = .ok ()
          { t with adm.runs := s.adm.runs.map (fun r =>
              if r.pool = p then ⟨p, r.owed ++ [s.swp.mt], if r.stage = .priority then .priority else .general true⟩ else r) }) ∧
      t.poolLive p =
        { s.poolLive p with
          pressure := .constrained, entryTime := s.swp.mt, up := (t.poolLive p).up, ug := (t.poolLive p).ug } ∧
      (∀ c, (t.poolLive p).used c = (s.poolLive p).used c -
        ((s.lingerList p).map (fun i => if (s.slot i).cls = c then (s.slot i).cost else 0)).sum) ∧
      (∀ q, q ≠ p → t.poolLive q = s.poolLive q) ∧
      (∀ f, t.featLive f =
        ⟨(s.featLive f).hf -
          ((s.lingerList p).map (fun i =>
            if (s.slot i).feature = f ∧ (s.slot i).epoch = (s.featLive f).epoch then (s.slot i).units else 0)).sum,
          (s.featLive f).epoch⟩) ∧
      t.lingerList p = [] ∧ (∀ q, q ≠ p → t.lingerList q = s.lingerList q) ∧
      (∀ i ∈ s.lingerList p, t.slot i =
        { s.slot i with state := .free, reason := none, generation := (s.slot i).generation + 1 }) ∧
      (∀ i, i ∉ s.lingerList p → t.slot i = s.slot i) ∧
      t.grt.freeFifo = s.grt.freeFifo ++ s.lingerList p ∧ t.adm.runs = s.adm.runs ∧ t.wts = s.wts ∧ t.tbs = s.tbs ∧ t.swp = s.swp) ∧
    (s.PressureLeaves p → leave = true →
      pressure p leave s = .ok () (State.queueNotice
        (.poolPressure p .normal s.swp.mt (s.freeMeasure p) (s.ce p) (s.poolLive p).up (s.poolLive p).ug (s.poolLive p).w)
        (s.setPoolLive p { s.poolLive p with pressure := .normal, entryTime := s.swp.mt })))) ∧
  (∀ (s : State) (p : Nat) (a b : List Run) (owed : List W32) (x : RunStage), s.adm.runs = a ++ ⟨p, owed, x⟩ :: b →
    (∀ r ∈ a, r.pool ≠ p) → (∀ r ∈ b, r.pool ≠ p) →
    s.endRun p = owed.foldl
      (fun u t => u.queueNotice
        (.poolPressure p .constrained t (s.freeMeasure p) (s.ce p) (s.poolLive p).up (s.poolLive p).ug (s.poolLive p).w))
      { s with adm.runs := a ++ b })

/-! ### Banks -/

/-- A bank entry written out as words reads back as itself, for every entry a bank may store (R107 to R109, R183). -/
def Obligations.EntryWordsReadBack : Prop :=
  ∀ e : Entry, e.Stored → readEntryWords e.kind e.words = some e

/-- WRITE ENTRY of one entry: refused BUSY during COPY BANK, BAD_VALUE for a bad kind, count or spare byte, BAD_INDEX, BAD_VALUE,
DUPLICATE_CODE or REFUSED_STATE (damaged) for the entry, with its position; otherwise DONE, the standby entry replaced and, for a feature
entry, its differs flag set anew (R111, R112, R114, R182). Of 1 to 16 entries, each checked with the bank as the entries before it leave it:
the first that fails gives its result and position and nothing is written; all passing, all are written in their order (R111, R112). The
model's readings: the position counts from 0 (log entry 22), and an entry written empty or undefined is refused at a damaged standby entry
too (log entry 24). What replacing an entry does to a bank: the entry, the content
sum, the code directory, the damaged mark, and nothing else; and what the write does to the differs flag (R112 to R114). -/
def Obligations.WriteEntryReplacesStandbyEntry : Prop :=
  (∀ (s : State) (d : Cand) (rest : List Cand) (st n i : Nat) (spare : W16) (ws : List W32),
     s.AdminHead .writeEntry d rest st →
     (byteAt (adminBody d.payload) 0).toNat = n →
     let t := s.adminTaken d rest st
     let x := adminCtx .writeEntry d st
     (∀ k c, s.ada.op = .copy k c → exec (.writeEntry []) s = .next (t.adminReply x .busy [])) ∧
     ((∀ k c, s.ada.op ≠ .copy k c) →
       (TableKind.ofCode n = none ∨ be16 (adminBody d.payload) 2 ≠ 0 ∨ byteAt (adminBody d.payload) 1 = 0 ∨
           16 < (byteAt (adminBody d.payload) 1).toNat →
         exec (.writeEntry []) s = .next (t.adminReply x .badValue [])) ∧
       (∀ k, TableKind.ofCode n = some k → be16 (adminBody d.payload) 2 = 0 → byteAt (adminBody d.payload) 1 = 1 →
         carriedEntries k.words 1 ((adminBody d.payload).drop 4) = [⟨i, spare, ws⟩] →
         (k.size ≤ i → exec (.writeEntry []) s = .next (t.adminReply x .badIndex [0, 0])) ∧
         (i < k.size → spare ≠ 0 ∨ readEntryWords k ws = none →
           exec (.writeEntry []) s = .next (t.adminReply x .badValue [0, 0])) ∧
         (∀ e, i < k.size → spare = 0 → readEntryWords k ws = some e →
           ((∃ j, s.standbyBank.lookup e.featureCode = some j ∧ j ≠ i) →
             exec (.writeEntry []) s = .next (t.adminReply x .duplicateCode [0, 0])) ∧
           ((∀ j, s.standbyBank.lookup e.featureCode = some j → j = i) →
             (s.standbyBank.damaged k i = true →
               exec (.writeEntry []) s = .next (t.adminReply x .refusedState [0, 0])) ∧
             (s.standbyBank.damaged k i = false →
               exec (.writeEntry []) s = .next ((t.writeStandby k i e).adminReply x .done []))))))) ∧
  ((∀ (b : Bank) (k : TableKind) (i : Nat) (e : Entry), e.kind = k → b.damaged k i = false → (k = .global → i = 0) →
     let b1 := b.write k i e
     b1.entry k i = e ∧ b1.damaged k i = false ∧ b1.sum = b.sum - (b.entry k i).sum + e.sum ∧
     (∀ k2 j, k2 ≠ k ∨ (k ≠ .global ∧ j ≠ i) → b1.entry k2 j = b.entry k2 j ∧ b1.damaged k2 j = b.damaged k2 j) ∧
     (k ≠ .feature → b1.directory = b.directory) ∧
     (k = .feature → e.featureCode ≠ 0 → b1.lookup e.featureCode = some i) ∧
     (k = .feature → b.Canonical → ∀ code, code ≠ e.featureCode → b1.lookup code = if b.lookup code = some i then none else b.lookup code)) ∧
   (∀ (s : State) (d : Cand) (rest : List Cand) (st : Nat) (k : TableKind) (n : Nat), s.AdminHead .writeEntry d rest st →
     (∀ k c, s.ada.op ≠ .copy k c) → TableKind.ofCode (byteAt (adminBody d.payload) 0).toNat = some k →
     (byteAt (adminBody d.payload) 1).toNat = n → 1 ≤ n → n ≤ 16 → be16 (adminBody d.payload) 2 = 0 →
     let t := s.adminTaken d rest st
     let x := adminCtx .writeEntry d st
     let cs := carriedEntries k.words n ((adminBody d.payload).drop 4)
     (∀ l, CarriedPass k s.standbyBank [] cs l →
       exec (.writeEntry []) s = .next ((l.foldl (fun u y => u.writeStandby k y.1 y.2) t).adminReply x .done [])) ∧
     (∀ good c later l r, cs = good ++ c :: later → CarriedPass k s.standbyBank [] good l → c.Fails k s.standbyBank l r →
       exec (.writeEntry []) s = .next (t.adminReply x r (nat16 good.length)))) ∧
   (∀ (s : State) (k : TableKind) (i : Nat) (e : Entry),
     let t := s.writeStandby k i e
     t.tbs.active = s.tbs.active ∧ t.activeBank = s.activeBank ∧ t.standbyBank = s.standbyBank.write k i e ∧
     (k ≠ .feature → t.tbs.differs = s.tbs.differs) ∧
     (k = .feature → ∀ j, Tab.get false t.tbs.differs j =
       if j = i then (match s.featureEntry i with
         | some a => decide (a.code ≠ e.featureCode)
         | none => true)
       else Tab.get false s.tbs.differs j)))

/-- COPY BANK takes the slot, or is BUSY; each visit brings the active entry to the standby bank, or, the active entry damaged, marks the
standby entry damaged without content; past the global entry the copy completes with the active sum and directory and no differs flag (R115,
R123, R161). That the standby code directory keeps what it gave for an index whose active entry is damaged, until the completion, is the
model's choice (log entry 36). -/
def Obligations.CopyBankBringsActiveToStandby : Prop :=
  (∀ (s : State) (d : Cand) (rest : List Cand) (st : Nat), s.AdminHead .copyBank d rest st →
    (s.ada.op = .idle →
      exec .copyBank s = .next
        { s.adminTaken d rest st with ada.op := .copy .feature 0, ada.issuer := d.issuer st }) ∧
    (s.ada.op ≠ .idle →
      exec .copyBank s = .next ((s.adminTaken d rest st).adminReply (adminCtx .copyBank d st) .busy []))) ∧
  (∀ (s : State) (k : TableKind) (i : Nat), s.Quiet → s.ada.op = .copy k i → i < k.size →
    ∃ t, exec (.copyBankVisit []) s = .next t ∧
      t = { s with tbs := t.tbs, ada.op := t.ada.op } ∧
      t.ada.op = (if i + 1 < k.size then .copy k (i + 1)
        else match k with
          | .feature => .copy .pool 0
          | .pool => .copy .site 0
          | .site => .copy .global 0
          | .global => .copy .global 1) ∧
      t.tbs.active = s.tbs.active ∧ t.activeBank = s.activeBank ∧
      (s.activeBank.damaged k i = false → t.standbyBank = s.standbyBank.write k i (s.activeBank.entry k i)) ∧
      (s.activeBank.damaged k i = true → t.standbyBank = s.standbyBank.mark k i true) ∧
      (∀ j, Tab.get false t.tbs.differs j = if k = .feature ∧ j = i then false else Tab.get false s.tbs.differs j)) ∧
  (∀ s : State, s.resetLow = false → s.ada.op = .copy .global 1 →
    exec .copyBankCompletion s = .next
      { State.adminSend s.ada.issuer 0x10 .done []
          { s.setBank s.standby
              { s.standbyBank with sum := s.activeBank.sum, directory := s.activeBank.directory } with
            tbs.differs := [] } with
        ada.op := .idle })

/-- SWAP BANK is BUSY while the slot is held, SUM_MISMATCH with the standby sum for another sum, and otherwise flips: the banks change
roles, the epoch of each index whose differs flag is set advances with Hf 0, the flags and every pool live record stand, the slot takes the
reconcile pass and a run of every pool is started; the reply waits for the pass (R117, R118). A round in progress remembers that cause (log
entry 9). -/
def Obligations.SwapBankFlips : Prop :=
  ∀ (s : State) (d : Cand) (rest : List Cand) (st : Nat), s.AdminHead .swapBank d rest st →
    (s.ada.op ≠ .idle →
      exec (.swapBank []) s = .next ((s.adminTaken d rest st).adminReply (adminCtx .swapBank d st) .busy [])) ∧
    (s.ada.op = .idle → s.standbyBank.sum ≠ be32 (adminBody d.payload) 0 →
      exec (.swapBank []) s = .next
        ((s.adminTaken d rest st).adminReply (adminCtx .swapBank d st) .sumMismatch (bytes32 s.standbyBank.sum))) ∧
    (s.ada.op = .idle → s.standbyBank.sum = be32 (adminBody d.payload) 0 → s.Canonical →
      ∃ t, exec (.swapBank []) s = .next t ∧
        t = { s.adminTaken d rest st with
          tbs := { s.tbs with active := s.standby }
          adm := t.adm
          ada.op := .reconcile .grants 0 .zero
          ada.issuer := d.issuer st } ∧
        t.adm.pools = s.adm.pools ∧
        (∀ i, Tab.get false s.tbs.differs i = true → t.featLive i = ⟨0, (s.featLive i).epoch + 1⟩) ∧
        (∀ i, Tab.get false s.tbs.differs i = false → t.featLive i = s.featLive i) ∧
        (∀ p, p < 1024 → ∃ r ∈ t.adm.runs, r.pool = p) ∧
        (∀ r ∈ s.adm.runs, (if r.pool < 1024 ∧ r.stage ≠ .priority then { r with stage := .general true } else r) ∈ t.adm.runs))

/-! ### The reconcile pass -/

/-- The grant phase recalls a HELD or STALE grant whose epoch is not current, releases such a LINGER grant, and leaves every other slot; it
counts both, and the cursor moves on (R119; the checks after the release do not hold here). The waiter phase removes a waiter in use whose
epoch is not current or whose feature maps elsewhere, TABLE_CHANGED, and counts it; the pool phase checks and serves each pool, its check
not holding here; past the last pool the pass is answered DONE with the three counts and the slot is IDLE. The phases follow one another
from index 0 (R120, R161). The 4 bytes of the waiters-removed count in the reply are the model's choice (log entry 15). That a damaged or
empty feature entry maps to no pool to be checked and served is the model's choice (log entry 44). -/
def Obligations.ReconcilePassRecallsAndEnds : Prop :=
  (∀ (s : State) (i : Nat) (n : Counts) (g : Slot), s.Quiet → s.ada.op = .reconcile .grants i n → i < 32768 → g = s.slot i →
     (g.epoch = (s.featLive g.feature).epoch ∨ g.state = .free ∨ g.state = .bad ∨ g.state = .recalled →
       exec (.reconcileGrantVisit []) s = .next s.phaseOn) ∧
     (g.epoch ≠ (s.featLive g.feature).epoch →
       (g.state = .held ∨ g.state = .stale →
         exec (.reconcileGrantVisit []) s = .next
           (State.phaseOn { s.recallHeld i .tableChanged with
             ada.op := .reconcile .grants i { n with recalled := n.recalled + 1 } })) ∧
       (g.state = .linger →
         let t := { s.releaseSlot i with ada.op := .reconcile .grants i { n with released := n.released + 1 } }
         t.ReleaseStands (s.releasedOf i) →
         exec (.reconcileGrantVisit []) s = .next ((t.releaseRuns (s.releasedOf i)).phaseOn)))) ∧
  ((∀ (s : State) (i : Nat) (n : Counts), s.Quiet → s.ada.op = .reconcile .waiters i n → i < 4096 →
     let w := s.waiter i
     let replaced := w.epoch ≠ (s.featLive w.feature).epoch ∨ ∃ e, s.featureEntry w.feature = some e ∧ e.pool ≠ w.pool
     (w.inUse = true → replaced →
       exec (.reconcileWaiterVisit []) s = .next
         (State.phaseOn { s.removed i .tableChanged none with
           ada.op := .reconcile .waiters i { n with removed := n.removed + 1 } })) ∧
     (w.inUse = false ∨ ¬ replaced → exec (.reconcileWaiterVisit []) s = .next s.phaseOn)) ∧
   (∀ (s : State) (i : Nat) (n : Counts), s.Quiet → s.ada.op = .reconcile .pools i n → i < 1024 → s.PressureStands i true →
     exec (.reconcilePoolVisit []) s = .next ((s.startRun i).phaseOn)) ∧
   (∀ (s : State) (i : Nat) (n : Counts), s.resetLow = false → s.ada.op = .reconcile .pools i n → 1024 ≤ i →
     exec .reconcileCompletion s = .next
       { State.adminSend s.ada.issuer 0x11 .done (nat32 n.recalled ++ nat32 n.released ++ nat32 n.removed) s with
         ada.op := .idle }) ∧
   (∀ (s : State) (ph : Phase) (i : Nat) (n : Counts), s.ada.op = .reconcile ph i n →
     s.phaseOn = { s with ada.op :=
       match ph with
       | .grants => if i + 1 < 32768 then .reconcile .grants (i + 1) n else .reconcile .waiters 0 n
       | .waiters => if i + 1 < 4096 then .reconcile .waiters (i + 1) n else .reconcile .pools 0 n
       | .pools => .reconcile .pools (i + 1) n }))

/-! ### AUDIT, SCAN REVOKE, COUNT REBUILD, SERVICE RESET -/

/-- AUDIT takes the slot with its selector and start slot; each visit reports the slot as it stands when the selector picks it; at 64 matches
or past slot 32,767 it is answered DONE with the matches, the last slot visited, their number and the sum of their costs. It changes no
record (R161, R162). -/
def Obligations.AuditListsPickedSlots : Prop :=
  (∀ (s : State) (d : Cand) (rest : List Cand) (st : Nat) (v : W32) (start : Nat), s.AdminHead .audit d rest st →
    be32 (adminBody d.payload) 4 = v → (be16 (adminBody d.payload) 2).toNat = start →
    let t := s.adminTaken d rest st
    (s.ada.op ≠ .idle → exec .audit s = .next (t.adminReply (adminCtx .audit d st) .busy [])) ∧
    (s.ada.op = .idle → byteAt (adminBody d.payload) 1 = 0 → start < 32768 → ∀ sel,
      (byteAt (adminBody d.payload) 0 = 1 ∧ v ≠ 0 ∧ sel = .owner v) ∨
        (byteAt (adminBody d.payload) 0 = 2 ∧ v.toNat < 1024 ∧ sel = .pool v.toNat) ∨
        (byteAt (adminBody d.payload) 0 = 3 ∧ v.toNat < 16384 ∧ sel = .feature v.toNat) ∨
        (byteAt (adminBody d.payload) 0 = 4 ∧ ∃ g, v.toNat = GState.code g ∧ sel = .state g) →
      exec .audit s = .next { t with ada.op := .audit ⟨sel, start, [], none⟩, ada.issuer := d.issuer st })) ∧
  (∀ (s : State) (a : AuditScan) (g : Slot), s.Quiet → s.ada.op = .audit a → a.cursor < 32768 → a.found.length < 64 →
    g = s.slot a.cursor →
    exec (.auditVisit []) s = .next
      { s with ada.op := .audit ⟨a.selector, a.cursor + 1,
        if a.selector.picks g = true then a.found ++ [⟨handleOf a.cursor g.generation, g.cost, g.state, g.pool⟩] else a.found,
        some a.cursor⟩ }) ∧
  (∀ g : Slot,
    (∀ id, (Selector.owner id).picks g = true ↔ g.state.live = true ∧ g.owner = id) ∧
    (∀ p, (Selector.pool p).picks g = true ↔ g.state.live = true ∧ g.pool = p) ∧
    (∀ f, (Selector.feature f).picks g = true ↔ g.state.live = true ∧ g.feature = f) ∧
    (∀ st, (Selector.state st).picks g = true ↔ g.state = st)) ∧
  (∀ (s : State) (a : AuditScan), s.resetLow = false → s.ada.op = .audit a → 64 ≤ a.found.length ∨ 32768 ≤ a.cursor →
    exec .auditCompletion s = .next
      { State.adminSend s.ada.issuer 0x12 .done
          ((a.found.map (fun m => bytes32 m.handle ++ nat32 m.cost ++ nat8 m.state.code ++ nat16 m.pool)).flatten
            ++ index16 a.last ++ nat32 a.found.length ++ nat32 ((a.found.map (·.cost)).foldl (· + ·) 0)) s with
        ada.op := .idle })

/-- SCAN REVOKE takes the slot; in the grant phase a HELD or STALE grant of the target becomes RECALLED with reason REVOKED whatever its
epoch, a LINGER one is released and every other slot stands; the checks that follow do not hold here (R41, R161, R163). In the waiter phase
SCAN REVOKE removes each waiter in use of the target with DENY REVOKED and counts it; past the last waiter record it is answered DONE with
the three counts and the slot is IDLE (R56, R161, R163). A bad target kind, spare byte or client ID 0 is BAD_VALUE, a feature index past the
table BAD_INDEX (R156, R182). The model's choices: the 4 bytes of the waiters-removed count (log entry 15), and the spare bytes tested
before the value (log entry 16). That a damaged or empty feature entry maps to no pool to be checked and served is the model's choice (log
entry 44). -/
def Obligations.ScanRevokeRecallsTargetsAndEnds : Prop :=
  ((∀ (s : State) (d : Cand) (rest : List Cand) (st : Nat) (v : W32), s.AdminHead .scanRevoke d rest st →
     be32 (adminBody d.payload) 4 = v →
     let t := s.adminTaken d rest st
     (s.ada.op ≠ .idle → exec .scanRevoke s = .next (t.adminReply (adminCtx .scanRevoke d st) .busy [])) ∧
     (s.ada.op = .idle → byteAt (adminBody d.payload) 1 = 0 → be16 (adminBody d.payload) 2 = 0 → ∀ target,
       (byteAt (adminBody d.payload) 0 = 1 ∧ v ≠ 0 ∧ target = .client v) ∨
         (byteAt (adminBody d.payload) 0 = 2 ∧ v.toNat < 16384 ∧ target = .feature v.toNat) →
       exec .scanRevoke s = .next
         { t with ada.op := .scanRevoke target .grants 0 .zero, ada.issuer := d.issuer st }) ∧
     (s.ada.op = .idle →
       byteAt (adminBody d.payload) 1 ≠ 0 ∨ be16 (adminBody d.payload) 2 ≠ 0 ∨
         (byteAt (adminBody d.payload) 0 ≠ 1 ∧ byteAt (adminBody d.payload) 0 ≠ 2) ∨ (byteAt (adminBody d.payload) 0 = 1 ∧ v = 0) →
       exec .scanRevoke s = .next (t.adminReply (adminCtx .scanRevoke d st) .badValue [])) ∧
     (s.ada.op = .idle → byteAt (adminBody d.payload) 1 = 0 → be16 (adminBody d.payload) 2 = 0 →
       byteAt (adminBody d.payload) 0 = 2 → 16384 ≤ v.toNat →
       exec .scanRevoke s = .next (t.adminReply (adminCtx .scanRevoke d st) .badIndex []))) ∧
   (∀ (s : State) (target : Target) (i : Nat) (n : Counts) (g : Slot), s.Quiet →
     s.ada.op = .scanRevoke target .grants i n → i < 32768 → g = s.slot i →
     let named := (target = .client g.owner ∨ target = .feature g.feature)
     (¬ named ∨ g.state = .free ∨ g.state = .bad ∨ g.state = .recalled →
       exec (.scanRevokeGrantVisit []) s = .next s.phaseOn) ∧
     (named → g.state = .held ∨ g.state = .stale →
       let t := { s.recallHeld i .revoked with ada.op := .scanRevoke target .grants i { n with recalled := n.recalled + 1 } }
       s.RecallStands i t →
       exec (.scanRevokeGrantVisit []) s = .next ((s.recallRuns i t).phaseOn)) ∧
     (named → g.state = .linger →
       let t := { s.releaseSlot i with ada.op := .scanRevoke target .grants i { n with released := n.released + 1 } }
       t.ReleaseStands (s.releasedOf i) →
       exec (.scanRevokeGrantVisit []) s = .next ((t.releaseRuns (s.releasedOf i)).phaseOn)))) ∧
  ((∀ (s : State) (target : Target) (i : Nat) (n : Counts), s.Quiet →
     s.ada.op = .scanRevoke target .waiters i n → i < 4096 →
     let w := s.waiter i
     let named := (target = .client w.client ∨ target = .feature w.feature)
     (w.inUse = true → named →
       exec (.scanRevokeWaiterVisit []) s = .next
         (State.phaseOn { s.removed i .revoked none with
           ada.op := .scanRevoke target .waiters i { n with removed := n.removed + 1 } })) ∧
     (w.inUse = false ∨ ¬ named → exec (.scanRevokeWaiterVisit []) s = .next s.phaseOn)) ∧
   (∀ (s : State) (target : Target) (i : Nat) (n : Counts), s.resetLow = false →
     s.ada.op = .scanRevoke target .waiters i n → 4096 ≤ i →
     exec .scanRevokeCompletion s = .next
       { State.adminSend s.ada.issuer 0x13 .done (nat32 n.recalled ++ nat32 n.released ++ nat32 n.removed) s with
         ada.op := .idle }) ∧
   (∀ (s : State) (target : Target) (ph : Phase) (i : Nat) (n : Counts), s.ada.op = .scanRevoke target ph i n → ph ≠ .pools →
     s.phaseOn = { s with ada.op :=
       if ph = .grants ∧ 32768 ≤ i + 1 then .scanRevoke target .waiters 0 n else .scanRevoke target ph (i + 1) n }))

/-- COUNT REBUILD is refused in FAULTED (first where both hold: the model's choice, log entry 17) and while the slot is held, and otherwise
starts with cursor and sums 0. A visit adds a live slot's amounts to the sums, without its units when RECALLED or of an old epoch; releases
a live slot whose owner entry is not its owner's, with no chain or count change; frees a BAD slot; and passes a FREE one (R156, R161, R164;
the checks after the release do not hold here). The completion of COUNT REBUILD: Up and Ug take the pool sums, Hf the units sums, each
client entry in use its scan count and chain; the live total takes the live-slot sum, SUSPECT clears, the reply is queued and the slot is
IDLE; the reply carries the BAD slots freed, the pools, feature indexes and client entries changed, and the restarts (no record past its
table being in use); then every pool is checked, the checks not holding here, and served (R166), in index order (the model's choice, log
entry 39). The 4 bytes of each of the five figures in the reply are the model's choice (log entry 15). -/
def Obligations.CountRebuildVisitsAndInstalls : Prop :=
  ((∀ (s : State) (d : Cand) (rest : List Cand) (st : Nat), s.AdminHead .countRebuild d rest st →
     let t := s.adminTaken d rest st
     (s.ada.service = .faulted →
       exec .countRebuild s = .next (t.adminReply (adminCtx .countRebuild d st) .refusedState [])) ∧
     (s.ada.service ≠ .faulted → s.ada.op ≠ .idle →
       exec .countRebuild s = .next (t.adminReply (adminCtx .countRebuild d st) .busy [])) ∧
     (s.ada.service ≠ .faulted → s.ada.op = .idle →
       exec .countRebuild s = .next
         { t with ada.op := .rebuild ⟨0, [], [], [], [], 0, 0, 0⟩, ada.issuer := d.issuer st })) ∧
   (∀ (s : State) (r : Rebuild) (i : Nat) (g : Slot), s.Quiet → s.ada.op = .rebuild r → i = r.cursor → i < 32768 →
     g = s.slot i →
     (g.state = .free → exec (.countRebuildVisit []) s = .next { s with ada.op := .rebuild { r with cursor := i + 1 } }) ∧
     (g.state = .bad →
       exec (.countRebuildVisit []) s = .next
         { s.setSlot i { g with state := .free, reason := none, generation := g.generation + 1 } with
           grt.freeFifo := s.grt.freeFifo ++ [i], grt.exhausted := false
           ada.op := .rebuild { r with cursor := i + 1, badFreed := r.badFreed + 1 } }) ∧
     (g.state.live = true → (s.client g.ownerIdx).inUse = true ∧ (s.client g.ownerIdx).id = g.owner →
       ∃ r2, exec (.countRebuildVisit []) s = .next { s with ada.op := .rebuild r2 } ∧
         r2.cursor = i + 1 ∧ r2.badFreed = r.badFreed ∧ r2.restarts = r.restarts ∧ r2.live = r.live + 1 ∧
         (∀ p, Tab.get 0 r2.prioritySums p =
           Tab.get 0 r.prioritySums p + if g.cls = .priority ∧ p = g.pool then g.cost else 0) ∧
         (∀ p, Tab.get 0 r2.generalSums p =
           Tab.get 0 r.generalSums p + if g.cls = .general ∧ p = g.pool then g.cost else 0) ∧
         (∀ f, Tab.get 0 r2.unitSums f = Tab.get 0 r.unitSums f +
           if f = g.feature ∧ g.state ≠ .recalled ∧ g.epoch = (s.featLive g.feature).epoch then g.units else 0) ∧
         (∀ j, r2.client j =
           if j = g.ownerIdx then ⟨(r.client j).count + 1, (r.client j).chain ++ [i]⟩ else r.client j)) ∧
     (g.state.live = true → (s.client g.ownerIdx).inUse = false ∨ (s.client g.ownerIdx).id ≠ g.owner →
       let t := { s.releaseFrom false i with ada.op := .rebuild { r with cursor := i + 1 } }
       t.ReleaseStands (s.releasedOf i) →
       exec (.countRebuildVisit []) s = .next t ∧ t.clt = s.clt ∧ (t.slot i).state = .free))) ∧
  ((∀ (s : State) (r : Rebuild), s.Quiet → s.ada.op = .rebuild r → 32768 ≤ r.cursor →
     (∀ p, p < 1024 → (s.rebuildDone r).PressureStands p false) →
     exec (.countRebuildCompletion []) s = .next ((List.range 1024).foldl (fun t p => t.startRun p) (s.rebuildDone r))) ∧
   (∀ (s : State) (r : Rebuild), s.Canonical →
     let t := s.rebuildDone r
     (∀ p, t.poolLive p =
       { s.poolLive p with up := Tab.get 0 r.prioritySums p, ug := Tab.get 0 r.generalSums p }) ∧
     (∀ i, t.featLive i = { s.featLive i with hf := Tab.get 0 r.unitSums i }) ∧
     (∀ i, (s.client i).inUse = true →
       (t.client i).grants = (r.client i).count ∧ (t.client i).chain = (r.client i).chain ∧
       (t.client i).waiters = (s.client i).waiters ∧ (t.client i).id = (s.client i).id ∧ (t.client i).inUse = true) ∧
     (∀ i, (s.client i).inUse = false → t.client i = s.client i) ∧
     (∀ i, (s.client i).inUse = true → (s.client i).grants ≠ 0 → (r.client i).count = 0 → (s.client i).waiters = 0 →
       i ∈ t.clt.idle ∧ (i ∉ s.clt.idle → (t.client i).lastActivity = s.swp.mt)) ∧
     (∀ i, s.clt.idle.Nodup → (s.client i).inUse = true → (r.client i).count ≠ 0 → i ∉ t.clt.idle) ∧
     t.grt = { s.grt with liveTotal := r.live, suspect := false } ∧ t.ada.op = .idle ∧ t.adm.runs = s.adm.runs ∧
     t.wts = s.wts ∧ t.tbs = s.tbs ∧ t.swp = s.swp ∧ t.exu = s.exu ∧ t.fnu = s.fnu ∧ t.ada.service = s.ada.service ∧
     (s.ada.op = .rebuild r → (∀ p, 1024 ≤ p → t.poolLive p = s.poolLive p) → (∀ i, 16384 ≤ i → t.featLive i = s.featLive i) →
       (∀ i, 8192 ≤ i → (s.client i).inUse = false) →
       t.lnk = (State.adminSend s.ada.issuer 0x14 .done
         (nat32 r.badFreed
           ++ nat32 ((List.range 1024).filter (fun p => decide (t.poolLive p ≠ s.poolLive p))).length
           ++ nat32 ((List.range 16384).filter (fun i => decide (t.featLive i ≠ s.featLive i))).length
           ++ nat32 ((List.range 8192).filter (fun i => decide ((t.client i).grants ≠ (s.client i).grants))).length
           ++ nat32 r.restarts) s).lnk)))

/-- SERVICE RESET takes the slot as RESET, aborting with ABORTED the operation it finds there, and is BUSY while a RESET holds it (R161,
R167). The completion of SERVICE RESET clears the records, flags and counters R168 names, keeps the rest, sets ON with a notice when the
state changed, and answers DONE: a frame to the issuing station with command code 0x15, the result DONE and no figures joins the originate
queue of that station's port behind the frames that stand there, or is dropped at a full queue, counted after the clear (R150 to R152, R161,
R168). In the reply of an aborted operation the widths that section 12.2 does not name, and the 0 of the three COUNT REBUILD figures counted
only at its completion, are the model's choice (log entry 15). That the counters are cleared before the reply is queued, so that dropped is
1 after its loss, is the model's choice (log entry 42). -/
def Obligations.ServiceResetTakesSlotAndClears : Prop :=
  (∀ (s : State) (d : Cand) (rest : List Cand) (st : Nat), s.AdminHead .serviceReset d rest st →
     let t := s.adminTaken d rest st
     (s.ada.op = .idle →
       exec .serviceReset s = .next { t with ada.op := .reset, ada.issuer := d.issuer st }) ∧
     (s.ada.op = .reset →
       exec .serviceReset s = .next (t.adminReply (adminCtx .serviceReset d st) .busy [])) ∧
     (s.ada.op ≠ .idle → s.ada.op ≠ .reset →
       exec .serviceReset s = .next
         { State.adminSend s.ada.issuer s.ada.op.commandCode .aborted s.ada.op.figures t with
           ada.op := .reset, ada.issuer := d.issuer st })) ∧
  (∀ (s : State), s.resetLow = false → s.ada.op = .reset →
     ∃ t, exec .serviceResetCompletion s = .next t ∧
       t.ada.service = .on ∧ t.ada.op = .idle ∧
       (∀ i, t.slot i = .zero) ∧ t.grt.freeFifo = List.range 32768 ∧ t.grt.suspect = false ∧ t.grt.exhausted = false ∧
       t.grt.liveTotal = 0 ∧ (∀ p, t.lingerList p = []) ∧
       (∀ p, t.poolLive p = ⟨0, 0, 0, .normal, 0⟩) ∧ (∀ i, t.featLive i = ⟨0, 0⟩) ∧
       (∀ i, t.waiter i = .zero) ∧ (∀ p c, t.queue p c = []) ∧ t.wts.np = 0 ∧ t.wts.ng = 0 ∧
       (∀ i, t.client i = .zero) ∧ t.clt.idle = [] ∧
       t.ada.stats = ⟨0, 0, 0, 0, 0, t.ada.stats.dropped⟩ ∧
       t.tbs = s.tbs ∧ t.swp.mt = s.swp.mt ∧ t.swp.dtOffset = s.swp.dtOffset ∧ t.swp.dtValid = s.swp.dtValid ∧
       t.fnu.hard = s.fnu.hard ∧ (s.fnu.notices.length < 32 → t.fnu.soft = s.fnu.soft ∧ t.fnu.lost = s.fnu.lost) ∧
       (s.ada.service = .on → t.fnu = s.fnu) ∧
       (s.ada.service ≠ .on → s.fnu.notices.length < 32 →
         t.fnu.notices = s.fnu.notices ++ [⟨s.swp.mt, .serviceState s.ada.service .on s.swp.mt⟩]) ∧
       (s.ada.service = .faulted → t.swp.grantPass.cursor = 0 ∧ t.swp.waiterPass.cursor = 0 ∧ t.swp.clientPass.cursor = 0) ∧
       (s.ada.service ≠ .faulted → t.swp = s.swp) ∧
       t.ada.bootCopy = s.ada.bootCopy ∧ t.ada.flash = s.ada.flash ∧ t.ada.intake = s.ada.intake ∧
       t.exu.intake = s.exu.intake ∧ t.lnk.addrs = s.lnk.addrs ∧ t.lnk.neighbours = s.lnk.neighbours ∧
       t.lnk.portF.forward = s.lnk.portF.forward ∧ t.lnk.portS.forward = s.lnk.portS.forward ∧
       t.lnk.portF.mark = s.lnk.portF.mark ∧ t.lnk.portS.mark = s.lnk.portS.mark ∧
       (let q := (s.station s.ada.issuer.station).port
        t.lnk.ident = s.lnk.ident + 1 ∧ (∀ p, p ≠ q → t.port p = s.port p) ∧
        ((s.port q).originate.length < 256 →
          t.ada.stats.dropped = 0 ∧
          t.port q = { s.port q with
            originate := (s.port q).originate ++
              [⟨composeFrame
                  { dstMac := s.ada.issuer.mac, srcMac := s.addrs.partMac, vlan := s.ada.issuer.vlan, srcIp := s.addrs.mgmtIp,
                    srcPort := s.addrs.mgmtPort, dstIp := s.ada.issuer.ip, dstPort := s.ada.issuer.udp }
                  s.lnk.ident (adminReplyDatagram 0x15 .done s.ada.issuer.seq []), none⟩] }) ∧
        (256 ≤ (s.port q).originate.length → t.ada.stats.dropped = 1 ∧ t.port q = s.port q)))

/-! ### Memory errors -/

/-- A checked read: of a sound word, nothing; of a correctable one, a soft event with the word's code, and the word is sound after. Of a
lost grant record: the slot BAD, its link kept, out of its linger list, the FIFO and its owner's chain, whose words are read (with one of
them lost the device is FAULTED all the same), and a COUNT REBUILD that has passed the live slot starts again (R44, R165). Of a lost bank
entry: the entry damaged and zero (R122). Of a lost code directory word: the code absent, and the entry at its index damaged as one that is
lost, or, its index lost or the code absent, nothing else and no event (R110; the model's choice, log entry 23). Of a lost waiter, client,
link or live record word: in ON, DRAIN or OFF the operation ends and the device is FAULTED, with its notice after that of the hard event,
its grant, waiter and client passes stopped, the wait store and the client table cleared, the grant slots kept; in FAULTED the operation
ends and only the word and the hard event are written (R71, R171 to R173, R175). The order of reads at a lost grant record is the model's
choice (log entry 8): the slot becomes BAD first, then its owner's entry and the idle list are read, and one of them lost gives FAULTED with
the slot BAD. The index in the soft event of a corrected directory word whose code is absent, or of the idle-list storage, is the model's
choice (log entry 23). -/
def Obligations.CheckedReadsFollowTheirMemory : Prop :=
  ∀ (s : State) (w : MemWord),
    (s.damageAt w = none → check w s = .ok () s) ∧
    (∀ dm, s.damageAt w = some dm → (State.heal w s).damageAt w = none) ∧
    (s.damageAt w = some .correctable → check w s = .ok () ((s.heal w).softEvent (wordSoftEvent s w))) ∧
    (∀ i g dm, w = .grantRec i → g = s.slot i → s.damageAt w = some dm → dm ≠ .correctable →
      let o := g.ownerIdx
      (i ∉ (s.client o).chain ∨
        ((s.damageAt (.clientEnt o) = none ∨ s.damageAt (.clientEnt o) = some .correctable) ∧
          (s.damageAt .idleStore = none ∨ s.damageAt .idleStore = some .correctable)) →
        ∃ t, check w s = .ok () t ∧
          t.slot i = { Slot.zero with state := .bad, generation := g.generation, ownerIdx := g.ownerIdx } ∧
          (∀ j, j ≠ i → t.slot j = s.slot j) ∧ t.grt.suspect = true ∧ t.fnu.hard.locked = true ∧
          (s.fnu.hard.locked = false →
            t.fnu.hard.code = 0x81 ∧ t.fnu.hard.index = i ∧ t.fnu.hard.pool = 0 ∧ t.fnu.hard.client = 0) ∧
          (t.grt.freeFifo = if g.state = .free then s.grt.freeFifo.erase i else s.grt.freeFifo) ∧
          (∀ p, t.lingerList p = if g.state = .linger ∧ p = g.pool then (s.lingerList p).erase i else s.lingerList p) ∧
          (t.grt.liveTotal = if g.state.live = true then s.grt.liveTotal - 1 else s.grt.liveTotal) ∧
          (i ∉ (s.client o).chain → t.clt = s.clt) ∧
          (i ∈ (s.client o).chain →
            (t.client o).chain = (s.client o).chain.erase i ∧ (t.client o).grants = (s.client o).grants - 1) ∧
          (∀ j, j ≠ o → t.client j = s.client j) ∧
          (∀ rb, s.ada.op = .rebuild rb → g.state.live = true → i < rb.cursor →
            t.ada.op = .rebuild ⟨0, [], [], [], [], 0, rb.badFreed, rb.restarts + 1⟩) ∧
          ((∀ rb, s.ada.op = .rebuild rb → g.state.live = false ∨ rb.cursor ≤ i) → t.ada = s.ada) ∧
          t.adm = s.adm ∧ t.wts = s.wts ∧ t.tbs = s.tbs ∧ t.swp = s.swp ∧ t.lnk = s.lnk ∧ t.exu = s.exu ∧
          t.ada.service = s.ada.service) ∧
      (i ∈ (s.client o).chain → s.ada.service = .on ∨ s.ada.service = .drain ∨ s.ada.service = .off →
        (∃ d2, s.damageAt (.clientEnt o) = some d2 ∧ d2 ≠ .correctable) ∨
          (∃ d2, s.damageAt .idleStore = some d2 ∧ d2 ≠ .correctable) →
        ∃ t, check w s = .error .ended t ∧ t.ada.service = .faulted ∧ t.clt = .clear ∧ t.grt.suspect = true ∧
          t.slot i = { Slot.zero with state := .bad, generation := g.generation, ownerIdx := g.ownerIdx })) ∧
    (∀ b k i dm, w = .bankEntry b k i → s.damageAt w = some dm → dm ≠ .correctable →
      ∃ t, check w s = .ok () t ∧ (t.bank b).damaged k i = true ∧ (t.bank b).entry k i = Entry.zero k ∧
        (t.bank b).sum = (s.bank b).sum ∧ t.fnu.hard.locked = true ∧ t.grt = s.grt ∧ t.adm = s.adm ∧
        t.ada = s.ada) ∧
    (∀ b code dm, w = .codeDir b code → s.damageAt w = some dm → dm ≠ .correctable →
      ∃ t, check w s = .ok () t ∧ (t.bank b).lookup code = none ∧
        (∀ other, other ≠ code → (t.bank b).lookup other = (s.bank b).lookup other) ∧
        (t.bank b).sum = (s.bank b).sum ∧ t.grt = s.grt ∧ t.adm = s.adm ∧ t.ada = s.ada ∧ t.wts = s.wts ∧ t.clt = s.clt ∧
        (∀ i, dm = .uncorrectable → (s.bank b).lookup code = some i →
          (t.bank b).damaged .feature i = true ∧ (t.bank b).entry .feature i = .feature .empty ∧ t.fnu.hard.locked = true ∧
          (s.fnu.hard.locked = false → t.fnu.hard.code = 0x82 ∧ t.fnu.hard.index = i)) ∧
        (dm = .indexLost ∨ (s.bank b).lookup code = none →
          t.fnu = s.fnu ∧ ∀ k j, (t.bank b).entry k j = (s.bank b).entry k j ∧ (t.bank b).damaged k j = (s.bank b).damaged k j)) ∧
    (∀ dm, s.damageAt w = some dm → dm ≠ .correctable → fatalWord w = true →
      (s.ada.service = .on ∨ s.ada.service = .drain ∨ s.ada.service = .off →
        ∃ t, check w s = .error .ended t ∧ t.ada.service = .faulted ∧ t.wts = .clear ∧ t.clt = .clear ∧
          t.fnu.hard.locked = true ∧ (t.faultN = !s.resetLow) ∧ t.exu.work = none ∧ t.tbs = s.tbs ∧
          (∀ j, w ≠ .grantLink j → t.slot j = s.slot j) ∧
          (∀ p, w = .poolLive p → t.poolLive p = .zero ∧ t.grt.suspect = true) ∧
          (∀ i, w = .featLive i → t.featLive i = .zero ∧ t.grt.suspect = true) ∧
          (s.ada.op.isRebuild = true → t.ada.op = .idle) ∧ (s.ada.op.isRebuild = false → t.ada.op = s.ada.op) ∧
          t.swp = { s.swp with grantPass.rounds := [], waiterPass.rounds := [], clientPass.rounds := [] } ∧
          (s.fnu.hard.locked = true → s.fnu.notices.length < 32 →
            t.fnu.notices = s.fnu.notices ++ [⟨s.swp.mt, .serviceState s.ada.service .faulted s.swp.mt⟩]) ∧
          (s.fnu.hard.locked = false → s.fnu.notices.length < 31 →
            t.fnu.notices = s.fnu.notices ++
              [⟨s.swp.mt, .hardEvent t.fnu.hard⟩, ⟨s.swp.mt, .serviceState s.ada.service .faulted s.swp.mt⟩])) ∧
      (s.ada.service = .faulted →
        ∃ t, check w s = .error .ended t ∧ t.ada = s.ada ∧ t.swp = s.swp ∧ t.exu = s.exu ∧ t.tbs = s.tbs ∧ t.lnk = s.lnk ∧
          t.fnu.hard.locked = true ∧ t.damageAt w = none ∧
          (∀ j, w ≠ .grantLink j → t.slot j = s.slot j) ∧
          (∀ p, w = .poolLive p → t.poolLive p = .zero ∧ t.grt.suspect = true) ∧
          (∀ i, w = .featLive i → t.featLive i = .zero ∧ t.grt.suspect = true) ∧
          (∀ i, w = .waiterRec i → t.waiter i = .zero) ∧ (∀ i, w = .clientEnt i → t.client i = .zero) ∧
          (w = .idleStore → t.clt.idle = []) ∧ (∀ p c, w = .queueStore p → t.queue p c = [])))

/-! ### Invariants that every step keeps -/

/-- What power-on leaves meets each invariant below. -/
def Obligations.PowerOnMeetsInvariants : Prop :=
  State.reset.QueuesBounded ∧ State.reset.Canonical ∧ State.reset.WaitStoreSound ∧ State.reset.BanksInRange ∧
    State.reset.StartupSilent ∧ State.reset.TokensBalanced ∧ State.reset.GrantsSound ∧ State.reset.ClientsSound

/-- No step makes a queue hold more than its size: the notice queue 32, an originate queue 256, a forward path 2,048, the intakes 64 and 8
(R148, R149, R152, R177). -/
def Obligations.QueuesStayBounded : Prop :=  ∀ s t : State, s.QueuesBounded → step s = .next t → t.QueuesBounded

/-- Every step keeps the sparse stores in their one canonical form (a property of the model's data). -/
def Obligations.StoresStayCanonical : Prop :=  ∀ s t : State, s.Canonical → step s = .next t → t.Canonical

/-- Every step keeps the wait store sound: each queued waiter is in use, of its queue's pool and class, and queued once; out of ON, DRAIN and
OFF the store is as after power-on (R46, R49, R52, R61, R173). -/
def Obligations.WaitStoreStaysSound : Prop :=  ∀ s t : State, s.WaitStoreSound → step s = .next t → t.WaitStoreSound

/-- Every step keeps every undamaged entry of both banks empty, undefined or in its ranges (R107 to R109, R111). -/
def Obligations.BankEntriesStayInRange : Prop :=  ∀ s t : State, s.BanksInRange → step s = .next t → t.BanksInRange

/-- Every step keeps a device that does not serve doing nothing but forward: no counter rises, nothing is composed (R144), and no notice is
queued, the change to PASS_ONLY included (the model's reading, log entry 14). -/
def Obligations.StartupStaysSilent : Prop :=  ∀ s t : State, s.StartupSilent → step s = .next t → t.StartupSilent

/-- The service state moves only along the edges of sections 10.3 and 11.2: those out of STARTING, between ON, DRAIN and OFF, and out of
FAULTED at their own commands, and those into FAULTED at a command that finds a lost word of waiter, client, grant link or live record
memory (R159, R168, R169, R173, R174). -/
def Obligations.ServiceStateMovesByItsCommands : Prop :=
  ∀ (c : Instr) (s t : State), s.StartupSilent → c.isPowerOn = false → exec c s = .next t → t.ada.service ≠ s.ada.service →
    serviceMove c s t.ada.service
end

