-- ==== Sys2Proof/Laws/Tab.lean ====
section
/-!
SUPPORT. Laws/Tab.lean: the laws of the sparse tables: a read after a write, and that every write keeps the canonical form.
-/
namespace Sys2Proof

variable {α : Type}

theorem Tab.get_erase_self (d : α) (t : Tab α) (k : Nat) : Tab.get d (Tab.erase t k) k = d := by
  induction t with
  | nil => rfl
  | cons kv t ih =>
    obtain ⟨j, w⟩ := kv
    by_cases h : j = k <;> simp [Tab.erase, Tab.get, h, ih]

theorem Tab.get_erase_ne (d : α) (t : Tab α) {k l : Nat} (h : l ≠ k) : Tab.get d (Tab.erase t k) l = Tab.get d t l := by
  induction t with
  | nil => rfl
  | cons kv t ih =>
    obtain ⟨j, w⟩ := kv
    by_cases hj : j = k
    · subst hj; simp [Tab.erase, Tab.get, ih, Ne.symm h]
    · rw [Tab.erase, if_neg hj, Tab.get, Tab.get, ih]

theorem Tab.get_insert_self (d : α) (t : Tab α) (k : Nat) (v : α) (h : ∀ w, (k, w) ∉ t) :
    Tab.get d (Tab.insert t k v) k = v := by
  induction t with
  | nil => simp [Tab.insert, Tab.get]
  | cons kv t ih =>
    obtain ⟨j, w⟩ := kv
    have hj : j ≠ k := fun e => h w (by simp [e])
    have ht : ∀ w, (k, w) ∉ t := fun w hm => h w (List.mem_cons_of_mem _ hm)
    by_cases hk : k < j <;> simp [Tab.insert, Tab.get, hk, hj, ih ht]

theorem Tab.get_insert_ne (d : α) (t : Tab α) {k l : Nat} (v : α) (h : l ≠ k) :
    Tab.get d (Tab.insert t k v) l = Tab.get d t l := by
  induction t with
  | nil => simp [Tab.insert, Tab.get, Ne.symm h]
  | cons kv t ih =>
    obtain ⟨j, w⟩ := kv
    by_cases hk : k < j
    · simp [Tab.insert, Tab.get, hk, Ne.symm h]
    · rw [Tab.insert, if_neg hk, Tab.get, Tab.get, ih]

theorem Tab.not_mem_erase (t : Tab α) (k : Nat) (w : α) : (k, w) ∉ Tab.erase t k := by
  induction t with
  | nil => simp [Tab.erase]
  | cons kv t ih =>
    obtain ⟨j, v⟩ := kv
    by_cases hj : j = k
    · simp [Tab.erase, hj, ih]
    · simp [Tab.erase, hj, ih, Ne.symm hj]

/-- A read after a write to the same index gives the value written. -/
@[simp] theorem Tab.get_put_self [DecidableEq α] (d : α) (t : Tab α) (k : Nat) (v : α) : Tab.get d (Tab.put d t k v) k = v := by
  unfold Tab.put
  split
  · next h => rw [Tab.get_erase_self, h]
  · exact Tab.get_insert_self d _ k v (Tab.not_mem_erase t k)

/-- A write leaves every other index alone. -/
theorem Tab.get_put_ne [DecidableEq α] (d : α) (t : Tab α) {k l : Nat} (v : α) (h : l ≠ k) :
    Tab.get d (Tab.put d t k v) l = Tab.get d t l := by
  unfold Tab.put
  split
  · exact Tab.get_erase_ne d t h
  · rw [Tab.get_insert_ne d _ v h, Tab.get_erase_ne d t h]

theorem Tab.get_put [DecidableEq α] (d : α) (t : Tab α) (k l : Nat) (v : α) :
    Tab.get d (Tab.put d t k v) l = if l = k then v else Tab.get d t l := by
  split
  · next h => rw [h, Tab.get_put_self]
  · next h => exact Tab.get_put_ne d t v h

theorem Tab.wfFrom_mono [DecidableEq α] (d : α) (t : Tab α) {lo lo' : Nat} (h : lo' ≤ lo) (w : Tab.wfFrom d lo t = true) :
    Tab.wfFrom d lo' t = true := by
  cases t with
  | nil => rfl
  | cons kv t =>
    obtain ⟨j, v⟩ := kv
    simp only [Tab.wfFrom, Bool.and_eq_true, decide_eq_true_eq] at w ⊢
    exact ⟨⟨by omega, w.1.2⟩, w.2⟩

theorem Tab.wfFrom_erase [DecidableEq α] (d : α) (t : Tab α) (k lo : Nat) (w : Tab.wfFrom d lo t = true) :
    Tab.wfFrom d lo (Tab.erase t k) = true := by
  induction t generalizing lo with
  | nil => rfl
  | cons kv t ih =>
    obtain ⟨j, v⟩ := kv
    simp only [Tab.wfFrom, Bool.and_eq_true, decide_eq_true_eq] at w
    by_cases hj : j = k
    · simp only [Tab.erase, hj, if_true]
      exact ih lo (Tab.wfFrom_mono d t (by omega) w.2)
    · simp only [Tab.erase, hj, if_false, Tab.wfFrom, Bool.and_eq_true, decide_eq_true_eq]
      exact ⟨w.1, ih _ w.2⟩

theorem Tab.wfFrom_insert [DecidableEq α] (d : α) (t : Tab α) (k lo : Nat) (v : α) (hv : v ≠ d) (hk : lo ≤ k)
    (hn : ∀ x, (k, x) ∉ t) (w : Tab.wfFrom d lo t = true) : Tab.wfFrom d lo (Tab.insert t k v) = true := by
  induction t generalizing lo with
  | nil => simp [Tab.insert, Tab.wfFrom, hv, hk]
  | cons kv t ih =>
    obtain ⟨j, x⟩ := kv
    simp only [Tab.wfFrom, Bool.and_eq_true, decide_eq_true_eq] at w
    have hj : j ≠ k := fun e => hn x (by simp [e])
    by_cases hlt : k < j
    · simp only [Tab.insert, hlt, if_true, Tab.wfFrom, Bool.and_eq_true, decide_eq_true_eq]
      exact ⟨⟨hk, hv⟩, ⟨by omega, w.1.2⟩, w.2⟩
    · simp only [Tab.insert, hlt, if_false, Tab.wfFrom, Bool.and_eq_true, decide_eq_true_eq]
      exact ⟨w.1, ih (j + 1) (by omega) (fun y hm => hn y (List.mem_cons_of_mem _ hm)) w.2⟩

/-- Every write keeps the canonical form. -/
theorem Tab.wf_put [DecidableEq α] (d : α) (t : Tab α) (k : Nat) (v : α) (w : Tab.wf d t = true) :
    Tab.wf d (Tab.put d t k v) = true := by
  unfold Tab.put Tab.wf at *
  split
  · exact Tab.wfFrom_erase d t k 0 w
  · next h => exact Tab.wfFrom_insert d _ k 0 v h (Nat.zero_le k) (Tab.not_mem_erase t k) (Tab.wfFrom_erase d t k 0 w)

theorem Tab.wf_erase [DecidableEq α] (d : α) (t : Tab α) (k : Nat) (w : Tab.wf d t = true) : Tab.wf d (Tab.erase t k) = true :=
  Tab.wfFrom_erase d t k 0 w

theorem Tab.wf_nil [DecidableEq α] (d : α) : Tab.wf d ([] : Tab α) = true := rfl

/-- Dropping pairs keeps the canonical form. -/
theorem Tab.wf_filter [DecidableEq α] (d : α) (p : Nat × α → Bool) (t : Tab α) (w : Tab.wf d t = true) :
    Tab.wf d (t.filter p) = true := by
  unfold Tab.wf at *
  generalize 0 = lo at w ⊢
  induction t generalizing lo with
  | nil => rfl
  | cons kv t ih =>
    obtain ⟨j, v⟩ := kv
    simp only [Tab.wfFrom, Bool.and_eq_true, decide_eq_true_eq] at w
    by_cases h : p (j, v) = true
    · simp only [List.filter_cons, h, if_true, Tab.wfFrom, Bool.and_eq_true, decide_eq_true_eq]
      exact ⟨w.1, ih _ w.2⟩
    · simp only [List.filter_cons, h]
      exact ih lo (Tab.wfFrom_mono d t (by omega) w.2)

end Sys2Proof
end

