-- ==== Sys2Proof/Laws/State.lean ====
section
/-!
SUPPORT. Laws/State.lean: what each plain update of the state leaves alone, one lemma per field, and what reading back an updated
store gives.
-/
namespace Sys2Proof.Machine

variable (s : State)

/-! `setSlot` -/
@[simp] theorem State.setSlot_pending (i : Nat) (g : Slot) : (s.setSlot i g).pending = s.pending := rfl
@[simp] theorem State.setSlot_resetLow (i : Nat) (g : Slot) : (s.setSlot i g).resetLow = s.resetLow := rfl
@[simp] theorem State.setSlot_damage (i : Nat) (g : Slot) : (s.setSlot i g).damage = s.damage := rfl
@[simp] theorem State.setSlot_lnk (i : Nat) (g : Slot) : (s.setSlot i g).lnk = s.lnk := rfl
@[simp] theorem State.setSlot_exu (i : Nat) (g : Slot) : (s.setSlot i g).exu = s.exu := rfl
@[simp] theorem State.setSlot_tbs (i : Nat) (g : Slot) : (s.setSlot i g).tbs = s.tbs := rfl
@[simp] theorem State.setSlot_adm (i : Nat) (g : Slot) : (s.setSlot i g).adm = s.adm := rfl
@[simp] theorem State.setSlot_wts (i : Nat) (g : Slot) : (s.setSlot i g).wts = s.wts := rfl
@[simp] theorem State.setSlot_clt (i : Nat) (g : Slot) : (s.setSlot i g).clt = s.clt := rfl
@[simp] theorem State.setSlot_swp (i : Nat) (g : Slot) : (s.setSlot i g).swp = s.swp := rfl
@[simp] theorem State.setSlot_ada (i : Nat) (g : Slot) : (s.setSlot i g).ada = s.ada := rfl
@[simp] theorem State.setSlot_fnu (i : Nat) (g : Slot) : (s.setSlot i g).fnu = s.fnu := rfl

/-! `setLinger` -/
@[simp] theorem State.setLinger_pending (p : Nat) (l : List Nat) : (s.setLinger p l).pending = s.pending := rfl
@[simp] theorem State.setLinger_resetLow (p : Nat) (l : List Nat) : (s.setLinger p l).resetLow = s.resetLow := rfl
@[simp] theorem State.setLinger_damage (p : Nat) (l : List Nat) : (s.setLinger p l).damage = s.damage := rfl
@[simp] theorem State.setLinger_lnk (p : Nat) (l : List Nat) : (s.setLinger p l).lnk = s.lnk := rfl
@[simp] theorem State.setLinger_exu (p : Nat) (l : List Nat) : (s.setLinger p l).exu = s.exu := rfl
@[simp] theorem State.setLinger_tbs (p : Nat) (l : List Nat) : (s.setLinger p l).tbs = s.tbs := rfl
@[simp] theorem State.setLinger_adm (p : Nat) (l : List Nat) : (s.setLinger p l).adm = s.adm := rfl
@[simp] theorem State.setLinger_wts (p : Nat) (l : List Nat) : (s.setLinger p l).wts = s.wts := rfl
@[simp] theorem State.setLinger_clt (p : Nat) (l : List Nat) : (s.setLinger p l).clt = s.clt := rfl
@[simp] theorem State.setLinger_swp (p : Nat) (l : List Nat) : (s.setLinger p l).swp = s.swp := rfl
@[simp] theorem State.setLinger_ada (p : Nat) (l : List Nat) : (s.setLinger p l).ada = s.ada := rfl
@[simp] theorem State.setLinger_fnu (p : Nat) (l : List Nat) : (s.setLinger p l).fnu = s.fnu := rfl

/-! `setPoolLive` -/
@[simp] theorem State.setPoolLive_pending (p : Nat) (l : PoolLive) : (s.setPoolLive p l).pending = s.pending := rfl
@[simp] theorem State.setPoolLive_resetLow (p : Nat) (l : PoolLive) : (s.setPoolLive p l).resetLow = s.resetLow := rfl
@[simp] theorem State.setPoolLive_damage (p : Nat) (l : PoolLive) : (s.setPoolLive p l).damage = s.damage := rfl
@[simp] theorem State.setPoolLive_lnk (p : Nat) (l : PoolLive) : (s.setPoolLive p l).lnk = s.lnk := rfl
@[simp] theorem State.setPoolLive_exu (p : Nat) (l : PoolLive) : (s.setPoolLive p l).exu = s.exu := rfl
@[simp] theorem State.setPoolLive_tbs (p : Nat) (l : PoolLive) : (s.setPoolLive p l).tbs = s.tbs := rfl
@[simp] theorem State.setPoolLive_grt (p : Nat) (l : PoolLive) : (s.setPoolLive p l).grt = s.grt := rfl
@[simp] theorem State.setPoolLive_wts (p : Nat) (l : PoolLive) : (s.setPoolLive p l).wts = s.wts := rfl
@[simp] theorem State.setPoolLive_clt (p : Nat) (l : PoolLive) : (s.setPoolLive p l).clt = s.clt := rfl
@[simp] theorem State.setPoolLive_swp (p : Nat) (l : PoolLive) : (s.setPoolLive p l).swp = s.swp := rfl
@[simp] theorem State.setPoolLive_ada (p : Nat) (l : PoolLive) : (s.setPoolLive p l).ada = s.ada := rfl
@[simp] theorem State.setPoolLive_fnu (p : Nat) (l : PoolLive) : (s.setPoolLive p l).fnu = s.fnu := rfl

/-! `setFeatLive` -/
@[simp] theorem State.setFeatLive_pending (i : Nat) (l : FeatLive) : (s.setFeatLive i l).pending = s.pending := rfl
@[simp] theorem State.setFeatLive_resetLow (i : Nat) (l : FeatLive) : (s.setFeatLive i l).resetLow = s.resetLow := rfl
@[simp] theorem State.setFeatLive_damage (i : Nat) (l : FeatLive) : (s.setFeatLive i l).damage = s.damage := rfl
@[simp] theorem State.setFeatLive_lnk (i : Nat) (l : FeatLive) : (s.setFeatLive i l).lnk = s.lnk := rfl
@[simp] theorem State.setFeatLive_exu (i : Nat) (l : FeatLive) : (s.setFeatLive i l).exu = s.exu := rfl
@[simp] theorem State.setFeatLive_tbs (i : Nat) (l : FeatLive) : (s.setFeatLive i l).tbs = s.tbs := rfl
@[simp] theorem State.setFeatLive_grt (i : Nat) (l : FeatLive) : (s.setFeatLive i l).grt = s.grt := rfl
@[simp] theorem State.setFeatLive_wts (i : Nat) (l : FeatLive) : (s.setFeatLive i l).wts = s.wts := rfl
@[simp] theorem State.setFeatLive_clt (i : Nat) (l : FeatLive) : (s.setFeatLive i l).clt = s.clt := rfl
@[simp] theorem State.setFeatLive_swp (i : Nat) (l : FeatLive) : (s.setFeatLive i l).swp = s.swp := rfl
@[simp] theorem State.setFeatLive_ada (i : Nat) (l : FeatLive) : (s.setFeatLive i l).ada = s.ada := rfl
@[simp] theorem State.setFeatLive_fnu (i : Nat) (l : FeatLive) : (s.setFeatLive i l).fnu = s.fnu := rfl

/-! `setWaiter` -/
@[simp] theorem State.setWaiter_pending (i : Nat) (w : Waiter) : (s.setWaiter i w).pending = s.pending := rfl
@[simp] theorem State.setWaiter_resetLow (i : Nat) (w : Waiter) : (s.setWaiter i w).resetLow = s.resetLow := rfl
@[simp] theorem State.setWaiter_damage (i : Nat) (w : Waiter) : (s.setWaiter i w).damage = s.damage := rfl
@[simp] theorem State.setWaiter_lnk (i : Nat) (w : Waiter) : (s.setWaiter i w).lnk = s.lnk := rfl
@[simp] theorem State.setWaiter_exu (i : Nat) (w : Waiter) : (s.setWaiter i w).exu = s.exu := rfl
@[simp] theorem State.setWaiter_tbs (i : Nat) (w : Waiter) : (s.setWaiter i w).tbs = s.tbs := rfl
@[simp] theorem State.setWaiter_adm (i : Nat) (w : Waiter) : (s.setWaiter i w).adm = s.adm := rfl
@[simp] theorem State.setWaiter_grt (i : Nat) (w : Waiter) : (s.setWaiter i w).grt = s.grt := rfl
@[simp] theorem State.setWaiter_clt (i : Nat) (w : Waiter) : (s.setWaiter i w).clt = s.clt := rfl
@[simp] theorem State.setWaiter_swp (i : Nat) (w : Waiter) : (s.setWaiter i w).swp = s.swp := rfl
@[simp] theorem State.setWaiter_ada (i : Nat) (w : Waiter) : (s.setWaiter i w).ada = s.ada := rfl
@[simp] theorem State.setWaiter_fnu (i : Nat) (w : Waiter) : (s.setWaiter i w).fnu = s.fnu := rfl

/-! `setQueue` -/
@[simp] theorem State.setQueue_pending (p : Nat) (c : Cls) (l : List Nat) : (s.setQueue p c l).pending = s.pending := rfl
@[simp] theorem State.setQueue_resetLow (p : Nat) (c : Cls) (l : List Nat) : (s.setQueue p c l).resetLow = s.resetLow := rfl
@[simp] theorem State.setQueue_damage (p : Nat) (c : Cls) (l : List Nat) : (s.setQueue p c l).damage = s.damage := rfl
@[simp] theorem State.setQueue_lnk (p : Nat) (c : Cls) (l : List Nat) : (s.setQueue p c l).lnk = s.lnk := rfl
@[simp] theorem State.setQueue_exu (p : Nat) (c : Cls) (l : List Nat) : (s.setQueue p c l).exu = s.exu := rfl
@[simp] theorem State.setQueue_tbs (p : Nat) (c : Cls) (l : List Nat) : (s.setQueue p c l).tbs = s.tbs := rfl
@[simp] theorem State.setQueue_adm (p : Nat) (c : Cls) (l : List Nat) : (s.setQueue p c l).adm = s.adm := rfl
@[simp] theorem State.setQueue_grt (p : Nat) (c : Cls) (l : List Nat) : (s.setQueue p c l).grt = s.grt := rfl
@[simp] theorem State.setQueue_clt (p : Nat) (c : Cls) (l : List Nat) : (s.setQueue p c l).clt = s.clt := rfl
@[simp] theorem State.setQueue_swp (p : Nat) (c : Cls) (l : List Nat) : (s.setQueue p c l).swp = s.swp := rfl
@[simp] theorem State.setQueue_ada (p : Nat) (c : Cls) (l : List Nat) : (s.setQueue p c l).ada = s.ada := rfl
@[simp] theorem State.setQueue_fnu (p : Nat) (c : Cls) (l : List Nat) : (s.setQueue p c l).fnu = s.fnu := rfl

/-! `setClient` -/
@[simp] theorem State.setClient_pending (i : Nat) (c : Client) : (s.setClient i c).pending = s.pending := rfl
@[simp] theorem State.setClient_resetLow (i : Nat) (c : Client) : (s.setClient i c).resetLow = s.resetLow := rfl
@[simp] theorem State.setClient_damage (i : Nat) (c : Client) : (s.setClient i c).damage = s.damage := rfl
@[simp] theorem State.setClient_lnk (i : Nat) (c : Client) : (s.setClient i c).lnk = s.lnk := rfl
@[simp] theorem State.setClient_exu (i : Nat) (c : Client) : (s.setClient i c).exu = s.exu := rfl
@[simp] theorem State.setClient_tbs (i : Nat) (c : Client) : (s.setClient i c).tbs = s.tbs := rfl
@[simp] theorem State.setClient_adm (i : Nat) (c : Client) : (s.setClient i c).adm = s.adm := rfl
@[simp] theorem State.setClient_grt (i : Nat) (c : Client) : (s.setClient i c).grt = s.grt := rfl
@[simp] theorem State.setClient_wts (i : Nat) (c : Client) : (s.setClient i c).wts = s.wts := rfl
@[simp] theorem State.setClient_swp (i : Nat) (c : Client) : (s.setClient i c).swp = s.swp := rfl
@[simp] theorem State.setClient_ada (i : Nat) (c : Client) : (s.setClient i c).ada = s.ada := rfl
@[simp] theorem State.setClient_fnu (i : Nat) (c : Client) : (s.setClient i c).fnu = s.fnu := rfl

/-! `setPort` -/
@[simp] theorem State.setPort_pending (p : Port) (ps : PortState) : (s.setPort p ps).pending = s.pending := by cases p <;> rfl
@[simp] theorem State.setPort_resetLow (p : Port) (ps : PortState) : (s.setPort p ps).resetLow = s.resetLow := by cases p <;> rfl
@[simp] theorem State.setPort_damage (p : Port) (ps : PortState) : (s.setPort p ps).damage = s.damage := by cases p <;> rfl
@[simp] theorem State.setPort_exu (p : Port) (ps : PortState) : (s.setPort p ps).exu = s.exu := by cases p <;> rfl
@[simp] theorem State.setPort_tbs (p : Port) (ps : PortState) : (s.setPort p ps).tbs = s.tbs := by cases p <;> rfl
@[simp] theorem State.setPort_adm (p : Port) (ps : PortState) : (s.setPort p ps).adm = s.adm := by cases p <;> rfl
@[simp] theorem State.setPort_grt (p : Port) (ps : PortState) : (s.setPort p ps).grt = s.grt := by cases p <;> rfl
@[simp] theorem State.setPort_wts (p : Port) (ps : PortState) : (s.setPort p ps).wts = s.wts := by cases p <;> rfl
@[simp] theorem State.setPort_clt (p : Port) (ps : PortState) : (s.setPort p ps).clt = s.clt := by cases p <;> rfl
@[simp] theorem State.setPort_swp (p : Port) (ps : PortState) : (s.setPort p ps).swp = s.swp := by cases p <;> rfl
@[simp] theorem State.setPort_ada (p : Port) (ps : PortState) : (s.setPort p ps).ada = s.ada := by cases p <;> rfl
@[simp] theorem State.setPort_fnu (p : Port) (ps : PortState) : (s.setPort p ps).fnu = s.fnu := by cases p <;> rfl

/-! `setBank` -/
@[simp] theorem State.setBank_pending (b : BankId) (k : Bank) : (s.setBank b k).pending = s.pending := by cases b <;> rfl
@[simp] theorem State.setBank_resetLow (b : BankId) (k : Bank) : (s.setBank b k).resetLow = s.resetLow := by cases b <;> rfl
@[simp] theorem State.setBank_damage (b : BankId) (k : Bank) : (s.setBank b k).damage = s.damage := by cases b <;> rfl
@[simp] theorem State.setBank_lnk (b : BankId) (k : Bank) : (s.setBank b k).lnk = s.lnk := by cases b <;> rfl
@[simp] theorem State.setBank_exu (b : BankId) (k : Bank) : (s.setBank b k).exu = s.exu := by cases b <;> rfl
@[simp] theorem State.setBank_adm (b : BankId) (k : Bank) : (s.setBank b k).adm = s.adm := by cases b <;> rfl
@[simp] theorem State.setBank_grt (b : BankId) (k : Bank) : (s.setBank b k).grt = s.grt := by cases b <;> rfl
@[simp] theorem State.setBank_wts (b : BankId) (k : Bank) : (s.setBank b k).wts = s.wts := by cases b <;> rfl
@[simp] theorem State.setBank_clt (b : BankId) (k : Bank) : (s.setBank b k).clt = s.clt := by cases b <;> rfl
@[simp] theorem State.setBank_swp (b : BankId) (k : Bank) : (s.setBank b k).swp = s.swp := by cases b <;> rfl
@[simp] theorem State.setBank_ada (b : BankId) (k : Bank) : (s.setBank b k).ada = s.ada := by cases b <;> rfl
@[simp] theorem State.setBank_fnu (b : BankId) (k : Bank) : (s.setBank b k).fnu = s.fnu := by cases b <;> rfl

/-! `setDiffers` -/
@[simp] theorem State.setDiffers_pending (i : Nat) (d : Bool) : (s.setDiffers i d).pending = s.pending := rfl
@[simp] theorem State.setDiffers_resetLow (i : Nat) (d : Bool) : (s.setDiffers i d).resetLow = s.resetLow := rfl
@[simp] theorem State.setDiffers_damage (i : Nat) (d : Bool) : (s.setDiffers i d).damage = s.damage := rfl
@[simp] theorem State.setDiffers_lnk (i : Nat) (d : Bool) : (s.setDiffers i d).lnk = s.lnk := rfl
@[simp] theorem State.setDiffers_exu (i : Nat) (d : Bool) : (s.setDiffers i d).exu = s.exu := rfl
@[simp] theorem State.setDiffers_adm (i : Nat) (d : Bool) : (s.setDiffers i d).adm = s.adm := rfl
@[simp] theorem State.setDiffers_grt (i : Nat) (d : Bool) : (s.setDiffers i d).grt = s.grt := rfl
@[simp] theorem State.setDiffers_wts (i : Nat) (d : Bool) : (s.setDiffers i d).wts = s.wts := rfl
@[simp] theorem State.setDiffers_clt (i : Nat) (d : Bool) : (s.setDiffers i d).clt = s.clt := rfl
@[simp] theorem State.setDiffers_swp (i : Nat) (d : Bool) : (s.setDiffers i d).swp = s.swp := rfl
@[simp] theorem State.setDiffers_ada (i : Nat) (d : Bool) : (s.setDiffers i d).ada = s.ada := rfl
@[simp] theorem State.setDiffers_fnu (i : Nat) (d : Bool) : (s.setDiffers i d).fnu = s.fnu := rfl

/-! `setSuspect` -/
@[simp] theorem State.setSuspect_pending : (s.setSuspect).pending = s.pending := rfl
@[simp] theorem State.setSuspect_resetLow : (s.setSuspect).resetLow = s.resetLow := rfl
@[simp] theorem State.setSuspect_damage : (s.setSuspect).damage = s.damage := rfl
@[simp] theorem State.setSuspect_lnk : (s.setSuspect).lnk = s.lnk := rfl
@[simp] theorem State.setSuspect_exu : (s.setSuspect).exu = s.exu := rfl
@[simp] theorem State.setSuspect_tbs : (s.setSuspect).tbs = s.tbs := rfl
@[simp] theorem State.setSuspect_adm : (s.setSuspect).adm = s.adm := rfl
@[simp] theorem State.setSuspect_wts : (s.setSuspect).wts = s.wts := rfl
@[simp] theorem State.setSuspect_clt : (s.setSuspect).clt = s.clt := rfl
@[simp] theorem State.setSuspect_swp : (s.setSuspect).swp = s.swp := rfl
@[simp] theorem State.setSuspect_ada : (s.setSuspect).ada = s.ada := rfl
@[simp] theorem State.setSuspect_fnu : (s.setSuspect).fnu = s.fnu := rfl

/-! `countGranted` -/
@[simp] theorem State.countGranted_pending : (s.countGranted).pending = s.pending := rfl
@[simp] theorem State.countGranted_resetLow : (s.countGranted).resetLow = s.resetLow := rfl
@[simp] theorem State.countGranted_damage : (s.countGranted).damage = s.damage := rfl
@[simp] theorem State.countGranted_lnk : (s.countGranted).lnk = s.lnk := rfl
@[simp] theorem State.countGranted_exu : (s.countGranted).exu = s.exu := rfl
@[simp] theorem State.countGranted_tbs : (s.countGranted).tbs = s.tbs := rfl
@[simp] theorem State.countGranted_adm : (s.countGranted).adm = s.adm := rfl
@[simp] theorem State.countGranted_grt : (s.countGranted).grt = s.grt := rfl
@[simp] theorem State.countGranted_wts : (s.countGranted).wts = s.wts := rfl
@[simp] theorem State.countGranted_clt : (s.countGranted).clt = s.clt := rfl
@[simp] theorem State.countGranted_swp : (s.countGranted).swp = s.swp := rfl
@[simp] theorem State.countGranted_fnu : (s.countGranted).fnu = s.fnu := rfl

/-! `countDenied` -/
@[simp] theorem State.countDenied_pending : (s.countDenied).pending = s.pending := rfl
@[simp] theorem State.countDenied_resetLow : (s.countDenied).resetLow = s.resetLow := rfl
@[simp] theorem State.countDenied_damage : (s.countDenied).damage = s.damage := rfl
@[simp] theorem State.countDenied_lnk : (s.countDenied).lnk = s.lnk := rfl
@[simp] theorem State.countDenied_exu : (s.countDenied).exu = s.exu := rfl
@[simp] theorem State.countDenied_tbs : (s.countDenied).tbs = s.tbs := rfl
@[simp] theorem State.countDenied_adm : (s.countDenied).adm = s.adm := rfl
@[simp] theorem State.countDenied_grt : (s.countDenied).grt = s.grt := rfl
@[simp] theorem State.countDenied_wts : (s.countDenied).wts = s.wts := rfl
@[simp] theorem State.countDenied_clt : (s.countDenied).clt = s.clt := rfl
@[simp] theorem State.countDenied_swp : (s.countDenied).swp = s.swp := rfl
@[simp] theorem State.countDenied_fnu : (s.countDenied).fnu = s.fnu := rfl

/-! `countDeferred` -/
@[simp] theorem State.countDeferred_pending : (s.countDeferred).pending = s.pending := rfl
@[simp] theorem State.countDeferred_resetLow : (s.countDeferred).resetLow = s.resetLow := rfl
@[simp] theorem State.countDeferred_damage : (s.countDeferred).damage = s.damage := rfl
@[simp] theorem State.countDeferred_lnk : (s.countDeferred).lnk = s.lnk := rfl
@[simp] theorem State.countDeferred_exu : (s.countDeferred).exu = s.exu := rfl
@[simp] theorem State.countDeferred_tbs : (s.countDeferred).tbs = s.tbs := rfl
@[simp] theorem State.countDeferred_adm : (s.countDeferred).adm = s.adm := rfl
@[simp] theorem State.countDeferred_grt : (s.countDeferred).grt = s.grt := rfl
@[simp] theorem State.countDeferred_wts : (s.countDeferred).wts = s.wts := rfl
@[simp] theorem State.countDeferred_clt : (s.countDeferred).clt = s.clt := rfl
@[simp] theorem State.countDeferred_swp : (s.countDeferred).swp = s.swp := rfl
@[simp] theorem State.countDeferred_fnu : (s.countDeferred).fnu = s.fnu := rfl

/-! `countForwarded` -/
@[simp] theorem State.countForwarded_pending : (s.countForwarded).pending = s.pending := rfl
@[simp] theorem State.countForwarded_resetLow : (s.countForwarded).resetLow = s.resetLow := rfl
@[simp] theorem State.countForwarded_damage : (s.countForwarded).damage = s.damage := rfl
@[simp] theorem State.countForwarded_lnk : (s.countForwarded).lnk = s.lnk := rfl
@[simp] theorem State.countForwarded_exu : (s.countForwarded).exu = s.exu := rfl
@[simp] theorem State.countForwarded_tbs : (s.countForwarded).tbs = s.tbs := rfl
@[simp] theorem State.countForwarded_adm : (s.countForwarded).adm = s.adm := rfl
@[simp] theorem State.countForwarded_grt : (s.countForwarded).grt = s.grt := rfl
@[simp] theorem State.countForwarded_wts : (s.countForwarded).wts = s.wts := rfl
@[simp] theorem State.countForwarded_clt : (s.countForwarded).clt = s.clt := rfl
@[simp] theorem State.countForwarded_swp : (s.countForwarded).swp = s.swp := rfl
@[simp] theorem State.countForwarded_fnu : (s.countForwarded).fnu = s.fnu := rfl

/-! `countReclaimed` -/
@[simp] theorem State.countReclaimed_pending : (s.countReclaimed).pending = s.pending := rfl
@[simp] theorem State.countReclaimed_resetLow : (s.countReclaimed).resetLow = s.resetLow := rfl
@[simp] theorem State.countReclaimed_damage : (s.countReclaimed).damage = s.damage := rfl
@[simp] theorem State.countReclaimed_lnk : (s.countReclaimed).lnk = s.lnk := rfl
@[simp] theorem State.countReclaimed_exu : (s.countReclaimed).exu = s.exu := rfl
@[simp] theorem State.countReclaimed_tbs : (s.countReclaimed).tbs = s.tbs := rfl
@[simp] theorem State.countReclaimed_adm : (s.countReclaimed).adm = s.adm := rfl
@[simp] theorem State.countReclaimed_grt : (s.countReclaimed).grt = s.grt := rfl
@[simp] theorem State.countReclaimed_wts : (s.countReclaimed).wts = s.wts := rfl
@[simp] theorem State.countReclaimed_clt : (s.countReclaimed).clt = s.clt := rfl
@[simp] theorem State.countReclaimed_swp : (s.countReclaimed).swp = s.swp := rfl
@[simp] theorem State.countReclaimed_fnu : (s.countReclaimed).fnu = s.fnu := rfl

/-! `countDropped` -/
@[simp] theorem State.countDropped_pending : (s.countDropped).pending = s.pending := rfl
@[simp] theorem State.countDropped_resetLow : (s.countDropped).resetLow = s.resetLow := rfl
@[simp] theorem State.countDropped_damage : (s.countDropped).damage = s.damage := rfl
@[simp] theorem State.countDropped_lnk : (s.countDropped).lnk = s.lnk := rfl
@[simp] theorem State.countDropped_exu : (s.countDropped).exu = s.exu := rfl
@[simp] theorem State.countDropped_tbs : (s.countDropped).tbs = s.tbs := rfl
@[simp] theorem State.countDropped_adm : (s.countDropped).adm = s.adm := rfl
@[simp] theorem State.countDropped_grt : (s.countDropped).grt = s.grt := rfl
@[simp] theorem State.countDropped_wts : (s.countDropped).wts = s.wts := rfl
@[simp] theorem State.countDropped_clt : (s.countDropped).clt = s.clt := rfl
@[simp] theorem State.countDropped_swp : (s.countDropped).swp = s.swp := rfl
@[simp] theorem State.countDropped_fnu : (s.countDropped).fnu = s.fnu := rfl

/-! `appendNotice` -/
@[simp] theorem State.appendNotice_pending (b : NoticeBody) : (s.appendNotice b).pending = s.pending := rfl
@[simp] theorem State.appendNotice_resetLow (b : NoticeBody) : (s.appendNotice b).resetLow = s.resetLow := rfl
@[simp] theorem State.appendNotice_damage (b : NoticeBody) : (s.appendNotice b).damage = s.damage := rfl
@[simp] theorem State.appendNotice_lnk (b : NoticeBody) : (s.appendNotice b).lnk = s.lnk := rfl
@[simp] theorem State.appendNotice_exu (b : NoticeBody) : (s.appendNotice b).exu = s.exu := rfl
@[simp] theorem State.appendNotice_tbs (b : NoticeBody) : (s.appendNotice b).tbs = s.tbs := rfl
@[simp] theorem State.appendNotice_adm (b : NoticeBody) : (s.appendNotice b).adm = s.adm := rfl
@[simp] theorem State.appendNotice_grt (b : NoticeBody) : (s.appendNotice b).grt = s.grt := rfl
@[simp] theorem State.appendNotice_wts (b : NoticeBody) : (s.appendNotice b).wts = s.wts := rfl
@[simp] theorem State.appendNotice_clt (b : NoticeBody) : (s.appendNotice b).clt = s.clt := rfl
@[simp] theorem State.appendNotice_swp (b : NoticeBody) : (s.appendNotice b).swp = s.swp := rfl
@[simp] theorem State.appendNotice_ada (b : NoticeBody) : (s.appendNotice b).ada = s.ada := rfl

/-! `noteNeighbour` -/
@[simp] theorem State.noteNeighbour_pending (n : Nat) (d : Cand) : (s.noteNeighbour n d).pending = s.pending := rfl
@[simp] theorem State.noteNeighbour_resetLow (n : Nat) (d : Cand) : (s.noteNeighbour n d).resetLow = s.resetLow := rfl
@[simp] theorem State.noteNeighbour_damage (n : Nat) (d : Cand) : (s.noteNeighbour n d).damage = s.damage := rfl
@[simp] theorem State.noteNeighbour_exu (n : Nat) (d : Cand) : (s.noteNeighbour n d).exu = s.exu := rfl
@[simp] theorem State.noteNeighbour_tbs (n : Nat) (d : Cand) : (s.noteNeighbour n d).tbs = s.tbs := rfl
@[simp] theorem State.noteNeighbour_adm (n : Nat) (d : Cand) : (s.noteNeighbour n d).adm = s.adm := rfl
@[simp] theorem State.noteNeighbour_grt (n : Nat) (d : Cand) : (s.noteNeighbour n d).grt = s.grt := rfl
@[simp] theorem State.noteNeighbour_wts (n : Nat) (d : Cand) : (s.noteNeighbour n d).wts = s.wts := rfl
@[simp] theorem State.noteNeighbour_clt (n : Nat) (d : Cand) : (s.noteNeighbour n d).clt = s.clt := rfl
@[simp] theorem State.noteNeighbour_swp (n : Nat) (d : Cand) : (s.noteNeighbour n d).swp = s.swp := rfl
@[simp] theorem State.noteNeighbour_ada (n : Nat) (d : Cand) : (s.noteNeighbour n d).ada = s.ada := rfl
@[simp] theorem State.noteNeighbour_fnu (n : Nat) (d : Cand) : (s.noteNeighbour n d).fnu = s.fnu := rfl

/-! `leaveIdle` -/
@[simp] theorem State.leaveIdle_pending (i : Nat) : (s.leaveIdle i).pending = s.pending := rfl
@[simp] theorem State.leaveIdle_resetLow (i : Nat) : (s.leaveIdle i).resetLow = s.resetLow := rfl
@[simp] theorem State.leaveIdle_damage (i : Nat) : (s.leaveIdle i).damage = s.damage := rfl
@[simp] theorem State.leaveIdle_lnk (i : Nat) : (s.leaveIdle i).lnk = s.lnk := rfl
@[simp] theorem State.leaveIdle_exu (i : Nat) : (s.leaveIdle i).exu = s.exu := rfl
@[simp] theorem State.leaveIdle_tbs (i : Nat) : (s.leaveIdle i).tbs = s.tbs := rfl
@[simp] theorem State.leaveIdle_adm (i : Nat) : (s.leaveIdle i).adm = s.adm := rfl
@[simp] theorem State.leaveIdle_grt (i : Nat) : (s.leaveIdle i).grt = s.grt := rfl
@[simp] theorem State.leaveIdle_wts (i : Nat) : (s.leaveIdle i).wts = s.wts := rfl
@[simp] theorem State.leaveIdle_swp (i : Nat) : (s.leaveIdle i).swp = s.swp := rfl
@[simp] theorem State.leaveIdle_ada (i : Nat) : (s.leaveIdle i).ada = s.ada := rfl
@[simp] theorem State.leaveIdle_fnu (i : Nat) : (s.leaveIdle i).fnu = s.fnu := rfl

/-! `flipPointer` -/
@[simp] theorem State.flipPointer_pending : (s.flipPointer).pending = s.pending := rfl
@[simp] theorem State.flipPointer_resetLow : (s.flipPointer).resetLow = s.resetLow := rfl
@[simp] theorem State.flipPointer_damage : (s.flipPointer).damage = s.damage := rfl
@[simp] theorem State.flipPointer_lnk : (s.flipPointer).lnk = s.lnk := rfl
@[simp] theorem State.flipPointer_exu : (s.flipPointer).exu = s.exu := rfl
@[simp] theorem State.flipPointer_adm : (s.flipPointer).adm = s.adm := rfl
@[simp] theorem State.flipPointer_grt : (s.flipPointer).grt = s.grt := rfl
@[simp] theorem State.flipPointer_wts : (s.flipPointer).wts = s.wts := rfl
@[simp] theorem State.flipPointer_clt : (s.flipPointer).clt = s.clt := rfl
@[simp] theorem State.flipPointer_swp : (s.flipPointer).swp = s.swp := rfl
@[simp] theorem State.flipPointer_ada : (s.flipPointer).ada = s.ada := rfl
@[simp] theorem State.flipPointer_fnu : (s.flipPointer).fnu = s.fnu := rfl

/-! `takeSlot` -/
@[simp] theorem State.takeSlot_pending (x : AdmCtx) (op : LongOp) : (s.takeSlot x op).pending = s.pending := rfl
@[simp] theorem State.takeSlot_resetLow (x : AdmCtx) (op : LongOp) : (s.takeSlot x op).resetLow = s.resetLow := rfl
@[simp] theorem State.takeSlot_damage (x : AdmCtx) (op : LongOp) : (s.takeSlot x op).damage = s.damage := rfl
@[simp] theorem State.takeSlot_lnk (x : AdmCtx) (op : LongOp) : (s.takeSlot x op).lnk = s.lnk := rfl
@[simp] theorem State.takeSlot_exu (x : AdmCtx) (op : LongOp) : (s.takeSlot x op).exu = s.exu := rfl
@[simp] theorem State.takeSlot_tbs (x : AdmCtx) (op : LongOp) : (s.takeSlot x op).tbs = s.tbs := rfl
@[simp] theorem State.takeSlot_adm (x : AdmCtx) (op : LongOp) : (s.takeSlot x op).adm = s.adm := rfl
@[simp] theorem State.takeSlot_grt (x : AdmCtx) (op : LongOp) : (s.takeSlot x op).grt = s.grt := rfl
@[simp] theorem State.takeSlot_wts (x : AdmCtx) (op : LongOp) : (s.takeSlot x op).wts = s.wts := rfl
@[simp] theorem State.takeSlot_clt (x : AdmCtx) (op : LongOp) : (s.takeSlot x op).clt = s.clt := rfl
@[simp] theorem State.takeSlot_swp (x : AdmCtx) (op : LongOp) : (s.takeSlot x op).swp = s.swp := rfl
@[simp] theorem State.takeSlot_fnu (x : AdmCtx) (op : LongOp) : (s.takeSlot x op).fnu = s.fnu := rfl

/-! `heal` -/
@[simp] theorem State.heal_pending (w : MemWord) : (s.heal w).pending = s.pending := rfl
@[simp] theorem State.heal_resetLow (w : MemWord) : (s.heal w).resetLow = s.resetLow := rfl
@[simp] theorem State.heal_lnk (w : MemWord) : (s.heal w).lnk = s.lnk := rfl
@[simp] theorem State.heal_exu (w : MemWord) : (s.heal w).exu = s.exu := rfl
@[simp] theorem State.heal_tbs (w : MemWord) : (s.heal w).tbs = s.tbs := rfl
@[simp] theorem State.heal_adm (w : MemWord) : (s.heal w).adm = s.adm := rfl
@[simp] theorem State.heal_grt (w : MemWord) : (s.heal w).grt = s.grt := rfl
@[simp] theorem State.heal_wts (w : MemWord) : (s.heal w).wts = s.wts := rfl
@[simp] theorem State.heal_clt (w : MemWord) : (s.heal w).clt = s.clt := rfl
@[simp] theorem State.heal_swp (w : MemWord) : (s.heal w).swp = s.swp := rfl
@[simp] theorem State.heal_ada (w : MemWord) : (s.heal w).ada = s.ada := rfl
@[simp] theorem State.heal_fnu (w : MemWord) : (s.heal w).fnu = s.fnu := rfl

/-! `strike` -/
@[simp] theorem State.strike_pending (h : List Hit) : (s.strike h).pending = s.pending := rfl
@[simp] theorem State.strike_resetLow (h : List Hit) : (s.strike h).resetLow = s.resetLow := rfl
@[simp] theorem State.strike_lnk (h : List Hit) : (s.strike h).lnk = s.lnk := rfl
@[simp] theorem State.strike_exu (h : List Hit) : (s.strike h).exu = s.exu := rfl
@[simp] theorem State.strike_tbs (h : List Hit) : (s.strike h).tbs = s.tbs := rfl
@[simp] theorem State.strike_adm (h : List Hit) : (s.strike h).adm = s.adm := rfl
@[simp] theorem State.strike_grt (h : List Hit) : (s.strike h).grt = s.grt := rfl
@[simp] theorem State.strike_wts (h : List Hit) : (s.strike h).wts = s.wts := rfl
@[simp] theorem State.strike_clt (h : List Hit) : (s.strike h).clt = s.clt := rfl
@[simp] theorem State.strike_swp (h : List Hit) : (s.strike h).swp = s.swp := rfl
@[simp] theorem State.strike_ada (h : List Hit) : (s.strike h).ada = s.ada := rfl
@[simp] theorem State.strike_fnu (h : List Hit) : (s.strike h).fnu = s.fnu := rfl
/-! Views read back -/
@[simp] theorem State.slot_setSlot (i j : Nat) (g : Slot) : (s.setSlot i g).slot j = if j = i then g else s.slot j :=
  Tab.get_put _ _ _ _ _
@[simp] theorem State.lingerList_setLinger (p q : Nat) (l : List Nat) :
    (s.setLinger p l).lingerList q = if q = p then l else s.lingerList q := Tab.get_put _ _ _ _ _
@[simp] theorem State.poolLive_setPoolLive (p q : Nat) (l : PoolLive) :
    (s.setPoolLive p l).poolLive q = if q = p then l else s.poolLive q := Tab.get_put _ _ _ _ _
@[simp] theorem State.featLive_setFeatLive (i j : Nat) (l : FeatLive) :
    (s.setFeatLive i l).featLive j = if j = i then l else s.featLive j := Tab.get_put _ _ _ _ _
@[simp] theorem State.waiter_setWaiter (i j : Nat) (w : Waiter) :
    (s.setWaiter i w).waiter j = if j = i then w else s.waiter j := Tab.get_put _ _ _ _ _
@[simp] theorem State.client_setClient (i j : Nat) (c : Client) :
    (s.setClient i c).client j = if j = i then c else s.client j := Tab.get_put _ _ _ _ _
@[simp] theorem State.queues_setQueue (p q : Nat) (c : Cls) (l : List Nat) :
    (s.setQueue p c l).queues q = if q = p then (s.queues p).with c l else s.queues q := Tab.get_put _ _ _ _ _

/-! A view depends on its own store only -/
theorem State.slot_congr {s t : State} (h : t.grt.slots = s.grt.slots) (i : Nat) : t.slot i = s.slot i := by
  simp only [State.slot, h]
theorem State.poolLive_congr {s t : State} (h : t.adm.pools = s.adm.pools) (p : Nat) : t.poolLive p = s.poolLive p := by
  simp only [State.poolLive, h]
theorem State.featLive_congr {s t : State} (h : t.adm.features = s.adm.features) (i : Nat) : t.featLive i = s.featLive i := by
  simp only [State.featLive, h]
theorem State.waiter_congr {s t : State} (h : t.wts.waiters = s.wts.waiters) (i : Nat) : t.waiter i = s.waiter i := by
  simp only [State.waiter, h]
theorem State.queues_congr {s t : State} (h : t.wts.queues = s.wts.queues) (p : Nat) : t.queues p = s.queues p := by
  simp only [State.queues, h]
theorem State.client_congr {s t : State} (h : t.clt.clients = s.clt.clients) (i : Nat) : t.client i = s.client i := by
  simp only [State.client, h]
theorem State.activeBank_congr {s t : State} (h : t.tbs = s.tbs) : t.activeBank = s.activeBank := by
  cases hb : s.tbs.active <;> simp [State.activeBank, State.bank, h, hb]
theorem State.standbyBank_congr {s t : State} (h : t.tbs = s.tbs) : t.standbyBank = s.standbyBank := by
  cases hb : s.tbs.active <;> simp [State.standbyBank, State.standby, State.bank, BankId.other, h, hb]

end Sys2Proof.Machine
end

