-- ==== Sys2Proof/Laws/Ops.lean ====
section
/-!
SUPPORT. Laws/Ops.lean: one lemma for each shared operation, saying what it does when the memories hold no error, and how the
checked reads answer when they do.
-/
namespace Sys2Proof.Machine

/-! ### The operations of the `Op` monad -/

theorem Op.bind_ok {α β : Type} {m : Op α} {f : α → Op β} {s s' : State} {a : α} (h : m s = .ok a s') : (m >>= f) s = f a s' := by
  show EStateM.bind m f s = _
  simp [EStateM.bind, h]

theorem Op.bind_error {α β : Type} {m : Op α} {f : α → Op β} {s s' : State} {e : Stop} (h : m s = .error e s') :
    (m >>= f) s = .error e s' := by
  show EStateM.bind m f s = _
  simp [EStateM.bind, h]

@[simp] theorem Op.pure_apply {α : Type} (a : α) (s : State) : (pure a : Op α) s = .ok a s := rfl
@[simp] theorem Op.get_apply (s : State) : (get : Op State) s = .ok s s := rfl
@[simp] theorem Op.set_apply (t s : State) : (set t : Op Unit) s = .ok ⟨⟩ t := rfl
@[simp] theorem Op.modify_apply (f : State → State) (s : State) : (modify f : Op Unit) s = .ok ⟨⟩ (f s) := rfl

@[simp] theorem Op.get_bind {β : Type} (f : State → Op β) (s : State) : ((get : Op State) >>= f) s = f s s := rfl
@[simp] theorem Op.set_bind {β : Type} (t : State) (f : PUnit → Op β) (s : State) : ((set t : Op PUnit) >>= f) s = f ⟨⟩ t := rfl
@[simp] theorem Op.modify_bind {β : Type} (g : State → State) (f : PUnit → Op β) (s : State) :
    ((modify g : Op PUnit) >>= f) s = f ⟨⟩ (g s) := rfl

theorem settle_ok {m : Op Unit} {s s' : State} (h : m s = .ok () s') : settle m s = s' := by simp [settle, h]
theorem settle_error {m : Op Unit} {s s' : State} {e : Stop} (h : m s = .error e s') : settle m s = s' := by simp [settle, h]

/-! ### Checked reads -/

@[simp] theorem State.strike_nil (s : State) : s.strike [] = s := rfl

theorem State.damageAt_clean {s : State} (h : s.damage = []) (w : MemWord) : s.damageAt w = none := by simp [State.damageAt, h]

theorem State.heal_clean {s : State} (h : s.damage = []) (w : MemWord) : s.heal w = s := by
  cases s; simp_all [State.heal]

theorem check_sound {w : MemWord} {s : State} (h : s.damageAt w = none) : check w s = .ok () s := by simp [check, checkOr, h]

theorem check_clean {s : State} (h : s.damage = []) (w : MemWord) : check w s = .ok () s := check_sound (s.damageAt_clean h w)

theorem check_bind_clean {β : Type} {s : State} (h : s.damage = []) (w : MemWord) (f : Unit → Op β) :
    (check w >>= f) s = f () s := Op.bind_ok (check_clean h w)

theorem checkAll_clean {s : State} (h : s.damage = []) (ws : List MemWord) : checkAll ws s = .ok () s := by
  induction ws with
  | nil => rfl
  | cons w ws ih => rw [checkAll, check_bind_clean h, ih]

theorem checkAll_bind_clean {β : Type} {s : State} (h : s.damage = []) (ws : List MemWord) (f : Unit → Op β) :
    (checkAll ws >>= f) s = f () s := Op.bind_ok (checkAll_clean h ws)

theorem checkActive_clean {s : State} (h : s.damage = []) (k : TableKind) (i : Nat) : checkActive k i s = .ok () s := by
  rw [checkActive, Op.get_bind, check_clean h]

theorem checkActive_bind_clean {β : Type} {s : State} (h : s.damage = []) (k : TableKind) (i : Nat) (f : Unit → Op β) :
    (checkActive k i >>= f) s = f () s := Op.bind_ok (checkActive_clean h k i)

theorem readSlot_clean {s : State} (h : s.damage = []) (i : Nat) : readSlot i s = .ok (s.slot i) s := by
  rw [readSlot, check_bind_clean h, check_bind_clean h, Op.get_bind, Op.pure_apply]

theorem readSlot_bind_clean {β : Type} {s : State} (h : s.damage = []) (i : Nat) (f : Slot → Op β) :
    (readSlot i >>= f) s = f (s.slot i) s := Op.bind_ok (readSlot_clean h i)

/-! ### Release, pressure, recall, removal -/

/-- Release of a live slot, no word damaged. -/
theorem release_live {s : State} (h : s.damage = []) {i : Nat} (hl : (s.slot i).state.live = true) :
    release i s = .ok (some (s.releasedOf i)) (s.releaseSlot i) := by
  rw [release, readSlot_bind_clean h, if_pos hl, Op.get_bind, checkAll_bind_clean h, Op.get_bind, Op.set_bind, Op.pure_apply]

/-- Release of a slot that is not live does nothing. -/
theorem release_dead {s : State} (h : s.damage = []) {i : Nat} (hl : (s.slot i).state.live = false) :
    release i s = .ok none s := by
  rw [release, readSlot_bind_clean h, if_neg (by simp [hl]), Op.pure_apply]

/-- A pressure check whose tests do not hold changes nothing. -/
theorem pressure_stands {s : State} (h : s.damage = []) {p : Nat} {leave : Bool} (hp : s.PressureStands p leave) :
    pressure p leave s = .ok () s := by
  rw [pressure, pressureCheck, Op.get_bind]
  by_cases hf : s.ada.service = .faulted
  · rw [if_pos hf, Op.pure_apply]
  · rw [if_neg hf, check_bind_clean h, checkActive_bind_clean h, Op.get_bind]
    rcases hp with hp | ⟨hn, hm⟩ | ⟨hc, hm⟩
    · exact absurd hp hf
    · simp only [hn]
      rw [if_neg (by omega), Op.pure_apply]
    · simp only [hc]
      rw [if_neg, Op.pure_apply]
      intro hx
      simp only [Bool.and_eq_true, decide_eq_true_eq] at hx
      rcases hm hx.1.1 with hq | hq <;> omega

/-- What follows a release when its pressure check stands and Hf did not fall elsewhere: the service run (R43). -/
theorem afterRelease_quiet {s : State} (h : s.damage = []) {r : Released} (hp : s.PressureStands r.pool true)
    (hf : r.lowered = true → (s.startRun r.pool).mappedPool r.feature = none ∨ (s.startRun r.pool).mappedPool r.feature = some r.pool)
    (hd : (s.startRun r.pool).damage = []) : afterRelease r s = .ok () (s.startRun r.pool) := by
  rw [afterRelease, Op.bind_ok (pressure_stands h hp), Op.modify_bind]
  by_cases hl : r.lowered = true
  · rw [if_pos hl, hfFellElsewhere, checkActive_bind_clean hd, Op.get_bind]
    rcases hf hl with hm | hm <;> simp [hm]
  · rw [if_neg hl, Op.pure_apply]

/-- Removal of a waiter, no word damaged (R52). -/
theorem removeWaiter_clean {s : State} (h : s.damage = []) (i : Nat) (r : Reason) (reply : Option Cand) (serve : Bool) :
    removeWaiter i r reply serve s = .ok ()
      (if serve && (s.queue (s.waiter i).pool (s.waiter i).cls).head? == some i
        then (s.dropWaiter i r reply).startRun (s.waiter i).pool else s.dropWaiter i r reply) := by
  rw [removeWaiter, check_bind_clean h, Op.get_bind, checkAll_bind_clean h, Op.get_bind, Op.set_apply]

/-! ### Taking datagrams -/

/-- An accepted command with a good length runs on the state it has been taken from. -/
theorem takeAdmin_head {s : State} {c : AdminCode} {d : Cand} {rest : List Cand} {st : Nat} (h : s.AdminHead c d rest st)
    (run : AdmCtx → Op Unit) :
    takeAdmin c run s =
      match run (adminCtx c d st) (s.adminTaken d rest st) with
      | .ok _ t => t
      | .error _ t => t.adminReply (adminCtx c d st) .refusedState [] := by
  have e : (State.noteNeighbour st d { s with ada.intake := rest }) = s.adminTaken d rest st := rfl
  simp only [takeAdmin, h.head, h.station, h.serving, h.header, h.code, h.length, e, adminCtx]
  simp only [beq_self_eq_true, Bool.and_self, if_true]
  all_goals rfl

/-- A datagram to be served is served. -/
theorem takeClient_served {s : State} {k : CexKind} {d : Cand} {rest : List Cand} (h : s.ServedHead k d rest)
    (serve : Cand → Op Unit) : takeClient k serve s = settle (serve d) (s.clientTaken rest) := by
  simp [takeClient, State.clientTaken, h.head.head, h.head.free, h.head.serving, h.head.kind, h.noReset, h.served, h.formed]

@[simp] theorem awake_high {s : State} (h : s.resetLow = false) (f : State → State) : awake s f = f s := by simp [awake, h]
@[simp] theorem awake_low {s : State} (h : s.resetLow = true) (f : State → State) : awake s f = s := by simp [awake, h]

end Sys2Proof.Machine
end

