-- ==== Sys2Proof/Laws/Effects.lean ====
section
/-!
SUPPORT. Laws/Effects.lean: for each composite effect on the state, the parts of the state it leaves as they are, one lemma a part,
all `@[simp]`, so that no later proof unfolds the effect for a part it does not touch.
-/
namespace Sys2Proof.Machine

variable (s : State)

theorem State.originate_fnu (p : Port) (a : Addressing) (b : List Byte) : (s.originate p none a b).fnu = s.fnu := by
  unfold State.originate; dsimp only; split <;> simp

@[simp] theorem State.noticeLost_pending (k : NoticeKind) : (s.noticeLost k).pending = s.pending := by
  unfold State.noticeLost; dsimp only; repeat (first | rfl | split)
@[simp] theorem State.noticeLost_resetLow (k : NoticeKind) : (s.noticeLost k).resetLow = s.resetLow := by
  unfold State.noticeLost; dsimp only; repeat (first | rfl | split)
@[simp] theorem State.noticeLost_damage (k : NoticeKind) : (s.noticeLost k).damage = s.damage := by
  unfold State.noticeLost; dsimp only; repeat (first | rfl | split)
@[simp] theorem State.noticeLost_lnk (k : NoticeKind) : (s.noticeLost k).lnk = s.lnk := by
  unfold State.noticeLost; dsimp only; repeat (first | rfl | split)
@[simp] theorem State.noticeLost_exu (k : NoticeKind) : (s.noticeLost k).exu = s.exu := by
  unfold State.noticeLost; dsimp only; repeat (first | rfl | split)
@[simp] theorem State.noticeLost_tbs (k : NoticeKind) : (s.noticeLost k).tbs = s.tbs := by
  unfold State.noticeLost; dsimp only; repeat (first | rfl | split)
@[simp] theorem State.noticeLost_adm (k : NoticeKind) : (s.noticeLost k).adm = s.adm := by
  unfold State.noticeLost; dsimp only; repeat (first | rfl | split)
@[simp] theorem State.noticeLost_grt (k : NoticeKind) : (s.noticeLost k).grt = s.grt := by
  unfold State.noticeLost; dsimp only; repeat (first | rfl | split)
@[simp] theorem State.noticeLost_wts (k : NoticeKind) : (s.noticeLost k).wts = s.wts := by
  unfold State.noticeLost; dsimp only; repeat (first | rfl | split)
@[simp] theorem State.noticeLost_clt (k : NoticeKind) : (s.noticeLost k).clt = s.clt := by
  unfold State.noticeLost; dsimp only; repeat (first | rfl | split)
@[simp] theorem State.noticeLost_swp (k : NoticeKind) : (s.noticeLost k).swp = s.swp := by
  unfold State.noticeLost; dsimp only; repeat (first | rfl | split)
@[simp] theorem State.noticeLost_ada (k : NoticeKind) : (s.noticeLost k).ada = s.ada := by
  unfold State.noticeLost; dsimp only; repeat (first | rfl | split)

@[simp] theorem State.queueNotice_pending (b : NoticeBody) : (s.queueNotice b).pending = s.pending := by
  unfold State.queueNotice; split <;> simp
@[simp] theorem State.queueNotice_resetLow (b : NoticeBody) : (s.queueNotice b).resetLow = s.resetLow := by
  unfold State.queueNotice; split <;> simp
@[simp] theorem State.queueNotice_damage (b : NoticeBody) : (s.queueNotice b).damage = s.damage := by
  unfold State.queueNotice; split <;> simp
@[simp] theorem State.queueNotice_lnk (b : NoticeBody) : (s.queueNotice b).lnk = s.lnk := by
  unfold State.queueNotice; split <;> simp
@[simp] theorem State.queueNotice_exu (b : NoticeBody) : (s.queueNotice b).exu = s.exu := by
  unfold State.queueNotice; split <;> simp
@[simp] theorem State.queueNotice_tbs (b : NoticeBody) : (s.queueNotice b).tbs = s.tbs := by
  unfold State.queueNotice; split <;> simp
@[simp] theorem State.queueNotice_adm (b : NoticeBody) : (s.queueNotice b).adm = s.adm := by
  unfold State.queueNotice; split <;> simp
@[simp] theorem State.queueNotice_grt (b : NoticeBody) : (s.queueNotice b).grt = s.grt := by
  unfold State.queueNotice; split <;> simp
@[simp] theorem State.queueNotice_wts (b : NoticeBody) : (s.queueNotice b).wts = s.wts := by
  unfold State.queueNotice; split <;> simp
@[simp] theorem State.queueNotice_clt (b : NoticeBody) : (s.queueNotice b).clt = s.clt := by
  unfold State.queueNotice; split <;> simp
@[simp] theorem State.queueNotice_swp (b : NoticeBody) : (s.queueNotice b).swp = s.swp := by
  unfold State.queueNotice; split <;> simp
@[simp] theorem State.queueNotice_ada (b : NoticeBody) : (s.queueNotice b).ada = s.ada := by
  unfold State.queueNotice; split <;> simp

@[simp] theorem State.softEvent_pending (e : Event) : (s.softEvent e).pending = s.pending := by
  unfold State.softEvent; dsimp only; split <;> simp
@[simp] theorem State.softEvent_resetLow (e : Event) : (s.softEvent e).resetLow = s.resetLow := by
  unfold State.softEvent; dsimp only; split <;> simp
@[simp] theorem State.softEvent_damage (e : Event) : (s.softEvent e).damage = s.damage := by
  unfold State.softEvent; dsimp only; split <;> simp
@[simp] theorem State.softEvent_lnk (e : Event) : (s.softEvent e).lnk = s.lnk := by
  unfold State.softEvent; dsimp only; split <;> simp
@[simp] theorem State.softEvent_exu (e : Event) : (s.softEvent e).exu = s.exu := by
  unfold State.softEvent; dsimp only; split <;> simp
@[simp] theorem State.softEvent_tbs (e : Event) : (s.softEvent e).tbs = s.tbs := by
  unfold State.softEvent; dsimp only; split <;> simp
@[simp] theorem State.softEvent_adm (e : Event) : (s.softEvent e).adm = s.adm := by
  unfold State.softEvent; dsimp only; split <;> simp
@[simp] theorem State.softEvent_grt (e : Event) : (s.softEvent e).grt = s.grt := by
  unfold State.softEvent; dsimp only; split <;> simp
@[simp] theorem State.softEvent_wts (e : Event) : (s.softEvent e).wts = s.wts := by
  unfold State.softEvent; dsimp only; split <;> simp
@[simp] theorem State.softEvent_clt (e : Event) : (s.softEvent e).clt = s.clt := by
  unfold State.softEvent; dsimp only; split <;> simp
@[simp] theorem State.softEvent_swp (e : Event) : (s.softEvent e).swp = s.swp := by
  unfold State.softEvent; dsimp only; split <;> simp
@[simp] theorem State.softEvent_ada (e : Event) : (s.softEvent e).ada = s.ada := by
  unfold State.softEvent; dsimp only; split <;> simp

@[simp] theorem State.hardEvent_pending (e : Event) : (s.hardEvent e).pending = s.pending := by
  unfold State.hardEvent; dsimp only; split <;> simp
@[simp] theorem State.hardEvent_resetLow (e : Event) : (s.hardEvent e).resetLow = s.resetLow := by
  unfold State.hardEvent; dsimp only; split <;> simp
@[simp] theorem State.hardEvent_damage (e : Event) : (s.hardEvent e).damage = s.damage := by
  unfold State.hardEvent; dsimp only; split <;> simp
@[simp] theorem State.hardEvent_lnk (e : Event) : (s.hardEvent e).lnk = s.lnk := by
  unfold State.hardEvent; dsimp only; split <;> simp
@[simp] theorem State.hardEvent_exu (e : Event) : (s.hardEvent e).exu = s.exu := by
  unfold State.hardEvent; dsimp only; split <;> simp
@[simp] theorem State.hardEvent_tbs (e : Event) : (s.hardEvent e).tbs = s.tbs := by
  unfold State.hardEvent; dsimp only; split <;> simp
@[simp] theorem State.hardEvent_adm (e : Event) : (s.hardEvent e).adm = s.adm := by
  unfold State.hardEvent; dsimp only; split <;> simp
@[simp] theorem State.hardEvent_grt (e : Event) : (s.hardEvent e).grt = s.grt := by
  unfold State.hardEvent; dsimp only; split <;> simp
@[simp] theorem State.hardEvent_wts (e : Event) : (s.hardEvent e).wts = s.wts := by
  unfold State.hardEvent; dsimp only; split <;> simp
@[simp] theorem State.hardEvent_clt (e : Event) : (s.hardEvent e).clt = s.clt := by
  unfold State.hardEvent; dsimp only; split <;> simp
@[simp] theorem State.hardEvent_swp (e : Event) : (s.hardEvent e).swp = s.swp := by
  unfold State.hardEvent; dsimp only; split <;> simp
@[simp] theorem State.hardEvent_ada (e : Event) : (s.hardEvent e).ada = s.ada := by
  unfold State.hardEvent; dsimp only; split <;> simp

@[simp] theorem State.enterService_pending (n : Service) : (s.enterService n).pending = s.pending := by
  simp [State.enterService]
@[simp] theorem State.enterService_resetLow (n : Service) : (s.enterService n).resetLow = s.resetLow := by
  simp [State.enterService]
@[simp] theorem State.enterService_damage (n : Service) : (s.enterService n).damage = s.damage := by
  simp [State.enterService]
@[simp] theorem State.enterService_lnk (n : Service) : (s.enterService n).lnk = s.lnk := by
  simp [State.enterService]
@[simp] theorem State.enterService_exu (n : Service) : (s.enterService n).exu = s.exu := by
  simp [State.enterService]
@[simp] theorem State.enterService_tbs (n : Service) : (s.enterService n).tbs = s.tbs := by
  simp [State.enterService]
@[simp] theorem State.enterService_adm (n : Service) : (s.enterService n).adm = s.adm := by
  simp [State.enterService]
@[simp] theorem State.enterService_grt (n : Service) : (s.enterService n).grt = s.grt := by
  simp [State.enterService]
@[simp] theorem State.enterService_wts (n : Service) : (s.enterService n).wts = s.wts := by
  simp [State.enterService]
@[simp] theorem State.enterService_clt (n : Service) : (s.enterService n).clt = s.clt := by
  simp [State.enterService]
@[simp] theorem State.enterService_swp (n : Service) : (s.enterService n).swp = s.swp := by
  simp [State.enterService]

@[simp] theorem State.capacityEvent_pending (st : Store) (c : Cls) (p : Nat) (id : W32) (b : Byte) : (s.capacityEvent st c p id b).pending = s.pending := by
  simp [State.capacityEvent]
@[simp] theorem State.capacityEvent_resetLow (st : Store) (c : Cls) (p : Nat) (id : W32) (b : Byte) : (s.capacityEvent st c p id b).resetLow = s.resetLow := by
  simp [State.capacityEvent]
@[simp] theorem State.capacityEvent_damage (st : Store) (c : Cls) (p : Nat) (id : W32) (b : Byte) : (s.capacityEvent st c p id b).damage = s.damage := by
  simp [State.capacityEvent]
@[simp] theorem State.capacityEvent_lnk (st : Store) (c : Cls) (p : Nat) (id : W32) (b : Byte) : (s.capacityEvent st c p id b).lnk = s.lnk := by
  simp [State.capacityEvent]
@[simp] theorem State.capacityEvent_exu (st : Store) (c : Cls) (p : Nat) (id : W32) (b : Byte) : (s.capacityEvent st c p id b).exu = s.exu := by
  simp [State.capacityEvent]
@[simp] theorem State.capacityEvent_tbs (st : Store) (c : Cls) (p : Nat) (id : W32) (b : Byte) : (s.capacityEvent st c p id b).tbs = s.tbs := by
  simp [State.capacityEvent]
@[simp] theorem State.capacityEvent_adm (st : Store) (c : Cls) (p : Nat) (id : W32) (b : Byte) : (s.capacityEvent st c p id b).adm = s.adm := by
  simp [State.capacityEvent]
@[simp] theorem State.capacityEvent_grt (st : Store) (c : Cls) (p : Nat) (id : W32) (b : Byte) : (s.capacityEvent st c p id b).grt = s.grt := by
  simp [State.capacityEvent]
@[simp] theorem State.capacityEvent_wts (st : Store) (c : Cls) (p : Nat) (id : W32) (b : Byte) : (s.capacityEvent st c p id b).wts = s.wts := by
  simp [State.capacityEvent]
@[simp] theorem State.capacityEvent_clt (st : Store) (c : Cls) (p : Nat) (id : W32) (b : Byte) : (s.capacityEvent st c p id b).clt = s.clt := by
  simp [State.capacityEvent]
@[simp] theorem State.capacityEvent_swp (st : Store) (c : Cls) (p : Nat) (id : W32) (b : Byte) : (s.capacityEvent st c p id b).swp = s.swp := by
  simp [State.capacityEvent]
@[simp] theorem State.capacityEvent_ada (st : Store) (c : Cls) (p : Nat) (id : W32) (b : Byte) : (s.capacityEvent st c p id b).ada = s.ada := by
  simp [State.capacityEvent]

@[simp] theorem State.originate_pending (p : Port) (n : Option NoticeKind) (a : Addressing) (b : List Byte) : (s.originate p n a b).pending = s.pending := by
  unfold State.originate; dsimp only; split
  · simp
  · split <;> simp
@[simp] theorem State.originate_resetLow (p : Port) (n : Option NoticeKind) (a : Addressing) (b : List Byte) : (s.originate p n a b).resetLow = s.resetLow := by
  unfold State.originate; dsimp only; split
  · simp
  · split <;> simp
@[simp] theorem State.originate_damage (p : Port) (n : Option NoticeKind) (a : Addressing) (b : List Byte) : (s.originate p n a b).damage = s.damage := by
  unfold State.originate; dsimp only; split
  · simp
  · split <;> simp
@[simp] theorem State.originate_exu (p : Port) (n : Option NoticeKind) (a : Addressing) (b : List Byte) : (s.originate p n a b).exu = s.exu := by
  unfold State.originate; dsimp only; split
  · simp
  · split <;> simp
@[simp] theorem State.originate_tbs (p : Port) (n : Option NoticeKind) (a : Addressing) (b : List Byte) : (s.originate p n a b).tbs = s.tbs := by
  unfold State.originate; dsimp only; split
  · simp
  · split <;> simp
@[simp] theorem State.originate_adm (p : Port) (n : Option NoticeKind) (a : Addressing) (b : List Byte) : (s.originate p n a b).adm = s.adm := by
  unfold State.originate; dsimp only; split
  · simp
  · split <;> simp
@[simp] theorem State.originate_grt (p : Port) (n : Option NoticeKind) (a : Addressing) (b : List Byte) : (s.originate p n a b).grt = s.grt := by
  unfold State.originate; dsimp only; split
  · simp
  · split <;> simp
@[simp] theorem State.originate_wts (p : Port) (n : Option NoticeKind) (a : Addressing) (b : List Byte) : (s.originate p n a b).wts = s.wts := by
  unfold State.originate; dsimp only; split
  · simp
  · split <;> simp
@[simp] theorem State.originate_clt (p : Port) (n : Option NoticeKind) (a : Addressing) (b : List Byte) : (s.originate p n a b).clt = s.clt := by
  unfold State.originate; dsimp only; split
  · simp
  · split <;> simp
@[simp] theorem State.originate_swp (p : Port) (n : Option NoticeKind) (a : Addressing) (b : List Byte) : (s.originate p n a b).swp = s.swp := by
  unfold State.originate; dsimp only; split
  · simp
  · split <;> simp

@[simp] theorem State.replyTo_pending (d : Cand) (m : CexMsg) : (s.replyTo d m).pending = s.pending := by
  simp [State.replyTo]
@[simp] theorem State.replyTo_resetLow (d : Cand) (m : CexMsg) : (s.replyTo d m).resetLow = s.resetLow := by
  simp [State.replyTo]
@[simp] theorem State.replyTo_damage (d : Cand) (m : CexMsg) : (s.replyTo d m).damage = s.damage := by
  simp [State.replyTo]
@[simp] theorem State.replyTo_exu (d : Cand) (m : CexMsg) : (s.replyTo d m).exu = s.exu := by
  simp [State.replyTo]
@[simp] theorem State.replyTo_tbs (d : Cand) (m : CexMsg) : (s.replyTo d m).tbs = s.tbs := by
  simp [State.replyTo]
@[simp] theorem State.replyTo_adm (d : Cand) (m : CexMsg) : (s.replyTo d m).adm = s.adm := by
  simp [State.replyTo]
@[simp] theorem State.replyTo_grt (d : Cand) (m : CexMsg) : (s.replyTo d m).grt = s.grt := by
  simp [State.replyTo]
@[simp] theorem State.replyTo_wts (d : Cand) (m : CexMsg) : (s.replyTo d m).wts = s.wts := by
  simp [State.replyTo]
@[simp] theorem State.replyTo_clt (d : Cand) (m : CexMsg) : (s.replyTo d m).clt = s.clt := by
  simp [State.replyTo]
@[simp] theorem State.replyTo_swp (d : Cand) (m : CexMsg) : (s.replyTo d m).swp = s.swp := by
  simp [State.replyTo]
@[simp] theorem State.replyTo_fnu (d : Cand) (m : CexMsg) : (s.replyTo d m).fnu = s.fnu := by
  simp [State.replyTo, State.originate_fnu]

@[simp] theorem State.tell_pending (c : Client) (id : W32) (t : W16) (m : CexMsg) : (s.tell c id t m).pending = s.pending := by
  simp [State.tell]
@[simp] theorem State.tell_resetLow (c : Client) (id : W32) (t : W16) (m : CexMsg) : (s.tell c id t m).resetLow = s.resetLow := by
  simp [State.tell]
@[simp] theorem State.tell_damage (c : Client) (id : W32) (t : W16) (m : CexMsg) : (s.tell c id t m).damage = s.damage := by
  simp [State.tell]
@[simp] theorem State.tell_exu (c : Client) (id : W32) (t : W16) (m : CexMsg) : (s.tell c id t m).exu = s.exu := by
  simp [State.tell]
@[simp] theorem State.tell_tbs (c : Client) (id : W32) (t : W16) (m : CexMsg) : (s.tell c id t m).tbs = s.tbs := by
  simp [State.tell]
@[simp] theorem State.tell_adm (c : Client) (id : W32) (t : W16) (m : CexMsg) : (s.tell c id t m).adm = s.adm := by
  simp [State.tell]
@[simp] theorem State.tell_grt (c : Client) (id : W32) (t : W16) (m : CexMsg) : (s.tell c id t m).grt = s.grt := by
  simp [State.tell]
@[simp] theorem State.tell_wts (c : Client) (id : W32) (t : W16) (m : CexMsg) : (s.tell c id t m).wts = s.wts := by
  simp [State.tell]
@[simp] theorem State.tell_clt (c : Client) (id : W32) (t : W16) (m : CexMsg) : (s.tell c id t m).clt = s.clt := by
  simp [State.tell]
@[simp] theorem State.tell_swp (c : Client) (id : W32) (t : W16) (m : CexMsg) : (s.tell c id t m).swp = s.swp := by
  simp [State.tell]
@[simp] theorem State.tell_fnu (c : Client) (id : W32) (t : W16) (m : CexMsg) : (s.tell c id t m).fnu = s.fnu := by
  simp [State.tell, State.originate_fnu]

@[simp] theorem State.adminSend_pending (x : Issuer) (c : Nat) (r : Result) (b : List Byte) : (s.adminSend x c r b).pending = s.pending := by
  simp [State.adminSend]
@[simp] theorem State.adminSend_resetLow (x : Issuer) (c : Nat) (r : Result) (b : List Byte) : (s.adminSend x c r b).resetLow = s.resetLow := by
  simp [State.adminSend]
@[simp] theorem State.adminSend_damage (x : Issuer) (c : Nat) (r : Result) (b : List Byte) : (s.adminSend x c r b).damage = s.damage := by
  simp [State.adminSend]
@[simp] theorem State.adminSend_exu (x : Issuer) (c : Nat) (r : Result) (b : List Byte) : (s.adminSend x c r b).exu = s.exu := by
  simp [State.adminSend]
@[simp] theorem State.adminSend_tbs (x : Issuer) (c : Nat) (r : Result) (b : List Byte) : (s.adminSend x c r b).tbs = s.tbs := by
  simp [State.adminSend]
@[simp] theorem State.adminSend_adm (x : Issuer) (c : Nat) (r : Result) (b : List Byte) : (s.adminSend x c r b).adm = s.adm := by
  simp [State.adminSend]
@[simp] theorem State.adminSend_grt (x : Issuer) (c : Nat) (r : Result) (b : List Byte) : (s.adminSend x c r b).grt = s.grt := by
  simp [State.adminSend]
@[simp] theorem State.adminSend_wts (x : Issuer) (c : Nat) (r : Result) (b : List Byte) : (s.adminSend x c r b).wts = s.wts := by
  simp [State.adminSend]
@[simp] theorem State.adminSend_clt (x : Issuer) (c : Nat) (r : Result) (b : List Byte) : (s.adminSend x c r b).clt = s.clt := by
  simp [State.adminSend]
@[simp] theorem State.adminSend_swp (x : Issuer) (c : Nat) (r : Result) (b : List Byte) : (s.adminSend x c r b).swp = s.swp := by
  simp [State.adminSend]
@[simp] theorem State.adminSend_fnu (x : Issuer) (c : Nat) (r : Result) (b : List Byte) : (s.adminSend x c r b).fnu = s.fnu := by
  simp [State.adminSend, State.originate_fnu]

@[simp] theorem State.adminReply_pending (x : AdmCtx) (r : Result) (b : List Byte) : (s.adminReply x r b).pending = s.pending := by
  simp [State.adminReply]
@[simp] theorem State.adminReply_resetLow (x : AdmCtx) (r : Result) (b : List Byte) : (s.adminReply x r b).resetLow = s.resetLow := by
  simp [State.adminReply]
@[simp] theorem State.adminReply_damage (x : AdmCtx) (r : Result) (b : List Byte) : (s.adminReply x r b).damage = s.damage := by
  simp [State.adminReply]
@[simp] theorem State.adminReply_exu (x : AdmCtx) (r : Result) (b : List Byte) : (s.adminReply x r b).exu = s.exu := by
  simp [State.adminReply]
@[simp] theorem State.adminReply_tbs (x : AdmCtx) (r : Result) (b : List Byte) : (s.adminReply x r b).tbs = s.tbs := by
  simp [State.adminReply]
@[simp] theorem State.adminReply_adm (x : AdmCtx) (r : Result) (b : List Byte) : (s.adminReply x r b).adm = s.adm := by
  simp [State.adminReply]
@[simp] theorem State.adminReply_grt (x : AdmCtx) (r : Result) (b : List Byte) : (s.adminReply x r b).grt = s.grt := by
  simp [State.adminReply]
@[simp] theorem State.adminReply_wts (x : AdmCtx) (r : Result) (b : List Byte) : (s.adminReply x r b).wts = s.wts := by
  simp [State.adminReply]
@[simp] theorem State.adminReply_clt (x : AdmCtx) (r : Result) (b : List Byte) : (s.adminReply x r b).clt = s.clt := by
  simp [State.adminReply]
@[simp] theorem State.adminReply_swp (x : AdmCtx) (r : Result) (b : List Byte) : (s.adminReply x r b).swp = s.swp := by
  simp [State.adminReply]
@[simp] theorem State.adminReply_fnu (x : AdmCtx) (r : Result) (b : List Byte) : (s.adminReply x r b).fnu = s.fnu := by
  simp [State.adminReply]

@[simp] theorem State.longReply_pending (r : Result) (b : List Byte) : (s.longReply r b).pending = s.pending := by
  simp [State.longReply]
@[simp] theorem State.longReply_resetLow (r : Result) (b : List Byte) : (s.longReply r b).resetLow = s.resetLow := by
  simp [State.longReply]
@[simp] theorem State.longReply_damage (r : Result) (b : List Byte) : (s.longReply r b).damage = s.damage := by
  simp [State.longReply]
@[simp] theorem State.longReply_exu (r : Result) (b : List Byte) : (s.longReply r b).exu = s.exu := by
  simp [State.longReply]
@[simp] theorem State.longReply_tbs (r : Result) (b : List Byte) : (s.longReply r b).tbs = s.tbs := by
  simp [State.longReply]
@[simp] theorem State.longReply_adm (r : Result) (b : List Byte) : (s.longReply r b).adm = s.adm := by
  simp [State.longReply]
@[simp] theorem State.longReply_grt (r : Result) (b : List Byte) : (s.longReply r b).grt = s.grt := by
  simp [State.longReply]
@[simp] theorem State.longReply_wts (r : Result) (b : List Byte) : (s.longReply r b).wts = s.wts := by
  simp [State.longReply]
@[simp] theorem State.longReply_clt (r : Result) (b : List Byte) : (s.longReply r b).clt = s.clt := by
  simp [State.longReply]
@[simp] theorem State.longReply_swp (r : Result) (b : List Byte) : (s.longReply r b).swp = s.swp := by
  simp [State.longReply]
@[simp] theorem State.longReply_fnu (r : Result) (b : List Byte) : (s.longReply r b).fnu = s.fnu := by
  simp [State.longReply]

@[simp] theorem State.abortOp_pending : (s.abortOp).pending = s.pending := by
  simp [State.abortOp]
@[simp] theorem State.abortOp_resetLow : (s.abortOp).resetLow = s.resetLow := by
  simp [State.abortOp]
@[simp] theorem State.abortOp_damage : (s.abortOp).damage = s.damage := by
  simp [State.abortOp]
@[simp] theorem State.abortOp_exu : (s.abortOp).exu = s.exu := by
  simp [State.abortOp]
@[simp] theorem State.abortOp_tbs : (s.abortOp).tbs = s.tbs := by
  simp [State.abortOp]
@[simp] theorem State.abortOp_adm : (s.abortOp).adm = s.adm := by
  simp [State.abortOp]
@[simp] theorem State.abortOp_grt : (s.abortOp).grt = s.grt := by
  simp [State.abortOp]
@[simp] theorem State.abortOp_wts : (s.abortOp).wts = s.wts := by
  simp [State.abortOp]
@[simp] theorem State.abortOp_clt : (s.abortOp).clt = s.clt := by
  simp [State.abortOp]
@[simp] theorem State.abortOp_swp : (s.abortOp).swp = s.swp := by
  simp [State.abortOp]
@[simp] theorem State.abortOp_fnu : (s.abortOp).fnu = s.fnu := by
  simp [State.abortOp]

@[simp] theorem State.completeOp_pending (b : List Byte) : (s.completeOp b).pending = s.pending := by
  simp [State.completeOp]
@[simp] theorem State.completeOp_resetLow (b : List Byte) : (s.completeOp b).resetLow = s.resetLow := by
  simp [State.completeOp]
@[simp] theorem State.completeOp_damage (b : List Byte) : (s.completeOp b).damage = s.damage := by
  simp [State.completeOp]
@[simp] theorem State.completeOp_exu (b : List Byte) : (s.completeOp b).exu = s.exu := by
  simp [State.completeOp]
@[simp] theorem State.completeOp_tbs (b : List Byte) : (s.completeOp b).tbs = s.tbs := by
  simp [State.completeOp]
@[simp] theorem State.completeOp_adm (b : List Byte) : (s.completeOp b).adm = s.adm := by
  simp [State.completeOp]
@[simp] theorem State.completeOp_grt (b : List Byte) : (s.completeOp b).grt = s.grt := by
  simp [State.completeOp]
@[simp] theorem State.completeOp_wts (b : List Byte) : (s.completeOp b).wts = s.wts := by
  simp [State.completeOp]
@[simp] theorem State.completeOp_clt (b : List Byte) : (s.completeOp b).clt = s.clt := by
  simp [State.completeOp]
@[simp] theorem State.completeOp_swp (b : List Byte) : (s.completeOp b).swp = s.swp := by
  simp [State.completeOp]
@[simp] theorem State.completeOp_fnu (b : List Byte) : (s.completeOp b).fnu = s.fnu := by
  simp [State.completeOp]

@[simp] theorem State.denyClaim_pending (d : Cand) (r : Reason) (c : W32) : (s.denyClaim d r c).pending = s.pending := by
  simp [State.denyClaim]
@[simp] theorem State.denyClaim_resetLow (d : Cand) (r : Reason) (c : W32) : (s.denyClaim d r c).resetLow = s.resetLow := by
  simp [State.denyClaim]
@[simp] theorem State.denyClaim_damage (d : Cand) (r : Reason) (c : W32) : (s.denyClaim d r c).damage = s.damage := by
  simp [State.denyClaim]
@[simp] theorem State.denyClaim_exu (d : Cand) (r : Reason) (c : W32) : (s.denyClaim d r c).exu = s.exu := by
  simp [State.denyClaim]
@[simp] theorem State.denyClaim_tbs (d : Cand) (r : Reason) (c : W32) : (s.denyClaim d r c).tbs = s.tbs := by
  simp [State.denyClaim]
@[simp] theorem State.denyClaim_adm (d : Cand) (r : Reason) (c : W32) : (s.denyClaim d r c).adm = s.adm := by
  simp [State.denyClaim]
@[simp] theorem State.denyClaim_grt (d : Cand) (r : Reason) (c : W32) : (s.denyClaim d r c).grt = s.grt := by
  simp [State.denyClaim]
@[simp] theorem State.denyClaim_wts (d : Cand) (r : Reason) (c : W32) : (s.denyClaim d r c).wts = s.wts := by
  simp [State.denyClaim]
@[simp] theorem State.denyClaim_clt (d : Cand) (r : Reason) (c : W32) : (s.denyClaim d r c).clt = s.clt := by
  simp [State.denyClaim]
@[simp] theorem State.denyClaim_swp (d : Cand) (r : Reason) (c : W32) : (s.denyClaim d r c).swp = s.swp := by
  simp [State.denyClaim]
@[simp] theorem State.denyClaim_fnu (d : Cand) (r : Reason) (c : W32) : (s.denyClaim d r c).fnu = s.fnu := by
  simp [State.denyClaim]

@[simp] theorem State.denyMalformed_pending (d : Cand) : (s.denyMalformed d).pending = s.pending := by
  simp [State.denyMalformed]
@[simp] theorem State.denyMalformed_resetLow (d : Cand) : (s.denyMalformed d).resetLow = s.resetLow := by
  simp [State.denyMalformed]
@[simp] theorem State.denyMalformed_damage (d : Cand) : (s.denyMalformed d).damage = s.damage := by
  simp [State.denyMalformed]
@[simp] theorem State.denyMalformed_exu (d : Cand) : (s.denyMalformed d).exu = s.exu := by
  simp [State.denyMalformed]
@[simp] theorem State.denyMalformed_tbs (d : Cand) : (s.denyMalformed d).tbs = s.tbs := by
  simp [State.denyMalformed]
@[simp] theorem State.denyMalformed_adm (d : Cand) : (s.denyMalformed d).adm = s.adm := by
  simp [State.denyMalformed]
@[simp] theorem State.denyMalformed_grt (d : Cand) : (s.denyMalformed d).grt = s.grt := by
  simp [State.denyMalformed]
@[simp] theorem State.denyMalformed_wts (d : Cand) : (s.denyMalformed d).wts = s.wts := by
  simp [State.denyMalformed]
@[simp] theorem State.denyMalformed_clt (d : Cand) : (s.denyMalformed d).clt = s.clt := by
  simp [State.denyMalformed]
@[simp] theorem State.denyMalformed_swp (d : Cand) : (s.denyMalformed d).swp = s.swp := by
  simp [State.denyMalformed]

@[simp] theorem State.handBack_pending (d : Cand) : (s.handBack d).pending = s.pending := by
  unfold State.handBack; dsimp only; split <;> simp
@[simp] theorem State.handBack_resetLow (d : Cand) : (s.handBack d).resetLow = s.resetLow := by
  unfold State.handBack; dsimp only; split <;> simp
@[simp] theorem State.handBack_damage (d : Cand) : (s.handBack d).damage = s.damage := by
  unfold State.handBack; dsimp only; split <;> simp
@[simp] theorem State.handBack_exu (d : Cand) : (s.handBack d).exu = s.exu := by
  unfold State.handBack; dsimp only; split <;> simp
@[simp] theorem State.handBack_tbs (d : Cand) : (s.handBack d).tbs = s.tbs := by
  unfold State.handBack; dsimp only; split <;> simp
@[simp] theorem State.handBack_adm (d : Cand) : (s.handBack d).adm = s.adm := by
  unfold State.handBack; dsimp only; split <;> simp
@[simp] theorem State.handBack_grt (d : Cand) : (s.handBack d).grt = s.grt := by
  unfold State.handBack; dsimp only; split <;> simp
@[simp] theorem State.handBack_wts (d : Cand) : (s.handBack d).wts = s.wts := by
  unfold State.handBack; dsimp only; split <;> simp
@[simp] theorem State.handBack_clt (d : Cand) : (s.handBack d).clt = s.clt := by
  unfold State.handBack; dsimp only; split <;> simp
@[simp] theorem State.handBack_swp (d : Cand) : (s.handBack d).swp = s.swp := by
  unfold State.handBack; dsimp only; split <;> simp
@[simp] theorem State.handBack_fnu (d : Cand) : (s.handBack d).fnu = s.fnu := by
  unfold State.handBack; dsimp only; split <;> simp

@[simp] theorem State.mapRun_pending (p : Nat) (g : Run → Run) : (s.mapRun p g).pending = s.pending := rfl
@[simp] theorem State.mapRun_resetLow (p : Nat) (g : Run → Run) : (s.mapRun p g).resetLow = s.resetLow := rfl
@[simp] theorem State.mapRun_damage (p : Nat) (g : Run → Run) : (s.mapRun p g).damage = s.damage := rfl
@[simp] theorem State.mapRun_lnk (p : Nat) (g : Run → Run) : (s.mapRun p g).lnk = s.lnk := rfl
@[simp] theorem State.mapRun_exu (p : Nat) (g : Run → Run) : (s.mapRun p g).exu = s.exu := rfl
@[simp] theorem State.mapRun_tbs (p : Nat) (g : Run → Run) : (s.mapRun p g).tbs = s.tbs := rfl
@[simp] theorem State.mapRun_grt (p : Nat) (g : Run → Run) : (s.mapRun p g).grt = s.grt := rfl
@[simp] theorem State.mapRun_wts (p : Nat) (g : Run → Run) : (s.mapRun p g).wts = s.wts := rfl
@[simp] theorem State.mapRun_clt (p : Nat) (g : Run → Run) : (s.mapRun p g).clt = s.clt := rfl
@[simp] theorem State.mapRun_swp (p : Nat) (g : Run → Run) : (s.mapRun p g).swp = s.swp := rfl
@[simp] theorem State.mapRun_ada (p : Nat) (g : Run → Run) : (s.mapRun p g).ada = s.ada := rfl
@[simp] theorem State.mapRun_fnu (p : Nat) (g : Run → Run) : (s.mapRun p g).fnu = s.fnu := rfl
@[simp] theorem State.mapRun_pools (p : Nat) (g : Run → Run) : (s.mapRun p g).adm.pools = s.adm.pools := rfl
@[simp] theorem State.mapRun_features (p : Nat) (g : Run → Run) : (s.mapRun p g).adm.features = s.adm.features := rfl
@[simp] theorem State.startRun_pending (p : Nat) : (s.startRun p).pending = s.pending := by
  unfold State.startRun; split <;> [rfl; (split <;> rfl)]
@[simp] theorem State.startRun_resetLow (p : Nat) : (s.startRun p).resetLow = s.resetLow := by
  unfold State.startRun; split <;> [rfl; (split <;> rfl)]
@[simp] theorem State.startRun_damage (p : Nat) : (s.startRun p).damage = s.damage := by
  unfold State.startRun; split <;> [rfl; (split <;> rfl)]
@[simp] theorem State.startRun_lnk (p : Nat) : (s.startRun p).lnk = s.lnk := by
  unfold State.startRun; split <;> [rfl; (split <;> rfl)]
@[simp] theorem State.startRun_exu (p : Nat) : (s.startRun p).exu = s.exu := by
  unfold State.startRun; split <;> [rfl; (split <;> rfl)]
@[simp] theorem State.startRun_tbs (p : Nat) : (s.startRun p).tbs = s.tbs := by
  unfold State.startRun; split <;> [rfl; (split <;> rfl)]
@[simp] theorem State.startRun_grt (p : Nat) : (s.startRun p).grt = s.grt := by
  unfold State.startRun; split <;> [rfl; (split <;> rfl)]
@[simp] theorem State.startRun_wts (p : Nat) : (s.startRun p).wts = s.wts := by
  unfold State.startRun; split <;> [rfl; (split <;> rfl)]
@[simp] theorem State.startRun_clt (p : Nat) : (s.startRun p).clt = s.clt := by
  unfold State.startRun; split <;> [rfl; (split <;> rfl)]
@[simp] theorem State.startRun_swp (p : Nat) : (s.startRun p).swp = s.swp := by
  unfold State.startRun; split <;> [rfl; (split <;> rfl)]
@[simp] theorem State.startRun_ada (p : Nat) : (s.startRun p).ada = s.ada := by
  unfold State.startRun; split <;> [rfl; (split <;> rfl)]
@[simp] theorem State.startRun_fnu (p : Nat) : (s.startRun p).fnu = s.fnu := by
  unfold State.startRun; split <;> [rfl; (split <;> rfl)]

@[simp] theorem State.pressureNotice_pending (p : Nat) (st : Pressure) (t : W32) : (s.pressureNotice p st t).pending = s.pending := by
  simp [State.pressureNotice]
@[simp] theorem State.pressureNotice_resetLow (p : Nat) (st : Pressure) (t : W32) : (s.pressureNotice p st t).resetLow = s.resetLow := by
  simp [State.pressureNotice]
@[simp] theorem State.pressureNotice_damage (p : Nat) (st : Pressure) (t : W32) : (s.pressureNotice p st t).damage = s.damage := by
  simp [State.pressureNotice]
@[simp] theorem State.pressureNotice_lnk (p : Nat) (st : Pressure) (t : W32) : (s.pressureNotice p st t).lnk = s.lnk := by
  simp [State.pressureNotice]
@[simp] theorem State.pressureNotice_exu (p : Nat) (st : Pressure) (t : W32) : (s.pressureNotice p st t).exu = s.exu := by
  simp [State.pressureNotice]
@[simp] theorem State.pressureNotice_tbs (p : Nat) (st : Pressure) (t : W32) : (s.pressureNotice p st t).tbs = s.tbs := by
  simp [State.pressureNotice]
@[simp] theorem State.pressureNotice_adm (p : Nat) (st : Pressure) (t : W32) : (s.pressureNotice p st t).adm = s.adm := by
  simp [State.pressureNotice]
@[simp] theorem State.pressureNotice_grt (p : Nat) (st : Pressure) (t : W32) : (s.pressureNotice p st t).grt = s.grt := by
  simp [State.pressureNotice]
@[simp] theorem State.pressureNotice_wts (p : Nat) (st : Pressure) (t : W32) : (s.pressureNotice p st t).wts = s.wts := by
  simp [State.pressureNotice]
@[simp] theorem State.pressureNotice_clt (p : Nat) (st : Pressure) (t : W32) : (s.pressureNotice p st t).clt = s.clt := by
  simp [State.pressureNotice]
@[simp] theorem State.pressureNotice_swp (p : Nat) (st : Pressure) (t : W32) : (s.pressureNotice p st t).swp = s.swp := by
  simp [State.pressureNotice]
@[simp] theorem State.pressureNotice_ada (p : Nat) (st : Pressure) (t : W32) : (s.pressureNotice p st t).ada = s.ada := by
  simp [State.pressureNotice]

@[simp] theorem State.entryService_pending (p : Nat) : (s.entryService p).pending = s.pending := by
  unfold State.entryService; dsimp only; split <;> simp
@[simp] theorem State.entryService_resetLow (p : Nat) : (s.entryService p).resetLow = s.resetLow := by
  unfold State.entryService; dsimp only; split <;> simp
@[simp] theorem State.entryService_damage (p : Nat) : (s.entryService p).damage = s.damage := by
  unfold State.entryService; dsimp only; split <;> simp
@[simp] theorem State.entryService_lnk (p : Nat) : (s.entryService p).lnk = s.lnk := by
  unfold State.entryService; dsimp only; split <;> simp
@[simp] theorem State.entryService_exu (p : Nat) : (s.entryService p).exu = s.exu := by
  unfold State.entryService; dsimp only; split <;> simp
@[simp] theorem State.entryService_tbs (p : Nat) : (s.entryService p).tbs = s.tbs := by
  unfold State.entryService; dsimp only; split <;> simp
@[simp] theorem State.entryService_grt (p : Nat) : (s.entryService p).grt = s.grt := by
  unfold State.entryService; dsimp only; split <;> simp
@[simp] theorem State.entryService_wts (p : Nat) : (s.entryService p).wts = s.wts := by
  unfold State.entryService; dsimp only; split <;> simp
@[simp] theorem State.entryService_clt (p : Nat) : (s.entryService p).clt = s.clt := by
  unfold State.entryService; dsimp only; split <;> simp
@[simp] theorem State.entryService_swp (p : Nat) : (s.entryService p).swp = s.swp := by
  unfold State.entryService; dsimp only; split <;> simp
@[simp] theorem State.entryService_ada (p : Nat) : (s.entryService p).ada = s.ada := by
  unfold State.entryService; dsimp only; split <;> simp

@[simp] theorem State.idleIfQuiet_pending (i : Nat) : (s.idleIfQuiet i).pending = s.pending := by
  unfold State.idleIfQuiet; split <;> rfl
@[simp] theorem State.idleIfQuiet_resetLow (i : Nat) : (s.idleIfQuiet i).resetLow = s.resetLow := by
  unfold State.idleIfQuiet; split <;> rfl
@[simp] theorem State.idleIfQuiet_damage (i : Nat) : (s.idleIfQuiet i).damage = s.damage := by
  unfold State.idleIfQuiet; split <;> rfl
@[simp] theorem State.idleIfQuiet_lnk (i : Nat) : (s.idleIfQuiet i).lnk = s.lnk := by
  unfold State.idleIfQuiet; split <;> rfl
@[simp] theorem State.idleIfQuiet_exu (i : Nat) : (s.idleIfQuiet i).exu = s.exu := by
  unfold State.idleIfQuiet; split <;> rfl
@[simp] theorem State.idleIfQuiet_tbs (i : Nat) : (s.idleIfQuiet i).tbs = s.tbs := by
  unfold State.idleIfQuiet; split <;> rfl
@[simp] theorem State.idleIfQuiet_adm (i : Nat) : (s.idleIfQuiet i).adm = s.adm := by
  unfold State.idleIfQuiet; split <;> rfl
@[simp] theorem State.idleIfQuiet_grt (i : Nat) : (s.idleIfQuiet i).grt = s.grt := by
  unfold State.idleIfQuiet; split <;> rfl
@[simp] theorem State.idleIfQuiet_wts (i : Nat) : (s.idleIfQuiet i).wts = s.wts := by
  unfold State.idleIfQuiet; split <;> rfl
@[simp] theorem State.idleIfQuiet_swp (i : Nat) : (s.idleIfQuiet i).swp = s.swp := by
  unfold State.idleIfQuiet; split <;> rfl
@[simp] theorem State.idleIfQuiet_ada (i : Nat) : (s.idleIfQuiet i).ada = s.ada := by
  unfold State.idleIfQuiet; split <;> rfl
@[simp] theorem State.idleIfQuiet_fnu (i : Nat) : (s.idleIfQuiet i).fnu = s.fnu := by
  unfold State.idleIfQuiet; split <;> rfl

@[simp] theorem State.idleToTail_pending (i : Nat) : (s.idleToTail i).pending = s.pending := by
  unfold State.idleToTail; split <;> rfl
@[simp] theorem State.idleToTail_resetLow (i : Nat) : (s.idleToTail i).resetLow = s.resetLow := by
  unfold State.idleToTail; split <;> rfl
@[simp] theorem State.idleToTail_damage (i : Nat) : (s.idleToTail i).damage = s.damage := by
  unfold State.idleToTail; split <;> rfl
@[simp] theorem State.idleToTail_lnk (i : Nat) : (s.idleToTail i).lnk = s.lnk := by
  unfold State.idleToTail; split <;> rfl
@[simp] theorem State.idleToTail_exu (i : Nat) : (s.idleToTail i).exu = s.exu := by
  unfold State.idleToTail; split <;> rfl
@[simp] theorem State.idleToTail_tbs (i : Nat) : (s.idleToTail i).tbs = s.tbs := by
  unfold State.idleToTail; split <;> rfl
@[simp] theorem State.idleToTail_adm (i : Nat) : (s.idleToTail i).adm = s.adm := by
  unfold State.idleToTail; split <;> rfl
@[simp] theorem State.idleToTail_grt (i : Nat) : (s.idleToTail i).grt = s.grt := by
  unfold State.idleToTail; split <;> rfl
@[simp] theorem State.idleToTail_wts (i : Nat) : (s.idleToTail i).wts = s.wts := by
  unfold State.idleToTail; split <;> rfl
@[simp] theorem State.idleToTail_swp (i : Nat) : (s.idleToTail i).swp = s.swp := by
  unfold State.idleToTail; split <;> rfl
@[simp] theorem State.idleToTail_ada (i : Nat) : (s.idleToTail i).ada = s.ada := by
  unfold State.idleToTail; split <;> rfl
@[simp] theorem State.idleToTail_fnu (i : Nat) : (s.idleToTail i).fnu = s.fnu := by
  unfold State.idleToTail; split <;> rfl

@[simp] theorem State.countUnderflow_pending (i : Nat) : (s.countUnderflow i).pending = s.pending := by
  simp [State.countUnderflow]
@[simp] theorem State.countUnderflow_resetLow (i : Nat) : (s.countUnderflow i).resetLow = s.resetLow := by
  simp [State.countUnderflow]
@[simp] theorem State.countUnderflow_damage (i : Nat) : (s.countUnderflow i).damage = s.damage := by
  simp [State.countUnderflow]
@[simp] theorem State.countUnderflow_lnk (i : Nat) : (s.countUnderflow i).lnk = s.lnk := by
  simp [State.countUnderflow]
@[simp] theorem State.countUnderflow_exu (i : Nat) : (s.countUnderflow i).exu = s.exu := by
  simp [State.countUnderflow]
@[simp] theorem State.countUnderflow_tbs (i : Nat) : (s.countUnderflow i).tbs = s.tbs := by
  simp [State.countUnderflow]
@[simp] theorem State.countUnderflow_adm (i : Nat) : (s.countUnderflow i).adm = s.adm := by
  simp [State.countUnderflow]
@[simp] theorem State.countUnderflow_wts (i : Nat) : (s.countUnderflow i).wts = s.wts := by
  simp [State.countUnderflow]
@[simp] theorem State.countUnderflow_clt (i : Nat) : (s.countUnderflow i).clt = s.clt := by
  simp [State.countUnderflow]
@[simp] theorem State.countUnderflow_swp (i : Nat) : (s.countUnderflow i).swp = s.swp := by
  simp [State.countUnderflow]
@[simp] theorem State.countUnderflow_ada (i : Nat) : (s.countUnderflow i).ada = s.ada := by
  simp [State.countUnderflow]

@[simp] theorem State.dropGrantCount_pending (i : Nat) : (s.dropGrantCount i).pending = s.pending := by
  unfold State.dropGrantCount; dsimp only; split <;> simp
@[simp] theorem State.dropGrantCount_resetLow (i : Nat) : (s.dropGrantCount i).resetLow = s.resetLow := by
  unfold State.dropGrantCount; dsimp only; split <;> simp
@[simp] theorem State.dropGrantCount_damage (i : Nat) : (s.dropGrantCount i).damage = s.damage := by
  unfold State.dropGrantCount; dsimp only; split <;> simp
@[simp] theorem State.dropGrantCount_lnk (i : Nat) : (s.dropGrantCount i).lnk = s.lnk := by
  unfold State.dropGrantCount; dsimp only; split <;> simp
@[simp] theorem State.dropGrantCount_exu (i : Nat) : (s.dropGrantCount i).exu = s.exu := by
  unfold State.dropGrantCount; dsimp only; split <;> simp
@[simp] theorem State.dropGrantCount_tbs (i : Nat) : (s.dropGrantCount i).tbs = s.tbs := by
  unfold State.dropGrantCount; dsimp only; split <;> simp
@[simp] theorem State.dropGrantCount_adm (i : Nat) : (s.dropGrantCount i).adm = s.adm := by
  unfold State.dropGrantCount; dsimp only; split <;> simp
@[simp] theorem State.dropGrantCount_wts (i : Nat) : (s.dropGrantCount i).wts = s.wts := by
  unfold State.dropGrantCount; dsimp only; split <;> simp
@[simp] theorem State.dropGrantCount_swp (i : Nat) : (s.dropGrantCount i).swp = s.swp := by
  unfold State.dropGrantCount; dsimp only; split <;> simp
@[simp] theorem State.dropGrantCount_ada (i : Nat) : (s.dropGrantCount i).ada = s.ada := by
  unfold State.dropGrantCount; dsimp only; split <;> simp

@[simp] theorem State.lowerWaiterCount_pending (i : Nat) : (s.lowerWaiterCount i).pending = s.pending := by
  unfold State.lowerWaiterCount; dsimp only; split <;> simp
@[simp] theorem State.lowerWaiterCount_resetLow (i : Nat) : (s.lowerWaiterCount i).resetLow = s.resetLow := by
  unfold State.lowerWaiterCount; dsimp only; split <;> simp
@[simp] theorem State.lowerWaiterCount_damage (i : Nat) : (s.lowerWaiterCount i).damage = s.damage := by
  unfold State.lowerWaiterCount; dsimp only; split <;> simp
@[simp] theorem State.lowerWaiterCount_lnk (i : Nat) : (s.lowerWaiterCount i).lnk = s.lnk := by
  unfold State.lowerWaiterCount; dsimp only; split <;> simp
@[simp] theorem State.lowerWaiterCount_exu (i : Nat) : (s.lowerWaiterCount i).exu = s.exu := by
  unfold State.lowerWaiterCount; dsimp only; split <;> simp
@[simp] theorem State.lowerWaiterCount_tbs (i : Nat) : (s.lowerWaiterCount i).tbs = s.tbs := by
  unfold State.lowerWaiterCount; dsimp only; split <;> simp
@[simp] theorem State.lowerWaiterCount_adm (i : Nat) : (s.lowerWaiterCount i).adm = s.adm := by
  unfold State.lowerWaiterCount; dsimp only; split <;> simp
@[simp] theorem State.lowerWaiterCount_wts (i : Nat) : (s.lowerWaiterCount i).wts = s.wts := by
  unfold State.lowerWaiterCount; dsimp only; split <;> simp
@[simp] theorem State.lowerWaiterCount_swp (i : Nat) : (s.lowerWaiterCount i).swp = s.swp := by
  unfold State.lowerWaiterCount; dsimp only; split <;> simp
@[simp] theorem State.lowerWaiterCount_ada (i : Nat) : (s.lowerWaiterCount i).ada = s.ada := by
  unfold State.lowerWaiterCount; dsimp only; split <;> simp

@[simp] theorem State.dropWaiterCount_pending (i : Nat) : (s.dropWaiterCount i).pending = s.pending := by
  simp [State.dropWaiterCount]
@[simp] theorem State.dropWaiterCount_resetLow (i : Nat) : (s.dropWaiterCount i).resetLow = s.resetLow := by
  simp [State.dropWaiterCount]
@[simp] theorem State.dropWaiterCount_damage (i : Nat) : (s.dropWaiterCount i).damage = s.damage := by
  simp [State.dropWaiterCount]
@[simp] theorem State.dropWaiterCount_lnk (i : Nat) : (s.dropWaiterCount i).lnk = s.lnk := by
  simp [State.dropWaiterCount]
@[simp] theorem State.dropWaiterCount_exu (i : Nat) : (s.dropWaiterCount i).exu = s.exu := by
  simp [State.dropWaiterCount]
@[simp] theorem State.dropWaiterCount_tbs (i : Nat) : (s.dropWaiterCount i).tbs = s.tbs := by
  simp [State.dropWaiterCount]
@[simp] theorem State.dropWaiterCount_adm (i : Nat) : (s.dropWaiterCount i).adm = s.adm := by
  simp [State.dropWaiterCount]
@[simp] theorem State.dropWaiterCount_wts (i : Nat) : (s.dropWaiterCount i).wts = s.wts := by
  simp [State.dropWaiterCount]
@[simp] theorem State.dropWaiterCount_swp (i : Nat) : (s.dropWaiterCount i).swp = s.swp := by
  simp [State.dropWaiterCount]
@[simp] theorem State.dropWaiterCount_ada (i : Nat) : (s.dropWaiterCount i).ada = s.ada := by
  simp [State.dropWaiterCount]

@[simp] theorem State.liveUnderflow_pending (i : Nat) (g : Slot) : (s.liveUnderflow i g).pending = s.pending := by
  simp [State.liveUnderflow]
@[simp] theorem State.liveUnderflow_resetLow (i : Nat) (g : Slot) : (s.liveUnderflow i g).resetLow = s.resetLow := by
  simp [State.liveUnderflow]
@[simp] theorem State.liveUnderflow_damage (i : Nat) (g : Slot) : (s.liveUnderflow i g).damage = s.damage := by
  simp [State.liveUnderflow]
@[simp] theorem State.liveUnderflow_lnk (i : Nat) (g : Slot) : (s.liveUnderflow i g).lnk = s.lnk := by
  simp [State.liveUnderflow]
@[simp] theorem State.liveUnderflow_exu (i : Nat) (g : Slot) : (s.liveUnderflow i g).exu = s.exu := by
  simp [State.liveUnderflow]
@[simp] theorem State.liveUnderflow_tbs (i : Nat) (g : Slot) : (s.liveUnderflow i g).tbs = s.tbs := by
  simp [State.liveUnderflow]
@[simp] theorem State.liveUnderflow_adm (i : Nat) (g : Slot) : (s.liveUnderflow i g).adm = s.adm := by
  simp [State.liveUnderflow]
@[simp] theorem State.liveUnderflow_wts (i : Nat) (g : Slot) : (s.liveUnderflow i g).wts = s.wts := by
  simp [State.liveUnderflow]
@[simp] theorem State.liveUnderflow_clt (i : Nat) (g : Slot) : (s.liveUnderflow i g).clt = s.clt := by
  simp [State.liveUnderflow]
@[simp] theorem State.liveUnderflow_swp (i : Nat) (g : Slot) : (s.liveUnderflow i g).swp = s.swp := by
  simp [State.liveUnderflow]
@[simp] theorem State.liveUnderflow_ada (i : Nat) (g : Slot) : (s.liveUnderflow i g).ada = s.ada := by
  simp [State.liveUnderflow]

@[simp] theorem State.returnTokens_pending (i : Nat) (g : Slot) : (s.returnTokens i g).pending = s.pending := by
  unfold State.returnTokens; dsimp only; split <;> simp
@[simp] theorem State.returnTokens_resetLow (i : Nat) (g : Slot) : (s.returnTokens i g).resetLow = s.resetLow := by
  unfold State.returnTokens; dsimp only; split <;> simp
@[simp] theorem State.returnTokens_damage (i : Nat) (g : Slot) : (s.returnTokens i g).damage = s.damage := by
  unfold State.returnTokens; dsimp only; split <;> simp
@[simp] theorem State.returnTokens_lnk (i : Nat) (g : Slot) : (s.returnTokens i g).lnk = s.lnk := by
  unfold State.returnTokens; dsimp only; split <;> simp
@[simp] theorem State.returnTokens_exu (i : Nat) (g : Slot) : (s.returnTokens i g).exu = s.exu := by
  unfold State.returnTokens; dsimp only; split <;> simp
@[simp] theorem State.returnTokens_tbs (i : Nat) (g : Slot) : (s.returnTokens i g).tbs = s.tbs := by
  unfold State.returnTokens; dsimp only; split <;> simp
@[simp] theorem State.returnTokens_wts (i : Nat) (g : Slot) : (s.returnTokens i g).wts = s.wts := by
  unfold State.returnTokens; dsimp only; split <;> simp
@[simp] theorem State.returnTokens_clt (i : Nat) (g : Slot) : (s.returnTokens i g).clt = s.clt := by
  unfold State.returnTokens; dsimp only; split <;> simp
@[simp] theorem State.returnTokens_swp (i : Nat) (g : Slot) : (s.returnTokens i g).swp = s.swp := by
  unfold State.returnTokens; dsimp only; split <;> simp
@[simp] theorem State.returnTokens_ada (i : Nat) (g : Slot) : (s.returnTokens i g).ada = s.ada := by
  unfold State.returnTokens; dsimp only; split <;> simp

@[simp] theorem State.returnUnits_pending (i : Nat) (g : Slot) : (s.returnUnits i g).pending = s.pending := by
  unfold State.returnUnits; dsimp only; split <;> simp
@[simp] theorem State.returnUnits_resetLow (i : Nat) (g : Slot) : (s.returnUnits i g).resetLow = s.resetLow := by
  unfold State.returnUnits; dsimp only; split <;> simp
@[simp] theorem State.returnUnits_damage (i : Nat) (g : Slot) : (s.returnUnits i g).damage = s.damage := by
  unfold State.returnUnits; dsimp only; split <;> simp
@[simp] theorem State.returnUnits_lnk (i : Nat) (g : Slot) : (s.returnUnits i g).lnk = s.lnk := by
  unfold State.returnUnits; dsimp only; split <;> simp
@[simp] theorem State.returnUnits_exu (i : Nat) (g : Slot) : (s.returnUnits i g).exu = s.exu := by
  unfold State.returnUnits; dsimp only; split <;> simp
@[simp] theorem State.returnUnits_tbs (i : Nat) (g : Slot) : (s.returnUnits i g).tbs = s.tbs := by
  unfold State.returnUnits; dsimp only; split <;> simp
@[simp] theorem State.returnUnits_wts (i : Nat) (g : Slot) : (s.returnUnits i g).wts = s.wts := by
  unfold State.returnUnits; dsimp only; split <;> simp
@[simp] theorem State.returnUnits_clt (i : Nat) (g : Slot) : (s.returnUnits i g).clt = s.clt := by
  unfold State.returnUnits; dsimp only; split <;> simp
@[simp] theorem State.returnUnits_swp (i : Nat) (g : Slot) : (s.returnUnits i g).swp = s.swp := by
  unfold State.returnUnits; dsimp only; split <;> simp
@[simp] theorem State.returnUnits_ada (i : Nat) (g : Slot) : (s.returnUnits i g).ada = s.ada := by
  unfold State.returnUnits; dsimp only; split <;> simp

@[simp] theorem State.leaveChain_pending (i : Nat) : (s.leaveChain i).pending = s.pending := by
  unfold State.leaveChain; dsimp only; split <;> simp
@[simp] theorem State.leaveChain_resetLow (i : Nat) : (s.leaveChain i).resetLow = s.resetLow := by
  unfold State.leaveChain; dsimp only; split <;> simp
@[simp] theorem State.leaveChain_damage (i : Nat) : (s.leaveChain i).damage = s.damage := by
  unfold State.leaveChain; dsimp only; split <;> simp
@[simp] theorem State.leaveChain_lnk (i : Nat) : (s.leaveChain i).lnk = s.lnk := by
  unfold State.leaveChain; dsimp only; split <;> simp
@[simp] theorem State.leaveChain_exu (i : Nat) : (s.leaveChain i).exu = s.exu := by
  unfold State.leaveChain; dsimp only; split <;> simp
@[simp] theorem State.leaveChain_tbs (i : Nat) : (s.leaveChain i).tbs = s.tbs := by
  unfold State.leaveChain; dsimp only; split <;> simp
@[simp] theorem State.leaveChain_adm (i : Nat) : (s.leaveChain i).adm = s.adm := by
  unfold State.leaveChain; dsimp only; split <;> simp
@[simp] theorem State.leaveChain_wts (i : Nat) : (s.leaveChain i).wts = s.wts := by
  unfold State.leaveChain; dsimp only; split <;> simp
@[simp] theorem State.leaveChain_swp (i : Nat) : (s.leaveChain i).swp = s.swp := by
  unfold State.leaveChain; dsimp only; split <;> simp
@[simp] theorem State.leaveChain_ada (i : Nat) : (s.leaveChain i).ada = s.ada := by
  unfold State.leaveChain; dsimp only; split <;> simp

@[simp] theorem State.leaveLinger_pending (i p : Nat) : (s.leaveLinger i p).pending = s.pending := by
  simp [State.leaveLinger]
@[simp] theorem State.leaveLinger_resetLow (i p : Nat) : (s.leaveLinger i p).resetLow = s.resetLow := by
  simp [State.leaveLinger]
@[simp] theorem State.leaveLinger_damage (i p : Nat) : (s.leaveLinger i p).damage = s.damage := by
  simp [State.leaveLinger]
@[simp] theorem State.leaveLinger_lnk (i p : Nat) : (s.leaveLinger i p).lnk = s.lnk := by
  simp [State.leaveLinger]
@[simp] theorem State.leaveLinger_exu (i p : Nat) : (s.leaveLinger i p).exu = s.exu := by
  simp [State.leaveLinger]
@[simp] theorem State.leaveLinger_tbs (i p : Nat) : (s.leaveLinger i p).tbs = s.tbs := by
  simp [State.leaveLinger]
@[simp] theorem State.leaveLinger_adm (i p : Nat) : (s.leaveLinger i p).adm = s.adm := by
  simp [State.leaveLinger]
@[simp] theorem State.leaveLinger_wts (i p : Nat) : (s.leaveLinger i p).wts = s.wts := by
  simp [State.leaveLinger]
@[simp] theorem State.leaveLinger_clt (i p : Nat) : (s.leaveLinger i p).clt = s.clt := by
  simp [State.leaveLinger]
@[simp] theorem State.leaveLinger_swp (i p : Nat) : (s.leaveLinger i p).swp = s.swp := by
  simp [State.leaveLinger]
@[simp] theorem State.leaveLinger_ada (i p : Nat) : (s.leaveLinger i p).ada = s.ada := by
  simp [State.leaveLinger]
@[simp] theorem State.leaveLinger_fnu (i p : Nat) : (s.leaveLinger i p).fnu = s.fnu := by
  simp [State.leaveLinger]

@[simp] theorem State.freeSlot_pending (i : Nat) : (s.freeSlot i).pending = s.pending := rfl
@[simp] theorem State.freeSlot_resetLow (i : Nat) : (s.freeSlot i).resetLow = s.resetLow := rfl
@[simp] theorem State.freeSlot_damage (i : Nat) : (s.freeSlot i).damage = s.damage := rfl
@[simp] theorem State.freeSlot_lnk (i : Nat) : (s.freeSlot i).lnk = s.lnk := rfl
@[simp] theorem State.freeSlot_exu (i : Nat) : (s.freeSlot i).exu = s.exu := rfl
@[simp] theorem State.freeSlot_tbs (i : Nat) : (s.freeSlot i).tbs = s.tbs := rfl
@[simp] theorem State.freeSlot_adm (i : Nat) : (s.freeSlot i).adm = s.adm := rfl
@[simp] theorem State.freeSlot_wts (i : Nat) : (s.freeSlot i).wts = s.wts := rfl
@[simp] theorem State.freeSlot_clt (i : Nat) : (s.freeSlot i).clt = s.clt := rfl
@[simp] theorem State.freeSlot_swp (i : Nat) : (s.freeSlot i).swp = s.swp := rfl
@[simp] theorem State.freeSlot_ada (i : Nat) : (s.freeSlot i).ada = s.ada := rfl
@[simp] theorem State.freeSlot_fnu (i : Nat) : (s.freeSlot i).fnu = s.fnu := rfl

@[simp] theorem State.rebuildPassed_pending (i : Nat) (f : Rebuild → Rebuild) : (s.rebuildPassed i f).pending = s.pending := by
  unfold State.rebuildPassed; split
  · split <;> rfl
  · rfl
@[simp] theorem State.rebuildPassed_resetLow (i : Nat) (f : Rebuild → Rebuild) : (s.rebuildPassed i f).resetLow = s.resetLow := by
  unfold State.rebuildPassed; split
  · split <;> rfl
  · rfl
@[simp] theorem State.rebuildPassed_damage (i : Nat) (f : Rebuild → Rebuild) : (s.rebuildPassed i f).damage = s.damage := by
  unfold State.rebuildPassed; split
  · split <;> rfl
  · rfl
@[simp] theorem State.rebuildPassed_lnk (i : Nat) (f : Rebuild → Rebuild) : (s.rebuildPassed i f).lnk = s.lnk := by
  unfold State.rebuildPassed; split
  · split <;> rfl
  · rfl
@[simp] theorem State.rebuildPassed_exu (i : Nat) (f : Rebuild → Rebuild) : (s.rebuildPassed i f).exu = s.exu := by
  unfold State.rebuildPassed; split
  · split <;> rfl
  · rfl
@[simp] theorem State.rebuildPassed_tbs (i : Nat) (f : Rebuild → Rebuild) : (s.rebuildPassed i f).tbs = s.tbs := by
  unfold State.rebuildPassed; split
  · split <;> rfl
  · rfl
@[simp] theorem State.rebuildPassed_adm (i : Nat) (f : Rebuild → Rebuild) : (s.rebuildPassed i f).adm = s.adm := by
  unfold State.rebuildPassed; split
  · split <;> rfl
  · rfl
@[simp] theorem State.rebuildPassed_grt (i : Nat) (f : Rebuild → Rebuild) : (s.rebuildPassed i f).grt = s.grt := by
  unfold State.rebuildPassed; split
  · split <;> rfl
  · rfl
@[simp] theorem State.rebuildPassed_wts (i : Nat) (f : Rebuild → Rebuild) : (s.rebuildPassed i f).wts = s.wts := by
  unfold State.rebuildPassed; split
  · split <;> rfl
  · rfl
@[simp] theorem State.rebuildPassed_clt (i : Nat) (f : Rebuild → Rebuild) : (s.rebuildPassed i f).clt = s.clt := by
  unfold State.rebuildPassed; split
  · split <;> rfl
  · rfl
@[simp] theorem State.rebuildPassed_swp (i : Nat) (f : Rebuild → Rebuild) : (s.rebuildPassed i f).swp = s.swp := by
  unfold State.rebuildPassed; split
  · split <;> rfl
  · rfl
@[simp] theorem State.rebuildPassed_fnu (i : Nat) (f : Rebuild → Rebuild) : (s.rebuildPassed i f).fnu = s.fnu := by
  unfold State.rebuildPassed; split
  · split <;> rfl
  · rfl

@[simp] theorem State.releaseFrom_pending (c : Bool) (i : Nat) : (s.releaseFrom c i).pending = s.pending := by
  unfold State.releaseFrom; dsimp only; split <;> split <;> split <;> simp
@[simp] theorem State.releaseFrom_resetLow (c : Bool) (i : Nat) : (s.releaseFrom c i).resetLow = s.resetLow := by
  unfold State.releaseFrom; dsimp only; split <;> split <;> split <;> simp
@[simp] theorem State.releaseFrom_damage (c : Bool) (i : Nat) : (s.releaseFrom c i).damage = s.damage := by
  unfold State.releaseFrom; dsimp only; split <;> split <;> split <;> simp
@[simp] theorem State.releaseFrom_lnk (c : Bool) (i : Nat) : (s.releaseFrom c i).lnk = s.lnk := by
  unfold State.releaseFrom; dsimp only; split <;> split <;> split <;> simp
@[simp] theorem State.releaseFrom_exu (c : Bool) (i : Nat) : (s.releaseFrom c i).exu = s.exu := by
  unfold State.releaseFrom; dsimp only; split <;> split <;> split <;> simp
@[simp] theorem State.releaseFrom_tbs (c : Bool) (i : Nat) : (s.releaseFrom c i).tbs = s.tbs := by
  unfold State.releaseFrom; dsimp only; split <;> split <;> split <;> simp
@[simp] theorem State.releaseFrom_wts (c : Bool) (i : Nat) : (s.releaseFrom c i).wts = s.wts := by
  unfold State.releaseFrom; dsimp only; split <;> split <;> split <;> simp
@[simp] theorem State.releaseFrom_swp (c : Bool) (i : Nat) : (s.releaseFrom c i).swp = s.swp := by
  unfold State.releaseFrom; dsimp only; split <;> split <;> split <;> simp

@[simp] theorem State.releaseSlot_pending (i : Nat) : (s.releaseSlot i).pending = s.pending := by
  simp [State.releaseSlot]
@[simp] theorem State.releaseSlot_resetLow (i : Nat) : (s.releaseSlot i).resetLow = s.resetLow := by
  simp [State.releaseSlot]
@[simp] theorem State.releaseSlot_damage (i : Nat) : (s.releaseSlot i).damage = s.damage := by
  simp [State.releaseSlot]
@[simp] theorem State.releaseSlot_lnk (i : Nat) : (s.releaseSlot i).lnk = s.lnk := by
  simp [State.releaseSlot]
@[simp] theorem State.releaseSlot_exu (i : Nat) : (s.releaseSlot i).exu = s.exu := by
  simp [State.releaseSlot]
@[simp] theorem State.releaseSlot_tbs (i : Nat) : (s.releaseSlot i).tbs = s.tbs := by
  simp [State.releaseSlot]
@[simp] theorem State.releaseSlot_wts (i : Nat) : (s.releaseSlot i).wts = s.wts := by
  simp [State.releaseSlot]
@[simp] theorem State.releaseSlot_swp (i : Nat) : (s.releaseSlot i).swp = s.swp := by
  simp [State.releaseSlot]

@[simp] theorem State.createGrant_pending (i : Nat) (n : NewGrant) : (s.createGrant i n).pending = s.pending := by
  simp [State.createGrant]
@[simp] theorem State.createGrant_resetLow (i : Nat) (n : NewGrant) : (s.createGrant i n).resetLow = s.resetLow := by
  simp [State.createGrant]
@[simp] theorem State.createGrant_damage (i : Nat) (n : NewGrant) : (s.createGrant i n).damage = s.damage := by
  simp [State.createGrant]
@[simp] theorem State.createGrant_lnk (i : Nat) (n : NewGrant) : (s.createGrant i n).lnk = s.lnk := by
  simp [State.createGrant]
@[simp] theorem State.createGrant_exu (i : Nat) (n : NewGrant) : (s.createGrant i n).exu = s.exu := by
  simp [State.createGrant]
@[simp] theorem State.createGrant_tbs (i : Nat) (n : NewGrant) : (s.createGrant i n).tbs = s.tbs := by
  simp [State.createGrant]
@[simp] theorem State.createGrant_wts (i : Nat) (n : NewGrant) : (s.createGrant i n).wts = s.wts := by
  simp [State.createGrant]
@[simp] theorem State.createGrant_swp (i : Nat) (n : NewGrant) : (s.createGrant i n).swp = s.swp := by
  simp [State.createGrant]
@[simp] theorem State.createGrant_ada (i : Nat) (n : NewGrant) : (s.createGrant i n).ada = s.ada := by
  simp [State.createGrant]
@[simp] theorem State.createGrant_fnu (i : Nat) (n : NewGrant) : (s.createGrant i n).fnu = s.fnu := by
  simp [State.createGrant]

@[simp] theorem State.reuseSlot_pending (i : Nat) (t : W16) : (s.reuseSlot i t).pending = s.pending := by
  simp [State.reuseSlot]
@[simp] theorem State.reuseSlot_resetLow (i : Nat) (t : W16) : (s.reuseSlot i t).resetLow = s.resetLow := by
  simp [State.reuseSlot]
@[simp] theorem State.reuseSlot_damage (i : Nat) (t : W16) : (s.reuseSlot i t).damage = s.damage := by
  simp [State.reuseSlot]
@[simp] theorem State.reuseSlot_lnk (i : Nat) (t : W16) : (s.reuseSlot i t).lnk = s.lnk := by
  simp [State.reuseSlot]
@[simp] theorem State.reuseSlot_exu (i : Nat) (t : W16) : (s.reuseSlot i t).exu = s.exu := by
  simp [State.reuseSlot]
@[simp] theorem State.reuseSlot_tbs (i : Nat) (t : W16) : (s.reuseSlot i t).tbs = s.tbs := by
  simp [State.reuseSlot]
@[simp] theorem State.reuseSlot_adm (i : Nat) (t : W16) : (s.reuseSlot i t).adm = s.adm := by
  simp [State.reuseSlot]
@[simp] theorem State.reuseSlot_wts (i : Nat) (t : W16) : (s.reuseSlot i t).wts = s.wts := by
  simp [State.reuseSlot]
@[simp] theorem State.reuseSlot_clt (i : Nat) (t : W16) : (s.reuseSlot i t).clt = s.clt := by
  simp [State.reuseSlot]
@[simp] theorem State.reuseSlot_swp (i : Nat) (t : W16) : (s.reuseSlot i t).swp = s.swp := by
  simp [State.reuseSlot]
@[simp] theorem State.reuseSlot_ada (i : Nat) (t : W16) : (s.reuseSlot i t).ada = s.ada := by
  simp [State.reuseSlot]
@[simp] theorem State.reuseSlot_fnu (i : Nat) (t : W16) : (s.reuseSlot i t).fnu = s.fnu := by
  simp [State.reuseSlot]

@[simp] theorem State.recallSlot_pending (i : Nat) (r : Reason) : (s.recallSlot i r).pending = s.pending := by
  unfold State.recallSlot; dsimp only; split <;> simp
@[simp] theorem State.recallSlot_resetLow (i : Nat) (r : Reason) : (s.recallSlot i r).resetLow = s.resetLow := by
  unfold State.recallSlot; dsimp only; split <;> simp
@[simp] theorem State.recallSlot_damage (i : Nat) (r : Reason) : (s.recallSlot i r).damage = s.damage := by
  unfold State.recallSlot; dsimp only; split <;> simp
@[simp] theorem State.recallSlot_lnk (i : Nat) (r : Reason) : (s.recallSlot i r).lnk = s.lnk := by
  unfold State.recallSlot; dsimp only; split <;> simp
@[simp] theorem State.recallSlot_exu (i : Nat) (r : Reason) : (s.recallSlot i r).exu = s.exu := by
  unfold State.recallSlot; dsimp only; split <;> simp
@[simp] theorem State.recallSlot_tbs (i : Nat) (r : Reason) : (s.recallSlot i r).tbs = s.tbs := by
  unfold State.recallSlot; dsimp only; split <;> simp
@[simp] theorem State.recallSlot_wts (i : Nat) (r : Reason) : (s.recallSlot i r).wts = s.wts := by
  unfold State.recallSlot; dsimp only; split <;> simp
@[simp] theorem State.recallSlot_clt (i : Nat) (r : Reason) : (s.recallSlot i r).clt = s.clt := by
  unfold State.recallSlot; dsimp only; split <;> simp
@[simp] theorem State.recallSlot_swp (i : Nat) (r : Reason) : (s.recallSlot i r).swp = s.swp := by
  unfold State.recallSlot; dsimp only; split <;> simp

@[simp] theorem State.recallHeld_pending (i : Nat) (r : Reason) : (s.recallHeld i r).pending = s.pending := by
  unfold State.recallHeld; dsimp only; split <;> simp
@[simp] theorem State.recallHeld_resetLow (i : Nat) (r : Reason) : (s.recallHeld i r).resetLow = s.resetLow := by
  unfold State.recallHeld; dsimp only; split <;> simp
@[simp] theorem State.recallHeld_damage (i : Nat) (r : Reason) : (s.recallHeld i r).damage = s.damage := by
  unfold State.recallHeld; dsimp only; split <;> simp
@[simp] theorem State.recallHeld_exu (i : Nat) (r : Reason) : (s.recallHeld i r).exu = s.exu := by
  unfold State.recallHeld; dsimp only; split <;> simp
@[simp] theorem State.recallHeld_tbs (i : Nat) (r : Reason) : (s.recallHeld i r).tbs = s.tbs := by
  unfold State.recallHeld; dsimp only; split <;> simp
@[simp] theorem State.recallHeld_wts (i : Nat) (r : Reason) : (s.recallHeld i r).wts = s.wts := by
  unfold State.recallHeld; dsimp only; split <;> simp
@[simp] theorem State.recallHeld_clt (i : Nat) (r : Reason) : (s.recallHeld i r).clt = s.clt := by
  unfold State.recallHeld; dsimp only; split <;> simp
@[simp] theorem State.recallHeld_swp (i : Nat) (r : Reason) : (s.recallHeld i r).swp = s.swp := by
  unfold State.recallHeld; dsimp only; split <;> simp

@[simp] theorem State.slotBad_pending (i : Nat) : (s.slotBad i).pending = s.pending := by
  unfold State.slotBad; dsimp only; split <;> split <;> split <;> simp
@[simp] theorem State.slotBad_resetLow (i : Nat) : (s.slotBad i).resetLow = s.resetLow := by
  unfold State.slotBad; dsimp only; split <;> split <;> split <;> simp
@[simp] theorem State.slotBad_damage (i : Nat) : (s.slotBad i).damage = s.damage := by
  unfold State.slotBad; dsimp only; split <;> split <;> split <;> simp
@[simp] theorem State.slotBad_lnk (i : Nat) : (s.slotBad i).lnk = s.lnk := by
  unfold State.slotBad; dsimp only; split <;> split <;> split <;> simp
@[simp] theorem State.slotBad_exu (i : Nat) : (s.slotBad i).exu = s.exu := by
  unfold State.slotBad; dsimp only; split <;> split <;> split <;> simp
@[simp] theorem State.slotBad_tbs (i : Nat) : (s.slotBad i).tbs = s.tbs := by
  unfold State.slotBad; dsimp only; split <;> split <;> split <;> simp
@[simp] theorem State.slotBad_adm (i : Nat) : (s.slotBad i).adm = s.adm := by
  unfold State.slotBad; dsimp only; split <;> split <;> split <;> simp
@[simp] theorem State.slotBad_wts (i : Nat) : (s.slotBad i).wts = s.wts := by
  unfold State.slotBad; dsimp only; split <;> split <;> split <;> simp
@[simp] theorem State.slotBad_swp (i : Nat) : (s.slotBad i).swp = s.swp := by
  unfold State.slotBad; dsimp only; split <;> split <;> split <;> simp
@[simp] theorem State.slotBad_clt (i : Nat) : (s.slotBad i).clt = s.clt := by
  unfold State.slotBad; dsimp only; split <;> split <;> split <;> simp

@[simp] theorem State.unqueue_pending (i : Nat) : (s.unqueue i).pending = s.pending := by
  simp [State.unqueue]
@[simp] theorem State.unqueue_resetLow (i : Nat) : (s.unqueue i).resetLow = s.resetLow := by
  simp [State.unqueue]
@[simp] theorem State.unqueue_damage (i : Nat) : (s.unqueue i).damage = s.damage := by
  simp [State.unqueue]
@[simp] theorem State.unqueue_lnk (i : Nat) : (s.unqueue i).lnk = s.lnk := by
  simp [State.unqueue]
@[simp] theorem State.unqueue_exu (i : Nat) : (s.unqueue i).exu = s.exu := by
  simp [State.unqueue]
@[simp] theorem State.unqueue_tbs (i : Nat) : (s.unqueue i).tbs = s.tbs := by
  simp [State.unqueue]
@[simp] theorem State.unqueue_adm (i : Nat) : (s.unqueue i).adm = s.adm := by
  simp [State.unqueue]
@[simp] theorem State.unqueue_grt (i : Nat) : (s.unqueue i).grt = s.grt := by
  simp [State.unqueue]
@[simp] theorem State.unqueue_clt (i : Nat) : (s.unqueue i).clt = s.clt := by
  simp [State.unqueue]
@[simp] theorem State.unqueue_swp (i : Nat) : (s.unqueue i).swp = s.swp := by
  simp [State.unqueue]
@[simp] theorem State.unqueue_ada (i : Nat) : (s.unqueue i).ada = s.ada := by
  simp [State.unqueue]
@[simp] theorem State.unqueue_fnu (i : Nat) : (s.unqueue i).fnu = s.fnu := by
  simp [State.unqueue]

@[simp] theorem State.dropWaiter_pending (i : Nat) (r : Reason) (c : Option Cand) : (s.dropWaiter i r c).pending = s.pending := by
  unfold State.dropWaiter; dsimp only; split <;> simp
@[simp] theorem State.dropWaiter_resetLow (i : Nat) (r : Reason) (c : Option Cand) : (s.dropWaiter i r c).resetLow = s.resetLow := by
  unfold State.dropWaiter; dsimp only; split <;> simp
@[simp] theorem State.dropWaiter_damage (i : Nat) (r : Reason) (c : Option Cand) : (s.dropWaiter i r c).damage = s.damage := by
  unfold State.dropWaiter; dsimp only; split <;> simp
@[simp] theorem State.dropWaiter_exu (i : Nat) (r : Reason) (c : Option Cand) : (s.dropWaiter i r c).exu = s.exu := by
  unfold State.dropWaiter; dsimp only; split <;> simp
@[simp] theorem State.dropWaiter_tbs (i : Nat) (r : Reason) (c : Option Cand) : (s.dropWaiter i r c).tbs = s.tbs := by
  unfold State.dropWaiter; dsimp only; split <;> simp
@[simp] theorem State.dropWaiter_adm (i : Nat) (r : Reason) (c : Option Cand) : (s.dropWaiter i r c).adm = s.adm := by
  unfold State.dropWaiter; dsimp only; split <;> simp
@[simp] theorem State.dropWaiter_swp (i : Nat) (r : Reason) (c : Option Cand) : (s.dropWaiter i r c).swp = s.swp := by
  unfold State.dropWaiter; dsimp only; split <;> simp

@[simp] theorem State.placeWaiter_pending (i : Nat) (w : Waiter) : (s.placeWaiter i w).pending = s.pending := by
  simp [State.placeWaiter]
@[simp] theorem State.placeWaiter_resetLow (i : Nat) (w : Waiter) : (s.placeWaiter i w).resetLow = s.resetLow := by
  simp [State.placeWaiter]
@[simp] theorem State.placeWaiter_damage (i : Nat) (w : Waiter) : (s.placeWaiter i w).damage = s.damage := by
  simp [State.placeWaiter]
@[simp] theorem State.placeWaiter_lnk (i : Nat) (w : Waiter) : (s.placeWaiter i w).lnk = s.lnk := by
  simp [State.placeWaiter]
@[simp] theorem State.placeWaiter_exu (i : Nat) (w : Waiter) : (s.placeWaiter i w).exu = s.exu := by
  simp [State.placeWaiter]
@[simp] theorem State.placeWaiter_tbs (i : Nat) (w : Waiter) : (s.placeWaiter i w).tbs = s.tbs := by
  simp [State.placeWaiter]
@[simp] theorem State.placeWaiter_adm (i : Nat) (w : Waiter) : (s.placeWaiter i w).adm = s.adm := by
  simp [State.placeWaiter]
@[simp] theorem State.placeWaiter_grt (i : Nat) (w : Waiter) : (s.placeWaiter i w).grt = s.grt := by
  simp [State.placeWaiter]
@[simp] theorem State.placeWaiter_swp (i : Nat) (w : Waiter) : (s.placeWaiter i w).swp = s.swp := by
  simp [State.placeWaiter]
@[simp] theorem State.placeWaiter_ada (i : Nat) (w : Waiter) : (s.placeWaiter i w).ada = s.ada := by
  simp [State.placeWaiter]
@[simp] theorem State.placeWaiter_fnu (i : Nat) (w : Waiter) : (s.placeWaiter i w).fnu = s.fnu := by
  simp [State.placeWaiter]

@[simp] theorem State.enterPressure_pending (p : Nat) (st : Pressure) : (s.enterPressure p st).pending = s.pending := by
  simp [State.enterPressure]
@[simp] theorem State.enterPressure_resetLow (p : Nat) (st : Pressure) : (s.enterPressure p st).resetLow = s.resetLow := by
  simp [State.enterPressure]
@[simp] theorem State.enterPressure_damage (p : Nat) (st : Pressure) : (s.enterPressure p st).damage = s.damage := by
  simp [State.enterPressure]
@[simp] theorem State.enterPressure_lnk (p : Nat) (st : Pressure) : (s.enterPressure p st).lnk = s.lnk := by
  simp [State.enterPressure]
@[simp] theorem State.enterPressure_exu (p : Nat) (st : Pressure) : (s.enterPressure p st).exu = s.exu := by
  simp [State.enterPressure]
@[simp] theorem State.enterPressure_tbs (p : Nat) (st : Pressure) : (s.enterPressure p st).tbs = s.tbs := by
  simp [State.enterPressure]
@[simp] theorem State.enterPressure_grt (p : Nat) (st : Pressure) : (s.enterPressure p st).grt = s.grt := by
  simp [State.enterPressure]
@[simp] theorem State.enterPressure_wts (p : Nat) (st : Pressure) : (s.enterPressure p st).wts = s.wts := by
  simp [State.enterPressure]
@[simp] theorem State.enterPressure_clt (p : Nat) (st : Pressure) : (s.enterPressure p st).clt = s.clt := by
  simp [State.enterPressure]
@[simp] theorem State.enterPressure_swp (p : Nat) (st : Pressure) : (s.enterPressure p st).swp = s.swp := by
  simp [State.enterPressure]
@[simp] theorem State.enterPressure_ada (p : Nat) (st : Pressure) : (s.enterPressure p st).ada = s.ada := by
  simp [State.enterPressure]
@[simp] theorem State.enterPressure_fnu (p : Nat) (st : Pressure) : (s.enterPressure p st).fnu = s.fnu := by
  simp [State.enterPressure]

@[simp] theorem State.noteContact_pending (i : Nat) (d : Cand) : (s.noteContact i d).pending = s.pending := by
  simp [State.noteContact]
@[simp] theorem State.noteContact_resetLow (i : Nat) (d : Cand) : (s.noteContact i d).resetLow = s.resetLow := by
  simp [State.noteContact]
@[simp] theorem State.noteContact_damage (i : Nat) (d : Cand) : (s.noteContact i d).damage = s.damage := by
  simp [State.noteContact]
@[simp] theorem State.noteContact_lnk (i : Nat) (d : Cand) : (s.noteContact i d).lnk = s.lnk := by
  simp [State.noteContact]
@[simp] theorem State.noteContact_exu (i : Nat) (d : Cand) : (s.noteContact i d).exu = s.exu := by
  simp [State.noteContact]
@[simp] theorem State.noteContact_tbs (i : Nat) (d : Cand) : (s.noteContact i d).tbs = s.tbs := by
  simp [State.noteContact]
@[simp] theorem State.noteContact_adm (i : Nat) (d : Cand) : (s.noteContact i d).adm = s.adm := by
  simp [State.noteContact]
@[simp] theorem State.noteContact_grt (i : Nat) (d : Cand) : (s.noteContact i d).grt = s.grt := by
  simp [State.noteContact]
@[simp] theorem State.noteContact_wts (i : Nat) (d : Cand) : (s.noteContact i d).wts = s.wts := by
  simp [State.noteContact]
@[simp] theorem State.noteContact_swp (i : Nat) (d : Cand) : (s.noteContact i d).swp = s.swp := by
  simp [State.noteContact]
@[simp] theorem State.noteContact_ada (i : Nat) (d : Cand) : (s.noteContact i d).ada = s.ada := by
  simp [State.noteContact]
@[simp] theorem State.noteContact_fnu (i : Nat) (d : Cand) : (s.noteContact i d).fnu = s.fnu := by
  simp [State.noteContact]

@[simp] theorem State.noteClaim_pending (i : Nat) (x : ClaimCtx) : (s.noteClaim i x).pending = s.pending := by
  simp [State.noteClaim]
@[simp] theorem State.noteClaim_resetLow (i : Nat) (x : ClaimCtx) : (s.noteClaim i x).resetLow = s.resetLow := by
  simp [State.noteClaim]
@[simp] theorem State.noteClaim_damage (i : Nat) (x : ClaimCtx) : (s.noteClaim i x).damage = s.damage := by
  simp [State.noteClaim]
@[simp] theorem State.noteClaim_lnk (i : Nat) (x : ClaimCtx) : (s.noteClaim i x).lnk = s.lnk := by
  simp [State.noteClaim]
@[simp] theorem State.noteClaim_exu (i : Nat) (x : ClaimCtx) : (s.noteClaim i x).exu = s.exu := by
  simp [State.noteClaim]
@[simp] theorem State.noteClaim_tbs (i : Nat) (x : ClaimCtx) : (s.noteClaim i x).tbs = s.tbs := by
  simp [State.noteClaim]
@[simp] theorem State.noteClaim_adm (i : Nat) (x : ClaimCtx) : (s.noteClaim i x).adm = s.adm := by
  simp [State.noteClaim]
@[simp] theorem State.noteClaim_grt (i : Nat) (x : ClaimCtx) : (s.noteClaim i x).grt = s.grt := by
  simp [State.noteClaim]
@[simp] theorem State.noteClaim_wts (i : Nat) (x : ClaimCtx) : (s.noteClaim i x).wts = s.wts := by
  simp [State.noteClaim]
@[simp] theorem State.noteClaim_swp (i : Nat) (x : ClaimCtx) : (s.noteClaim i x).swp = s.swp := by
  simp [State.noteClaim]
@[simp] theorem State.noteClaim_ada (i : Nat) (x : ClaimCtx) : (s.noteClaim i x).ada = s.ada := by
  simp [State.noteClaim]
@[simp] theorem State.noteClaim_fnu (i : Nat) (x : ClaimCtx) : (s.noteClaim i x).fnu = s.fnu := by
  simp [State.noteClaim]

@[simp] theorem State.newClient_pending (i : Nat) (id : W32) : (s.newClient i id).pending = s.pending := rfl
@[simp] theorem State.newClient_resetLow (i : Nat) (id : W32) : (s.newClient i id).resetLow = s.resetLow := rfl
@[simp] theorem State.newClient_damage (i : Nat) (id : W32) : (s.newClient i id).damage = s.damage := rfl
@[simp] theorem State.newClient_lnk (i : Nat) (id : W32) : (s.newClient i id).lnk = s.lnk := rfl
@[simp] theorem State.newClient_exu (i : Nat) (id : W32) : (s.newClient i id).exu = s.exu := rfl
@[simp] theorem State.newClient_tbs (i : Nat) (id : W32) : (s.newClient i id).tbs = s.tbs := rfl
@[simp] theorem State.newClient_adm (i : Nat) (id : W32) : (s.newClient i id).adm = s.adm := rfl
@[simp] theorem State.newClient_grt (i : Nat) (id : W32) : (s.newClient i id).grt = s.grt := rfl
@[simp] theorem State.newClient_wts (i : Nat) (id : W32) : (s.newClient i id).wts = s.wts := rfl
@[simp] theorem State.newClient_swp (i : Nat) (id : W32) : (s.newClient i id).swp = s.swp := rfl
@[simp] theorem State.newClient_ada (i : Nat) (id : W32) : (s.newClient i id).ada = s.ada := rfl
@[simp] theorem State.newClient_fnu (i : Nat) (id : W32) : (s.newClient i id).fnu = s.fnu := rfl

@[simp] theorem State.churnUpdate_pending (i : Nat) : (s.churnUpdate i).pending = s.pending := by
  simp [State.churnUpdate]
@[simp] theorem State.churnUpdate_resetLow (i : Nat) : (s.churnUpdate i).resetLow = s.resetLow := by
  simp [State.churnUpdate]
@[simp] theorem State.churnUpdate_damage (i : Nat) : (s.churnUpdate i).damage = s.damage := by
  simp [State.churnUpdate]
@[simp] theorem State.churnUpdate_lnk (i : Nat) : (s.churnUpdate i).lnk = s.lnk := by
  simp [State.churnUpdate]
@[simp] theorem State.churnUpdate_exu (i : Nat) : (s.churnUpdate i).exu = s.exu := by
  simp [State.churnUpdate]
@[simp] theorem State.churnUpdate_tbs (i : Nat) : (s.churnUpdate i).tbs = s.tbs := by
  simp [State.churnUpdate]
@[simp] theorem State.churnUpdate_adm (i : Nat) : (s.churnUpdate i).adm = s.adm := by
  simp [State.churnUpdate]
@[simp] theorem State.churnUpdate_grt (i : Nat) : (s.churnUpdate i).grt = s.grt := by
  simp [State.churnUpdate]
@[simp] theorem State.churnUpdate_wts (i : Nat) : (s.churnUpdate i).wts = s.wts := by
  simp [State.churnUpdate]
@[simp] theorem State.churnUpdate_swp (i : Nat) : (s.churnUpdate i).swp = s.swp := by
  simp [State.churnUpdate]
@[simp] theorem State.churnUpdate_ada (i : Nat) : (s.churnUpdate i).ada = s.ada := by
  simp [State.churnUpdate]
@[simp] theorem State.churnUpdate_fnu (i : Nat) : (s.churnUpdate i).fnu = s.fnu := by
  simp [State.churnUpdate]

@[simp] theorem State.enterLinger_pending (i : Nat) : (s.enterLinger i).pending = s.pending := by
  simp [State.enterLinger]
@[simp] theorem State.enterLinger_resetLow (i : Nat) : (s.enterLinger i).resetLow = s.resetLow := by
  simp [State.enterLinger]
@[simp] theorem State.enterLinger_damage (i : Nat) : (s.enterLinger i).damage = s.damage := by
  simp [State.enterLinger]
@[simp] theorem State.enterLinger_lnk (i : Nat) : (s.enterLinger i).lnk = s.lnk := by
  simp [State.enterLinger]
@[simp] theorem State.enterLinger_exu (i : Nat) : (s.enterLinger i).exu = s.exu := by
  simp [State.enterLinger]
@[simp] theorem State.enterLinger_tbs (i : Nat) : (s.enterLinger i).tbs = s.tbs := by
  simp [State.enterLinger]
@[simp] theorem State.enterLinger_adm (i : Nat) : (s.enterLinger i).adm = s.adm := by
  simp [State.enterLinger]
@[simp] theorem State.enterLinger_wts (i : Nat) : (s.enterLinger i).wts = s.wts := by
  simp [State.enterLinger]
@[simp] theorem State.enterLinger_clt (i : Nat) : (s.enterLinger i).clt = s.clt := by
  simp [State.enterLinger]
@[simp] theorem State.enterLinger_swp (i : Nat) : (s.enterLinger i).swp = s.swp := by
  simp [State.enterLinger]
@[simp] theorem State.enterLinger_ada (i : Nat) : (s.enterLinger i).ada = s.ada := by
  simp [State.enterLinger]
@[simp] theorem State.enterLinger_fnu (i : Nat) : (s.enterLinger i).fnu = s.fnu := by
  simp [State.enterLinger]

@[simp] theorem State.renewSlot_pending (i : Nat) : (s.renewSlot i).pending = s.pending := rfl
@[simp] theorem State.renewSlot_resetLow (i : Nat) : (s.renewSlot i).resetLow = s.resetLow := rfl
@[simp] theorem State.renewSlot_damage (i : Nat) : (s.renewSlot i).damage = s.damage := rfl
@[simp] theorem State.renewSlot_lnk (i : Nat) : (s.renewSlot i).lnk = s.lnk := rfl
@[simp] theorem State.renewSlot_exu (i : Nat) : (s.renewSlot i).exu = s.exu := rfl
@[simp] theorem State.renewSlot_tbs (i : Nat) : (s.renewSlot i).tbs = s.tbs := rfl
@[simp] theorem State.renewSlot_adm (i : Nat) : (s.renewSlot i).adm = s.adm := rfl
@[simp] theorem State.renewSlot_wts (i : Nat) : (s.renewSlot i).wts = s.wts := rfl
@[simp] theorem State.renewSlot_clt (i : Nat) : (s.renewSlot i).clt = s.clt := rfl
@[simp] theorem State.renewSlot_swp (i : Nat) : (s.renewSlot i).swp = s.swp := rfl
@[simp] theorem State.renewSlot_ada (i : Nat) : (s.renewSlot i).ada = s.ada := rfl
@[simp] theorem State.renewSlot_fnu (i : Nat) : (s.renewSlot i).fnu = s.fnu := rfl

@[simp] theorem State.renewNote_pending (w : RenewWork) (l : List W32) (st : RenewStatus) : (s.renewNote w l st).pending = s.pending := by
  unfold State.renewNote; dsimp only; split <;> simp
@[simp] theorem State.renewNote_resetLow (w : RenewWork) (l : List W32) (st : RenewStatus) : (s.renewNote w l st).resetLow = s.resetLow := by
  unfold State.renewNote; dsimp only; split <;> simp
@[simp] theorem State.renewNote_damage (w : RenewWork) (l : List W32) (st : RenewStatus) : (s.renewNote w l st).damage = s.damage := by
  unfold State.renewNote; dsimp only; split <;> simp
@[simp] theorem State.renewNote_tbs (w : RenewWork) (l : List W32) (st : RenewStatus) : (s.renewNote w l st).tbs = s.tbs := by
  unfold State.renewNote; dsimp only; split <;> simp
@[simp] theorem State.renewNote_adm (w : RenewWork) (l : List W32) (st : RenewStatus) : (s.renewNote w l st).adm = s.adm := by
  unfold State.renewNote; dsimp only; split <;> simp
@[simp] theorem State.renewNote_grt (w : RenewWork) (l : List W32) (st : RenewStatus) : (s.renewNote w l st).grt = s.grt := by
  unfold State.renewNote; dsimp only; split <;> simp
@[simp] theorem State.renewNote_wts (w : RenewWork) (l : List W32) (st : RenewStatus) : (s.renewNote w l st).wts = s.wts := by
  unfold State.renewNote; dsimp only; split <;> simp
@[simp] theorem State.renewNote_clt (w : RenewWork) (l : List W32) (st : RenewStatus) : (s.renewNote w l st).clt = s.clt := by
  unfold State.renewNote; dsimp only; split <;> simp
@[simp] theorem State.renewNote_swp (w : RenewWork) (l : List W32) (st : RenewStatus) : (s.renewNote w l st).swp = s.swp := by
  unfold State.renewNote; dsimp only; split <;> simp
@[simp] theorem State.renewNote_fnu (w : RenewWork) (l : List W32) (st : RenewStatus) : (s.renewNote w l st).fnu = s.fnu := by
  unfold State.renewNote; dsimp only; split <;> simp

@[simp] theorem State.makeStale_pending (i : Nat) : (s.makeStale i).pending = s.pending := by
  simp [State.makeStale]
@[simp] theorem State.makeStale_resetLow (i : Nat) : (s.makeStale i).resetLow = s.resetLow := by
  simp [State.makeStale]
@[simp] theorem State.makeStale_damage (i : Nat) : (s.makeStale i).damage = s.damage := by
  simp [State.makeStale]
@[simp] theorem State.makeStale_lnk (i : Nat) : (s.makeStale i).lnk = s.lnk := by
  simp [State.makeStale]
@[simp] theorem State.makeStale_exu (i : Nat) : (s.makeStale i).exu = s.exu := by
  simp [State.makeStale]
@[simp] theorem State.makeStale_tbs (i : Nat) : (s.makeStale i).tbs = s.tbs := by
  simp [State.makeStale]
@[simp] theorem State.makeStale_adm (i : Nat) : (s.makeStale i).adm = s.adm := by
  simp [State.makeStale]
@[simp] theorem State.makeStale_wts (i : Nat) : (s.makeStale i).wts = s.wts := by
  simp [State.makeStale]
@[simp] theorem State.makeStale_clt (i : Nat) : (s.makeStale i).clt = s.clt := by
  simp [State.makeStale]
@[simp] theorem State.makeStale_swp (i : Nat) : (s.makeStale i).swp = s.swp := by
  simp [State.makeStale]
@[simp] theorem State.makeStale_ada (i : Nat) : (s.makeStale i).ada = s.ada := by
  simp [State.makeStale]

@[simp] theorem State.headExhausted_pending (w : Waiter) : (s.headExhausted w).pending = s.pending := by
  unfold State.headExhausted; split <;> simp
@[simp] theorem State.headExhausted_resetLow (w : Waiter) : (s.headExhausted w).resetLow = s.resetLow := by
  unfold State.headExhausted; split <;> simp
@[simp] theorem State.headExhausted_damage (w : Waiter) : (s.headExhausted w).damage = s.damage := by
  unfold State.headExhausted; split <;> simp
@[simp] theorem State.headExhausted_lnk (w : Waiter) : (s.headExhausted w).lnk = s.lnk := by
  unfold State.headExhausted; split <;> simp
@[simp] theorem State.headExhausted_exu (w : Waiter) : (s.headExhausted w).exu = s.exu := by
  unfold State.headExhausted; split <;> simp
@[simp] theorem State.headExhausted_tbs (w : Waiter) : (s.headExhausted w).tbs = s.tbs := by
  unfold State.headExhausted; split <;> simp
@[simp] theorem State.headExhausted_adm (w : Waiter) : (s.headExhausted w).adm = s.adm := by
  unfold State.headExhausted; split <;> simp
@[simp] theorem State.headExhausted_wts (w : Waiter) : (s.headExhausted w).wts = s.wts := by
  unfold State.headExhausted; split <;> simp
@[simp] theorem State.headExhausted_clt (w : Waiter) : (s.headExhausted w).clt = s.clt := by
  unfold State.headExhausted; split <;> simp
@[simp] theorem State.headExhausted_swp (w : Waiter) : (s.headExhausted w).swp = s.swp := by
  unfold State.headExhausted; split <;> simp
@[simp] theorem State.headExhausted_ada (w : Waiter) : (s.headExhausted w).ada = s.ada := by
  unfold State.headExhausted; split <;> simp

@[simp] theorem State.mapCounts_pending (f : Counts → Counts) : (s.mapCounts f).pending = s.pending := by
  unfold State.mapCounts; split <;> rfl
@[simp] theorem State.mapCounts_resetLow (f : Counts → Counts) : (s.mapCounts f).resetLow = s.resetLow := by
  unfold State.mapCounts; split <;> rfl
@[simp] theorem State.mapCounts_damage (f : Counts → Counts) : (s.mapCounts f).damage = s.damage := by
  unfold State.mapCounts; split <;> rfl
@[simp] theorem State.mapCounts_lnk (f : Counts → Counts) : (s.mapCounts f).lnk = s.lnk := by
  unfold State.mapCounts; split <;> rfl
@[simp] theorem State.mapCounts_exu (f : Counts → Counts) : (s.mapCounts f).exu = s.exu := by
  unfold State.mapCounts; split <;> rfl
@[simp] theorem State.mapCounts_tbs (f : Counts → Counts) : (s.mapCounts f).tbs = s.tbs := by
  unfold State.mapCounts; split <;> rfl
@[simp] theorem State.mapCounts_adm (f : Counts → Counts) : (s.mapCounts f).adm = s.adm := by
  unfold State.mapCounts; split <;> rfl
@[simp] theorem State.mapCounts_grt (f : Counts → Counts) : (s.mapCounts f).grt = s.grt := by
  unfold State.mapCounts; split <;> rfl
@[simp] theorem State.mapCounts_wts (f : Counts → Counts) : (s.mapCounts f).wts = s.wts := by
  unfold State.mapCounts; split <;> rfl
@[simp] theorem State.mapCounts_clt (f : Counts → Counts) : (s.mapCounts f).clt = s.clt := by
  unfold State.mapCounts; split <;> rfl
@[simp] theorem State.mapCounts_swp (f : Counts → Counts) : (s.mapCounts f).swp = s.swp := by
  unfold State.mapCounts; split <;> rfl
@[simp] theorem State.mapCounts_fnu (f : Counts → Counts) : (s.mapCounts f).fnu = s.fnu := by
  unfold State.mapCounts; split <;> rfl

@[simp] theorem State.noteRecall_pending (r : Recalled) : (s.noteRecall r).pending = s.pending := by
  simp [State.noteRecall]
@[simp] theorem State.noteRecall_resetLow (r : Recalled) : (s.noteRecall r).resetLow = s.resetLow := by
  simp [State.noteRecall]
@[simp] theorem State.noteRecall_damage (r : Recalled) : (s.noteRecall r).damage = s.damage := by
  simp [State.noteRecall]
@[simp] theorem State.noteRecall_lnk (r : Recalled) : (s.noteRecall r).lnk = s.lnk := by
  simp [State.noteRecall]
@[simp] theorem State.noteRecall_exu (r : Recalled) : (s.noteRecall r).exu = s.exu := by
  simp [State.noteRecall]
@[simp] theorem State.noteRecall_tbs (r : Recalled) : (s.noteRecall r).tbs = s.tbs := by
  simp [State.noteRecall]
@[simp] theorem State.noteRecall_adm (r : Recalled) : (s.noteRecall r).adm = s.adm := by
  simp [State.noteRecall]
@[simp] theorem State.noteRecall_grt (r : Recalled) : (s.noteRecall r).grt = s.grt := by
  simp [State.noteRecall]
@[simp] theorem State.noteRecall_wts (r : Recalled) : (s.noteRecall r).wts = s.wts := by
  simp [State.noteRecall]
@[simp] theorem State.noteRecall_clt (r : Recalled) : (s.noteRecall r).clt = s.clt := by
  simp [State.noteRecall]
@[simp] theorem State.noteRecall_swp (r : Recalled) : (s.noteRecall r).swp = s.swp := by
  simp [State.noteRecall]
@[simp] theorem State.noteRecall_fnu (r : Recalled) : (s.noteRecall r).fnu = s.fnu := by
  simp [State.noteRecall]

@[simp] theorem State.noteRemoved_pending : (s.noteRemoved).pending = s.pending := by
  simp [State.noteRemoved]
@[simp] theorem State.noteRemoved_resetLow : (s.noteRemoved).resetLow = s.resetLow := by
  simp [State.noteRemoved]
@[simp] theorem State.noteRemoved_damage : (s.noteRemoved).damage = s.damage := by
  simp [State.noteRemoved]
@[simp] theorem State.noteRemoved_lnk : (s.noteRemoved).lnk = s.lnk := by
  simp [State.noteRemoved]
@[simp] theorem State.noteRemoved_exu : (s.noteRemoved).exu = s.exu := by
  simp [State.noteRemoved]
@[simp] theorem State.noteRemoved_tbs : (s.noteRemoved).tbs = s.tbs := by
  simp [State.noteRemoved]
@[simp] theorem State.noteRemoved_adm : (s.noteRemoved).adm = s.adm := by
  simp [State.noteRemoved]
@[simp] theorem State.noteRemoved_grt : (s.noteRemoved).grt = s.grt := by
  simp [State.noteRemoved]
@[simp] theorem State.noteRemoved_wts : (s.noteRemoved).wts = s.wts := by
  simp [State.noteRemoved]
@[simp] theorem State.noteRemoved_clt : (s.noteRemoved).clt = s.clt := by
  simp [State.noteRemoved]
@[simp] theorem State.noteRemoved_swp : (s.noteRemoved).swp = s.swp := by
  simp [State.noteRemoved]
@[simp] theorem State.noteRemoved_fnu : (s.noteRemoved).fnu = s.fnu := by
  simp [State.noteRemoved]

@[simp] theorem State.phaseOn_pending : (s.phaseOn).pending = s.pending := by
  unfold State.phaseOn; split <;> rfl
@[simp] theorem State.phaseOn_resetLow : (s.phaseOn).resetLow = s.resetLow := by
  unfold State.phaseOn; split <;> rfl
@[simp] theorem State.phaseOn_damage : (s.phaseOn).damage = s.damage := by
  unfold State.phaseOn; split <;> rfl
@[simp] theorem State.phaseOn_lnk : (s.phaseOn).lnk = s.lnk := by
  unfold State.phaseOn; split <;> rfl
@[simp] theorem State.phaseOn_exu : (s.phaseOn).exu = s.exu := by
  unfold State.phaseOn; split <;> rfl
@[simp] theorem State.phaseOn_tbs : (s.phaseOn).tbs = s.tbs := by
  unfold State.phaseOn; split <;> rfl
@[simp] theorem State.phaseOn_adm : (s.phaseOn).adm = s.adm := by
  unfold State.phaseOn; split <;> rfl
@[simp] theorem State.phaseOn_grt : (s.phaseOn).grt = s.grt := by
  unfold State.phaseOn; split <;> rfl
@[simp] theorem State.phaseOn_wts : (s.phaseOn).wts = s.wts := by
  unfold State.phaseOn; split <;> rfl
@[simp] theorem State.phaseOn_clt : (s.phaseOn).clt = s.clt := by
  unfold State.phaseOn; split <;> rfl
@[simp] theorem State.phaseOn_swp : (s.phaseOn).swp = s.swp := by
  unfold State.phaseOn; split <;> rfl
@[simp] theorem State.phaseOn_fnu : (s.phaseOn).fnu = s.fnu := by
  unfold State.phaseOn; split <;> rfl

@[simp] theorem State.mapRebuild_pending (f : Rebuild → Rebuild) : (s.mapRebuild f).pending = s.pending := by
  unfold State.mapRebuild; split <;> rfl
@[simp] theorem State.mapRebuild_resetLow (f : Rebuild → Rebuild) : (s.mapRebuild f).resetLow = s.resetLow := by
  unfold State.mapRebuild; split <;> rfl
@[simp] theorem State.mapRebuild_damage (f : Rebuild → Rebuild) : (s.mapRebuild f).damage = s.damage := by
  unfold State.mapRebuild; split <;> rfl
@[simp] theorem State.mapRebuild_lnk (f : Rebuild → Rebuild) : (s.mapRebuild f).lnk = s.lnk := by
  unfold State.mapRebuild; split <;> rfl
@[simp] theorem State.mapRebuild_exu (f : Rebuild → Rebuild) : (s.mapRebuild f).exu = s.exu := by
  unfold State.mapRebuild; split <;> rfl
@[simp] theorem State.mapRebuild_tbs (f : Rebuild → Rebuild) : (s.mapRebuild f).tbs = s.tbs := by
  unfold State.mapRebuild; split <;> rfl
@[simp] theorem State.mapRebuild_adm (f : Rebuild → Rebuild) : (s.mapRebuild f).adm = s.adm := by
  unfold State.mapRebuild; split <;> rfl
@[simp] theorem State.mapRebuild_grt (f : Rebuild → Rebuild) : (s.mapRebuild f).grt = s.grt := by
  unfold State.mapRebuild; split <;> rfl
@[simp] theorem State.mapRebuild_wts (f : Rebuild → Rebuild) : (s.mapRebuild f).wts = s.wts := by
  unfold State.mapRebuild; split <;> rfl
@[simp] theorem State.mapRebuild_clt (f : Rebuild → Rebuild) : (s.mapRebuild f).clt = s.clt := by
  unfold State.mapRebuild; split <;> rfl
@[simp] theorem State.mapRebuild_swp (f : Rebuild → Rebuild) : (s.mapRebuild f).swp = s.swp := by
  unfold State.mapRebuild; split <;> rfl
@[simp] theorem State.mapRebuild_fnu (f : Rebuild → Rebuild) : (s.mapRebuild f).fnu = s.fnu := by
  unfold State.mapRebuild; split <;> rfl

@[simp] theorem State.clientTaken_pending (l : List Cand) : (s.clientTaken l).pending = s.pending := rfl
@[simp] theorem State.clientTaken_resetLow (l : List Cand) : (s.clientTaken l).resetLow = s.resetLow := rfl
@[simp] theorem State.clientTaken_damage (l : List Cand) : (s.clientTaken l).damage = s.damage := rfl
@[simp] theorem State.clientTaken_lnk (l : List Cand) : (s.clientTaken l).lnk = s.lnk := rfl
@[simp] theorem State.clientTaken_tbs (l : List Cand) : (s.clientTaken l).tbs = s.tbs := rfl
@[simp] theorem State.clientTaken_adm (l : List Cand) : (s.clientTaken l).adm = s.adm := rfl
@[simp] theorem State.clientTaken_grt (l : List Cand) : (s.clientTaken l).grt = s.grt := rfl
@[simp] theorem State.clientTaken_wts (l : List Cand) : (s.clientTaken l).wts = s.wts := rfl
@[simp] theorem State.clientTaken_clt (l : List Cand) : (s.clientTaken l).clt = s.clt := rfl
@[simp] theorem State.clientTaken_swp (l : List Cand) : (s.clientTaken l).swp = s.swp := rfl
@[simp] theorem State.clientTaken_ada (l : List Cand) : (s.clientTaken l).ada = s.ada := rfl
@[simp] theorem State.clientTaken_fnu (l : List Cand) : (s.clientTaken l).fnu = s.fnu := rfl

@[simp] theorem State.adminTaken_pending (d : Cand) (l : List Cand) (n : Nat) : (s.adminTaken d l n).pending = s.pending := rfl
@[simp] theorem State.adminTaken_resetLow (d : Cand) (l : List Cand) (n : Nat) : (s.adminTaken d l n).resetLow = s.resetLow := rfl
@[simp] theorem State.adminTaken_damage (d : Cand) (l : List Cand) (n : Nat) : (s.adminTaken d l n).damage = s.damage := rfl
@[simp] theorem State.adminTaken_exu (d : Cand) (l : List Cand) (n : Nat) : (s.adminTaken d l n).exu = s.exu := rfl
@[simp] theorem State.adminTaken_tbs (d : Cand) (l : List Cand) (n : Nat) : (s.adminTaken d l n).tbs = s.tbs := rfl
@[simp] theorem State.adminTaken_adm (d : Cand) (l : List Cand) (n : Nat) : (s.adminTaken d l n).adm = s.adm := rfl
@[simp] theorem State.adminTaken_grt (d : Cand) (l : List Cand) (n : Nat) : (s.adminTaken d l n).grt = s.grt := rfl
@[simp] theorem State.adminTaken_wts (d : Cand) (l : List Cand) (n : Nat) : (s.adminTaken d l n).wts = s.wts := rfl
@[simp] theorem State.adminTaken_clt (d : Cand) (l : List Cand) (n : Nat) : (s.adminTaken d l n).clt = s.clt := rfl
@[simp] theorem State.adminTaken_swp (d : Cand) (l : List Cand) (n : Nat) : (s.adminTaken d l n).swp = s.swp := rfl
@[simp] theorem State.adminTaken_fnu (d : Cand) (l : List Cand) (n : Nat) : (s.adminTaken d l n).fnu = s.fnu := rfl

end Sys2Proof.Machine
end

