-- ==== Sys2Proof/Laws/Grants.lean ====
section
/-!
SUPPORT. Laws/Grants.lean: what the effects on grants leave in each store, one lemma a store: the grant table, the live records, the
client entries, the scan of a COUNT REBUILD.
-/
namespace Sys2Proof.Machine

variable (s : State)

/-! ### The grant table: parts change SUSPECT, the slots, the lists, and nothing else -/

theorem State.liveUnderflow_grt (i : Nat) (g : Slot) : (s.liveUnderflow i g).grt = { s.grt with suspect := true } := by
  simp [State.liveUnderflow, State.setSuspect]
theorem State.countUnderflow_grt (i : Nat) : (s.countUnderflow i).grt = { s.grt with suspect := true } := by
  simp [State.countUnderflow, State.setSuspect]

theorem State.returnTokens_grt (i : Nat) (g : Slot) :
    (s.returnTokens i g).grt =
      { s.grt with suspect := s.grt.suspect || decide ((s.poolLive g.pool).used g.cls < g.cost) } := by
  unfold State.returnTokens; dsimp only
  split <;> rename_i h <;> simp [h, State.liveUnderflow_grt]

theorem State.returnUnits_grt (i : Nat) (g : Slot) :
    (s.returnUnits i g).grt = { s.grt with suspect := s.grt.suspect || decide ((s.featLive g.feature).hf < g.units) } := by
  unfold State.returnUnits; dsimp only
  split <;> rename_i h <;> simp [h, State.liveUnderflow_grt]

theorem State.dropGrantCount_grt (i : Nat) :
    (s.dropGrantCount i).grt = { s.grt with suspect := s.grt.suspect || decide ((s.client i).grants = 0) } := by
  unfold State.dropGrantCount; dsimp only
  split <;> rename_i h <;> simp [h, State.countUnderflow_grt]

theorem State.lowerWaiterCount_grt (i : Nat) :
    (s.lowerWaiterCount i).grt = { s.grt with suspect := s.grt.suspect || decide ((s.client i).waiters = 0) } := by
  unfold State.lowerWaiterCount; dsimp only
  split <;> rename_i h <;> simp [h, State.countUnderflow_grt]

theorem State.leaveChain_grt (i : Nat) :
    (s.leaveChain i).grt =
      { s.grt with
        suspect := s.grt.suspect || (s.inChain i && decide ((s.client (s.slot i).ownerIdx).grants = 0)) } := by
  unfold State.leaveChain State.inChain; dsimp only
  split <;> rename_i h
  · rw [State.dropGrantCount_grt, h]; simp
  · rw [Bool.not_eq_true] at h; rw [h]; simp

/-! ### Views an underflow leaves -/

@[simp] theorem State.liveUnderflow_poolLive (i : Nat) (g : Slot) (p : Nat) : (s.liveUnderflow i g).poolLive p = s.poolLive p :=
  State.poolLive_congr (by simp) p
@[simp] theorem State.liveUnderflow_featLive (i : Nat) (g : Slot) (f : Nat) : (s.liveUnderflow i g).featLive f = s.featLive f :=
  State.featLive_congr (by simp) f
@[simp] theorem State.countUnderflow_client (i j : Nat) : (s.countUnderflow i).client j = s.client j :=
  State.client_congr (by simp) j

/-! ### The live records -/

theorem State.returnTokens_poolLive (i : Nat) (g : Slot) (p : Nat) :
    (s.returnTokens i g).poolLive p =
      if p = g.pool then (s.poolLive g.pool).setUsed g.cls ((s.poolLive g.pool).used g.cls - g.cost) else s.poolLive p := by
  unfold State.returnTokens; dsimp only
  split <;> simp

@[simp] theorem State.returnTokens_features (i : Nat) (g : Slot) : (s.returnTokens i g).adm.features = s.adm.features := by
  unfold State.returnTokens; dsimp only; split <;> simp [State.setPoolLive]
@[simp] theorem State.returnTokens_runs (i : Nat) (g : Slot) : (s.returnTokens i g).adm.runs = s.adm.runs := by
  unfold State.returnTokens; dsimp only; split <;> simp [State.setPoolLive]

theorem State.returnUnits_featLive (i : Nat) (g : Slot) (f : Nat) :
    (s.returnUnits i g).featLive f =
      if f = g.feature then { s.featLive g.feature with hf := (s.featLive g.feature).hf - g.units } else s.featLive f := by
  unfold State.returnUnits; dsimp only
  split <;> simp

@[simp] theorem State.returnUnits_pools (i : Nat) (g : Slot) : (s.returnUnits i g).adm.pools = s.adm.pools := by
  unfold State.returnUnits; dsimp only; split <;> simp [State.setFeatLive]
@[simp] theorem State.returnUnits_runs (i : Nat) (g : Slot) : (s.returnUnits i g).adm.runs = s.adm.runs := by
  unfold State.returnUnits; dsimp only; split <;> simp [State.setFeatLive]

/-! ### A release (R42), store by store -/

/-- The record of a slot entering FREE (R42 point 5). -/
def Slot.freed (g : Slot) : Slot := { g with state := .free, reason := none, generation := g.generation + 1 }

/-- The grant table after a release. -/
theorem State.releaseFrom_grt (c : Bool) (i : Nat) :
    (s.releaseFrom c i).grt =
      { slots := Tab.put Slot.zero s.grt.slots i (s.slot i).freed
        freeFifo := s.grt.freeFifo ++ [i]
        exhausted := false
        suspect := (s.releaseFrom c i).grt.suspect
        liveTotal := s.grt.liveTotal - 1
        linger := if (s.slot i).state = .linger
          then Tab.put [] s.grt.linger (s.slot i).pool ((s.lingerList (s.slot i).pool).erase i) else s.grt.linger } := by
  unfold State.releaseFrom
  dsimp only
  split <;> split <;> split <;>
    simp [State.freeSlot, State.leaveLinger, State.setLinger, State.lingerList, State.setSlot, State.slot, State.leaveChain_grt,
      State.returnUnits_grt, State.returnTokens_grt, Slot.freed]

theorem State.slot_releaseFrom (c : Bool) (i j : Nat) :
    (s.releaseFrom c i).slot j = if j = i then (s.slot i).freed else s.slot j := by
  rw [State.slot, State.releaseFrom_grt]; exact Tab.get_put _ _ _ _ _

theorem State.lingerList_releaseFrom (c : Bool) (i p : Nat) :
    (s.releaseFrom c i).lingerList p =
      if (s.slot i).state = .linger ∧ p = (s.slot i).pool then (s.lingerList p).erase i else s.lingerList p := by
  rw [State.lingerList, State.releaseFrom_grt]
  dsimp only
  by_cases h : (s.slot i).state = .linger
  · simp only [h, if_true, true_and]
    rw [Tab.get_put]; split
    · rename_i hp; rw [hp]
    · rfl
  · simp [h, State.lingerList]

/-- The live records and service runs after a release. -/
theorem State.releaseFrom_adm (c : Bool) (i : Nat) :
    (s.releaseFrom c i).adm =
      if s.unitsCounted (s.slot i) then ((s.returnTokens i (s.slot i)).returnUnits i (s.slot i)).adm
      else (s.returnTokens i (s.slot i)).adm := by
  unfold State.releaseFrom; dsimp only
  split <;> split <;> split <;> simp

theorem State.poolLive_releaseFrom (c : Bool) (i p : Nat) :
    (s.releaseFrom c i).poolLive p =
      if p = (s.slot i).pool then
        (s.poolLive p).setUsed (s.slot i).cls ((s.poolLive p).used (s.slot i).cls - (s.slot i).cost)
      else s.poolLive p := by
  have h : (s.releaseFrom c i).adm.pools = (s.returnTokens i (s.slot i)).adm.pools := by
    rw [State.releaseFrom_adm]; split <;> simp
  rw [State.poolLive_congr h, State.returnTokens_poolLive]
  split
  · rename_i hp; rw [hp]
  · rfl

theorem State.featLive_releaseFrom (c : Bool) (i f : Nat) :
    (s.releaseFrom c i).featLive f =
      if f = (s.slot i).feature ∧ s.unitsCounted (s.slot i) = true then
        ⟨(s.featLive f).hf - (s.slot i).units, (s.featLive f).epoch⟩ else s.featLive f := by
  by_cases hu : s.unitsCounted (s.slot i) = true
  · rw [State.featLive_congr (t := s.releaseFrom c i) (s := (s.returnTokens i (s.slot i)).returnUnits i (s.slot i))
      (by rw [State.releaseFrom_adm, if_pos hu]), State.returnUnits_featLive]
    simp only [hu, and_true]
    split
    · rename_i hf; rw [hf, State.featLive_congr (State.returnTokens_features ..)]
    · exact State.featLive_congr (State.returnTokens_features ..) f
  · rw [State.featLive_congr (t := s.releaseFrom c i) (s := s) (by rw [State.releaseFrom_adm, if_neg hu]; simp)]
    simp [hu]

@[simp] theorem State.releaseFrom_runs (c : Bool) (i : Nat) : (s.releaseFrom c i).adm.runs = s.adm.runs := by
  rw [State.releaseFrom_adm]; split <;> simp

/-- What joining the idle list does to the client table depends on that table and MT. -/
theorem State.idleIfQuiet_clt_congr {s t : State} (h2 : t.clt = s.clt) (h3 : t.swp = s.swp) (i : Nat) :
    (t.idleIfQuiet i).clt = (s.idleIfQuiet i).clt := by
  have e2 : ∀ j, t.client j = s.client j := State.client_congr (by rw [h2])
  unfold State.idleIfQuiet
  simp only [e2, h2, h3]
  split
  · simp [State.setClient, h2]
  · exact h2

theorem State.leaveChain_clt_congr {s t : State} (h1 : t.grt.slots = s.grt.slots) (h2 : t.clt = s.clt) (h3 : t.swp = s.swp) (i : Nat) :
    (t.leaveChain i).clt = (s.leaveChain i).clt := by
  have e1 := State.slot_congr h1 i
  have e2 : ∀ j, t.client j = s.client j := State.client_congr (by rw [h2])
  unfold State.leaveChain; dsimp only
  rw [e1, e2]
  split
  · unfold State.dropGrantCount; dsimp only
    simp only [State.client_setClient, if_true]
    split
    · exact State.idleIfQuiet_clt_congr (by simp [State.setClient, h2]) (by simp [h3]) _
    · exact State.idleIfQuiet_clt_congr (by simp [State.setClient, h2]) (by simp [h3]) _
  · exact h2

/-- The client table after a release: that of the departure from the owner's chain. -/
theorem State.releaseFrom_clt (c : Bool) (i : Nat) :
    (s.releaseFrom c i).clt = if c then (s.leaveChain i).clt else s.clt := by
  unfold State.releaseFrom; dsimp only
  cases c <;> simp only [Bool.false_eq_true, if_true, if_false]
  · split <;> split <;> simp
  · split <;> split <;> simp only [State.freeSlot_clt, State.rebuildPassed_clt, State.leaveLinger_clt] <;>
      exact State.leaveChain_clt_congr (by simp [State.returnUnits_grt, State.returnTokens_grt]) (by simp) (by simp) i

/-- The operation in the slot after a release: a COUNT REBUILD that has passed the slot takes the change (R165). -/
theorem State.releaseFrom_op (c : Bool) (i : Nat) :
    (s.releaseFrom c i).ada.op =
      (s.rebuildPassed i (Rebuild.without (s.slot i) (s.unitsCounted (s.slot i)) i)).ada.op := by
  have h : ∀ (t : State) (f), t.ada.op = s.ada.op → (t.rebuildPassed i f).ada.op = (s.rebuildPassed i f).ada.op := by
    intro t f h; unfold State.rebuildPassed; rw [h]; split
    · split
      · rfl
      · exact h
    · exact h
  unfold State.releaseFrom; dsimp only
  rw [State.freeSlot_ada]
  exact h _ _ (by split <;> split <;> split <;> simp)

/-! ### The hard capture and SUSPECT after a release (R3, R42, R70, R175) -/

theorem Capture.give_locked (c : Capture) (e : Event) (mt : W32) : (c.give e mt).locked = true := by
  unfold Capture.give; split <;> simp_all
theorem Capture.give_unlocked {c : Capture} (h : c.locked = false) (e : Event) (mt : W32) :
    c.give e mt = ⟨true, c.second, e.code, e.index, e.pool, e.client, mt⟩ := by simp [Capture.give, h]
theorem Capture.give_again {c : Capture} (h : c.locked = true) (e : Event) (mt : W32) : c.give e mt = { c with second := true } := by
  simp [Capture.give, h]

theorem State.noticeLost_hard (k : NoticeKind) : (s.noticeLost k).fnu.hard = s.fnu.hard := by
  unfold State.noticeLost; dsimp only; repeat (first | rfl | split)
theorem State.queueNotice_hard (b : NoticeBody) : (s.queueNotice b).fnu.hard = s.fnu.hard := by
  unfold State.queueNotice; split
  · exact State.noticeLost_hard _ _
  · rfl
theorem State.hardEvent_hard (e : Event) : (s.hardEvent e).fnu.hard = s.fnu.hard.give e s.swp.mt := by
  unfold State.hardEvent; dsimp only; split
  · rfl
  · rw [State.queueNotice_hard]

theorem State.returnTokens_hard (i : Nat) (g : Slot) :
    (s.returnTokens i g).fnu.hard =
      if (s.poolLive g.pool).used g.cls < g.cost then s.fnu.hard.give ⟨0x83, i, g.pool, g.owner⟩ s.swp.mt else s.fnu.hard := by
  unfold State.returnTokens; dsimp only; split
  · rw [State.liveUnderflow, State.hardEvent_hard]; rfl
  · rfl

theorem State.returnUnits_hard (i : Nat) (g : Slot) :
    (s.returnUnits i g).fnu.hard =
      if (s.featLive g.feature).hf < g.units then s.fnu.hard.give ⟨0x83, i, g.pool, g.owner⟩ s.swp.mt else s.fnu.hard := by
  unfold State.returnUnits; dsimp only; split
  · rw [State.liveUnderflow, State.hardEvent_hard]; rfl
  · rfl

theorem State.leaveChain_hard (i : Nat) :
    (s.leaveChain i).fnu.hard =
      if s.inChain i = true ∧ (s.client (s.slot i).ownerIdx).grants = 0 then
        s.fnu.hard.give ⟨0x84, (s.slot i).ownerIdx, 0, (s.client (s.slot i).ownerIdx).id⟩ s.swp.mt
      else s.fnu.hard := by
  unfold State.leaveChain State.inChain; dsimp only; split
  · rename_i h; rw [State.dropGrantCount, State.idleIfQuiet_fnu]; simp only [State.client_setClient, if_true, h, true_and]
    split
    · rw [State.countUnderflow, State.hardEvent_hard]; simp [State.setSuspect]
    · rfl
  · rename_i h; simp; intro h2; exact absurd (by simpa using h2) h

/-- The hard capture after a release: given the underflow of the tokens, of the units, and of the owner's count, in that order. -/
theorem State.releaseSlot_hard (i : Nat) :
    (s.releaseSlot i).fnu.hard =
      (let g := s.slot i
       let h1 := if (s.poolLive g.pool).used g.cls < g.cost then s.fnu.hard.give ⟨0x83, i, g.pool, g.owner⟩ s.swp.mt else s.fnu.hard
       let h2 := if s.unitsCounted g = true ∧ (s.featLive g.feature).hf < g.units then h1.give ⟨0x83, i, g.pool, g.owner⟩ s.swp.mt
         else h1
       if s.inChain i = true ∧ (s.client g.ownerIdx).grants = 0 then
         h2.give ⟨0x84, g.ownerIdx, 0, (s.client g.ownerIdx).id⟩ s.swp.mt else h2) := by
  have a : ∀ t : State, t.grt.slots = s.grt.slots → t.clt = s.clt → t.swp = s.swp → (t.leaveChain i).fnu.hard =
      if s.inChain i = true ∧ (s.client (s.slot i).ownerIdx).grants = 0 then
        t.fnu.hard.give ⟨0x84, (s.slot i).ownerIdx, 0, (s.client (s.slot i).ownerIdx).id⟩ s.swp.mt
      else t.fnu.hard := by
    intro t h1 h2 h3
    have e2 : ∀ j, t.client j = s.client j := State.client_congr (by rw [h2])
    rw [State.leaveChain_hard, State.inChain, State.inChain, State.slot_congr h1 i, e2, h3]
  have hfl : ∀ f, (s.returnTokens i (s.slot i)).featLive f = s.featLive f := State.featLive_congr (by simp)
  unfold State.releaseSlot State.releaseFrom; dsimp only
  simp only [if_true]
  split <;> split <;> simp only [State.freeSlot_fnu, State.rebuildPassed_fnu, State.leaveLinger_fnu] <;>
    (rw [a _ (by simp [State.returnUnits_grt, State.returnTokens_grt]) (by simp) (by simp)]) <;>
    simp_all [State.returnUnits_hard, State.returnTokens_hard]

/-- SUSPECT after a release: set by an underflow of the tokens, of the units, or of the owner's count. -/
theorem State.releaseSlot_suspect (i : Nat) :
    (s.releaseSlot i).grt.suspect =
      (s.grt.suspect || decide ((s.poolLive (s.slot i).pool).used (s.slot i).cls < (s.slot i).cost) ||
        (s.unitsCounted (s.slot i) && decide ((s.featLive (s.slot i).feature).hf < (s.slot i).units)) ||
        (s.inChain i && decide ((s.client (s.slot i).ownerIdx).grants = 0))) := by
  have a : ∀ t : State, t.grt.slots = s.grt.slots → t.clt = s.clt →
      t.inChain i = s.inChain i ∧ t.slot i = s.slot i ∧ ∀ j, t.client j = s.client j := by
    intro t h1 h2
    have e1 := State.slot_congr h1 i
    have e2 : ∀ j, t.client j = s.client j := State.client_congr (by rw [h2])
    exact ⟨by rw [State.inChain, State.inChain, e1, e2], e1, e2⟩
  have hfl : ∀ f, (s.returnTokens i (s.slot i)).featLive f = s.featLive f := State.featLive_congr (by simp)
  unfold State.releaseSlot State.releaseFrom; dsimp only
  simp only [if_true]
  split <;> split <;>
    simp only [State.freeSlot, State.setSlot, State.leaveLinger, State.setLinger, State.rebuildPassed_grt, State.leaveChain_grt] <;>
    simp [State.returnUnits_grt, State.returnTokens_grt, *]

end Sys2Proof.Machine
end

