-- ==== Sys2Proof/Laws/Runs.lean ====
section
/-!
SUPPORT. Laws/Runs.lean: what the operations that follow an effect do when the memories hold no error and the pressure checks they make
do not hold: the runs of R43 and R41, the recall of R41, the reads of a chain walk, the note of R67.
-/
namespace Sys2Proof.Machine

/-! ### The parts a pressure check reads -/

/-- A pressure check reads the service state, the pool live records, the banks, and MT. -/
theorem State.pressureStands_congr {s t : State} (h1 : t.ada.service = s.ada.service) (h2 : t.adm.pools = s.adm.pools)
    (h3 : t.tbs = s.tbs) (h4 : t.swp.mt = s.swp.mt) (p : Nat) (l : Bool) : t.PressureStands p l ↔ s.PressureStands p l := by
  have e1 : ∀ p, t.poolLive p = s.poolLive p := State.poolLive_congr h2
  have e2 : t.activeBank = s.activeBank := State.activeBank_congr h3
  have e3 : t.poolEntry p = s.poolEntry p := by simp only [State.poolEntry, e2]
  have e4 : t.freeMeasure p = s.freeMeasure p := by simp only [State.freeMeasure, State.ce, e3, e1]
  simp only [State.PressureStands, h1, e1, e4, State.lowMark, State.highMark, State.minResidency, e3, State.secondsSince, h4]

theorem State.mappedPool_congr {s t : State} (h : t.tbs = s.tbs) (i : Nat) : t.mappedPool i = s.mappedPool i := by
  simp only [State.mappedPool, State.featureEntry, State.activeBank_congr h]

@[simp] theorem State.startRun_pools (s : State) (p : Nat) : (s.startRun p).adm.pools = s.adm.pools := by
  unfold State.startRun; split <;> [rfl; (split <;> rfl)]
@[simp] theorem State.startRun_features (s : State) (p : Nat) : (s.startRun p).adm.features = s.adm.features := by
  unfold State.startRun; split <;> [rfl; (split <;> rfl)]

theorem State.startRun_pressureStands (s : State) (q p : Nat) (l : Bool) : (s.startRun q).PressureStands p l ↔ s.PressureStands p l :=
  State.pressureStands_congr (by simp) (by simp) (by simp) (by simp) p l

@[simp] theorem RunStage.caused_caused (x : RunStage) : x.caused.caused = x.caused := by cases x <;> rfl

/-- Causes under COUNT REBUILD start no run (R57). -/
theorem State.startRun_rebuild {s : State} (h : s.ada.op.isRebuild = true) (p : Nat) : s.startRun p = s := if_pos h

/-- With no run of the pool in progress a cause starts one (R57). -/
theorem State.startRun_new {s : State} (h : s.ada.op.isRebuild = false) {p : Nat} (hr : ∀ r ∈ s.adm.runs, r.pool ≠ p) :
    s.startRun p = { s with adm.runs := s.adm.runs ++ [⟨p, [], .priority⟩] } := by
  rw [State.startRun, if_neg (by simp [h]), if_neg (by simpa using hr)]

/-- With a run of the pool in progress a cause starts none, and a parted round remembers it (R57, R62). -/
theorem State.startRun_again {s : State} (h : s.ada.op.isRebuild = false) {p : Nat} (hr : ∃ r ∈ s.adm.runs, r.pool = p) :
    s.startRun p = s.mapRun p (fun r => { r with stage := r.stage.caused }) := by
  rw [State.startRun, if_neg (by simp [h]), if_pos (by simpa using hr)]

/-- A change that leaves the runs of the pool as they are changes nothing. -/
theorem State.mapRun_self {s : State} {p : Nat} {f : Run → Run} (h : ∀ r ∈ s.adm.runs, r.pool = p → f r = r) : s.mapRun p f = s := by
  have : s.adm.runs.map (fun r => if r.pool == p then f r else r) = s.adm.runs := by
    refine (List.map_congr_left fun r hm => ?_).trans (List.map_id _)
    by_cases hp : r.pool = p
    · simp [hp, h r hm hp]
    · simp [hp]
  rw [State.mapRun, this]

/-- A second cause changes no more than the first (R57). -/
theorem State.startRun_startRun (s : State) (p : Nat) : (s.startRun p).startRun p = s.startRun p := by
  by_cases h : s.ada.op.isRebuild = true
  · rw [State.startRun_rebuild h, State.startRun_rebuild h]
  · rw [Bool.not_eq_true] at h
    have key : ∀ t : State, t.ada.op.isRebuild = false → (∃ r ∈ t.adm.runs, r.pool = p) →
        (∀ r ∈ t.adm.runs, r.pool = p → r.stage.caused = r.stage) → t.startRun p = t := by
      intro t ht hr hc
      rw [State.startRun_again ht hr]
      exact State.mapRun_self fun r hm hp => by rw [hc r hm hp]
    refine key _ (by simpa using h) ?_ ?_ <;> by_cases hr : ∃ r ∈ s.adm.runs, r.pool = p
    · obtain ⟨r, hm, hp⟩ := id hr
      rw [State.startRun_again h hr]
      exact ⟨_, List.mem_map_of_mem hm, by simp [hp]⟩
    · rw [State.startRun_new h fun r hm hp => hr ⟨r, hm, hp⟩]
      exact ⟨_, List.mem_append_right _ (List.mem_singleton_self _), rfl⟩
    · rw [State.startRun_again h hr]
      intro r hm hp
      obtain ⟨r0, -, rfl⟩ := List.mem_map.1 hm
      by_cases h0 : r0.pool = p
      · simp [h0]
      · simp [h0] at hp
    · have hn : ∀ r ∈ s.adm.runs, r.pool ≠ p := fun r hm hp => hr ⟨r, hm, hp⟩
      rw [State.startRun_new h hn]
      intro r hm hp
      rcases List.mem_append.1 hm with hm | hm
      · exact absurd hp (hn r hm)
      · rw [List.mem_singleton.1 hm]; rfl

/-! ### After a release, after a recall -/

/-- What follows a release whose checks do not hold: the service runs (R43). -/
theorem afterRelease_stands {s : State} (h : s.damage = []) {r : Released} (hr : s.ReleaseStands r) :
    afterRelease r s = .ok () (s.releaseRuns r) := by
  have hd : (s.startRun r.pool).damage = [] := by simp [h]
  have hm : (s.startRun r.pool).mappedPool r.feature = s.mappedPool r.feature := State.mappedPool_congr (by simp) _
  rw [afterRelease, Op.bind_ok (pressure_stands h hr.1), Op.modify_bind]
  unfold State.releaseRuns
  by_cases hl : r.lowered = true
  · rw [if_pos hl, hfFellElsewhere, checkActive_bind_clean hd, Op.get_bind, hm]
    cases hq : s.mappedPool r.feature with
    | none => rfl
    | some q =>
      by_cases hp : q = r.pool
      · simp [hp]
      · have hs := (hr.2 hl q hq).resolve_left hp
        simp only [hp, if_false]
        rw [Op.bind_ok (pressure_stands hd ((s.startRun_pressureStands r.pool q false).2 hs)), Op.modify_apply]
        simp [hl, hp]
  · rw [if_neg hl, Op.pure_apply]
    cases hq : s.mappedPool r.feature <;> simp [hl]

/-- What follows a recall that lowered Hf, its check not holding (R41). -/
theorem afterRecall_stands {s : State} (h : s.damage = []) {pool feature : Nat}
    (hr : ∀ q, s.mappedPool feature = some q → q = pool ∨ s.PressureStands q false) :
    afterRecall pool feature s = .ok () (match s.mappedPool feature with | some q => s.startRun q | none => s) := by
  rw [afterRecall]
  have hf : hfFellElsewhere pool feature s =
      .ok () (match s.mappedPool feature with | some q => if q = pool then s else s.startRun q | none => s) := by
    rw [hfFellElsewhere, checkActive_bind_clean h, Op.get_bind]
    cases hq : s.mappedPool feature with
    | none => rfl
    | some q =>
      by_cases hp : q = pool
      · simp [hp]
      · simp only [hp, if_false]
        rw [Op.bind_ok (pressure_stands h ((hr q hq).resolve_left hp)), Op.modify_apply]
  rw [Op.bind_ok hf, Op.get_bind]
  cases hq : s.mappedPool feature with
  | none => simp [hq]
  | some q =>
    by_cases hp : q = pool
    · subst hp; simp [hq]
    · have hm : (s.startRun q).mappedPool feature = some q := (State.mappedPool_congr (by simp) _).trans hq
      simp [hp, hm, State.startRun_startRun]

/-! ### Recall -/

/-- A recall of a HELD or STALE grant, its check not holding (R41). -/
theorem recallGrant_held {s : State} (h : s.damage = []) {i : Nat} (r : Reason) (note : Recalled → State → State)
    (hs : (s.slot i).state = .held ∨ (s.slot i).state = .stale)
    (hd : (note .recalled (s.recallHeld i r)).damage = []) (ht : (note .recalled (s.recallHeld i r)).tbs = s.tbs)
    (hr : s.RecallStands i (note .recalled (s.recallHeld i r))) :
    recallGrant i r note s = .ok () (s.recallRuns i (note .recalled (s.recallHeld i r))) := by
  have hm : ∀ f, (note .recalled (s.recallHeld i r)).mappedPool f = s.mappedPool f := State.mappedPool_congr ht
  rw [recallGrant, readSlot_bind_clean h]
  rcases hs with hs | hs <;> simp only [hs] <;> rw [Op.get_bind, checkAll_bind_clean h, Op.get_bind, Op.set_bind]
  all_goals
    unfold State.recallRuns
    by_cases hl : (s.unitsCounted (s.slot i) && decide (0 < (s.featLive (s.slot i).feature).hf)) = true
    · have hl2 : s.recallLowers i := by simpa [State.recallLowers] using hl
      rw [if_pos hl, afterRecall_stands hd]
      · rw [hm]; cases s.mappedPool (s.slot i).feature <;> simp [hl]
      · intro q hq; rw [hm] at hq; exact hr hl2 q hq
    · rw [if_neg hl, Op.pure_apply]
      cases s.mappedPool (s.slot i).feature <;> simp [hl]

/-- A recall of a LINGER grant is its release (R41). -/
theorem recallGrant_linger {s : State} (h : s.damage = []) {i : Nat} (r : Reason) (note : Recalled → State → State)
    (hs : (s.slot i).state = .linger) (hd : (note .released (s.releaseSlot i)).damage = [])
    (hr : (note .released (s.releaseSlot i)).ReleaseStands (s.releasedOf i)) :
    recallGrant i r note s = .ok () ((note .released (s.releaseSlot i)).releaseRuns (s.releasedOf i)) := by
  rw [recallGrant, readSlot_bind_clean h]
  simp only [hs]
  rw [Op.bind_ok (release_live h (by simp [hs, GState.live]))]
  simp only []
  rw [Op.modify_bind, afterRelease_stands hd hr]

/-- A recall leaves a RECALLED, FREE or BAD slot as it is (R41). -/
theorem recallGrant_other {s : State} (h : s.damage = []) {i : Nat} (r : Reason) (note : Recalled → State → State)
    (hs : (s.slot i).state = .recalled ∨ (s.slot i).state = .free ∨ (s.slot i).state = .bad) :
    recallGrant i r note s = .ok () s := by
  rw [recallGrant, readSlot_bind_clean h]
  rcases hs with hs | hs | hs <;> simp [hs]

/-! ### Chain walks, contacts, removals -/

theorem readSlots_clean {s : State} (h : s.damage = []) (l : List Nat) : readSlots l s = .ok () s := by
  induction l with
  | nil => rfl
  | cons a l ih => rw [readSlots, readSlot_bind_clean h, ih]

/-- A served RENEW, YIELD or WITHDRAW writes its client's entry, if it has one (R67). -/
theorem contact_clean {s : State} (h : s.damage = []) (d : Cand) : contact d s = .ok () (s.contacted d) := by
  rw [contact, Op.get_bind, State.contacted]
  cases s.findClient (cexClient d.payload) with
  | none => rfl
  | some i => simp only []; rw [checkAll_bind_clean h, Op.modify_apply]

theorem State.contacted_same (s : State) (d : Cand) : s.contacted d = { s with clt := (s.contacted d).clt } := by
  unfold State.contacted; split
  · unfold State.noteContact State.idleToTail; split <;> rfl
  · rfl

/-- A removal that starts the service run of its pool when it took the head (R52). -/
theorem removeWaiter_serve {s : State} (h : s.damage = []) (i : Nat) (r : Reason) (reply : Option Cand) :
    removeWaiter i r reply true s = .ok () (s.removed i r reply) := by
  rw [removeWaiter_clean h, State.removed]
  by_cases hq : (s.queue (s.waiter i).pool (s.waiter i).cls).head? = some i <;> simp [hq]

end Sys2Proof.Machine
end

