-- ==== Sys2Proof/Laws/Checks.lean ====
section
/-!
SUPPORT. Laws/Checks.lean: what a pressure check that goes no further than its pool does, entry to CONSTRAINED and leaving it included
(`State.checked`), and the checks and runs that follow a release or a recall.
-/
namespace Sys2Proof.Machine

/-- The releases of a linger list whose features map to no other pool (R82 point 2). -/
theorem drainLinger_own {p : Nat} (other : Nat → Op Unit) (l : List Nat) : ∀ s : State, s.damage = [] → l.Nodup →
    (∀ i ∈ l, (s.slot i).state.live = true ∧ ∀ q, s.mappedPool (s.slot i).feature = some q → q = p) →
    drainLinger p other l s = .ok () (l.foldl (fun t i => t.releaseSlot i) s) := by
  induction l with
  | nil => intro s _ _ _; rfl
  | cons i l ih =>
    intro s h hn hl
    obtain ⟨hlive, hmap⟩ := hl i (by simp)
    have hd : (s.releaseSlot i).damage = [] := by simp [h]
    have hm : ∀ f, (s.releaseSlot i).mappedPool f = s.mappedPool f := State.mappedPool_congr (by simp)
    have hrest : ∀ j ∈ l, ((s.releaseSlot i).slot j).state.live = true ∧
        ∀ q, (s.releaseSlot i).mappedPool ((s.releaseSlot i).slot j).feature = some q → q = p := by
      intro j hj
      have hji : j ≠ i := fun e => (List.nodup_cons.1 hn).1 (e ▸ hj)
      rw [State.releaseSlot, State.slot_releaseFrom, if_neg hji, ← State.releaseSlot, hm]
      exact hl j (List.mem_cons_of_mem _ hj)
    have hgo := ih _ hd (List.nodup_cons.1 hn).2 hrest
    rw [drainLinger, Op.bind_ok (release_live h hlive)]
    by_cases hw : (s.releasedOf i).lowered = true
    · simp only [hw, if_true]
      rw [checkActive_bind_clean hd, Op.get_bind, hm]
      cases hq : s.mappedPool (s.releasedOf i).feature with
      | none => exact hgo
      | some q => simp only [hmap q hq, if_true]; exact hgo
    · simp only [hw]; exact hgo

theorem State.checked_enters {s : State} {p : Nat} {l : Bool} (h : s.PressureEnters p) :
    s.checked p l = (s.lingerReleased p).entryService p := if_pos h

theorem State.checked_leaves {s : State} {p : Nat} (h : s.PressureLeaves p) :
    s.checked p true =
      (s.setPoolLive p { s.poolLive p with pressure := .normal, entryTime := s.swp.mt }).pressureNotice p .normal s.swp.mt := by
  have he : ¬ s.PressureEnters p := fun he => by have := he.2.1; rw [h.2.1] at this; cases this
  rw [State.checked, if_neg he, if_pos ⟨rfl, h⟩]

theorem State.checked_stands {s : State} {p : Nat} {l : Bool} (he : ¬ s.PressureEnters p) (hl : ¬ (l = true ∧ s.PressureLeaves p)) :
    s.checked p l = s := by rw [State.checked, if_neg he, if_neg hl]

/-- A pressure check that goes no further than its pool (R81 to R84). -/
theorem pressure_settles {s : State} (h : s.damage = []) {p : Nat} {leave : Bool} (hs : s.PressureSettles p) :
    pressure p leave s = .ok () (s.checked p leave) := by
  by_cases he : s.PressureEnters p
  · obtain ⟨hf, hp, hm⟩ := id he
    obtain ⟨hn, hl⟩ := hs he
    have hd : (s.enterPressure p .constrained).damage = [] := by simp [h]
    have hm2 : ∀ f, (s.enterPressure p .constrained).mappedPool f = s.mappedPool f := State.mappedPool_congr (by simp)
    have hsl : ∀ i, (s.enterPressure p .constrained).slot i = s.slot i := State.slot_congr (by simp)
    rw [State.checked_enters he, pressure, pressureCheck, Op.get_bind, if_neg hf, check_bind_clean h, checkActive_bind_clean h, Op.get_bind]
    simp only [hp]
    rw [if_pos hm, Op.set_bind, Op.bind_ok (drainLinger_own _ _ _ hd hn fun i hi => ?_)]
    · rfl
    · rw [hsl, hm2, (hl i hi).1]; exact ⟨rfl, (hl i hi).2.2⟩
  · by_cases hl : leave = true ∧ s.PressureLeaves p
    · obtain ⟨rfl, hv⟩ := hl
      obtain ⟨hf, hp, h1, h2⟩ := id hv
      rw [State.checked_leaves hv, pressure, pressureCheck, Op.get_bind, if_neg hf, check_bind_clean h, checkActive_bind_clean h, Op.get_bind]
      simp only [hp]
      rw [if_pos (by simp [h1, h2])]; rfl
    · rw [State.checked_stands he hl]
      refine pressure_stands h ?_
      by_cases hf : s.ada.service = .faulted
      · exact Or.inl hf
      · right
        cases hp : (s.poolLive p).pressure with
        | normal => exact Or.inl ⟨rfl, Nat.le_of_not_lt fun hm => he ⟨hf, hp, hm⟩⟩
        | constrained =>
          refine Or.inr ⟨rfl, fun hx => ?_⟩
          by_contra hc
          simp only [not_or, Nat.not_lt] at hc
          exact hl ⟨hx, hf, hp, hc.1, hc.2⟩

theorem State.lingerReleased_keep {α : Type} (f : State → α) (h1 : ∀ (s : State) i, f (s.releaseSlot i) = f s)
    (h2 : ∀ (s : State) p l, f (s.setPoolLive p l) = f s) (h3 : ∀ (s : State) p l, f (s.setLinger p l) = f s) (s : State) (p : Nat) :
    f (s.lingerReleased p) = f s := by
  have hfold : ∀ (l : List Nat) (s : State), f (l.foldl (fun t i => t.releaseSlot i) s) = f s := by
    intro l; induction l with
    | nil => intro s; rfl
    | cons i l ih => intro s; rw [List.foldl_cons, ih, h1]
  rw [State.lingerReleased, h3, hfold, h2]

theorem State.checked_keep {α : Type} (f : State → α) (h1 : ∀ (s : State) i, f (s.releaseSlot i) = f s)
    (h2 : ∀ (s : State) p l, f (s.setPoolLive p l) = f s) (h3 : ∀ (s : State) p l, f (s.setLinger p l) = f s)
    (h4 : ∀ (s : State) p, f (s.entryService p) = f s) (h5 : ∀ (s : State) p st t, f (s.pressureNotice p st t) = f s)
    (s : State) (p : Nat) (l : Bool) : f (s.checked p l) = f s := by
  unfold State.checked; split
  · rw [h4, s.lingerReleased_keep f h1 h2 h3]
  · split
    · rw [h5, h2]
    · rfl

@[simp] theorem State.checked_tbs (s : State) (p : Nat) (l : Bool) : (s.checked p l).tbs = s.tbs :=
  s.checked_keep State.tbs (by simp) (by simp) (by simp) (by simp) (by simp) p l
@[simp] theorem State.checked_damage (s : State) (p : Nat) (l : Bool) : (s.checked p l).damage = s.damage :=
  s.checked_keep State.damage (by simp) (by simp) (by simp) (by simp) (by simp) p l

/-- What follows a release whose checks go no further than their pools (R43). -/
theorem afterRelease_settles {s : State} (h : s.damage = []) {r : Released} (hr : s.ReleaseSettles r) :
    afterRelease r s = .ok () (s.releaseChecked r) := by
  have hd : ((s.checked r.pool true).startRun r.pool).damage = [] := by simp [h]
  have hm : ((s.checked r.pool true).startRun r.pool).mappedPool r.feature = s.mappedPool r.feature :=
    State.mappedPool_congr (by simp) _
  rw [afterRelease, Op.bind_ok (pressure_settles h hr.1), Op.modify_bind, State.releaseChecked]
  by_cases hl : r.lowered = true
  · rw [if_pos hl, hfFellElsewhere, checkActive_bind_clean hd, Op.get_bind, hm]
    cases hq : s.mappedPool r.feature with
    | none => rfl
    | some q =>
      by_cases hp : q = r.pool
      · simp [hp]
      · simp only [hp, if_false, hl, true_and]
        rw [Op.bind_ok (pressure_settles hd (hr.2 q hl hq hp)), Op.modify_apply]
        simp [hp]
  · rw [if_neg hl, Op.pure_apply]
    cases hq : s.mappedPool r.feature <;> simp [hl]

/-- What follows a recall that lowered Hf, its check going no further than its pool (R41). -/
theorem afterRecall_settles {s : State} (h : s.damage = []) {pool feature : Nat}
    (hr : ∀ q, s.mappedPool feature = some q → q = pool ∨ s.PressureSettles q) :
    afterRecall pool feature s = .ok () (match s.mappedPool feature with
      | some q => (if q = pool then s else s.checked q false).startRun q | none => s) := by
  rw [afterRecall]
  have hf : hfFellElsewhere pool feature s =
      .ok () (match s.mappedPool feature with
        | some q => if q = pool then s else (s.checked q false).startRun q | none => s) := by
    rw [hfFellElsewhere, checkActive_bind_clean h, Op.get_bind]
    cases hq : s.mappedPool feature with
    | none => rfl
    | some q =>
      by_cases hp : q = pool
      · simp [hp]
      · simp only [hp, if_false]
        rw [Op.bind_ok (pressure_settles h ((hr q hq).resolve_left hp)), Op.modify_apply]
  rw [Op.bind_ok hf, Op.get_bind]
  cases hq : s.mappedPool feature with
  | none => simp [hq]
  | some q =>
    by_cases hp : q = pool
    · subst hp; simp [hq]
    · have hm : ((s.checked q false).startRun q).mappedPool feature = some q := (State.mappedPool_congr (by simp) _).trans hq
      simp [hp, hm, State.startRun_startRun]

/-- A recall of a HELD or STALE grant, its check going no further than its pool (R41). -/
theorem recallGrant_held_settles {s : State} (h : s.damage = []) {i : Nat} (r : Reason) (note : Recalled → State → State)
    (hs : (s.slot i).state = .held ∨ (s.slot i).state = .stale)
    (hd : (note .recalled (s.recallHeld i r)).damage = []) (ht : (note .recalled (s.recallHeld i r)).tbs = s.tbs)
    (hr : s.RecallSettles i (note .recalled (s.recallHeld i r))) :
    recallGrant i r note s = .ok () (s.recallChecked i (note .recalled (s.recallHeld i r))) := by
  have hm : ∀ f, (note .recalled (s.recallHeld i r)).mappedPool f = s.mappedPool f := State.mappedPool_congr ht
  rw [recallGrant, readSlot_bind_clean h]
  rcases hs with hs | hs <;> simp only [hs] <;> rw [Op.get_bind, checkAll_bind_clean h, Op.get_bind, Op.set_bind]
  all_goals
    unfold State.recallChecked
    by_cases hl : (s.unitsCounted (s.slot i) && decide (0 < (s.featLive (s.slot i).feature).hf)) = true
    · have hl2 : s.recallLowers i := by simpa [State.recallLowers] using hl
      rw [if_pos hl, afterRecall_settles hd]
      · rw [hm]; cases s.mappedPool (s.slot i).feature <;> simp [hl]
      · intro q hq; rw [hm] at hq; exact hr hl2 q hq
    · rw [if_neg hl, Op.pure_apply]
      cases s.mappedPool (s.slot i).feature <;> simp [hl]

/-- A recall of a LINGER grant is its release (R41). -/
theorem recallGrant_linger_settles {s : State} (h : s.damage = []) {i : Nat} (r : Reason) (note : Recalled → State → State)
    (hs : (s.slot i).state = .linger) (hd : (note .released (s.releaseSlot i)).damage = [])
    (hr : (note .released (s.releaseSlot i)).ReleaseSettles (s.releasedOf i)) :
    recallGrant i r note s = .ok () ((note .released (s.releaseSlot i)).releaseChecked (s.releasedOf i)) := by
  rw [recallGrant, readSlot_bind_clean h]
  simp only [hs]
  rw [Op.bind_ok (release_live h (by simp [hs, GState.live]))]
  simp only []
  rw [Op.modify_bind, afterRelease_settles hd hr]

end Sys2Proof.Machine
end

