-- ==== Sys2Proof/Laws/GrantsSound.lean ====
section
/-!
SUPPORT. Laws/GrantsSound.lean: the soundness of the grant table (State.GrantsSound) under the effects: what it reads, and that the
creation, the release, the loss, the visits and the completion of a rebuild keep it.
-/
namespace Sys2Proof.Machine

/-! ### Sums -/

theorem sumBelow_succ (f : Nat → Nat) (n : Nat) : sumBelow f (n+1) = sumBelow f n + f n := by
  simp [sumBelow, List.range_succ]

/-- Sums of functions equal below `n`. -/
theorem sumBelow_congr {f g : Nat → Nat} {n : Nat} (h : ∀ i < n, f i = g i) : sumBelow f n = sumBelow g n := by
  induction n with
  | zero => rfl
  | succ n ih => rw [sumBelow_succ, sumBelow_succ, ih (fun i hi => h i (by omega)), h n (by omega)]

/-- One index changed. -/
theorem sumBelow_change {f g : Nat → Nat} {i : Nat} (h : ∀ j, j ≠ i → f j = g j) (n : Nat) :
    sumBelow f n + (if i < n then g i else 0) = sumBelow g n + (if i < n then f i else 0) := by
  induction n with
  | zero => rfl
  | succ n ih =>
    rw [sumBelow_succ, sumBelow_succ]
    by_cases hi : i = n
    · subst hi
      have : sumBelow f i = sumBelow g i := sumBelow_congr fun j hj => h j (by omega)
      simp; omega
    · have := h n (Ne.symm hi)
      by_cases hl : i < n
      · have h2 : i < n + 1 := by omega
        simp only [hl, h2, if_true] at ih ⊢; omega
      · have h2 : ¬ i < n + 1 := by omega
        simp only [hl, h2, if_false] at ih ⊢; omega

/-- Zeros at and above `n` add nothing. -/
theorem sumBelow_ext {f : Nat → Nat} {n m : Nat} (h : ∀ i, n ≤ i → f i = 0) (hm : n ≤ m) : sumBelow f m = sumBelow f n := by
  induction m with
  | zero => have : n = 0 := by omega
            subst this; rfl
  | succ m ih =>
    by_cases e : n = m + 1
    · subst e; rfl
    · rw [sumBelow_succ, ih (by omega), h m (by omega)]; rfl

/-! ### What a slot adds -/

theorem PoolLive.used_setUsed (l : PoolLive) (c d : Cls) (n : Nat) : (l.setUsed c n).used d = if d = c then n else l.used d := by
  cases c <;> cases d <;> rfl

theorem Slot.tokens_dead {g : Slot} (h : g.state.live = false) (p c) : g.tokens p c = 0 := by simp [Slot.tokens, h]

theorem Slot.counts_dead {g : Slot} (h : g.state.live = false) : g.counts = 0 := by simp [Slot.counts, h]

theorem State.tokenSum_eq (s : State) (p : Nat) (c : Cls) : s.tokenSum p c = s.tokensBelow Config.slots p c := rfl

/-- Sums after slot `i` alone changed. -/
theorem State.liveBelow_change {s t : State} {i : Nat} (h : ∀ j, j ≠ i → t.slot j = s.slot j) (n : Nat) :
    t.liveBelow n + (if i < n then (s.slot i).counts else 0) = s.liveBelow n + (if i < n then (t.slot i).counts else 0) :=
  sumBelow_change (f := fun j => (t.slot j).counts) (g := fun j => (s.slot j).counts) (fun j hj => by simp only [h j hj]) n

theorem State.tokensBelow_change {s t : State} {i : Nat} (h : ∀ j, j ≠ i → t.slot j = s.slot j) (n p : Nat) (c : Cls) :
    t.tokensBelow n p c + (if i < n then (s.slot i).tokens p c else 0) = s.tokensBelow n p c + (if i < n then (t.slot i).tokens p c else 0) :=
  sumBelow_change (f := fun j => (t.slot j).tokens p c) (g := fun j => (s.slot j).tokens p c) (fun j hj => by simp only [h j hj]) n

/-! ### The operation in the slot and the service state -/

theorem State.originate_op (s : State) (p : Port) (n) (a : Addressing) (b : List Byte) : (s.originate p n a b).ada.op = s.ada.op := by
  unfold State.originate; dsimp only; split
  · simp
  · cases n <;> simp [State.countDropped]

@[simp] theorem State.enterService_op (s : State) (n : Service) : (s.enterService n).ada.op = s.ada.op := by
  simp [State.enterService]

@[simp] theorem State.replyTo_op (s : State) (d : Cand) (m : CexMsg) : (s.replyTo d m).ada.op = s.ada.op := State.originate_op ..

@[simp] theorem State.tell_op (s : State) (c : Client) (i t) (m : CexMsg) : (s.tell c i t m).ada.op = s.ada.op := State.originate_op ..

@[simp] theorem State.adminSend_op (s : State) (d c r b) : (s.adminSend d c r b).ada.op = s.ada.op := State.originate_op ..

@[simp] theorem State.adminReply_op (s : State) (d r b) : (s.adminReply d r b).ada.op = s.ada.op := State.originate_op ..

@[simp] theorem State.longReply_op (s : State) (r b) : (s.longReply r b).ada.op = s.ada.op := State.originate_op ..

@[simp] theorem State.countGranted_op (s : State) : s.countGranted.ada.op = s.ada.op := rfl

@[simp] theorem State.countDenied_op (s : State) : s.countDenied.ada.op = s.ada.op := rfl

@[simp] theorem State.countDeferred_op (s : State) : s.countDeferred.ada.op = s.ada.op := rfl

@[simp] theorem State.countReclaimed_op (s : State) : s.countReclaimed.ada.op = s.ada.op := rfl

@[simp] theorem State.countDropped_op (s : State) : s.countDropped.ada.op = s.ada.op := rfl

@[simp] theorem State.countForwarded_op (s : State) : s.countForwarded.ada.op = s.ada.op := rfl

@[simp] theorem State.denyClaim_op (s : State)
    (d r c) : (s.denyClaim d r c).ada.op = s.ada.op := by simp [State.denyClaim, State.countDenied]

@[simp] theorem State.denyMalformed_op (s : State)
    (d) : (s.denyMalformed d).ada.op = s.ada.op := by simp [State.denyMalformed, State.countDenied]

@[simp] theorem State.handBack_op (s : State) (d) : (s.handBack d).ada.op = s.ada.op := by
  unfold State.handBack; dsimp only; split <;> simp [State.countForwarded]

theorem State.rebuildPassed_op (s : State) (i f) :
    (s.rebuildPassed i f).ada.op = match s.ada.op with
      | .rebuild r => if i < r.cursor then .rebuild (f r) else .rebuild r
      | x => x := by
  unfold State.rebuildPassed
  cases h : s.ada.op <;> simp [h]
  split <;> simp [h]

theorem State.mapRebuild_op (s : State) (f) :
    (s.mapRebuild f).ada.op = match s.ada.op with | .rebuild r => .rebuild (f r) | x => x := by
  unfold State.mapRebuild; cases h : s.ada.op <;> simp [h]

theorem State.originate_service (s : State) (p : Port) (n) (a : Addressing)
    (b : List Byte) : (s.originate p n a b).ada.service = s.ada.service := by
  unfold State.originate; dsimp only; split
  · simp
  · cases n <;> simp [State.countDropped]

@[simp] theorem State.replyTo_service (s : State) (d : Cand)
    (m : CexMsg) : (s.replyTo d m).ada.service = s.ada.service := State.originate_service ..

@[simp] theorem State.tell_service (s : State) (c : Client) (i t)
    (m : CexMsg) : (s.tell c i t m).ada.service = s.ada.service := State.originate_service ..

@[simp] theorem State.adminSend_service (s : State)
    (d c r b) : (s.adminSend d c r b).ada.service = s.ada.service := State.originate_service ..

@[simp] theorem State.adminReply_service (s : State)
    (d r b) : (s.adminReply d r b).ada.service = s.ada.service := State.originate_service ..

@[simp] theorem State.longReply_service (s : State) (r b) : (s.longReply r b).ada.service = s.ada.service := State.originate_service ..

@[simp] theorem State.countGranted_service (s : State) : s.countGranted.ada.service = s.ada.service := rfl

@[simp] theorem State.countDenied_service (s : State) : s.countDenied.ada.service = s.ada.service := rfl

@[simp] theorem State.countDeferred_service (s : State) : s.countDeferred.ada.service = s.ada.service := rfl

@[simp] theorem State.countReclaimed_service (s : State) : s.countReclaimed.ada.service = s.ada.service := rfl

@[simp] theorem State.countDropped_service (s : State) : s.countDropped.ada.service = s.ada.service := rfl

@[simp] theorem State.countForwarded_service (s : State) : s.countForwarded.ada.service = s.ada.service := rfl

@[simp] theorem State.denyClaim_service (s : State)
    (d r c) : (s.denyClaim d r c).ada.service = s.ada.service := by simp [State.denyClaim]

@[simp] theorem State.denyMalformed_service (s : State)
    (d) : (s.denyMalformed d).ada.service = s.ada.service := by simp [State.denyMalformed]

@[simp] theorem State.handBack_service (s : State) (d) : (s.handBack d).ada.service = s.ada.service := by
  unfold State.handBack; dsimp only; split <;> simp

@[simp] theorem State.rebuildPassed_service (s : State) (i f) : (s.rebuildPassed i f).ada.service = s.ada.service := by
  unfold State.rebuildPassed; split
  · split <;> rfl
  · rfl

/-! ### Frames: what the soundness of the grant table reads -/

/-- The scan of a rebuild, if one is left, is the one before but for what this invariant does not read. -/
def SameScan (a b : LongOp) : Prop :=
  ∀ r, b = .rebuild r → ∃ r0, a = .rebuild r0 ∧ r.cursor = r0.cursor ∧ r.live = r0.live ∧ ∀ p c, r.sum c p = r0.sum c p

theorem SameScan.refl (a : LongOp) : SameScan a a := fun r h => ⟨r, h, rfl, rfl, fun _ _ => rfl⟩

theorem SameScan.of_eq {a b : LongOp} (h : b = a) : SameScan a b := h ▸ .refl a

theorem SameScan.not {a b : LongOp} (h : b.isRebuild = false) : SameScan a b := fun r e => by subst e; cases h

theorem SameScan.trans {a b c : LongOp} (h : SameScan a b) (k : SameScan b c) : SameScan a c := by
  intro r e
  obtain ⟨r1, e1, a1, a2, a3⟩ := k r e
  obtain ⟨r0, e0, b1, b2, b3⟩ := h r1 e1
  exact ⟨r0, e0, by omega, by omega, fun p c => (a3 p c).trans (b3 p c)⟩

/-- Two records of a slot that count alike: both FREE or neither, live alike, with the same tokens. -/
def SlotSame (g g' : Slot) : Prop :=
  (g'.state = .free ↔ g.state = .free) ∧ g'.counts = g.counts ∧ g'.state.live = g.state.live ∧ ∀ p c, g'.tokens p c = g.tokens p c

theorem SlotSame.refl (g : Slot) : SlotSame g g := ⟨Iff.rfl, rfl, rfl, fun _ _ => rfl⟩

theorem SlotSame.of_eq {g g' : Slot} (h : g' = g) : SlotSame g g' := h ▸ .refl g

/-- A slot that stays live with its pool, class and cost. -/
theorem SlotSame.live {g g' : Slot} (h : g.state.live = true) (h' : g'.state.live = true) (hp : g'.pool = g.pool) (hc : g'.cls = g.cls)
    (hk : g'.cost = g.cost) : SlotSame g g' := by
  refine ⟨⟨fun e => ?_, fun e => ?_⟩, ?_, ?_, fun p c => ?_⟩
  · rw [e] at h'; cases h'
  · rw [e] at h; cases h
  · simp [Slot.counts, h, h']
  · rw [h, h']
  · simp [Slot.tokens, h, h', hp, hc, hk]

/-- What soundness of the grant table reads stands, SUSPECT apart, which may have been set; a rebuild may have ended. -/
structure GrantsFrame (s t : State) : Prop where
  slots : ∀ i, SlotSame (s.slot i) (t.slot i)
  fifo : t.grt.freeFifo = s.grt.freeFifo
  total : t.grt.liveTotal = s.grt.liveTotal
  used : t.grt.suspect = false → s.grt.suspect = false ∧ ∀ p c, (t.poolLive p).used c = (s.poolLive p).used c
  scan : SameScan s.ada.op t.ada.op

theorem GrantsFrame.trans {s t u : State} (h : GrantsFrame s t) (k : GrantsFrame t u) : GrantsFrame s u where
  slots := fun i => by
    obtain ⟨a1, a2, a3, a4⟩ := h.slots i; obtain ⟨b1, b2, b3, b4⟩ := k.slots i
    exact ⟨b1.trans a1, b2.trans a2, b3.trans a3, fun p c => (b4 p c).trans (a4 p c)⟩
  fifo := k.fifo.trans h.fifo
  total := k.total.trans h.total
  used := fun hu => by
    obtain ⟨a, b⟩ := k.used hu; obtain ⟨c, d⟩ := h.used a
    exact ⟨c, fun p cl => (b p cl).trans (d p cl)⟩
  scan := h.scan.trans k.scan

/-- The grant table, the pool live records and the operation in the slot stand. -/
structure GrantsSame (s t : State) : Prop where
  grt : t.grt = s.grt
  pools : t.adm.pools = s.adm.pools
  op : t.ada.op = s.ada.op

theorem GrantsSame.refl (s : State) : GrantsSame s s := ⟨rfl, rfl, rfl⟩

theorem GrantsSame.trans {s t u : State} (h : GrantsSame s t) (k : GrantsSame t u) : GrantsSame s u :=
  ⟨k.grt.trans h.grt, k.pools.trans h.pools, k.op.trans h.op⟩

theorem GrantsSame.slot {s t : State} (h : GrantsSame s t) (i : Nat) : t.slot i = s.slot i := State.slot_congr (by rw [h.grt]) i

theorem GrantsFrame.of {s t : State} (h1 : t.grt = s.grt) (h2 : t.adm.pools = s.adm.pools)
    (h3 : SameScan s.ada.op t.ada.op) : GrantsFrame s t where
  slots := fun i => .of_eq (State.slot_congr (by rw [h1]) i)
  fifo := by rw [h1]
  total := by rw [h1]
  used := fun h => ⟨by rw [← h1]; exact h, fun p c => by rw [State.poolLive_congr h2]⟩
  scan := h3

theorem GrantsSame.frame {s t : State} (h : GrantsSame s t) : GrantsFrame s t := .of h.grt h.pools (.of_eq h.op)

theorem GrantsFrame.refl (s : State) : GrantsFrame s s := (GrantsSame.refl s).frame

/-- Soundness of the grant table reads nothing else. -/
theorem State.GrantsSound.frame {s t : State} (h : s.GrantsSound) (k : GrantsFrame s t) : t.GrantsSound := by
  have e1 : ∀ n, t.liveBelow n = s.liveBelow n := fun n => sumBelow_congr fun i _ => (k.slots i).2.1
  have e2 : ∀ n p c, t.tokensBelow n p c = s.tokensBelow n p c := fun n p c => sumBelow_congr fun i _ => (k.slots i).2.2.2 p c
  refine ⟨?_, fun i => ?_, fun i => ?_, ?_, fun hs p c => ?_, fun r hr => ?_⟩
  · rw [k.fifo]; exact h.once
  · rw [k.fifo, h.fifo i, (k.slots i).1]
  · rw [(k.slots i).2.2.1]; exact h.range i
  · rw [k.total, e1]; exact h.total
  · obtain ⟨a, b⟩ := k.used hs
    rw [State.tokenSum_eq, e2, b, ← State.tokenSum_eq]; exact h.balance a p c
  · obtain ⟨r0, e, a1, a2, a3⟩ := k.scan r hr
    obtain ⟨b1, b2⟩ := h.scan r0 e
    exact ⟨by rw [a2, a1, e1]; exact b1, fun p c => by rw [a3, a1, e2]; exact b2 p c⟩

/-- A frame from the parts of the grant table. -/
theorem GrantsFrame.ofParts {s t : State} (h1 : t.grt.slots = s.grt.slots) (h2 : t.grt.freeFifo = s.grt.freeFifo)
    (h3 : t.grt.liveTotal = s.grt.liveTotal) (h4 : t.grt.suspect = false → s.grt.suspect = false)
    (h5 : ∀ p c, (t.poolLive p).used c = (s.poolLive p).used c) (h6 : SameScan s.ada.op t.ada.op) : GrantsFrame s t where
  slots := fun i => .of_eq (State.slot_congr h1 i)
  fifo := h2
  total := h3
  used := fun h => ⟨h4 h, h5⟩
  scan := h6

/-- One slot rewritten, staying as it counts. -/
theorem GrantsFrame.setSlot {s : State} {i : Nat} {g : Slot} (h : SlotSame (s.slot i) g) : GrantsFrame s (s.setSlot i g) := by
  refine ⟨fun j => ?_, rfl, rfl, fun h => ⟨h, fun _ _ => rfl⟩, .refl _⟩
  rw [State.slot_setSlot]; split
  · rename_i e; subst e; exact h
  · exact .refl _

theorem lowerWaiterCount_grants (s : State) (i) : GrantsFrame s (s.lowerWaiterCount i) :=
  .ofParts (by simp [State.lowerWaiterCount_grt]) (by simp [State.lowerWaiterCount_grt]) (by simp [State.lowerWaiterCount_grt])
    (by simp [State.lowerWaiterCount_grt]; tauto) (fun p c => by rw [State.poolLive_congr (s := s) (by simp)]) (.of_eq (by simp))

theorem leaveChain_grants (s : State) (i) : GrantsFrame s (s.leaveChain i) :=
  .ofParts (by simp [State.leaveChain_grt]) (by simp [State.leaveChain_grt]) (by simp [State.leaveChain_grt])
    (by simp [State.leaveChain_grt]; tauto) (fun p c => by rw [State.poolLive_congr (s := s) (by simp)]) (.of_eq (by simp))

theorem setPoolLive_grants {s : State} {p} {l : PoolLive}
    (h : ∀ c, l.used c = (s.poolLive p).used c) : GrantsFrame s (s.setPoolLive p l) :=
  .ofParts (by simp) (by simp) (by simp) (by simp) (fun q c => by
    rw [State.poolLive_setPoolLive]; split
    · rename_i e; subst e; exact h c
    · rfl) (.of_eq (by simp))

theorem linger_grants (s : State) (p l) : GrantsFrame s (s.setLinger p l) :=
  .ofParts rfl rfl rfl id (fun _ _ => rfl) (.refl _)

theorem returnUnits_grants (s : State) (i g) : GrantsFrame s (s.returnUnits i g) :=
  .ofParts (by simp [State.returnUnits_grt]) (by simp [State.returnUnits_grt]) (by simp [State.returnUnits_grt])
    (by simp [State.returnUnits_grt]; tauto) (fun p c => by rw [State.poolLive_congr (s := s) (by simp)]) (.of_eq (by simp))

theorem rebuildPassed_grants (s : State) (i) {f : Rebuild → Rebuild}
    (h : ∀ r, (f r).cursor = r.cursor ∧ (f r).live = r.live ∧
      ∀ p c, (f r).sum c p = r.sum c p) : GrantsFrame s (s.rebuildPassed i f) := by
  refine .of (by simp) (by simp) ?_
  rw [State.rebuildPassed_op]
  intro r hr
  cases ho : s.ada.op <;> rw [ho] at hr <;> simp only [reduceCtorEq] at hr
  rename_i r0
  split at hr
  · cases hr; exact ⟨r0, rfl, (h r0).1, (h r0).2.1, (h r0).2.2⟩
  · cases hr; exact ⟨r, rfl, rfl, rfl, fun _ _ => rfl⟩

theorem recallHeld_grants {s : State} {i : Nat} (h : (s.slot i).state = .held ∨ (s.slot i).state = .stale)
    (r) : GrantsFrame s (s.recallHeld i r) := by
  have hl : (s.slot i).state.live = true := by rcases h with h | h <;> rw [h] <;> rfl
  have e : GrantsFrame s (s.recallSlot i r) := by
    unfold State.recallSlot; dsimp only
    split
    · refine GrantsFrame.trans (GrantsFrame.trans (returnUnits_grants s i (s.slot i)) (rebuildPassed_grants _ i
        (f := fun r => { r with unitSums := subAt r.unitSums (s.slot i).feature (s.slot i).units })
        fun r => ⟨rfl, rfl, fun p c => by cases c <;> rfl⟩)) ?_
      apply GrantsFrame.setSlot
      rw [State.slot_congr (s := s) (by simp [State.returnUnits_grt])]
      exact .live hl rfl rfl rfl rfl
    · exact GrantsFrame.setSlot (.live hl rfl rfl rfl rfl)
  unfold State.recallHeld; dsimp only
  split
  · exact e.trans (GrantsSame.mk (by simp) (by simp) (by simp)).frame
  · exact e

theorem unqueue_grants (s : State) (i) : GrantsSame s (s.unqueue i) := ⟨by simp, by simp, by simp⟩

theorem dropWaiter_grants (s : State) (i r o) : GrantsFrame s (s.dropWaiter i r o) := by
  unfold State.dropWaiter State.dropWaiterCount; dsimp only
  have h := (unqueue_grants s i).frame.trans (lowerWaiterCount_grants (s.unqueue i) (s.waiter i).clientIdx)
  refine h.trans ?_
  cases o
  · exact (GrantsSame.mk (by simp) (by simp) (by simp [State.countDenied])).frame
  · exact (GrantsSame.mk (by simp) (by simp) (by simp [State.countDenied])).frame

theorem placeWaiter_grants (s : State) (i d) : GrantsFrame s (s.placeWaiter i d) := (GrantsSame.mk (by simp) (by simp) (by simp)).frame

theorem newClient_grants (s : State) (i d) : GrantsFrame s (s.newClient i d) := (GrantsSame.mk (by simp) (by simp) (by simp)).frame

theorem exhausted_grants (s : State) : GrantsFrame s { s with grt.exhausted := true } :=
  .ofParts rfl rfl rfl id (fun _ _ => rfl) (.refl _)

/-- Losing a fatal word. -/
theorem zeroWord_grants (s : State) (w : MemWord) (h : fatalWord w = true) : GrantsFrame s (s.zeroWord w) := by
  cases w <;> simp only [State.zeroWord] at h ⊢
  case waiterRec => exact .of (by simp) (by simp) (.of_eq (by simp))
  case queueStore => exact .of rfl rfl (.refl _)
  case clientEnt => exact .of (by simp) (by simp) (.of_eq (by simp))
  case idleStore => exact .of rfl rfl (.refl _)
  case grantLink i =>
    refine ⟨fun j => ?_, rfl, rfl, fun h => ⟨h, fun _ _ => rfl⟩, .refl _⟩
    rw [State.slot_setSlot]; split
    · rename_i e; subst e; exact ⟨Iff.rfl, rfl, rfl, fun _ _ => rfl⟩
    · exact .refl _
  case poolLive p =>
    refine ⟨fun j => .of_eq (State.slot_congr (by simp [State.setSuspect]) j), rfl, rfl, fun h => ?_, .of_eq (by simp)⟩
    simp [State.setSuspect] at h
  case featLive p =>
    refine ⟨fun j => .of_eq (State.slot_congr (by simp [State.setSuspect]) j), rfl, rfl, fun h => ?_, .of_eq (by simp)⟩
    simp [State.setSuspect] at h
  all_goals simp [fatalWord] at h

theorem enterFaulted_grants (s : State) : GrantsFrame s s.enterFaulted := by
  unfold State.enterFaulted
  split
  · dsimp only; split
    · exact .of (by simp) (by simp) (.not rfl)
    · exact .of (by simp) (by simp) (.of_eq (by simp))
  · exact .refl s

/-- A word of another memory than the grant records. -/
def notRec : MemWord → Bool
  | .grantRec _ => false
  | _ => true

/-! ### A release (R42, R165) -/

theorem Rebuild.sum_without (g : Slot) (u i) (r : Rebuild) (c p) :
    (Rebuild.without g u i r).sum c p = if g.cls = c ∧ p = g.pool then r.sum c p - g.cost else r.sum c p := by
  cases c <;> simp only [Rebuild.without, Rebuild.sum] <;> by_cases h : g.cls = .priority <;>
    cases hc : g.cls <;> simp_all [subAt, Tab.get_put]

theorem State.releaseFrom_suspect {s : State} {c i} (h : (s.releaseFrom c i).grt.suspect = false) : s.grt.suspect = false := by
  revert h
  unfold State.releaseFrom
  dsimp only
  split <;> split <;> split <;>
    simp [State.freeSlot, State.leaveLinger, State.setLinger, State.lingerList, State.setSlot, State.slot, State.leaveChain_grt,
      State.returnUnits_grt, State.returnTokens_grt] <;> tauto

/-- The release of a live grant keeps the grant table sound. -/
theorem State.GrantsSound.release {s : State} (h : s.GrantsSound) {i : Nat} (hl : (s.slot i).state.live = true) (b : Bool) :
    (s.releaseFrom b i).GrantsSound := by
  have hi : i < Config.slots := h.range i hl
  have hs : ∀ j, (s.releaseFrom b i).slot j = if j = i then (s.slot i).freed else s.slot j := s.slot_releaseFrom b i
  have hne : ∀ j, j ≠ i → (s.releaseFrom b i).slot j = s.slot j := fun j hj => by rw [hs, if_neg hj]
  have hii : (s.releaseFrom b i).slot i = (s.slot i).freed := by rw [hs, if_pos rfl]
  have hd : ((s.releaseFrom b i).slot i).state.live = false := by rw [hii]; rfl
  have hL := State.liveBelow_change hne
  have hT := State.tokensBelow_change hne
  simp only [Slot.counts_dead hd, Slot.tokens_dead hd, ite_self, Nat.add_zero] at hL hT
  have hc : (s.slot i).counts = 1 := by simp [Slot.counts, hl]
  have hfree : ¬ (s.slot i).state = .free := fun e => by rw [e] at hl; cases hl
  have hni : i ∉ s.grt.freeFifo := fun e => hfree ((h.fifo i).1 e).2
  have hf : (s.releaseFrom b i).grt.freeFifo = s.grt.freeFifo ++ [i] := by rw [State.releaseFrom_grt]
  have htot : (s.releaseFrom b i).grt.liveTotal = s.grt.liveTotal - 1 := by rw [State.releaseFrom_grt]
  refine ⟨?_, fun j => ?_, fun j hj => ?_, ?_, fun hsus p c => ?_, fun r hr => ?_⟩
  · rw [hf]; exact List.nodup_append.2 ⟨h.once, by simp, by intro a ha c hc e; simp at hc; subst hc; subst e; exact hni ha⟩
  · rw [hf, List.mem_append, h.fifo j, hs j]
    by_cases e : j = i
    · subst e; simp [hi, Slot.freed]
    · simp [e]
  · by_cases e : j = i
    · subst e; exact hi
    · rw [hne j e] at hj; exact h.range j hj
  · have := hL Config.slots
    rw [if_pos hi, hc] at this
    rw [htot, h.total]; omega
  · have hb := h.balance (State.releaseFrom_suspect hsus) p c
    have := hT Config.slots p c
    rw [if_pos hi] at this
    rw [State.tokenSum_eq] at hb ⊢
    rw [State.poolLive_releaseFrom]
    split
    · rename_i hp
      rw [PoolLive.used_setUsed]
      split
      · rename_i hcc; subst hp; subst hcc
        simp [Slot.tokens, hl] at this; omega
      · rename_i hcc
        have e : (s.slot i).tokens p c = 0 := by simp [Slot.tokens, Ne.symm hcc]
        omega
    · rename_i hp
      have e : (s.slot i).tokens p c = 0 := by simp [Slot.tokens, Ne.symm hp]
      omega
  · rw [State.releaseFrom_op, State.rebuildPassed_op] at hr
    cases ho : s.ada.op <;> rw [ho] at hr <;> simp only [reduceCtorEq] at hr
    rename_i r0
    obtain ⟨h1, h2⟩ := h.scan r0 ho
    split at hr
    · rename_i hcur
      cases hr
      have a1 := hL r0.cursor
      rw [if_pos hcur, hc] at a1
      refine ⟨?_, fun p c => ?_⟩
      · show r0.live - 1 = State.liveBelow _ r0.cursor
        omega
      · show _ = State.tokensBelow _ r0.cursor p c
        have a2 := hT r0.cursor p c
        rw [if_pos hcur] at a2
        rw [Rebuild.sum_without, h2]
        split
        · rename_i hh; obtain ⟨q1, q2⟩ := hh; subst q1; subst q2; simp [Slot.tokens, hl] at a2; omega
        · rename_i hh
          have e : (s.slot i).tokens p c = 0 := by
            simp only [Slot.tokens]; rw [if_neg]; rintro ⟨_, e1, e2⟩; exact hh ⟨e2, e1.symm⟩
          omega
    · rename_i hcur
      cases hr
      refine ⟨?_, fun p c => ?_⟩
      · have a1 := hL r.cursor; rw [if_neg hcur] at a1; omega
      · have a2 := hT r.cursor p c; rw [if_neg hcur] at a2; rw [h2]; omega

/-! ### A creation (R32) -/

theorem State.createGrant_slot (s : State) (i n j) :
    (s.createGrant i n).slot j = if j = i then n.slot s (s.slot i).generation else s.slot j := by
  unfold State.createGrant; dsimp only
  rw [State.slot_congr (s := State.setSlot i (n.slot s (s.slot i).generation) s) (by simp [State.setSlot]) j, State.slot_setSlot]

theorem State.createGrant_rest (s : State) (i n) :
    (s.createGrant i n).grt.freeFifo = s.grt.freeFifo.drop 1 ∧ (s.createGrant i n).grt.liveTotal = s.grt.liveTotal + 1 ∧
    (s.createGrant i n).grt.suspect = s.grt.suspect := by
  unfold State.createGrant; dsimp only; simp [State.setSlot]

theorem State.createGrant_poolLive (s : State) (i n p) :
    (s.createGrant i n).poolLive p =
      if p = n.pool then (s.poolLive n.pool).setUsed n.cls ((s.poolLive n.pool).used n.cls + n.cost) else s.poolLive p := by
  unfold State.createGrant; dsimp only
  rw [State.poolLive_congr (s := s.setPoolLive n.pool ((s.poolLive n.pool).setUsed n.cls ((s.poolLive n.pool).used n.cls + n.cost))) (by
    simp [State.setPoolLive, State.setFeatLive, State.poolLive]) p]
  simp

/-- The creation of a grant in the slot at the head of the FIFO keeps the grant table sound. -/
theorem State.GrantsSound.create {s : State} (h : s.GrantsSound) {i : Nat} {l : List Nat} (hf : s.grt.freeFifo = i :: l)
    (hr : s.ada.op.isRebuild = false) (n : NewGrant) : (s.createGrant i n).GrantsSound := by
  obtain ⟨hi, hst⟩ := (h.fifo i).1 (by rw [hf]; simp)
  have hs := s.createGrant_slot i n
  have hne : ∀ j, j ≠ i → (s.createGrant i n).slot j = s.slot j := fun j hj => by rw [hs, if_neg hj]
  have hii : (s.createGrant i n).slot i = n.slot s (s.slot i).generation := by rw [hs, if_pos rfl]
  have hd : (s.slot i).state.live = false := by rw [hst]; rfl
  have hlive : ((s.createGrant i n).slot i).state.live = true := by rw [hii]; rfl
  have hL := State.liveBelow_change hne
  have hT := State.tokensBelow_change hne
  simp only [Slot.counts_dead hd, Slot.tokens_dead hd, ite_self, Nat.add_zero] at hL hT
  have hc : ((s.createGrant i n).slot i).counts = 1 := by simp [Slot.counts, hlive]
  obtain ⟨e1, e2, e3⟩ := s.createGrant_rest i n
  have hn : i ∉ l ∧ l.Nodup := by have := h.once; rw [hf] at this; exact List.nodup_cons.1 this
  refine ⟨?_, fun j => ?_, fun j hj => ?_, ?_, fun hsus p c => ?_, fun r hr2 => ?_⟩
  · rw [e1, hf]; exact hn.2
  · rw [e1, hf, List.drop_one, List.tail_cons]
    have := h.fifo j
    rw [hf] at this
    by_cases e : j = i
    · subst e; rw [hii]; simp [hn.1, NewGrant.slot]
    · rw [hne j e, ← this]; simp [e]
  · by_cases e : j = i
    · subst e; exact hi
    · rw [hne j e] at hj; exact h.range j hj
  · have := hL Config.slots
    rw [if_pos hi, hc] at this
    rw [e2, h.total]; omega
  · rw [e3] at hsus
    have hb := h.balance hsus p c
    have := hT Config.slots p c
    rw [if_pos hi] at this
    rw [State.tokenSum_eq] at hb ⊢
    rw [State.createGrant_poolLive]
    rw [hii] at this
    split
    · rename_i hp
      rw [PoolLive.used_setUsed]
      split
      · rename_i hcc; subst hp; subst hcc
        simp [Slot.tokens, NewGrant.slot, GState.live] at this; omega
      · rename_i hcc
        simp [Slot.tokens, NewGrant.slot, GState.live, Ne.symm hcc] at this
        subst hp; omega
    · rename_i hp
      simp [Slot.tokens, NewGrant.slot, Ne.symm hp] at this; omega
  · exfalso
    have : (s.createGrant i n).ada.op = s.ada.op := by simp
    rw [this] at hr2; rw [hr2] at hr; cases hr

/-! ### A head granted (R61) -/

theorem grantWaiter_grants {s : State} (hs : s.GrantsSound) (hr : s.ada.op.isRebuild = false) {i l} (hf : s.grt.freeFifo = i :: l)
    (wi) :
    (s.grantWaiter wi i).GrantsSound := by
  unfold State.grantWaiter; dsimp only
  have h1 := (unqueue_grants s wi).frame.trans (lowerWaiterCount_grants (s.unqueue wi) (s.waiter wi).clientIdx)
  have := (hs.frame h1).create (i := i) (l := l) (by rw [h1.fifo,
      hf]) (by simp [hr]) ((s.waiter wi).newGrant (((s.poolEntry (s.waiter wi).pool).map (·.ri)).getD 0))
  exact this.frame (GrantsSame.mk (by simp) (by simp) (by simp)).frame

/-! ### A slot whose record is lost (R44, R165) -/

theorem State.slotBad_slot (s : State) (i j : Nat) :
    (s.slotBad i).slot j = if j = i then { Slot.zero with state := .bad, generation := (s.slot i).generation, ownerIdx := (s.slot i).ownerIdx } else s.slot j := by
  unfold State.slotBad; dsimp only
  split <;> split <;> split <;>
    simp [State.slot, State.setSlot, State.leaveLinger, State.setLinger, State.setSuspect, Tab.get_put]

theorem State.slotBad_rest (s : State) (i : Nat) :
    (s.slotBad i).grt.freeFifo = (if (s.slot i).state = .free then s.grt.freeFifo.erase i else s.grt.freeFifo) ∧
    (s.slotBad i).grt.liveTotal = (if (s.slot i).state.live = true then s.grt.liveTotal - 1 else s.grt.liveTotal) ∧
    (s.slotBad i).grt.suspect = true := by
  unfold State.slotBad; dsimp only
  split <;> split <;> split <;>
    simp_all [State.slot, State.setSlot, State.leaveLinger, State.setLinger, State.setSuspect]

theorem State.slotBad_op (s : State) (i : Nat) :
    (s.slotBad i).ada.op = if (s.slot i).state.live = true then
      (s.rebuildPassed i (fun r => { Rebuild.start with badFreed := r.badFreed, restarts := r.restarts + 1 })).ada.op else s.ada.op := by
  unfold State.slotBad; dsimp only
  split <;> split <;> split <;> simp_all [State.rebuildPassed_op, State.setSuspect]

/-- A slot that becomes BAD keeps the grant table sound. -/
theorem State.GrantsSound.bad {s : State} (h : s.GrantsSound) (i : Nat) : (s.slotBad i).GrantsSound := by
  have hs := s.slotBad_slot i
  have hne : ∀ j, j ≠ i → (s.slotBad i).slot j = s.slot j := fun j hj => by rw [hs, if_neg hj]
  have hst : ((s.slotBad i).slot i).state = .bad := by rw [hs, if_pos rfl]
  have hd : ((s.slotBad i).slot i).state.live = false := by rw [hst]; rfl
  have hL := State.liveBelow_change hne
  have hT := State.tokensBelow_change hne
  simp only [Slot.counts_dead hd, Slot.tokens_dead hd, ite_self, Nat.add_zero] at hL hT
  obtain ⟨e1, e2, e3⟩ := s.slotBad_rest i
  refine ⟨?_, fun j => ?_, fun j hj => ?_, ?_, fun hsus => ?_, fun r hr => ?_⟩
  · rw [e1]; split
    · exact h.once.erase i
    · exact h.once
  · rw [e1]
    by_cases e : j = i
    · subst e; rw [hst]
      split
      · simp [h.once.mem_erase_iff]
      · rename_i hh; rw [h.fifo]; simp [hh]
    · rw [hne j e, ← h.fifo j]; split
      · rw [h.once.mem_erase_iff]; simp [e]
      · rfl
  · by_cases e : j = i
    · subst e; rw [hd] at hj; cases hj
    · rw [hne j e] at hj; exact h.range j hj
  · have := hL Config.slots
    rw [e2, h.total]
    by_cases hl : (s.slot i).state.live = true
    · rw [if_pos (h.range i hl)] at this
      have hc : (s.slot i).counts = 1 := by simp [Slot.counts, hl]
      rw [if_pos hl]; omega
    · rw [if_neg hl]
      have hc : (s.slot i).counts = 0 := by simp [Slot.counts, hl]
      rw [hc, ite_self] at this; omega
  · rw [e3] at hsus; cases hsus
  · rw [State.slotBad_op, State.rebuildPassed_op] at hr
    by_cases hl : (s.slot i).state.live = true
    · rw [if_pos hl] at hr
      cases ho : s.ada.op <;> rw [ho] at hr <;> simp only [reduceCtorEq] at hr
      rename_i r0
      split at hr
      · cases hr; exact ⟨rfl, fun p c => by cases c <;> rfl⟩
      · rename_i hcur
        cases hr
        obtain ⟨h1, h2⟩ := h.scan r ho
        exact ⟨by have := hL r.cursor; rw [if_neg hcur] at this; omega,
          fun p c => by have := hT r.cursor p c; rw [if_neg hcur] at this; rw [h2]; omega⟩
    · rw [if_neg hl] at hr
      obtain ⟨h1, h2⟩ := h.scan r hr
      rw [Bool.not_eq_true] at hl
      simp only [Slot.counts_dead hl, Slot.tokens_dead hl, ite_self, Nat.add_zero] at hL hT
      exact ⟨by rw [hL]; exact h1, fun p c => by rw [hT]; exact h2 p c⟩

/-! ### The visits of a rebuild (R164) -/

/-- No rebuild has passed slot `i`. -/
def NotVisited (s : State) (i : Nat) : Prop := ∀ r, s.ada.op = .rebuild r → ¬ i < r.cursor

/-- The cursor stands at `i`, or no rebuild is running. -/
def CursorAt (s : State) (i : Nat) : Prop := ∀ r, s.ada.op = .rebuild r → r.cursor = i

theorem CursorAt.notVisited {s : State} {i} (h : CursorAt s i) : NotVisited s i := fun r hr => by rw [h r hr]; omega

theorem CursorAt.op_eq {s t : State} {i} (h : CursorAt s i)
    (e : t.ada.op = s.ada.op) : CursorAt t i := fun r hr => h r (by rw [← e]; exact hr)

/-- The cursor moves past a slot that is not live. -/
theorem moveOn_grants {s : State} (hs : s.GrantsSound) {i} (ha : CursorAt s i) (hd : (s.slot i).state.live = false)
    {f : Rebuild → Rebuild}
    (hf : ∀ r, (f r).cursor = r.cursor + 1 ∧ (f r).live = r.live ∧
      ∀ p c, (f r).sum c p = r.sum c p) : (s.mapRebuild f).GrantsSound := by
  have e : (s.mapRebuild f).grt = s.grt := by simp
  have hslot : ∀ j, (s.mapRebuild f).slot j = s.slot j := State.slot_congr (by rw [e])
  have hp : ∀ p, (s.mapRebuild f).poolLive p = s.poolLive p := State.poolLive_congr (by simp)
  have e1 : ∀ n, (s.mapRebuild f).liveBelow n = s.liveBelow n := fun n => sumBelow_congr fun j _ => by rw [hslot]
  have e2 : ∀ n p c, (s.mapRebuild f).tokensBelow n p c = s.tokensBelow n p c := fun n p c => sumBelow_congr fun j _ => by rw [hslot]
  refine ⟨by rw [e]; exact hs.once, fun j => by rw [e, hslot]; exact hs.fifo j, fun j => by rw [hslot]; exact hs.range j,
      by rw [e, e1]; exact hs.total, fun h p c => ?_, fun r hr => ?_⟩
  · rw [State.tokenSum_eq, e2, hp]; exact hs.balance (by rw [← e]; exact h) p c
  · rw [State.mapRebuild_op] at hr
    cases ho : s.ada.op <;> rw [ho] at hr <;> simp only [reduceCtorEq] at hr
    rename_i r0
    cases hr
    have hc := ha r0 ho
    obtain ⟨h1, h2⟩ := hs.scan r0 ho
    obtain ⟨f1, f2, f3⟩ := hf r0
    rw [f1, f2, e1, hc]
    refine ⟨?_, fun p c => ?_⟩
    · rw [State.liveBelow, sumBelow_succ, Slot.counts_dead hd, h1, hc]; rfl
    · rw [f3, e2, State.tokensBelow, sumBelow_succ, Slot.tokens_dead hd, h2, hc]; rfl

theorem Rebuild.sum_adding (i g u) (r : Rebuild) (c p) :
    (Rebuild.adding i g u r).sum c p = if g.cls = c ∧ p = g.pool then r.sum c p + g.cost else r.sum c p := by
  cases c <;> simp only [Rebuild.adding, Rebuild.sum] <;> by_cases h : g.cls = .priority <;>
    cases hc : g.cls <;> simp_all [addAt, Tab.get_put]

/-- The cursor moves past a live slot, its amounts added. -/
theorem rebuildAdd_grants {s : State} (hs : s.GrantsSound) {i} (ha : CursorAt s i)
    (hl : (s.slot i).state.live = true) : (s.rebuildAdd i).GrantsSound := by
  unfold State.rebuildAdd; dsimp only
  generalize hff : (fun r : Rebuild => (r.adding i (s.slot i) (s.unitsCounted (s.slot i))).moveOn) = f
  have e : (s.mapRebuild f).grt = s.grt := by simp
  have hslot : ∀ j, (s.mapRebuild f).slot j = s.slot j := State.slot_congr (by rw [e])
  have hp : ∀ p, (s.mapRebuild f).poolLive p = s.poolLive p := State.poolLive_congr (by simp)
  have e1 : ∀ n, (s.mapRebuild f).liveBelow n = s.liveBelow n := fun n => sumBelow_congr fun j _ => by rw [hslot]
  have e2 : ∀ n p c, (s.mapRebuild f).tokensBelow n p c = s.tokensBelow n p c := fun n p c => sumBelow_congr fun j _ => by rw [hslot]
  refine ⟨by rw [e]; exact hs.once, fun j => by rw [e, hslot]; exact hs.fifo j, fun j => by rw [hslot]; exact hs.range j,
      by rw [e, e1]; exact hs.total, fun h p c => ?_, fun r hr => ?_⟩
  · rw [State.tokenSum_eq, e2, hp]; exact hs.balance (by rw [← e]; exact h) p c
  · rw [State.mapRebuild_op] at hr
    cases ho : s.ada.op <;> rw [ho] at hr <;> simp only [reduceCtorEq] at hr
    rename_i r0
    cases hr
    have hc := ha r0 ho
    obtain ⟨h1, h2⟩ := hs.scan r0 ho
    subst hff
    refine ⟨?_, fun p c => ?_⟩
    · show r0.live + 1 = State.liveBelow _ (r0.cursor + 1)
      rw [e1, State.liveBelow, sumBelow_succ, h1, hc]
      simp [Slot.counts, hl, State.liveBelow]
    · show (Rebuild.adding i (s.slot i) (s.unitsCounted (s.slot i)) r0).sum c p = State.tokensBelow _ (r0.cursor + 1) p c
      rw [e2, Rebuild.sum_adding, State.tokensBelow, sumBelow_succ, h2, hc]
      simp only [Slot.tokens, hl, true_and]
      by_cases hh : (s.slot i).pool = p ∧ (s.slot i).cls = c
      · rw [if_pos ⟨hh.2, hh.1.symm⟩, if_pos hh]; rfl
      · rw [if_neg (fun e => hh ⟨e.2.symm, e.1⟩), if_neg hh]; rfl

/-- A BAD slot joins the FIFO. -/
theorem freeBad_grants {s : State} (hs : s.GrantsSound) {i} (hi : i < Config.slots)
    (hb : (s.slot i).state = .bad) : (s.freeSlot i).GrantsSound := by
  have hfr : (s.freeSlot i).grt.freeFifo = s.grt.freeFifo ++ [i] := by simp [State.freeSlot, State.setSlot]
  have hsus : (s.freeSlot i).grt.suspect = s.grt.suspect := rfl
  have hslot : ∀ j, (s.freeSlot i).slot j = if j = i then (s.slot i).freed else s.slot j := by
    intro j
    rw [State.slot_congr (t := s.freeSlot i) (s := s.setSlot i (s.slot i).freed) rfl j, State.slot_setSlot]
  have hd : (s.slot i).state.live = false := by rw [hb]; rfl
  have hc : ∀ j, ((s.freeSlot i).slot j).counts = (s.slot j).counts := by
    intro j; rw [hslot]; split
    · rename_i e; subst e; rw [Slot.counts_dead hd, Slot.counts_dead rfl]
    · rfl
  have ht : ∀ j p c, ((s.freeSlot i).slot j).tokens p c = (s.slot j).tokens p c := by
    intro j p c; rw [hslot]; split
    · rename_i e; subst e; rw [Slot.tokens_dead hd, Slot.tokens_dead rfl]
    · rfl
  have e1 : ∀ n, (s.freeSlot i).liveBelow n = s.liveBelow n := fun n => sumBelow_congr fun j _ => hc j
  have e2 : ∀ n p c, (s.freeSlot i).tokensBelow n p c = s.tokensBelow n p c := fun n p c => sumBelow_congr fun j _ => ht j p c
  have hni : i ∉ s.grt.freeFifo := fun e => by have := ((hs.fifo i).1 e).2; rw [hb] at this; cases this
  refine ⟨?_, fun j => ?_, fun j hj => ?_, by rw [e1]; exact hs.total, fun h p c => ?_, fun r hr => ?_⟩
  · rw [hfr]; exact List.nodup_append.2 ⟨hs.once, by simp, by intro a ha c hc e; simp at hc; subst hc; subst e; exact hni ha⟩
  · rw [hfr, List.mem_append, hs.fifo j, hslot j]
    by_cases e : j = i
    · subst e; simp [hi, Slot.freed]
    · simp [e]
  · rw [hslot] at hj
    split at hj
    · cases hj
    · exact hs.range j hj
  · rw [State.tokenSum_eq, e2]; exact hs.balance h p c
  · obtain ⟨h1, h2⟩ := hs.scan r hr
    exact ⟨by rw [e1]; exact h1, fun p c => by rw [e2]; exact h2 p c⟩

/-! ### The completion of a rebuild (R166) -/

theorem mem_addKey (k j : Nat) (l : List Nat) : j ∈ addKey k l ↔ j = k ∨ j ∈ l := by
  induction l with
  | nil => simp [addKey]
  | cons a l ih =>
    unfold addKey; split
    · simp
    · split
      · rename_i h; subst h; simp
      · simp [ih]; tauto

theorem mem_keysWith {α : Type} (t : Tab α) (ks : List Nat) (j : Nat) : j ∈ keysWith t ks ↔ j ∈ ks ∨ ∃ v, (j, v) ∈ t := by
  unfold keysWith
  induction t generalizing ks with
  | nil => simp
  | cons a t ih =>
    rw [List.foldl_cons, ih, mem_addKey]
    obtain ⟨k, v⟩ := a
    simp only [List.mem_cons, Prod.mk.injEq]
    constructor
    · rintro ((h | h) | ⟨w, h⟩)
      · exact Or.inr ⟨v, Or.inl ⟨h, rfl⟩⟩
      · exact Or.inl h
      · exact Or.inr ⟨w, Or.inr h⟩
    · rintro (h | ⟨w, (⟨h, -⟩ | h)⟩)
      · exact Or.inl (Or.inr h)
      · exact Or.inl (Or.inl h)
      · exact Or.inr ⟨w, h⟩

theorem Tab.get_not_mem {α : Type} (d : α) (t : Tab α) (j : Nat) (h : ∀ v, (j, v) ∉ t) : Tab.get d t j = d := by
  induction t with
  | nil => rfl
  | cons a t ih =>
    obtain ⟨k, w⟩ := a
    have : k ≠ j := fun e => h w (by simp [e])
    rw [Tab.get, if_neg this]
    exact ih fun v hv => h v (by simp [hv])

/-- What the installation leaves in a pool live record. -/
theorem installPools_poolLive (r : Rebuild) (l : List Nat) : ∀ (s : State) (p : Nat),
    ((l.foldl (fun s p => s.setPoolLive p (r.pool p (s.poolLive p))) s).poolLive p) = if p ∈ l then r.pool p (s.poolLive p) else s.poolLive p := by
  induction l with
  | nil => intro s p; rfl
  | cons a l ih =>
    intro s p
    rw [List.foldl_cons, ih]
    by_cases e : p = a
    · subst e; simp; intro _; rfl
    · simp [e]

theorem foldl_keep {α β γ : Type} (f : β → α → β) (g : β → γ) (h : ∀ b a, g (f b a) = g b) (l : List α)
    (b : β) : g (l.foldl f b) = g b := by
  induction l generalizing b with
  | nil => rfl
  | cons a l ih => rw [List.foldl_cons, ih, h]

/-- The installed sums balance the pools. -/
theorem rebuildDone_grants {s : State} (hs : s.GrantsSound) {r} (ho : s.ada.op = .rebuild r) (hc : Config.slots ≤ r.cursor) :
    (s.rebuildDone r).GrantsSound := by
  obtain ⟨h1, h2⟩ := hs.scan r ho
  have dead : ∀ i, Config.slots ≤ i → (s.slot i).state.live = false := fun i hi => by
    by_contra hh
    have := hs.range i (by simpa using hh); omega
  have l1 : r.live = s.liveBelow Config.slots := by
    rw [h1]; exact sumBelow_ext (fun i hi => Slot.counts_dead (dead i hi)) hc
  have l2 : ∀ p c, r.sum c p = s.tokensBelow Config.slots p c := by
    intro p c; rw [h2]; exact sumBelow_ext (fun i hi => Slot.tokens_dead (dead i hi) p c) hc
  have inst : ∀ (i : Nat) (t : State), (t.installClient r i).grt = t.grt ∧ (t.installClient r i).adm = t.adm := by
    intro i t; unfold State.installClient; dsimp only
    split
    · split <;> simp
    · simp
  unfold State.rebuildDone; dsimp only
  generalize hs1 : List.foldl (fun s p => State.setPoolLive p (r.pool p (s.poolLive p)) s) s (s.rebuildPools r) = s1
  generalize hs2 : List.foldl (fun s i => State.setFeatLive i (r.feature i (s.featLive i)) s) s1 (s.rebuildFeatures r) = s2
  generalize hs3 : List.foldl (fun s i => s.installClient r i) s2 s.clientsInUse = s3
  have g1 : s1.grt = s.grt := by rw [← hs1]; exact foldl_keep _ State.grt (fun b a => by simp) _ _
  have g2 : s2.grt = s1.grt := by rw [← hs2]; exact foldl_keep _ State.grt (fun b a => by simp) _ _
  have g3 : s3.grt = s2.grt := by rw [← hs3]; exact foldl_keep _ State.grt (fun b a => (inst a b).1) _ _
  have a2 : s2.adm.pools = s1.adm.pools := by rw [← hs2]; exact foldl_keep _ (fun t : State => t.adm.pools) (fun b a => by simp [State.setFeatLive]) _ _
  have a3 : s3.adm.pools = s2.adm.pools := by rw [← hs3]; exact foldl_keep _ (fun t : State => t.adm.pools) (fun b a => by rw [(inst a b).2]) _ _
  have gg : s3.grt = s.grt := by rw [g3, g2, g1]
  have pp : ∀ p, s3.poolLive p = s1.poolLive p := State.poolLive_congr (by rw [a3, a2])
  have used : ∀ p c, (s3.poolLive p).used c = r.sum c p := by
    intro p c
    rw [pp, ← hs1, installPools_poolLive]
    split
    · cases c <;> rfl
    · rename_i hn
      unfold State.rebuildPools at hn
      rw [mem_keysWith, mem_keysWith, mem_keysWith] at hn
      have n1 : ∀ v, (p, v) ∉ r.generalSums := fun v hv => hn (Or.inr ⟨v, hv⟩)
      have n2 : ∀ v, (p, v) ∉ r.prioritySums := fun v hv => hn (Or.inl (Or.inr ⟨v, hv⟩))
      have n3 : ∀ v, (p, v) ∉ s.adm.pools := fun v hv => hn (Or.inl (Or.inl (Or.inr ⟨v, hv⟩)))
      rw [State.poolLive, Tab.get_not_mem _ _ _ n3]
      cases c
      · exact (Tab.get_not_mem 0 r.generalSums p n1).symm
      · exact (Tab.get_not_mem 0 r.prioritySums p n2).symm
  generalize hs4 : ({ s3 with grt.liveTotal := r.live, grt.suspect := false } : State) = s4
  have g4 : s4.grt = { s.grt with liveTotal := r.live, suspect := false } := by rw [← hs4, ← gg]
  have p4 : ∀ p, s4.poolLive p = s3.poolLive p := State.poolLive_congr (by rw [← hs4])
  generalize hb : s.rebuildFigures r = b
  have gD : (s4.completeOp b).grt = s4.grt := by simp
  have pD : ∀ p, (s4.completeOp b).poolLive p = s4.poolLive p := State.poolLive_congr (by simp)
  have sl : ∀ i, (s4.completeOp b).slot i = s.slot i := State.slot_congr (by rw [gD, g4])
  have e1 : ∀ n, (s4.completeOp b).liveBelow n = s.liveBelow n := fun n => sumBelow_congr fun j _ => by rw [sl]
  have e2 : ∀ n p c, (s4.completeOp b).tokensBelow n p c = s.tokensBelow n p c := fun n p c => sumBelow_congr fun j _ => by rw [sl]
  refine ⟨by rw [gD, g4]; exact hs.once, fun j => by rw [gD, g4, sl]; exact hs.fifo j, fun j => by rw [sl]; exact hs.range j,
    by rw [gD, g4, e1]; exact l1, fun _ p c => ?_, fun r2 hr => ?_⟩
  · rw [State.tokenSum_eq, e2, pD, p4, used, l2]
  · exact absurd hr (by simp [State.completeOp])

/-! ### The cleared table -/

theorem mem_freeFifoFull (i : Nat) : i ∈ freeFifoFull ↔ i < Config.slots := by simp [freeFifoFull, List.mem_range'_1]

/-- The cleared table is sound. -/
theorem clear_grants {s : State} (hg : s.grt = .clear) (hp : s.adm.pools = []) (hr : s.ada.op.isRebuild = false) : s.GrantsSound := by
  have sl : ∀ i, s.slot i = Slot.zero := fun i => by rw [State.slot, hg]; rfl
  have z1 : ∀ n, s.liveBelow n = 0 := by
    intro n; induction n with
    | zero => rfl
    | succ n ih => rw [State.liveBelow, sumBelow_succ, ← State.liveBelow, ih, sl]; rfl
  have z2 : ∀ n p c, s.tokensBelow n p c = 0 := by
    intro n p c; induction n with
    | zero => rfl
    | succ n ih => rw [State.tokensBelow, sumBelow_succ, ← State.tokensBelow, ih, sl]; rfl
  refine ⟨?_, fun i => ?_, fun i hi => ?_, ?_, fun _ p c => ?_, fun r e => ?_⟩
  · rw [hg]; exact List.nodup_range'
  · rw [hg, sl]; show i ∈ freeFifoFull ↔ _; rw [mem_freeFifoFull]; simp [Slot.zero]
  · rw [sl] at hi; cases hi
  · rw [z1, hg]; rfl
  · rw [State.tokenSum_eq, z2, State.poolLive, hp]; cases c <;> rfl
  · rw [e] at hr; cases hr

/-! ### The loss of a word (R172, R173) -/

/-- The loss of a word of waiter, client, grant link or live record memory keeps the grant table sound. -/
theorem loseFatal_grants {s : State} (h : s.GrantsSound) (w : MemWord) (hw : fatalWord w = true) :
    ((s.zeroWord w).hardEvent (wordFatalEvent w)).enterFaulted.GrantsSound :=
  h.frame ((zeroWord_grants s w hw).trans ((GrantsSame.mk (by simp) (by simp) (by simp)).frame.trans (enterFaulted_grants _)))

end Sys2Proof.Machine
end

