-- ==== Sys2Proof/Laws/ClientsSound.lean ====
section
/-!
SUPPORT. Laws/ClientsSound.lean: the soundness of the client table with the wait store (State.ClientsSound, State.WaitStoreSound) under
the effects: what it reads, and that the loss of a word, a departure from a chain, a creation, an enqueue, a removal, a new entry and the
effects of a rebuild keep it.
-/
namespace Sys2Proof.Machine

theorem attends_iff (x : Service) : x.attends = false ↔ x ≠ .on ∧ x ≠ .drain ∧ x ≠ .off := by cases x <;> simp [Service.attends]

/-- Every entry but one is in the idle list as it is idle; that one is not in it. -/
def State.IdleBut (s : State) (x : Nat) : Prop := x ∉ s.clt.idle ∧ ∀ ci, ci ≠ x → (ci ∈ s.clt.idle ↔ (s.client ci).isIdle = true)

/-- The grant table, the wait store and the client table are sound. -/
structure TablesSound (s : State) : Prop where
  grants : s.GrantsSound
  wait : s.WaitStoreSound
  clients : s.ClientsSound

/-! ### What the client table holds -/

/-- An entry not in use has no chain. -/
theorem State.ClientsCore.bare {s : State} (h : s.ClientsCore) {ci} (hu : (s.client ci).inUse = false) :
    (s.ada.service.attends = true → (s.client ci).chain = []) := by
  intro ha
  rw [List.eq_nil_iff_forall_not_mem]
  intro i hi
  obtain ⟨a, b⟩ := h.member ci i hi
  have := (h.chained ha i a).2.1
  rw [b, hu] at this; cases this

/-- Zeros add up to 0. -/
theorem sumBelow_zero {f : Nat → Nat} {n} (h : ∀ i < n, f i = 0) : sumBelow f n = 0 := by
  induction n with
  | zero => rfl
  | succ n ih => rw [sumBelow_succ, ih (fun i hi => h i (by omega)), h n (by omega)]

/-- A summand is at most the sum. -/
theorem le_sumBelow (f : Nat → Nat) {n i} (h : i < n) : f i ≤ sumBelow f n := by
  induction n with
  | zero => omega
  | succ n ih =>
    rw [sumBelow_succ]
    by_cases e : i = n
    · subst e; omega
    · have := ih (by omega); omega

/-- An entry not in use has no waiter. -/
theorem State.ClientsCore.noWaiters {s : State} (h : s.ClientsCore) {ci}
    (hu : (s.client ci).inUse = false) : (s.client ci).waiters = 0 := by
  rw [h.waiting]
  refine sumBelow_zero fun wi _ => ?_
  rw [if_neg]
  rintro ⟨a, b⟩
  have := (h.held wi a).2.1
  rw [b, hu] at this; cases this

/-! ### Tables -/

theorem Tab.get_lt {α : Type} [DecidableEq α] (d : α) (t : Tab α) {lo k : Nat} (w : Tab.wfFrom d lo t = true)
    (h : k < lo) : Tab.get d t k = d := by
  induction t generalizing lo with
  | nil => rfl
  | cons a t ih =>
    obtain ⟨j, v⟩ := a
    simp only [Tab.wfFrom, Bool.and_eq_true, decide_eq_true_eq] at w
    rw [Tab.get, if_neg (by omega)]
    exact ih w.2 (by omega)

/-- A listed pair is what the table reads. -/
theorem Tab.get_of_mem {α : Type} [DecidableEq α] (d : α) (t : Tab α) {lo : Nat} (w : Tab.wfFrom d lo t = true) {k : Nat} {v : α}
    (h : (k, v) ∈ t) :
    Tab.get d t k = v := by
  induction t generalizing lo with
  | nil => cases h
  | cons a t ih =>
    obtain ⟨j, x⟩ := a
    simp only [Tab.wfFrom, Bool.and_eq_true, decide_eq_true_eq] at w
    rcases List.mem_cons.1 h with e | h
    · cases e; simp [Tab.get]
    · rw [Tab.get]
      split
      · rename_i e; subst e
        have : ∀ (t : Tab α) (lo : Nat), Tab.wfFrom d lo t = true → (j, v) ∈ t → lo ≤ j := by
          intro t; induction t with
          | nil => intro lo _ h; cases h
          | cons a t ih =>
            intro lo w h
            obtain ⟨j2, x2⟩ := a
            simp only [Tab.wfFrom, Bool.and_eq_true, decide_eq_true_eq] at w
            rcases List.mem_cons.1 h with e | h
            · cases e; exact w.1.1
            · have := ih _ w.2 h; omega
        have := this t _ w.2 h; omega
      · exact ih w.2 h

/-- What differs from the default is listed. -/
theorem Tab.mem_of_get {α : Type} (d : α) (t : Tab α) {k : Nat} (h : Tab.get d t k ≠ d) : (k, Tab.get d t k) ∈ t := by
  induction t with
  | nil => exact absurd rfl h
  | cons a t ih =>
    obtain ⟨j, x⟩ := a
    by_cases e : j = k
    · simp [Tab.get, e]
    · simp only [Tab.get, e, if_false] at h ⊢
      exact List.mem_cons_of_mem _ (ih h)

theorem Tab.search_some {α : Type} {p : α → Bool} {t : Tab α} {k v} (h : Tab.search p t = some (k, v)) : (k, v) ∈ t ∧ p v = true := by
  induction t with
  | nil => cases h
  | cons a t ih =>
    obtain ⟨j, x⟩ := a
    unfold Tab.search at h
    split at h
    · rename_i hp; cases h; exact ⟨by simp, hp⟩
    · exact ⟨List.mem_cons_of_mem _ (ih h).1, (ih h).2⟩

theorem Tab.search_none {α : Type} {p : α → Bool} {t : Tab α} (h : Tab.search p t = none) {k v} (hm : (k, v) ∈ t) : p v = false := by
  induction t with
  | nil => cases hm
  | cons a t ih =>
    obtain ⟨j, x⟩ := a
    unfold Tab.search at h
    split at h
    · cases h
    · rename_i hp
      rcases List.mem_cons.1 hm with e | hm
      · cases e; simpa using hp
      · exact ih h hm

/-- The entry found is in use for the client. -/
theorem State.ClientsCore.find_some {s : State} (h : s.ClientsCore) {id ci} (hf : s.findClient id = some ci) :
    (s.client ci).inUse = true ∧ (s.client ci).id = id := by
  unfold State.findClient at hf
  cases hs : Tab.search (fun c => c.inUse && c.id == id) s.clt.clients with
  | none => rw [hs] at hf; cases hf
  | some kv =>
    obtain ⟨k, v⟩ := kv
    rw [hs] at hf; cases hf
    obtain ⟨a, b⟩ := Tab.search_some hs
    have e : s.client k = v := Tab.get_of_mem _ _ h.form a
    show (s.client k).inUse = true ∧ (s.client k).id = id
    rw [e]; simpa using b

/-- None found: no entry in use serves the client. -/
theorem State.ClientsCore.find_none {s : State} (_ : s.ClientsCore) {id} (hf : s.findClient id = none) {ci}
    (hu : (s.client ci).inUse = true) : (s.client ci).id ≠ id := by
  intro e
  unfold State.findClient at hf
  cases hs : Tab.search (fun c => c.inUse && c.id == id) s.clt.clients with
  | some kv => rw [hs] at hf; cases hf
  | none =>
    have hm := Tab.mem_of_get Client.zero s.clt.clients (k := ci) (by intro e; rw [State.client, e] at hu; cases hu)
    have := Tab.search_none hs hm
    rw [State.client] at hu e
    simp [hu, e] at this

/-! ### Frames -/

/-- An entry rewritten, its identity, counts and chain standing. -/
def ClientSame (c c' : Client) : Prop :=
  c'.inUse = c.inUse ∧ c'.id = c.id ∧ c'.grants = c.grants ∧ c'.chain = c.chain ∧ c'.waiters = c.waiters

theorem ClientSame.refl (c) : ClientSame c c := ⟨rfl, rfl, rfl, rfl, rfl⟩

theorem ClientSame.of_eq {c c' : Client} (h : c' = c) : ClientSame c c' := h ▸ .refl c

theorem ClientSame.isIdle {c c'} (h : ClientSame c c') : c'.isIdle = c.isIdle := by
  obtain ⟨a, _, b, _, d⟩ := h; simp [Client.isIdle, a, b, d]

/-- What soundness of the client table reads stands; a rebuild may have ended. -/
structure ClientsFrame (s t : State) : Prop where
  live : ∀ i, (t.slot i).state.live = (s.slot i).state.live
  owner : ∀ i, (s.slot i).state.live = true → (t.slot i).ownerIdx = (s.slot i).ownerIdx ∧ (t.slot i).owner = (s.slot i).owner
  clients : ∀ ci, ClientSame (s.client ci) (t.client ci)
  cform : Tab.wf Client.zero s.clt.clients = true → Tab.wf Client.zero t.clt.clients = true
  idle : t.clt.idle.Perm s.clt.idle
  wts : t.wts = s.wts
  service : t.ada.service = s.ada.service
  scanC : ∀ r, t.ada.op = .rebuild r → ∃ r0, s.ada.op = .rebuild r0 ∧ r.cursor = r0.cursor ∧ ∀ ci, r.client ci = r0.client ci

/-- What soundness of the grant table, the wait store and the client table reads stands. -/
structure TablesFrame (s t : State) : Prop extends GrantsFrame s t where
  owner : ∀ i, (s.slot i).state.live = true → (t.slot i).ownerIdx = (s.slot i).ownerIdx ∧ (t.slot i).owner = (s.slot i).owner
  clients : ∀ ci, ClientSame (s.client ci) (t.client ci)
  cform : Tab.wf Client.zero s.clt.clients = true → Tab.wf Client.zero t.clt.clients = true
  idle : t.clt.idle.Perm s.clt.idle
  wts : t.wts = s.wts
  service : t.ada.service = s.ada.service
  scanC : ∀ r, t.ada.op = .rebuild r → ∃ r0, s.ada.op = .rebuild r0 ∧ r.cursor = r0.cursor ∧ ∀ ci, r.client ci = r0.client ci

theorem TablesFrame.trans {s t u : State} (h : TablesFrame s t) (k : TablesFrame t u) : TablesFrame s u where
  toGrantsFrame := h.toGrantsFrame.trans k.toGrantsFrame
  owner := fun i hl => by
    have h2 : (t.slot i).state.live = true := by rw [(h.slots i).2.2.1]; exact hl
    exact ⟨(k.owner i h2).1.trans (h.owner i hl).1, (k.owner i h2).2.trans (h.owner i hl).2⟩
  clients := fun ci => by
    obtain ⟨a1, a2, a3, a4, a5⟩ := h.clients ci; obtain ⟨b1, b2, b3, b4, b5⟩ := k.clients ci
    exact ⟨b1.trans a1, b2.trans a2, b3.trans a3, b4.trans a4, b5.trans a5⟩
  cform := fun w => k.cform (h.cform w)
  idle := k.idle.trans h.idle
  wts := k.wts.trans h.wts
  service := k.service.trans h.service
  scanC := fun r hr => by
    obtain ⟨r1, e1, a1, a2⟩ := k.scanC r hr
    obtain ⟨r0, e0, b1, b2⟩ := h.scanC r1 e1
    exact ⟨r0, e0, a1.trans b1, fun ci => (a2 ci).trans (b2 ci)⟩

theorem TablesFrame.cframe {s t : State} (h : TablesFrame s t) : ClientsFrame s t :=
  ⟨fun i => (h.slots i).2.2.1, h.owner, h.clients, h.cform, h.idle, h.wts, h.service, h.scanC⟩

/-- The grant table, the pool live records, the wait store, the client table, the service state and the operation in the slot stand. -/
structure TablesSame (s t : State) : Prop extends GrantsSame s t where
  clt : t.clt = s.clt
  wts : t.wts = s.wts
  service : t.ada.service = s.ada.service

theorem TablesSame.refl (s : State) : TablesSame s s := ⟨.refl s, rfl, rfl, rfl⟩

theorem TablesSame.trans {s t u : State} (h : TablesSame s t) (k : TablesSame t u) : TablesSame s u :=
  ⟨h.toGrantsSame.trans k.toGrantsSame, k.clt.trans h.clt, k.wts.trans h.wts, k.service.trans h.service⟩

theorem TablesSame.client {s t : State} (h : TablesSame s t) (i) : t.client i = s.client i := State.client_congr (by rw [h.clt]) i

theorem TablesSame.waiter {s t : State} (h : TablesSame s t) (i) : t.waiter i = s.waiter i := State.waiter_congr (by rw [h.wts]) i

theorem TablesSame.of {s t : State} (h1 : t.grt = s.grt) (h2 : t.adm.pools = s.adm.pools) (h3 : t.ada.op = s.ada.op)
    (h4 : t.clt = s.clt)
    (h5 : t.wts = s.wts) (h6 : t.ada.service = s.ada.service) : TablesSame s t := ⟨⟨h1, h2, h3⟩, h4, h5, h6⟩

theorem TablesFrame.of {s t : State} (f : GrantsFrame s t)
    (hsl : ∀ i, (t.slot i).ownerIdx = (s.slot i).ownerIdx ∧ (t.slot i).owner = (s.slot i).owner)
    (h4 : t.clt = s.clt) (h5 : t.wts = s.wts) (h6 : t.ada.service = s.ada.service)
    (h7 : t.ada.op = s.ada.op ∨ t.ada.op.isRebuild = false) : TablesFrame s t where
  toGrantsFrame := f
  owner := fun i _ => hsl i
  clients := fun ci => .of_eq (State.client_congr (by rw [h4]) ci)
  cform := fun w => by rw [h4]; exact w
  idle := by rw [h4]
  wts := h5
  service := h6
  scanC := fun r hr => by
    rcases h7 with h7 | h7
    · exact ⟨r, by rw [← h7]; exact hr, rfl, fun _ => rfl⟩
    · rw [hr] at h7; cases h7

theorem TablesSame.frame {s t : State} (h : TablesSame s t) : TablesFrame s t :=
  .of h.toGrantsSame.frame (fun i => by rw [h.slot]; exact ⟨rfl, rfl⟩) h.clt h.wts h.service (Or.inl h.op)

theorem TablesFrame.refl (s : State) : TablesFrame s s := (TablesSame.refl s).frame

/-- same grt slots etc., op dropped -/
theorem TablesFrame.drop {s t : State} (h1 : t.grt = s.grt) (h2 : t.adm.pools = s.adm.pools) (h3 : t.ada.op.isRebuild = false)
    (h4 : t.clt = s.clt)
    (h5 : t.wts = s.wts) (h6 : t.ada.service = s.ada.service) : TablesFrame s t :=
  .of (.of h1 h2 (.not h3)) (fun i => by rw [State.slot_congr (t := t) (s := s) (by rw [h1])]; exact ⟨rfl, rfl⟩) h4 h5 h6 (Or.inr h3)

theorem chainBelow_congr {s t : State} {n ci : Nat}
    (h : ∀ i < n, ((t.slot i).state.live && (t.slot i).ownerIdx == ci) = ((s.slot i).state.live && (s.slot i).ownerIdx == ci)) :
    t.chainBelow n ci = s.chainBelow n ci :=
  List.filter_congr fun i hi => h i (by simpa using hi)

theorem State.ClientsCore.frame {s t : State} (h : s.ClientsCore) (k : ClientsFrame s t) : t.ClientsCore := by
  have w : ∀ wi, t.waiter wi = s.waiter wi := State.waiter_congr (by rw [k.wts])
  have q : ∀ p c,
      t.queue p c = s.queue p c := fun p c => by rw [State.queue, State.queue, State.queues_congr (t := t) (s := s) (by rw [k.wts])]
  have lv : ∀ i, (t.slot i).state.live = (s.slot i).state.live := k.live
  have cu := fun ci => (k.clients ci).1
  have cid := fun ci => (k.clients ci).2.1
  have cg := fun ci => (k.clients ci).2.2.1
  have cc := fun ci => (k.clients ci).2.2.2.1
  have cw := fun ci => (k.clients ci).2.2.2.2
  refine ⟨k.cform h.form, by rw [k.wts]; exact h.wform, fun ci => by rw [cu]; exact h.range ci,
      fun ci cj => by rw [cu, cu, cid, cid]; exact h.unique ci cj,
    fun ha i hl => ?_, fun ci i => ?_, fun ci => by rw [cc]; exact h.once ci, fun ci => by rw [cg, cc]; exact h.counted ci,
      fun ci => ?_, fun wi hw => ?_,
    fun c => ?_, k.idle.nodup_iff.2 h.idleOnce,
    fun ha ci => by rw [cu, cc]; exact h.cleared (by rw [← k.service]; exact ha) ci,
      fun ha i => by rw [lv]; exact h.asleep (by rw [← k.service]; exact ha) i,
    fun r hr ha ci => ?_⟩
  · rw [lv] at hl
    obtain ⟨o1, o2⟩ := k.owner i hl
    rw [o1, o2, cc, cu, cid]; exact h.chained (by rw [← k.service]; exact ha) i hl
  · rw [cc, lv]; intro hi
    obtain ⟨a, b⟩ := h.member ci i hi
    exact ⟨a, (k.owner i a).1.trans b⟩
  · rw [cw, h.waiting]; exact sumBelow_congr fun wi _ => by rw [w]
  · rw [w] at hw ⊢; rw [cu, cid, q]; exact h.held wi hw
  · rw [k.wts, h.stored]; exact sumBelow_congr fun wi _ => by rw [w]
  · obtain ⟨r0, e0, a1, a2⟩ := k.scanC r hr
    rw [a2, a1, h.rebuilt r0 e0 (by rw [← k.service]; exact ha) ci]
    have : t.chainBelow r0.cursor ci = s.chainBelow r0.cursor ci := chainBelow_congr fun i _ => by
      rw [lv]; by_cases hl : (s.slot i).state.live = true
      · rw [(k.owner i hl).1]
      · rw [Bool.not_eq_true] at hl; rw [hl]; rfl
    rw [this]

theorem State.IdleExact.frame {s t : State} (h : s.IdleExact) (k : ClientsFrame s t) : t.IdleExact :=
  fun ci => by rw [k.idle.mem_iff, (k.clients ci).isIdle]; exact h ci

theorem State.IdleBut.frame {s t : State} {x} (h : s.IdleBut x) (k : ClientsFrame s t) : t.IdleBut x :=
  ⟨fun hh => h.1 (k.idle.mem_iff.1 hh), fun ci hc => by rw [k.idle.mem_iff, (k.clients ci).isIdle]; exact h.2 ci hc⟩

theorem State.ClientsSound.frame {s t : State} (h : s.ClientsSound) (k : ClientsFrame s t) : t.ClientsSound :=
  ⟨h.toClientsCore.frame k, h.idle.frame k⟩

theorem State.WaitStoreSound.of {s t : State} (h : s.WaitStoreSound) (hw : t.wts = s.wts)
    (hs : t.ada.service = s.ada.service) : t.WaitStoreSound where
  queues := ⟨fun p c wi => by
      rw [State.queue, State.queues_congr (t := t) (s := s) (by rw [hw]),
          State.waiter_congr (t := t) (s := s) (by rw [hw])]; exact h.queues.member p c wi,
    fun p c => by rw [State.queue, State.queues_congr (t := t) (s := s) (by rw [hw])]; exact h.queues.once p c⟩
  form := by rw [hw]; exact h.form
  cleared := by rw [hw, hs]; exact h.cleared

theorem TablesSound.frame {s t : State} (h : TablesSound s) (k : TablesFrame s t) : TablesSound t :=
  ⟨h.grants.frame k.toGrantsFrame, h.wait.of k.wts k.service, h.clients.frame k.cframe⟩

/-! ### The cleared tables -/

/-- A state whose clients and waiters are cleared. -/
theorem clientsSound_clear {s : State} (h1 : s.clt = .clear) (h2 : s.wts = .clear)
    (h3 : s.ada.service.attends = false ∨ ∀ i, (s.slot i).state.live = false)
    (h4 : s.ada.service = .starting ∨ s.ada.service = .passOnly → ∀ i, (s.slot i).state.live = false)
    (h5 : s.ada.service.attends = false ∨ s.ada.op.isRebuild = false) : s.ClientsSound := by
  have c : ∀ ci, s.client ci = Client.zero := fun ci => by rw [State.client, h1]; rfl
  have w : ∀ wi, s.waiter wi = Waiter.zero := fun ci => by rw [State.waiter, h2]; rfl
  refine ⟨⟨by rw [h1]; rfl, by rw [h2]; rfl, fun ci h => ?_, fun ci cj h => ?_, fun ha i hl => ?_, fun ci i h => ?_, fun ci => ?_,
      fun ci => by rw [c]; rfl, fun ci => ?_, fun wi h => ?_,
    fun cl => ?_, by rw [h1]; exact List.nodup_nil, fun _ ci => by rw [c]; exact ⟨rfl, rfl⟩, h4, fun r hr ha ci => ?_⟩,
    fun ci => by rw [h1, c]; simp [Clt.clear, Client.zero, Client.isIdle]⟩
  · rw [c] at h; cases h
  · rw [c] at h; cases h
  · rcases h3 with h3 | h3
    · rw [ha] at h3; cases h3
    · rw [h3] at hl; cases hl
  · rw [c] at h; cases h
  · rw [c]; exact List.nodup_nil
  · rw [c]; exact (sumBelow_zero fun wi _ => by rw [w]; rfl).symm
  · rw [w] at h; cases h
  · rw [h2]; rw [State.classBelow, sumBelow_zero fun wi _ => by rw [w]; rfl]; cases cl <;> rfl
  · rcases h5 with h5 | h5
    · rw [ha] at h5; cases h5
    · rw [hr] at h5; cases h5

theorem waitSound_clear {s : State} (h2 : s.wts = .clear) : s.WaitStoreSound := by
  have q : ∀ p c, s.queue p c = [] := fun p c => by rw [State.queue, State.queues, h2]; cases c <;> rfl
  exact ⟨⟨fun p c wi h => (by rw [q] at h; cases h), fun p c => (by rw [q]; exact List.nodup_nil)⟩, by rw [h2]; rfl, fun _ _ _ => h2⟩

/-! ### The loss of a word (R173) -/

theorem enterFaulted_clears (s : State) (h : s.ada.service.attends = true) :
    s.enterFaulted.clt = .clear ∧ s.enterFaulted.wts = .clear ∧ s.enterFaulted.ada.service = .faulted := by
  have h2 : s.ada.service = .on ∨ s.ada.service = .drain ∨ s.ada.service = .off := by
    cases hs : s.ada.service <;> simp_all [Service.attends]
  have srv : ∀ t : State, (t.enterService .faulted).ada.service = .faulted := fun t => by simp [State.enterService]
  have abs : ∀ t : State, t.abortOp.ada.service = t.ada.service := by
    intro t; unfold State.abortOp State.longReply State.adminSend State.originate; dsimp only
    split
    · simp
    · rfl
  unfold State.enterFaulted; rw [if_pos h2]; dsimp only
  split
  · rw [abs]; simp; exact srv s
  · exact ⟨rfl, rfl, srv s⟩

theorem enterFaulted_stays (s : State) (h : s.ada.service.attends = false) : s.enterFaulted = s := by
  have := (attends_iff _).1 h
  unfold State.enterFaulted; rw [if_neg]; rintro (h | h | h)
  · exact this.1 h
  · exact this.2.1 h
  · exact this.2.2 h

/-- A fatal loss while clients attend leaves them cleared, whatever their entries held. -/
theorem loseFatal_clears {s : State} (h : s.GrantsSound) (ha : s.ada.service.attends = true) (w : MemWord) (hw : fatalWord w = true) :
    TablesSound ((s.zeroWord w).hardEvent (wordFatalEvent w)).enterFaulted := by
  have hg := loseFatal_grants h w hw
  have sv : (s.zeroWord w).ada.service = s.ada.service := by
    cases w <;> simp [State.zeroWord, State.setSuspect]
  have sv2 : ((s.zeroWord w).hardEvent (wordFatalEvent w)).ada.service = s.ada.service := by simp [sv]
  obtain ⟨e1, e2, e3⟩ := enterFaulted_clears ((s.zeroWord w).hardEvent (wordFatalEvent w)) (by rw [sv2]; exact ha)
  refine ⟨hg, waitSound_clear e2, clientsSound_clear e1 e2 (Or.inl (by rw [e3]; rfl)) (fun hh => ?_) (Or.inl (by rw [e3]; rfl))⟩
  rw [e3] at hh; rcases hh with hh | hh <;> cases hh

/-- The loss of a word of waiter, client, grant link or live record memory keeps the tables sound. -/
theorem loseFatal_tables {s : State} (h : TablesSound s) (w : MemWord) (hw : fatalWord w = true) :
    TablesSound ((s.zeroWord w).hardEvent (wordFatalEvent w)).enterFaulted := by
  have hg := loseFatal_grants h.grants w hw
  have sv : (s.zeroWord w).ada.service = s.ada.service := by
    cases w <;> simp [State.zeroWord, State.setSuspect]
  have sv2 : ((s.zeroWord w).hardEvent (wordFatalEvent w)).ada.service = s.ada.service := by simp [sv]
  have hlive : ∀ i, ((s.zeroWord w).hardEvent (wordFatalEvent w)).slot i = (s.zeroWord w).slot i := State.slot_congr (by simp)
  by_cases ha : s.ada.service.attends = true
  · obtain ⟨e1, e2, e3⟩ := enterFaulted_clears ((s.zeroWord w).hardEvent (wordFatalEvent w)) (by rw [sv2]; exact ha)
    refine ⟨hg, waitSound_clear e2, clientsSound_clear e1 e2 (Or.inl (by rw [e3]; rfl)) (fun hh => ?_) (Or.inl (by rw [e3]; rfl))⟩
    rw [e3] at hh; rcases hh with hh | hh <;> cases hh
  · rw [Bool.not_eq_true] at ha
    rw [enterFaulted_stays _ (by rw [sv2]; exact ha)] at hg ⊢
    have hwc : s.wts = .clear := by
      have := (attends_iff _).1 ha; exact h.wait.cleared this.1 this.2.1 this.2.2
    have e2 : (s.zeroWord w).wts = .clear := by
      cases w <;> simp only [State.zeroWord, State.setWaiter, State.setClient, State.setSlot, State.setPoolLive, State.setFeatLive,
          State.setSuspect, hwc] <;> rfl
    have key : ∀ ci,
        ((s.zeroWord w).hardEvent (wordFatalEvent w)).client ci = s.client ci ∨ ((s.zeroWord w).hardEvent (wordFatalEvent w)).client ci = Client.zero := by
      intro ci
      rw [State.client_congr (s := s.zeroWord w) (by simp)]
      cases w <;> first | exact Or.inl rfl | skip
      rw [State.zeroWord, State.client_setClient]; split
      · exact Or.inr rfl
      · exact Or.inl rfl
    have ws : ∀ wi, ((s.zeroWord w).hardEvent (wordFatalEvent w)).waiter wi = Waiter.zero := fun wi => by
      rw [State.waiter, State.hardEvent_wts, e2]; rfl
    have ws0 : ∀ wi, s.waiter wi = Waiter.zero := fun wi => by rw [State.waiter, hwc]; rfl
    have nu : ∀ ci,
        (((s.zeroWord w).hardEvent (wordFatalEvent w)).client ci).inUse = false ∧
            (((s.zeroWord w).hardEvent (wordFatalEvent w)).client ci).chain = [] := by
      intro ci; rcases key ci with e | e <;> rw [e]
      · exact h.clients.cleared ha ci
      · exact ⟨rfl, rfl⟩
    have idl0 : s.clt.idle = [] := by
      rw [List.eq_nil_iff_forall_not_mem]; intro ci hi
      have := (h.clients.idle ci).1 hi
      simp [Client.isIdle, (h.clients.cleared ha ci).1] at this
    have idl : ((s.zeroWord w).hardEvent (wordFatalEvent w)).clt.idle = [] := by
      rw [State.hardEvent_clt]; cases w <;> first | exact idl0 | rfl
    refine ⟨hg, waitSound_clear (by simp [e2]), ?_⟩
    refine ⟨⟨?_, by simp [e2]; rfl, fun ci hh => ?_, fun ci cj hh => ?_, fun hh => ?_, fun ci i hi => ?_,
        fun ci => by rw [(nu ci).2]; exact List.nodup_nil, fun ci => ?_, fun ci => ?_, fun wi hh => ?_,
      fun c => ?_, ?_, fun _ => nu, fun hh i => ?_, fun r hr hh => ?_⟩, fun ci => ?_⟩
    · simp only [State.hardEvent_clt]
      cases w <;> first | exact h.clients.form | (rename_i j; exact Tab.wf_put Client.zero s.clt.clients j Client.zero h.clients.form)
    · rw [(nu ci).1] at hh; cases hh
    · rw [(nu ci).1] at hh; cases hh
    · rw [sv2, ha] at hh; cases hh
    · rw [(nu ci).2] at hi; cases hi
    · rw [(nu ci).2]; rcases key ci with e | e <;> rw [e]
      · rw [h.clients.counted, (h.clients.cleared ha ci).2]
      · rfl
    · have : State.waitersBelow ((s.zeroWord w).hardEvent (wordFatalEvent w)) Config.waiters ci = 0 := sumBelow_zero fun wi _ => by rw [ws]; rfl
      rw [this]; rcases key ci with e | e <;> rw [e]
      · exact h.clients.noWaiters (h.clients.cleared ha ci).1
      · rfl
    · rw [ws] at hh; cases hh
    · have : State.classBelow ((s.zeroWord w).hardEvent (wordFatalEvent w)) Config.waiters c = 0 := sumBelow_zero fun wi _ => by rw [ws]; rfl
      rw [this, State.hardEvent_wts, e2]; cases c <;> rfl
    · rw [idl]; exact List.nodup_nil
    · rw [sv2] at hh
      have := h.clients.asleep hh i
      rw [hlive, ((zeroWord_grants s w hw).slots i).2.2.1]; exact this
    · rw [sv2, ha] at hh; cases hh
    · rw [idl]; simp [Client.isIdle, (nu ci).1]

/-! ### The idle list (R68) -/

theorem idleIfQuiet_client (s : State) (i j) : ClientSame (s.client j) ((s.idleIfQuiet i).client j) := by
  unfold State.idleIfQuiet; split
  · dsimp only
    show ClientSame _ ((s.setClient i { s.client i with lastActivity := s.swp.mt }).client j)
    rw [State.client_setClient]
    split
    · rename_i e; subst e; exact ⟨rfl, rfl, rfl, rfl, rfl⟩
    · exact .refl _
  · exact .refl _

theorem idleIfQuiet_idle (s : State) (i) :
    (s.idleIfQuiet i).clt.idle = if (s.client i).isIdle && !s.clt.idle.contains i then s.clt.idle ++ [i] else s.clt.idle := by
  unfold State.idleIfQuiet; split <;> rfl

theorem setClient_form {s : State} (h : Tab.wf Client.zero s.clt.clients = true)
    (i c) : Tab.wf Client.zero (s.setClient i c).clt.clients = true :=
  Tab.wf_put Client.zero s.clt.clients i c h

theorem idleIfQuiet_form {s : State} (h : Tab.wf Client.zero s.clt.clients = true)
    (i) : Tab.wf Client.zero (s.idleIfQuiet i).clt.clients = true := by
  unfold State.idleIfQuiet; split
  · exact setClient_form h _ _
  · exact h

theorem nodup_snoc {l : List Nat} {i : Nat} (h : l.Nodup) (hn : i ∉ l) : (l ++ [i]).Nodup :=
  List.nodup_append.2 ⟨h, by simp, by intro a ha c hc e; simp at hc; subst hc; subst e; exact hn ha⟩

theorem idleIfQuiet_nodup {s : State} (h : s.clt.idle.Nodup) (i) : (s.idleIfQuiet i).clt.idle.Nodup := by
  rw [idleIfQuiet_idle]; split
  · rename_i e; exact nodup_snoc h (by simp at e; exact e.2)
  · exact h

/-- An entry that left the list joins it when it has become idle. -/
theorem idleIfQuiet_settles {s : State} {i} (h : s.IdleBut i) : (s.idleIfQuiet i).IdleExact := by
  intro ci
  rw [idleIfQuiet_idle, (idleIfQuiet_client s i ci).isIdle]
  have hni : s.clt.idle.contains i = false := by simpa using h.1
  rw [hni]
  by_cases e : ci = i
  · subst e
    split
    · rename_i hh; simp at hh; simp [hh]
    · rename_i hh; simp at hh; simp [hh, h.1]
  · split
    · simp [e]; exact h.2 ci e
    · exact h.2 ci e

/-- Core clauses read the client table through its views, its form, and the idle list only for repeats. -/
theorem State.ClientsCore.clt {s t : State} (h : s.ClientsCore) (hg : t.grt.slots = s.grt.slots)
    (hc : ∀ ci, ClientSame (s.client ci) (t.client ci))
    (hf : Tab.wf Client.zero t.clt.clients = true) (hn : t.clt.idle.Nodup) (hw : t.wts = s.wts) (hv : t.ada.service = s.ada.service)
    (ho : t.ada.op = s.ada.op) : t.ClientsCore := by
  have w : ∀ wi, t.waiter wi = s.waiter wi := State.waiter_congr (by rw [hw])
  have q : ∀ p c,
      t.queue p c = s.queue p c := fun p c => by rw [State.queue, State.queue, State.queues_congr (t := t) (s := s) (by rw [hw])]
  have sl : ∀ i, t.slot i = s.slot i := State.slot_congr hg
  have cu := fun ci => (hc ci).1
  have cid := fun ci => (hc ci).2.1
  have cg := fun ci => (hc ci).2.2.1
  have cc := fun ci => (hc ci).2.2.2.1
  have cw := fun ci => (hc ci).2.2.2.2
  refine ⟨hf, by rw [hw]; exact h.wform, fun ci => by rw [cu]; exact h.range ci,
      fun ci cj => by rw [cu, cu, cid, cid]; exact h.unique ci cj,
    fun ha i hl => ?_, fun ci i => ?_, fun ci => by rw [cc]; exact h.once ci, fun ci => by rw [cg, cc]; exact h.counted ci,
      fun ci => ?_, fun wi hw => ?_,
    fun c => ?_, hn,
    fun ha ci => by rw [cu, cc]; exact h.cleared (by rw [← hv]; exact ha) ci,
      fun ha i => by rw [sl]; exact h.asleep (by rw [← hv]; exact ha) i,
    fun r hr ha ci => ?_⟩
  · rw [sl] at hl ⊢; rw [cc, cu, cid]; exact h.chained (by rw [← hv]; exact ha) i hl
  · rw [cc, sl]; exact h.member ci i
  · rw [cw, h.waiting]; exact sumBelow_congr fun wi _ => by rw [w]
  · rw [w] at hw ⊢; rw [cu, cid, q]; exact h.held wi hw
  · rw [hw, h.stored]; exact sumBelow_congr fun wi _ => by rw [w]
  · rw [h.rebuilt r (by rw [← ho]; exact hr) (by rw [← hv]; exact ha) ci]
    have : t.chainBelow r.cursor ci = s.chainBelow r.cursor ci := chainBelow_congr fun i _ => by rw [sl]
    rw [this]

theorem State.ClientsCore.idleIfQuiet {s : State} (h : s.ClientsCore) (i) : (s.idleIfQuiet i).ClientsCore :=
  h.clt (by simp) (idleIfQuiet_client s i) (idleIfQuiet_form h.form i) (idleIfQuiet_nodup h.idleOnce i) (by simp) (by simp) (by simp)

/-! ### Departure from a chain (R31, R42, R44) -/

def Client.less (c : Client) (i : Nat) : Client := { c with chain := c.chain.erase i, grants := c.grants - 1 }

theorem leaveChain_eq {s : State} {i : Nat} (hin : i ∈ (s.client (s.slot i).ownerIdx).chain)
    (hg : (s.client (s.slot i).ownerIdx).grants ≠ 0) :
    s.leaveChain i = ((s.setClient (s.slot i).ownerIdx { s.client (s.slot i).ownerIdx with chain := (s.client (s.slot i).ownerIdx).chain.erase i }).setClient
      (s.slot i).ownerIdx ((s.client (s.slot i).ownerIdx).less i)).idleIfQuiet (s.slot i).ownerIdx := by
  unfold State.leaveChain; dsimp only
  rw [if_pos (by simpa using hin)]
  unfold State.dropGrantCount; dsimp only
  simp only [State.client_setClient, if_true, hg, if_false]
  rfl

theorem leaveChain_client {s : State} {i : Nat} (hin : i ∈ (s.client (s.slot i).ownerIdx).chain)
    (hg : (s.client (s.slot i).ownerIdx).grants ≠ 0) (j) :
    ClientSame (if j = (s.slot i).ownerIdx then (s.client j).less i else s.client j) ((s.leaveChain i).client j) := by
  rw [leaveChain_eq hin hg]
  have := idleIfQuiet_client ((s.setClient (s.slot i).ownerIdx { s.client (s.slot i).ownerIdx with chain := (s.client (s.slot i).ownerIdx).chain.erase i }).setClient
      (s.slot i).ownerIdx ((s.client (s.slot i).ownerIdx).less i)) (s.slot i).ownerIdx j
  rw [State.client_setClient] at this
  by_cases e : j = (s.slot i).ownerIdx
  · rw [if_pos e] at this ⊢; rw [e] at this ⊢; exact this
  · rw [if_neg e, State.client_setClient, if_neg e] at this; rw [if_neg e]; exact this

theorem leaveChain_idle {s : State} {i : Nat} (hin : i ∈ (s.client (s.slot i).ownerIdx).chain)
    (hg : (s.client (s.slot i).ownerIdx).grants ≠ 0) :
    (s.leaveChain i).clt.idle = if ((s.client (s.slot i).ownerIdx).less i).isIdle && !s.clt.idle.contains (s.slot i).ownerIdx
      then s.clt.idle ++ [(s.slot i).ownerIdx] else s.clt.idle := by
  rw [leaveChain_eq hin hg, idleIfQuiet_idle, State.client_setClient, if_pos rfl]
  rfl

theorem leaveChain_form {s : State} (h : Tab.wf Client.zero s.clt.clients = true)
    (i) : Tab.wf Client.zero (s.leaveChain i).clt.clients = true := by
  unfold State.leaveChain; dsimp only; split
  · unfold State.dropGrantCount; dsimp only; apply idleIfQuiet_form; split
    · simp; exact setClient_form h _ _
    · exact setClient_form (setClient_form h _ _) _ _
  · exact h

theorem leaveChain_none {s : State} {i : Nat} (hin : i ∉ (s.client (s.slot i).ownerIdx).chain) : s.leaveChain i = s := by
  unfold State.leaveChain; dsimp only; rw [if_neg (by simpa using hin)]

/-- Slot `i` goes from live to dead, its owner's chain and count following it. -/
theorem State.ClientsSound.depart {s t u : State} (h : s.ClientsSound) {i : Nat} (hl : (s.slot i).state.live = true)
    (hs : ∀ j, j ≠ i → t.slot j = s.slot j) (hd : (t.slot i).state.live = false)
    (hu1 : (u.slot i).ownerIdx = (s.slot i).ownerIdx) (hu2 : u.clt = s.clt) (ht : t.clt = (u.leaveChain i).clt)
    (hw : t.wts = s.wts) (hv : t.ada.service = s.ada.service)
    (hr : ∀ r, t.ada.op = .rebuild r → s.ada.service.attends = true →
      ∀ ci, r.client ci = ⟨(t.chainBelow r.cursor ci).length, t.chainBelow r.cursor ci⟩) :
    t.ClientsSound := by
  have uc : ∀ ci, u.client ci = s.client ci := State.client_congr (by rw [hu2])
  have w : ∀ wi, t.waiter wi = s.waiter wi := State.waiter_congr (by rw [hw])
  have q : ∀ p c,
      t.queue p c = s.queue p c := fun p c => by rw [State.queue, State.queue, State.queues_congr (t := t) (s := s) (by rw [hw])]
  have tc : ∀ ci, t.client ci = (u.leaveChain i).client ci := State.client_congr (by rw [ht])
  have hwait : ∀ ci,
      (t.client ci).waiters = (s.client ci).waiters → (t.client ci).waiters = t.waitersBelow Config.waiters ci := fun ci e => by
    rw [e, h.waiting]; exact sumBelow_congr fun wi _ => by rw [w]
  have hstored : ∀ c, t.wts.count c = t.classBelow Config.waiters c := fun c => by
    rw [hw, h.stored]; exact sumBelow_congr fun wi _ => by rw [w]
  by_cases ha : s.ada.service.attends = true
  · have hi := (h.chained ha i hl).1
    have hne : (s.client (s.slot i).ownerIdx).grants ≠ 0 := by
      rw [h.counted]; exact Nat.pos_iff_ne_zero.1 (List.length_pos_of_mem hi)
    have hiu : i ∈ (u.client (u.slot i).ownerIdx).chain := by rw [hu1, uc]; exact hi
    have hneu : (u.client (u.slot i).ownerIdx).grants ≠ 0 := by rw [hu1, uc]; exact hne
    have K := leaveChain_client hiu hneu
    have I := leaveChain_idle hiu hneu
    rw [hu1, uc, hu2] at I
    have no : (s.slot i).ownerIdx ∉ s.clt.idle := fun hh => by
      have := (h.idle _).1 hh; simp [Client.isIdle, hne] at this
    simp only [hu1, uc, ← tc] at K
    have cu : ∀ ci, (t.client ci).inUse = (s.client ci).inUse := fun ci => by rw [(K ci).1]; split <;> rfl
    have cid : ∀ ci, (t.client ci).id = (s.client ci).id := fun ci => by rw [(K ci).2.1]; split <;> rfl
    have cw : ∀ ci, (t.client ci).waiters = (s.client ci).waiters := fun ci => by rw [(K ci).2.2.2.2]; split <;> rfl
    have cc : ∀ ci, (t.client ci).chain = (s.client ci).chain.erase i := fun ci => by
      rw [(K ci).2.2.2.1]; split
      · rfl
      · rename_i e; rw [List.erase_of_not_mem]; intro hh; exact e (h.member ci i hh).2.symm
    have cmem : ∀ ci j, j ∈ (t.client ci).chain ↔ j ≠ i ∧ j ∈ (s.client ci).chain := fun ci j => by
      rw [cc, (h.once ci).mem_erase_iff]
    refine ⟨⟨by rw [ht]; exact leaveChain_form (by rw [hu2]; exact h.form) i, by rw [hw]; exact h.wform,
        fun ci => by rw [cu]; exact h.range ci,
      fun ci cj => by rw [cu, cu, cid, cid]; exact h.unique ci cj, fun _ j hj => ?_, fun ci j hj => ?_,
        fun ci => by rw [cc]; exact (h.once ci).erase i,
      fun ci => ?_, fun ci => hwait ci (cw ci), fun wi hh => (by rw [w] at hh ⊢; rw [cu, cid, q]; exact h.held wi hh), hstored, ?_,
      fun hh => (by rw [hv, ha] at hh; cases hh), fun hh j => ?_, fun r hrr hh => hr r hrr (by rw [← hv]; exact hh)⟩, fun ci => ?_⟩
    · have e : j ≠ i := fun e => by rw [e, hd] at hj; cases hj
      rw [hs j e] at hj ⊢
      obtain ⟨a, b, c⟩ := h.chained ha j hj
      rw [cu, cid, cmem]; exact ⟨⟨e, a⟩, b, c⟩
    · obtain ⟨e, hj⟩ := (cmem ci j).1 hj
      rw [hs j e]; exact h.member ci j hj
    · rw [(K ci).2.2.1, cc]; split
      · rename_i e; subst e
        rw [List.length_erase_of_mem hi, ← h.counted]; rfl
      · rename_i e
        rw [List.erase_of_not_mem (fun hh => e (h.member ci i hh).2.symm)]; exact h.counted ci
    · rw [ht, I]; split
      · exact nodup_snoc h.idleOnce no
      · exact h.idleOnce
    · rw [hv] at hh; rcases hh with hh | hh <;> rw [hh] at ha <;> cases ha
    · rw [ht, I, (K ci).isIdle]
      have hni : s.clt.idle.contains (s.slot i).ownerIdx = false := by simpa using no
      rw [hni]
      by_cases e : ci = (s.slot i).ownerIdx
      · subst e; rw [if_pos rfl]
        split
        · rename_i hh; simp at hh; simp [hh]
        · rename_i hh; simp at hh; simp [hh, no]
      · rw [if_neg e]; split
        · simp [e]; exact h.idle ci
        · exact h.idle ci
  · rw [Bool.not_eq_true] at ha
    have hce := fun ci => (h.cleared ha ci)
    have hu3 : u.leaveChain i = u := leaveChain_none (by rw [uc, (hce _).2]; simp)
    have tcs : ∀ ci, t.client ci = s.client ci := fun ci => by rw [tc, hu3, uc]
    refine ⟨⟨by rw [ht, hu3, hu2]; exact h.form, by rw [hw]; exact h.wform, fun ci => by rw [tcs]; exact h.range ci,
      fun ci cj => by rw [tcs, tcs]; exact h.unique ci cj, fun hh => (by rw [hv, ha] at hh; cases hh), fun ci j hj => ?_,
        fun ci => by rw [tcs]; exact h.once ci,
      fun ci => by rw [tcs]; exact h.counted ci, fun ci => hwait ci (by rw [tcs]),
        fun wi hh => (by rw [w] at hh ⊢; rw [tcs, q]; exact h.held wi hh), hstored, by rw [ht, hu3, hu2]; exact h.idleOnce,
      fun _ ci => by rw [tcs]; exact hce ci, fun hh j => ?_, fun r hrr hh => (by rw [hv, ha] at hh; cases hh)⟩,
        fun ci => (by rw [ht, hu3, hu2, tcs]; exact h.idle ci)⟩
    · rw [tcs, (hce ci).2] at hj; cases hj
    · by_cases e : j = i
      · subst e; exact hd
      · rw [hs j e]; exact h.asleep (by rw [← hv]; exact hh) j

/-! ### The chains of a rebuild (R164, R165) -/

theorem chainBelow_erase {s t : State} {i : Nat} (hs : ∀ j, j ≠ i → t.slot j = s.slot j) (hd : (t.slot i).state.live = false)
    (n ci : Nat) :
    t.chainBelow n ci = (s.chainBelow n ci).erase i := by
  have hn : (s.chainBelow n ci).Nodup := List.Nodup.filter _ List.nodup_range
  rw [hn.erase_eq_filter, State.chainBelow, State.chainBelow, List.filter_filter]
  apply List.filter_congr
  intro j _
  by_cases e : j = i
  · subst e; simp [hd]
  · rw [hs j e]; simp [e]

theorem mem_chainBelow {s : State}
    {n ci i : Nat} : i ∈ s.chainBelow n ci ↔ i < n ∧ (s.slot i).state.live = true ∧ (s.slot i).ownerIdx = ci := by
  simp [State.chainBelow]

theorem Rebuild.client_without (g : Slot) (u : Bool) (i : Nat) (r : Rebuild) (ci : Nat) :
    (Rebuild.without g u i r).client ci = if ci = g.ownerIdx then ⟨(r.client ci).count - 1,
        (r.client ci).chain.erase i⟩ else r.client ci := by
  unfold Rebuild.client Rebuild.without; dsimp only
  rw [Tab.get_put]; split
  · rename_i e; subst e; rfl
  · rfl

/-- A release keeps the client table sound. -/
theorem State.ClientsSound.release {s : State} (h : s.ClientsSound) {i : Nat}
    (hl : (s.slot i).state.live = true) : (s.releaseFrom true i).ClientsSound := by
  have hs : ∀ j, (s.releaseFrom true i).slot j = if j = i then (s.slot i).freed else s.slot j := s.slot_releaseFrom true i
  have hne : ∀ j, j ≠ i → (s.releaseFrom true i).slot j = s.slot j := fun j hj => by rw [hs, if_neg hj]
  have hd : ((s.releaseFrom true i).slot i).state.live = false := by rw [hs, if_pos rfl]; rfl
  refine h.depart (u := s) hl hne hd rfl rfl (by rw [State.releaseFrom_clt]; rfl) (by simp) ?_ fun r hr ha ci => ?_
  · unfold State.releaseFrom State.rebuildPassed; dsimp only
    repeat' split
    all_goals simp
  · rw [State.releaseFrom_op, State.rebuildPassed_op] at hr
    cases ho : s.ada.op <;> rw [ho] at hr <;> simp only [reduceCtorEq] at hr
    rename_i r0
    have R := h.rebuilt r0 ho ha
    split at hr
    · rename_i hc
      cases hr
      show Rebuild.client _ ci = ⟨(State.chainBelow _ r0.cursor ci).length, State.chainBelow _ r0.cursor ci⟩
      rw [chainBelow_erase hne hd, Rebuild.client_without, R ci]
      split
      · rename_i e
        rw [List.length_erase_of_mem (mem_chainBelow.2 ⟨hc, hl, e.symm⟩)]
      · rename_i e
        rw [List.erase_of_not_mem]
        intro hh; exact e (mem_chainBelow.1 hh).2.2.symm
    · rename_i hc
      cases hr
      rw [chainBelow_erase hne hd, R ci, List.erase_of_not_mem]
      intro hh; exact hc (mem_chainBelow.1 hh).1

theorem State.WaitStoreSound.keep {s t : State} (h : s.WaitStoreSound) (hw : t.wts = s.wts)
    (hs : t.ada.service = s.ada.service) : t.WaitStoreSound := h.of hw hs

theorem releaseFrom_service (s : State) (b i) : (s.releaseFrom b i).ada.service = s.ada.service := by
  unfold State.releaseFrom State.rebuildPassed; dsimp only
  repeat' split
  all_goals simp

theorem TablesSound.release {s : State} (h : TablesSound s) {i : Nat}
    (hl : (s.slot i).state.live = true) : TablesSound (s.releaseSlot i) :=
  ⟨h.grants.release hl true, h.wait.of (by simp) (releaseFrom_service ..), h.clients.release hl⟩

/-! ### A slot whose record is lost (R44) -/

theorem slotBad_service (s : State) (i) : (s.slotBad i).ada.service = s.ada.service := by
  unfold State.slotBad State.rebuildPassed; dsimp only
  repeat' split
  all_goals simp

theorem slotBad_rebuilt {s : State} (h : s.ClientsSound) (i) (r) (hr : (s.slotBad i).ada.op = .rebuild r)
    (ha : s.ada.service.attends = true) (ci) :
    r.client ci = ⟨((s.slotBad i).chainBelow r.cursor ci).length, (s.slotBad i).chainBelow r.cursor ci⟩ := by
  have hs := s.slotBad_slot i
  have hne : ∀ j, j ≠ i → (s.slotBad i).slot j = s.slot j := fun j hj => by rw [hs, if_neg hj]
  have hd : ((s.slotBad i).slot i).state.live = false := by rw [hs, if_pos rfl]; rfl
  rw [chainBelow_erase hne hd]
  rw [State.slotBad_op, State.rebuildPassed_op] at hr
  split at hr
  · rename_i hl
    cases ho : s.ada.op <;> rw [ho] at hr <;> simp only [reduceCtorEq] at hr
    rename_i r0
    split at hr
    · cases hr; rfl
    · rename_i hc
      cases hr
      rw [h.rebuilt _ ho ha ci, List.erase_of_not_mem]
      intro hh; exact hc (mem_chainBelow.1 hh).1
  · rename_i hl
    rw [h.rebuilt _ hr ha ci, List.erase_of_not_mem]
    intro hh; exact hl (mem_chainBelow.1 hh).2.1

/-- The loss of a slot's record, its departure from the chain made. -/
theorem TablesSound.bad {s t u : State} (h : TablesSound s) (i : Nat) (hb : TablesSame (s.slotBad i) u)
    (ht : t = if s.inChain i then u.leaveChain i else u) : TablesSound t := by
  have hs := s.slotBad_slot i
  have hne : ∀ j, j ≠ i → u.slot j = s.slot j := fun j hj => by rw [hb.slot, hs, if_neg hj]
  have hii : u.slot i = { Slot.zero with state := .bad, generation := (s.slot i).generation, ownerIdx := (s.slot i).ownerIdx } := by rw [hb.slot,
      hs, if_pos rfl]
  have hg : u.GrantsSound := (h.grants.bad i).frame hb.toGrantsSame.frame
  have hclt : u.clt = s.clt := by rw [hb.clt]; simp
  have hwts : u.wts = s.wts := by rw [hb.wts]; simp
  have hsv : u.ada.service = s.ada.service := by rw [hb.service, slotBad_service]
  have hch : ∀ n ci, u.chainBelow n ci = (s.slotBad i).chainBelow n ci := fun n ci => chainBelow_congr fun j _ => by rw [hb.slot]
  have tg : t.GrantsSound := by
    rw [ht]; split
    · exact hg.frame (leaveChain_grants u i)
    · exact hg
  have te : t.wts = u.wts ∧ t.ada = u.ada ∧ t.grt.slots = u.grt.slots := by
    rw [ht]; split
    · refine ⟨by simp, by simp, by simp [State.leaveChain_grt]⟩
    · exact ⟨rfl, rfl, rfl⟩
  have tsl : ∀ j, t.slot j = u.slot j := State.slot_congr te.2.2
  have tw : t.WaitStoreSound := h.wait.of (by rw [te.1, hwts]) (by rw [te.2.1, hsv])
  refine ⟨tg, tw, ?_⟩
  by_cases hl : (s.slot i).state.live = true
  · refine h.clients.depart (u := u) hl (fun j hj => by rw [tsl, hne j hj]) (by rw [tsl, hii]; rfl) (by rw [hii]) hclt ?_ (by rw [te.1,
      hwts]) (by rw [te.2.1, hsv]) fun r hr ha ci => ?_
    · rw [ht]; split
      · rfl
      · rename_i hh
        rw [leaveChain_none]
        intro hh2; apply hh
        rw [hii, State.client_congr (t := u) (s := s) (by rw [hclt])] at hh2
        simpa [State.inChain] using hh2
    · rw [te.2.1, hb.op] at hr
      have e : ∀ n,
          t.chainBelow n ci = (s.slotBad i).chainBelow n ci := fun n => (chainBelow_congr fun j _ => by rw [tsl]).trans (hch n ci)
      rw [e]; exact slotBad_rebuilt h.clients i r hr ha ci
  · have hnc : s.inChain i = false := by
      simp only [State.inChain]
      rw [Bool.eq_false_iff]; intro hh
      exact hl (h.clients.member _ i (by simpa using hh)).1
    rw [hnc] at ht; simp only [Bool.false_eq_true, if_false] at ht
    subst ht
    have hlv : ∀ j, (t.slot j).state.live = (s.slot j).state.live := fun j => by
      by_cases e : j = i
      · subst e; rw [hii]; rw [Bool.not_eq_true] at hl; rw [hl]; rfl
      · rw [hne j e]
    rw [Bool.not_eq_true] at hl
    have hop : (s.slotBad i).ada.op = s.ada.op := by rw [State.slotBad_op, if_neg (by simp [hl])]
    refine h.clients.frame ⟨hlv, fun j hj => ?_, fun ci => .of_eq (State.client_congr (by rw [hclt]) ci),
        fun w => by rw [hclt]; exact w, by rw [hclt], hwts, hsv,
      fun r hr => ⟨r, by rw [← hop, ← hb.op]; exact hr, rfl, fun _ => rfl⟩⟩
    have e : j ≠ i := fun e => by rw [e, hl] at hj; cases hj
    rw [hne j e]; exact ⟨rfl, rfl⟩

/-! ### A creation (R32) -/

theorem createGrant_client (s : State) (i n ci) :
    (s.createGrant i n).client ci = if ci = n.ownerIdx then { s.client ci with chain := (s.client ci).chain ++ [i], grants := (s.client ci).grants + 1 } else s.client ci := by
  unfold State.createGrant State.leaveIdle; dsimp only
  show State.client (State.setClient n.ownerIdx _ _) ci = _
  rw [State.client_setClient]
  split
  · rename_i e; subst e; rfl
  · rfl

theorem createGrant_idle (s : State) (i n) : (s.createGrant i n).clt.idle = s.clt.idle.erase n.ownerIdx := rfl

theorem createGrant_form {s : State} (h : Tab.wf Client.zero s.clt.clients = true)
    (i n) : Tab.wf Client.zero (s.createGrant i n).clt.clients = true := by
  have : ∃ v, (s.createGrant i n).clt.clients = Tab.put Client.zero s.clt.clients n.ownerIdx v := by
    unfold State.createGrant State.leaveIdle; dsimp only; exact ⟨_, rfl⟩
  obtain ⟨v, e⟩ := this; rw [e]; exact Tab.wf_put _ _ _ _ h

/-- A grant created in a slot that was not live for a client entry in use. -/
theorem State.ClientsCore.create {s : State} (h : s.ClientsCore) {i : Nat} {n : NewGrant} (hi : s.IdleBut n.ownerIdx ∨ s.IdleExact)
    (hd : (s.slot i).state.live = false)
    (ha : s.ada.service.attends = true) (hr : s.ada.op.isRebuild = false) (hu : (s.client n.ownerIdx).inUse = true)
    (hid : (s.client n.ownerIdx).id = n.owner) :
    (s.createGrant i n).ClientsSound := by
  have hs := s.createGrant_slot i n
  have hne : ∀ j, j ≠ i → (s.createGrant i n).slot j = s.slot j := fun j hj => by rw [hs, if_neg hj]
  have hii : (s.createGrant i n).slot i = n.slot s (s.slot i).generation := by rw [hs, if_pos rfl]
  have C := createGrant_client s i n
  have w : ∀ wi, (s.createGrant i n).waiter wi = s.waiter wi := State.waiter_congr (by simp)
  have q : ∀ p c,
      (s.createGrant i n).queue p c = s.queue p c := fun p c => by rw [State.queue, State.queue,
          State.queues_congr (t := s.createGrant i n) (s := s) (by simp)]
  have cu : ∀ ci, ((s.createGrant i n).client ci).inUse = (s.client ci).inUse := fun ci => by rw [C]; split <;> rfl
  have cid : ∀ ci, ((s.createGrant i n).client ci).id = (s.client ci).id := fun ci => by rw [C]; split <;> rfl
  have cw : ∀ ci, ((s.createGrant i n).client ci).waiters = (s.client ci).waiters := fun ci => by rw [C]; split <;> rfl
  have cc : ∀ ci,
      ((s.createGrant i n).client ci).chain = if ci = n.ownerIdx then (s.client ci).chain ++ [i] else (s.client ci).chain := fun ci => by rw [C]; split <;> rfl
  have nin : ∀ ci, i ∉ (s.client ci).chain := fun ci hh => by have := (h.member ci i hh).1; rw [hd] at this; cases this
  have hw : (s.createGrant i n).wts = s.wts := by simp
  refine ⟨⟨createGrant_form h.form i n, by rw [hw]; exact h.wform, fun ci => by rw [cu]; exact h.range ci,
      fun ci cj => by rw [cu, cu, cid, cid]; exact h.unique ci cj,
    fun _ j hj => ?_, fun ci j hj => ?_, fun ci => ?_, fun ci => ?_, fun ci => ?_,
      fun wi hh => (by rw [w] at hh ⊢; rw [cu, cid, q]; exact h.held wi hh),
    fun c => ?_, by rw [createGrant_idle]; exact h.idleOnce.erase _, fun hh => (by simp [ha] at hh),
      fun hh j => (by simp at hh; rcases hh with hh | hh <;> rw [hh] at ha <;> cases ha),
    fun r hrr => (by simp at hrr; rw [hrr] at hr; cases hr)⟩, fun ci => ?_⟩
  · by_cases e : j = i
    · subst e; rw [hii]
      show j ∈ ((s.createGrant j n).client n.ownerIdx).chain ∧ ((s.createGrant j n).client n.ownerIdx).inUse = true ∧
          ((s.createGrant j n).client n.ownerIdx).id = n.owner
      rw [cc, if_pos rfl, cu, cid]; exact ⟨by simp, hu, hid⟩
    · rw [hne j e] at hj ⊢
      obtain ⟨a, b, c⟩ := h.chained ha j hj
      rw [cc, cu, cid]; refine ⟨?_, b, c⟩
      split
      · exact List.mem_append_left _ a
      · exact a
  · rw [cc] at hj
    have key : j ∈ (s.client ci).chain → ((s.createGrant i n).slot j).state.live = true ∧
        ((s.createGrant i n).slot j).ownerIdx = ci := fun hj => by
      have e : j ≠ i := fun e => nin ci (e ▸ hj)
      rw [hne j e]; exact h.member ci j hj
    split at hj
    · rename_i e
      rcases List.mem_append.1 hj with hj | hj
      · exact key hj
      · simp at hj; subst hj; rw [hii]; exact ⟨rfl, e.symm⟩
    · exact key hj
  · rw [cc]; split
    · exact nodup_snoc (h.once ci) (nin ci)
    · exact h.once ci
  · rw [cc, C]; split
    · simp [h.counted]
    · exact h.counted ci
  · rw [cw, h.waiting]; exact sumBelow_congr fun wi _ => by rw [w]
  · rw [hw, h.stored]; exact sumBelow_congr fun wi _ => by rw [w]
  · rw [createGrant_idle, h.idleOnce.mem_erase_iff, C]
    by_cases e : ci = n.ownerIdx
    · rw [if_pos e]; simp [e, Client.isIdle]
    · rw [if_neg e]; simp only [ne_eq, e, not_false_eq_true, true_and]
      rcases hi with hi | hi
      · exact hi.2 ci e
      · exact hi ci

theorem TablesSound.create {s : State} (h : TablesSound s) {i : Nat} {l} {n : NewGrant} (hf : s.grt.freeFifo = i :: l)
    (ha : s.ada.service.attends = true) (hr : s.ada.op.isRebuild = false) (hu : (s.client n.ownerIdx).inUse = true)
    (hid : (s.client n.ownerIdx).id = n.owner) :
    TablesSound (s.createGrant i n) := by
  have hd : (s.slot i).state.live = false := by rw [((h.grants.fifo i).1 (by rw [hf]; simp)).2]; rfl
  exact ⟨h.grants.create hf hr n, h.wait.of (by simp) (by simp),
      h.clients.toClientsCore.create (Or.inr h.clients.idle) hd ha hr hu hid⟩

/-! ### Removal of a waiter (R52) -/

theorem Queues.of_with (q : Queues) (c d : Cls)
    (l : List Nat) : (q.with c l).of d = if d = c then l else q.of d := by cases c <;> cases d <;> rfl

theorem State.queue_setQueue (s : State) (p q : Nat) (c d : Cls) (l : List Nat) :
    (s.setQueue p c l).queue q d = if q = p ∧ d = c then l else s.queue q d := by
  rw [State.queue, State.queues_setQueue]
  by_cases e : q = p
  · subst e; rw [if_pos rfl, Queues.of_with]; simp; rfl
  · simp [e]; rfl

theorem unqueue_waiter (s : State)
    (i wi) : (s.unqueue i).waiter wi = if wi = i then { s.waiter i with inUse := false } else s.waiter wi := by
  unfold State.unqueue; dsimp only
  have : ∀ (t : State) c,
      ({ t with wts := t.wts.subCount c } : State).waiter wi = t.waiter wi := fun t c => State.waiter_congr (by cases c <;> rfl) wi
  rw [this, State.waiter_setWaiter]; rfl

theorem unqueue_queue (s : State) (i p c) : (s.unqueue i).queue p c =
    if p = (s.waiter i).pool ∧ c = (s.waiter i).cls then (s.queue p c).erase i else s.queue p c := by
  unfold State.unqueue; dsimp only
  have : ∀ (t : State) d, ({ t with wts := t.wts.subCount d } : State).queue p c = t.queue p c := fun t d => by
    rw [State.queue, State.queue, State.queues_congr (t := { t with wts := t.wts.subCount d }) (s := t) (by cases d <;> rfl)]
  have e2 : ∀ (t : State) w, (t.setWaiter i w).queue p c = t.queue p c := fun t w => rfl
  rw [this, e2, State.queue_setQueue]; split
  · rename_i e; rw [e.1, e.2]
  · rfl

theorem unqueue_count (s : State)
    (i c) : (s.unqueue i).wts.count c = if c = (s.waiter i).cls then s.wts.count c - 1 else s.wts.count c := by
  unfold State.unqueue; dsimp only
  cases h : (s.waiter i).cls <;> cases c <;> rfl

theorem unqueue_wform {s : State} (h : Tab.wf Waiter.zero s.wts.waiters = true)
    (i) : Tab.wf Waiter.zero (s.unqueue i).wts.waiters = true := by
  unfold State.unqueue; dsimp only
  have : ∀ (w : Wts) c, (w.subCount c).waiters = w.waiters := fun w c => by cases c <;> rfl
  rw [this]; exact Tab.wf_put Waiter.zero s.wts.waiters i _ h

theorem unqueue_qform {s : State} (h : Tab.wf Queues.none s.wts.queues = true)
    (i) : Tab.wf Queues.none (s.unqueue i).wts.queues = true := by
  unfold State.unqueue; dsimp only
  have : ∀ (w : Wts) c, (w.subCount c).queues = w.queues := fun w c => by cases c <;> rfl
  rw [this]; exact Tab.wf_put Queues.none s.wts.queues _ _ h

theorem unqueue_wait {s : State} (h : s.WaitStoreSound) {i} (hu : (s.waiter i).inUse = true) : (s.unqueue i).WaitStoreSound := by
  refine ⟨⟨fun p c wi hwi => ?_, fun p c => ?_⟩, unqueue_qform h.form i, fun a b c => ?_⟩
  · rw [unqueue_queue] at hwi
    have hm : wi ∈ s.queue p c := by split at hwi; exact List.mem_of_mem_erase hwi; exact hwi
    obtain ⟨a1, a2, a3⟩ := h.queues.member p c wi hm
    have e : wi ≠ i := fun e => by
      subst e
      rw [if_pos ⟨a2.symm, a3.symm⟩, (h.queues.once p c).mem_erase_iff] at hwi
      exact hwi.1 rfl
    rw [unqueue_waiter, if_neg e]; exact ⟨a1, a2, a3⟩
  · rw [unqueue_queue]; split
    · exact (h.queues.once p c).erase i
    · exact h.queues.once p c
  · have := h.cleared (by simpa using a) (by simpa using b) (by simpa using c)
    rw [State.waiter, this] at hu; cases hu

theorem sumBelow_less {f g : Nat → Nat} {i n : Nat} (h : ∀ j, j ≠ i → f j = g j) (hi : i < n) (hg : g i = 1)
    (hf : f i = 0) : sumBelow f n = sumBelow g n - 1 := by
  have := sumBelow_change h n; rw [if_pos hi, if_pos hi, hg, hf] at this; omega

theorem sumBelow_more {f g : Nat → Nat} {i n : Nat} (h : ∀ j, j ≠ i → f j = g j) (hi : i < n) (hg : g i = 0)
    (hf : f i = 1) : sumBelow f n = sumBelow g n + 1 := by
  have := sumBelow_change h n; rw [if_pos hi, if_pos hi, hg, hf] at this; omega

/-- A waiter in use leaves the store and its client's count. -/
theorem dequeue {s : State} (h : TablesSound s) {i : Nat} (hu : (s.waiter i).inUse = true) :
    ((s.unqueue i).lowerWaiterCount (s.waiter i).clientIdx).ClientsCore ∧
        ((s.unqueue i).lowerWaiterCount (s.waiter i).clientIdx).IdleBut (s.waiter i).clientIdx ∧
    (∀ ci, (((s.unqueue i).lowerWaiterCount (s.waiter i).clientIdx).client ci).inUse = (s.client ci).inUse ∧
      (((s.unqueue i).lowerWaiterCount (s.waiter i).clientIdx).client ci).id = (s.client ci).id) ∧
    s.ada.service.attends = true := by
  obtain ⟨hlt, hcu, hcid, hq⟩ := h.clients.held i hu
  have hw := unqueue_wait h.wait hu
  have ha : s.ada.service.attends = true := by
    by_contra hh; rw [Bool.not_eq_true] at hh
    have := (attends_iff _).1 hh
    have := h.wait.cleared this.1 this.2.1 this.2.2
    rw [State.waiter, this] at hu; cases hu
  generalize hx : (s.waiter i).clientIdx = x at *
  have hwne : (s.client x).waiters ≠ 0 := by
    rw [h.clients.waiting]
    have := le_sumBelow (fun wi => if (s.waiter wi).inUse = true ∧ (s.waiter wi).clientIdx = x then 1 else 0) hlt
    simp only [hu, hx, true_and, if_true] at this
    unfold State.waitersBelow; omega
  have hclt : ∀ ci, (s.unqueue i).client ci = s.client ci := State.client_congr (by simp)
  have et : (s.unqueue i).lowerWaiterCount x = (s.unqueue i).setClient x { s.client x with waiters := (s.client x).waiters - 1 } := by
    unfold State.lowerWaiterCount; dsimp only; rw [hclt, if_neg hwne]
  rw [et]
  generalize ht : (s.unqueue i).setClient x { s.client x with waiters := (s.client x).waiters - 1 } = t
  have C : ∀ ci, t.client ci = if ci = x then { s.client x with waiters := (s.client x).waiters - 1 } else s.client ci := fun ci => by
    rw [← ht, State.client_setClient, hclt]
  have W : ∀ wi, t.waiter wi = if wi = i then { s.waiter i with inUse := false } else s.waiter wi := fun wi => by
    rw [← unqueue_waiter, ← ht]; exact State.waiter_congr (by simp) wi
  have Q : ∀ p c, t.queue p c = (s.unqueue i).queue p c := fun p c => by rw [← ht]; rfl
  have sl : ∀ j, t.slot j = s.slot j := fun j => by rw [← ht]; exact State.slot_congr (by simp) j
  have sv : t.ada = s.ada := by rw [← ht]; simp
  have idl : t.clt.idle = s.clt.idle := by rw [← ht]; show (s.unqueue i).clt.idle = _; simp
  have twts : t.wts = (s.unqueue i).wts := by rw [← ht]; simp
  have cu : ∀ ci, (t.client ci).inUse = (s.client ci).inUse := fun ci => by rw [C]; split; (rename_i e; rw [e]); rfl
  have cid : ∀ ci, (t.client ci).id = (s.client ci).id := fun ci => by rw [C]; split; (rename_i e; rw [e]); rfl
  have cg : ∀ ci, (t.client ci).grants = (s.client ci).grants := fun ci => by rw [C]; split; (rename_i e; rw [e]); rfl
  have cc : ∀ ci, (t.client ci).chain = (s.client ci).chain := fun ci => by rw [C]; split; (rename_i e; rw [e]); rfl
  have h := h.clients
  refine ⟨⟨?_, by rw [twts]; exact unqueue_wform h.wform i, fun ci => by rw [cu]; exact h.range ci,
      fun ci cj => by rw [cu, cu, cid, cid]; exact h.unique ci cj,
    fun _ j hj => ?_, fun ci j => by rw [cc, sl]; exact h.member ci j, fun ci => by rw [cc]; exact h.once ci,
      fun ci => by rw [cc, cg]; exact h.counted ci,
    fun ci => ?_, fun wi hh => ?_, fun c => ?_, by rw [idl]; exact h.idleOnce, fun hh => (by rw [sv, ha] at hh; cases hh),
      fun hh j => (by rw [sl]; exact h.asleep (by rw [← sv]; exact hh) j),
    fun r hr _ ci => ?_⟩, ⟨?_, fun ci hci => ?_⟩, fun ci => ⟨cu ci, cid ci⟩, ha⟩
  · rw [← ht]; exact setClient_form (by simpa using h.form) _ _
  · rw [sl] at hj ⊢; rw [cc, cu, cid]; exact h.chained ha j hj
  · have hne : ∀ wi, wi ≠ i → t.waiter wi = s.waiter wi := fun wi e => by rw [W, if_neg e]
    have hii : (t.waiter i).inUse = false := by rw [W, if_pos rfl]
    rw [C]; split
    · rename_i e; subst e
      show (s.client ci).waiters - 1 = _
      rw [h.waiting]
      exact (sumBelow_less (i := i) (fun j hj => by simp only [hne j hj]) hlt (by simp [hu, hx]) (by simp [hii])).symm
    · rename_i e
      rw [h.waiting]
      refine sumBelow_congr fun wi _ => ?_
      by_cases e2 : wi = i
      · subst e2; simp [hii, hx, Ne.symm e]
      · rw [hne wi e2]
  · have e : wi ≠ i := fun e => by rw [W, if_pos e] at hh; cases hh
    rw [W, if_neg e] at hh ⊢
    obtain ⟨a1, a2, a3, a4⟩ := h.held wi hh
    refine ⟨a1, by rw [cu]; exact a2, by rw [cid]; exact a3, ?_⟩
    rw [Q, unqueue_queue]; split
    · exact (List.mem_erase_of_ne e).2 a4
    · exact a4
  · have hne : ∀ wi, wi ≠ i → t.waiter wi = s.waiter wi := fun wi e => by rw [W, if_neg e]
    have hii : (t.waiter i).inUse = false := by rw [W, if_pos rfl]
    rw [twts, unqueue_count, h.stored]
    split
    · rename_i e
      exact (sumBelow_less (i := i) (fun j hj => by simp only [hne j hj]) hlt (by simp [hu, e]) (by simp [hii])).symm
    · rename_i e
      refine sumBelow_congr fun wi _ => ?_
      by_cases e2 : wi = i
      · subst e2; simp [hii, Ne.symm e]
      · rw [hne wi e2]
  · rw [sv] at hr
    rw [h.rebuilt r hr ha ci]
    have : t.chainBelow r.cursor ci = s.chainBelow r.cursor ci := chainBelow_congr fun j _ => by rw [sl]
    rw [this]
  · rw [idl]; intro hh
    have := (Iff.mp (‹s.ClientsSound›.idle _) hh)
    simp [Client.isIdle, hwne] at this
  · rw [idl, C, if_neg hci]; exact ‹s.ClientsSound›.idle ci

/-- The removal of a waiter keeps the tables sound (R52). -/
theorem dropWaiter_tables {s : State} (h : TablesSound s) {i : Nat} (hu : (s.waiter i).inUse = true)
    (r o) : TablesSound (s.dropWaiter i r o) := by
  obtain ⟨a, b, -, ha⟩ := dequeue h hu
  have hc : (((s.unqueue i).lowerWaiterCount (s.waiter i).clientIdx).idleIfQuiet (s.waiter i).clientIdx).ClientsSound := ⟨a.idleIfQuiet _,
      idleIfQuiet_settles b⟩
  have hs : TablesSound (((s.unqueue i).lowerWaiterCount (s.waiter i).clientIdx).idleIfQuiet (s.waiter i).clientIdx) :=
    ⟨(h.grants.frame ((unqueue_grants s i).frame.trans (lowerWaiterCount_grants (s.unqueue i) (s.waiter i).clientIdx))).frame (GrantsSame.mk (by simp) (by simp) (by simp)).frame,
      (unqueue_wait h.wait hu).of (by simp) (by simp), hc⟩
  unfold State.dropWaiter State.dropWaiterCount; dsimp only
  have org : ∀ (s : State) p n a b, (s.originate p n a b).ada.service = s.ada.service := by
    intro s p n a b; unfold State.originate; dsimp only; split
    · simp
    · cases n <;> simp [State.countDropped]
  cases o
  · exact hs.frame (TablesSame.of (by simp) (by simp) (by simp [State.countDenied]) (by simp) (by simp) (by simp [State.countDenied,
      State.tell, org])).frame
  · exact hs.frame (TablesSame.of (by simp) (by simp) (by simp [State.countDenied]) (by simp) (by simp) (by simp [State.countDenied,
      State.replyTo, org])).frame

/-! ### An enqueue (R47, R49) -/

theorem lowestFree_some {f : Nat → Bool} : ∀ {n i k}, lowestFree f n i = some k → f k = false ∧ i ≤ k ∧ k < i + n := by
  intro n; induction n with
  | zero => intro i k h; cases h
  | succ n ih =>
    intro i k h
    unfold lowestFree at h
    split at h
    · obtain ⟨a, b, c⟩ := ih h; exact ⟨a, by omega, by omega⟩
    · rename_i hh; cases h; exact ⟨by simpa using hh, by omega, by omega⟩

theorem highestFree_some {f : Nat → Bool} : ∀ {n k}, highestFree f n = some k → f k = false ∧ k < n := by
  intro n; induction n with
  | zero => intro k h; cases h
  | succ n ih =>
    intro k h
    unfold highestFree at h
    split at h
    · obtain ⟨a, c⟩ := ih h; exact ⟨a, by omega⟩
    · rename_i hh; cases h; exact ⟨by simpa using hh, by omega⟩

/-- The record an enqueue takes is in the store and not in use. -/
theorem freeWaiter_some {s : State} {c wi} (h : s.freeWaiter c = some wi) : (s.waiter wi).inUse = false ∧ wi < Config.waiters := by
  unfold State.freeWaiter at h; dsimp only at h
  cases c
  · exact highestFree_some h
  · obtain ⟨a, b, c⟩ := lowestFree_some h; exact ⟨a, by omega⟩

theorem placeWaiter_client (s : State) (i w ci) :
    (s.placeWaiter i w).client ci = if ci = w.clientIdx then { s.client ci with waiters := (s.client ci).waiters + 1 } else s.client ci := by
  unfold State.placeWaiter State.leaveIdle; dsimp only
  show State.client (State.setClient w.clientIdx _ _) ci = _
  rw [State.client_setClient]; split
  · rename_i e; subst e; rfl
  · rfl

theorem placeWaiter_waiter (s : State) (i w wi) : (s.placeWaiter i w).waiter wi = if wi = i then w else s.waiter wi := by
  rw [← State.waiter_setWaiter]
  refine State.waiter_congr ?_ wi
  unfold State.placeWaiter State.leaveIdle; dsimp only
  cases w.cls <;> rfl

theorem placeWaiter_queue (s : State)
    (i w p c) : (s.placeWaiter i w).queue p c = if p = w.pool ∧ c = w.cls then s.queue p c ++ [i] else s.queue p c := by
  have : (s.placeWaiter i w).queue p c = ((s.setWaiter i w).setQueue w.pool w.cls ((s.setWaiter i w).queue w.pool w.cls ++ [i])).queue p c := by
    rw [State.queue, State.queue, State.queues_congr]
    unfold State.placeWaiter State.leaveIdle; dsimp only
    cases w.cls <;> rfl
  rw [this, State.queue_setQueue]; split
  · rename_i e; rw [e.1, e.2]; rfl
  · rfl

theorem placeWaiter_count (s : State)
    (i w c) : (s.placeWaiter i w).wts.count c = if c = w.cls then s.wts.count c + 1 else s.wts.count c := by
  unfold State.placeWaiter State.leaveIdle; dsimp only
  cases h : w.cls <;> cases c <;> rfl

theorem placeWaiter_forms {s : State} (i w) (h : Tab.wf Waiter.zero s.wts.waiters = true) (h2 : Tab.wf Queues.none s.wts.queues = true)
    (h3 : Tab.wf Client.zero s.clt.clients = true) :
    Tab.wf Waiter.zero (s.placeWaiter i w).wts.waiters = true ∧ Tab.wf Queues.none (s.placeWaiter i w).wts.queues = true ∧
        Tab.wf Client.zero (s.placeWaiter i w).clt.clients = true := by
  refine ⟨?_, ?_, ?_⟩
  · have : (s.placeWaiter i w).wts.waiters = Tab.put Waiter.zero s.wts.waiters i w := by
      unfold State.placeWaiter State.leaveIdle; dsimp only; cases w.cls <;> rfl
    rw [this]; exact Tab.wf_put _ _ _ _ h
  · have : ∃ v, (s.placeWaiter i w).wts.queues = Tab.put Queues.none s.wts.queues w.pool v := by
      unfold State.placeWaiter State.leaveIdle; dsimp only; cases w.cls <;> exact ⟨_, rfl⟩
    obtain ⟨v, e⟩ := this; rw [e]; exact Tab.wf_put _ _ _ _ h2
  · have : ∃ v, (s.placeWaiter i w).clt.clients = Tab.put Client.zero s.clt.clients w.clientIdx v := by
      unfold State.placeWaiter State.leaveIdle; dsimp only; exact ⟨_, rfl⟩
    obtain ⟨v, e⟩ := this; rw [e]; exact Tab.wf_put _ _ _ _ h3

/-- An enqueue keeps the tables sound (R49). -/
theorem placeWaiter_tables {s : State} (h : TablesSound s) {i : Nat} {w : Waiter} (hn : (s.waiter i).inUse = false)
    (hi : i < Config.waiters) (hu : w.inUse = true)
    (hcu : (s.client w.clientIdx).inUse = true) (hcid : (s.client w.clientIdx).id = w.client)
    (ha : s.ada.service.attends = true) : TablesSound (s.placeWaiter i w) := by
  have C := placeWaiter_client s i w
  have W := placeWaiter_waiter s i w
  have Q := placeWaiter_queue s i w
  obtain ⟨f1, f2, f3⟩ := placeWaiter_forms i w h.clients.wform h.wait.form h.clients.form
  have sl : ∀ j, (s.placeWaiter i w).slot j = s.slot j := State.slot_congr (by simp)
  have cu : ∀ ci, ((s.placeWaiter i w).client ci).inUse = (s.client ci).inUse := fun ci => by rw [C]; split <;> rfl
  have cid : ∀ ci, ((s.placeWaiter i w).client ci).id = (s.client ci).id := fun ci => by rw [C]; split <;> rfl
  have cg : ∀ ci, ((s.placeWaiter i w).client ci).grants = (s.client ci).grants := fun ci => by rw [C]; split <;> rfl
  have cc : ∀ ci, ((s.placeWaiter i w).client ci).chain = (s.client ci).chain := fun ci => by rw [C]; split <;> rfl
  have idl : (s.placeWaiter i w).clt.idle = s.clt.idle.erase w.clientIdx := rfl
  have niq : ∀ p c, i ∉ s.queue p c := fun p c hh => by rw [(h.wait.queues.member p c i hh).1] at hn; cases hn
  have hne : ∀ wi, wi ≠ i → (s.placeWaiter i w).waiter wi = s.waiter wi := fun wi e => by rw [W, if_neg e]
  have hii : (s.placeWaiter i w).waiter i = w := by rw [W, if_pos rfl]
  refine ⟨h.grants.frame (placeWaiter_grants ..), ⟨⟨fun p c wi hwi => ?_, fun p c => ?_⟩, f2, fun a b c => ?_⟩,
      ⟨⟨f3, f1, fun ci => by rw [cu]; exact h.clients.range ci,
    fun ci cj => by rw [cu, cu, cid, cid]; exact h.clients.unique ci cj, fun _ j hj => ?_,
      fun ci j => by rw [cc, sl]; exact h.clients.member ci j, fun ci => by rw [cc]; exact h.clients.once ci,
    fun ci => by rw [cc, cg]; exact h.clients.counted ci, fun ci => ?_, fun wi hh => ?_, fun c => ?_,
      by rw [idl]; exact h.clients.idleOnce.erase _, fun hh => (by simp [ha] at hh),
    fun hh j => (by rw [sl]; exact h.clients.asleep (by simpa using hh) j), fun r hr _ ci => ?_⟩, fun ci => ?_⟩⟩
  · rw [Q] at hwi
    by_cases e : wi = i
    · subst e; rw [hii]; split at hwi
      · rename_i e; exact ⟨hu, e.1.symm, e.2.symm⟩
      · exact absurd hwi (niq p c)
    · rw [hne wi e]; split at hwi
      · simp [e] at hwi; exact h.wait.queues.member p c wi hwi
      · exact h.wait.queues.member p c wi hwi
  · rw [Q]; split
    · exact nodup_snoc (h.wait.queues.once p c) (niq p c)
    · exact h.wait.queues.once p c
  · exfalso
    have := (attends_iff s.ada.service).2 ⟨by simpa using a, by simpa using b, by simpa using c⟩
    rw [ha] at this; cases this
  · rw [sl] at hj ⊢; rw [cc, cu, cid]; exact h.clients.chained ha j hj
  · rw [C]; split
    · rename_i e; subst e
      show (s.client w.clientIdx).waiters + 1 = _
      rw [h.clients.waiting]
      exact (sumBelow_more (i := i) (fun j hj => by simp only [hne j hj]) hi (by simp [hn]) (by simp [hii, hu])).symm
    · rename_i e
      rw [h.clients.waiting]
      refine sumBelow_congr fun wi _ => ?_
      by_cases e2 : wi = i
      · subst e2; simp [hii, hn, Ne.symm e]
      · rw [hne wi e2]
  · by_cases e : wi = i
    · subst e; rw [hii, cu, cid, Q, if_pos ⟨rfl, rfl⟩]; exact ⟨hi, hcu, hcid, by simp⟩
    · rw [hne wi e] at hh ⊢
      obtain ⟨a1, a2, a3, a4⟩ := h.clients.held wi hh
      rw [cu, cid, Q]; refine ⟨a1, a2, a3, ?_⟩
      split
      · exact List.mem_append_left _ a4
      · exact a4
  · rw [placeWaiter_count, h.clients.stored]; split
    · rename_i e
      exact (sumBelow_more (i := i) (fun j hj => by simp only [hne j hj]) hi (by simp [hn]) (by simp [hii, hu, e])).symm
    · rename_i e
      refine sumBelow_congr fun wi _ => ?_
      by_cases e2 : wi = i
      · subst e2; simp [hii, hn, Ne.symm e]
      · rw [hne wi e2]
  · rw [h.clients.rebuilt r (by simpa using hr) ha ci]
    have : (s.placeWaiter i w).chainBelow r.cursor ci = s.chainBelow r.cursor ci := chainBelow_congr fun j _ => by rw [sl]
    rw [this]
  · rw [idl, h.clients.idleOnce.mem_erase_iff, C]
    by_cases e : ci = w.clientIdx
    · rw [if_pos e]; simp [e, Client.isIdle]
    · rw [if_neg e]; simp only [ne_eq, e, not_false_eq_true, true_and]; exact h.clients.idle ci

/-! ### A new entry (R65, R69) -/

theorem newClientIndex_some {s : State} (h : s.ClientsSound) {ci} (hn : s.newClientIndex = some ci) :
    ci < Config.clients ∧ (s.client ci).grants = 0 ∧ ((s.client ci).inUse = false ∨ (s.client ci).waiters = 0) := by
  unfold State.newClientIndex at hn
  split at hn
  · rename_i e; cases hn
    obtain ⟨a, b, c⟩ := lowestFree_some e
    refine ⟨by omega, ?_, Or.inl a⟩
    rw [h.counted]
    by_cases ha : s.ada.service.attends = true
    · rw [h.toClientsCore.bare a ha]; rfl
    · rw [(h.cleared (by simpa using ha) ci).2]; rfl
  · have hm : ci ∈ s.clt.idle := List.mem_of_head? (by simpa using hn)
    have := (h.idle ci).1 hm
    simp [Client.isIdle] at this
    exact ⟨h.range ci this.1.1, this.1.2, Or.inr this.2⟩

/-- A new or evicted entry keeps the tables sound (R65, R69). -/
theorem newClient_tables {s : State} (h : TablesSound s) {ci} {id : W32} (hn : s.newClientIndex = some ci)
    (hf : s.findClient id = none) (ha : s.ada.service.attends = true) :
    TablesSound (s.newClient ci id) := by
  obtain ⟨hlt, hg, hww⟩ := newClientIndex_some h.clients hn
  have hw0 : (s.client ci).waiters = 0 := by
    rcases hww with e | e
    · exact h.clients.toClientsCore.noWaiters e
    · exact e
  have hch : (s.client ci).chain = [] := by
    have := h.clients.counted ci; rw [hg] at this; exact List.eq_nil_of_length_eq_zero this.symm
  have C : ∀ cj,
      (s.newClient ci id).client cj = if cj = ci then { Client.zero with inUse := true, id := id } else s.client cj := fun cj => by
    rw [← State.client_setClient]; rfl
  have idl : (s.newClient ci id).clt.idle = s.clt.idle.erase ci ++ [ci] := rfl
  have sl : ∀ j, (s.newClient ci id).slot j = s.slot j := State.slot_congr (by simp)
  have w : ∀ wi, (s.newClient ci id).waiter wi = s.waiter wi := State.waiter_congr (by simp)
  have q : ∀ p c,
      (s.newClient ci id).queue p c = s.queue p c := fun p c => by rw [State.queue, State.queue,
          State.queues_congr (t := s.newClient ci id) (s := s) (by simp)]
  have nowner : ∀ j, (s.slot j).state.live = true → (s.slot j).ownerIdx ≠ ci := fun j hj e => by
    have := (h.clients.chained ha j hj).1; rw [e, hch] at this; cases this
  have nwait : ∀ wi, (s.waiter wi).inUse = true → (s.waiter wi).clientIdx ≠ ci := fun wi hh e => by
    have := le_sumBelow (fun wi => if (s.waiter wi).inUse = true ∧ (s.waiter wi).clientIdx = ci then 1 else 0) (h.clients.held wi hh).1
    simp only [hh, e, true_and, if_true] at this
    have h2 := h.clients.waiting ci; rw [hw0] at h2; unfold State.waitersBelow at h2; omega
  refine ⟨h.grants.frame (newClient_grants ..), h.wait.of (by simp) (by simp),
      ⟨⟨?_, by simpa using h.clients.wform, fun cj hh => ?_, fun ca cb h1 h2 h3 => ?_, fun _ j hj => ?_, fun cj j hj => ?_,
    fun cj => ?_, fun cj => ?_, fun cj => ?_, fun wi hh => ?_, fun c => ?_, ?_, fun hh => (by simp [ha] at hh),
      fun hh j => (by rw [sl]; exact h.clients.asleep (by simpa using hh) j), fun r hr _ cj => ?_⟩, fun cj => ?_⟩⟩
  · exact setClient_form h.clients.form ci { Client.zero with inUse := true, id := id }
  · rw [C] at hh; split at hh
    · rename_i e; rw [e]; exact hlt
    · exact h.clients.range cj hh
  · rw [C] at h1 h3; rw [C] at h2 h3
    split at h1 <;> rename_i e1
    · split at h2 <;> rename_i e2
      · rw [e1, e2]
      · rw [if_pos e1, if_neg e2] at h3
        exact absurd h3.symm (h.clients.toClientsCore.find_none hf h2)
    · split at h2 <;> rename_i e2
      · rw [if_neg e1, if_pos e2] at h3
        exact absurd h3 (h.clients.toClientsCore.find_none hf h1)
      · rw [if_neg e1, if_neg e2] at h3; exact h.clients.unique ca cb h1 h2 h3
  · rw [sl] at hj ⊢; rw [C, if_neg (nowner j hj)]; exact h.clients.chained ha j hj
  · rw [C] at hj; split at hj
    · cases hj
    · rw [sl]; exact h.clients.member cj j hj
  · rw [C]; split
    · exact List.nodup_nil
    · exact h.clients.once cj
  · rw [C]; split
    · rfl
    · exact h.clients.counted cj
  · have e : (s.newClient ci id).waitersBelow Config.waiters cj = s.waitersBelow Config.waiters cj := sumBelow_congr fun wi _ => by rw [w]
    rw [e, ← h.clients.waiting, C]; split
    · rename_i e; rw [e, hw0]; rfl
    · rfl
  · rw [w] at hh ⊢; rw [C, if_neg (nwait wi hh), q]; exact h.clients.held wi hh
  · have e : (s.newClient ci id).classBelow Config.waiters c = s.classBelow Config.waiters c := sumBelow_congr fun wi _ => by rw [w]
    rw [e, ← h.clients.stored]; simp
  · rw [idl]; exact nodup_snoc (h.clients.idleOnce.erase ci) (by rw [h.clients.idleOnce.mem_erase_iff]; simp)
  · rw [h.clients.rebuilt r (by simpa using hr) ha cj]
    have : (s.newClient ci id).chainBelow r.cursor cj = s.chainBelow r.cursor cj := chainBelow_congr fun j _ => by rw [sl]
    rw [this]
  · rw [idl, C]; by_cases e : cj = ci
    · subst e; simp [Client.isIdle, Client.zero]
    · rw [if_neg e]; simp [h.clients.idleOnce.mem_erase_iff, e]; exact h.clients.idle cj

/-! ### Waiters found and granted (R54, R61) -/

/-- The waiter found is in use. -/
theorem findWaiter_some {s : State} (hs : TablesSound s) {ci tag wi}
    (h : s.findWaiter ci tag = some wi) : (s.waiter wi).inUse = true := by
  unfold State.findWaiter at h
  cases hf : Tab.search (fun w => w.inUse && w.clientIdx == ci && w.tag == tag) s.wts.waiters with
  | none => rw [hf] at h; cases h
  | some kv =>
    obtain ⟨k, v⟩ := kv
    rw [hf] at h; cases h
    obtain ⟨a, b⟩ := Tab.search_some hf
    have e : s.waiter k = v := Tab.get_of_mem _ _ hs.clients.wform a
    show (s.waiter k).inUse = true
    rw [e]; simp at b; exact b.1.1

/-- A head granted keeps the tables sound (R61). -/
theorem grantWaiter_tables {s : State} (hs : TablesSound s) (hr : s.ada.op.isRebuild = false) {i l} (hf : s.grt.freeFifo = i :: l) {wi}
    (hu : (s.waiter wi).inUse = true) :
    TablesSound (s.grantWaiter wi i) := by
  unfold State.grantWaiter; dsimp only
  obtain ⟨a, b, c, ha⟩ := dequeue hs hu
  obtain ⟨-, hcu, hcid, -⟩ := hs.clients.held wi hu
  generalize hn : (s.waiter wi).newGrant (((s.poolEntry (s.waiter wi).pool).map (·.ri)).getD 0) = n
  have n1 : n.ownerIdx = (s.waiter wi).clientIdx := by rw [← hn]; rfl
  have n2 : n.owner = (s.waiter wi).client := by rw [← hn]; rfl
  generalize hs1 : (s.unqueue wi).lowerWaiterCount (s.waiter wi).clientIdx = s1 at *
  have h1 : GrantsFrame s s1 := by rw [← hs1]; exact (unqueue_grants s wi).frame.trans (lowerWaiterCount_grants (s.unqueue wi) (s.waiter wi).clientIdx)
  have g := hs.grants.frame h1
  have hd : (s1.slot i).state.live = false := by rw [(h1.slots i).2.2.1, ((hs.grants.fifo i).1 (by rw [hf]; simp)).2]; rfl
  have o1 : s1.ada.op = s.ada.op := by rw [← hs1]; simp
  have v1 : s1.ada.service = s.ada.service := by rw [← hs1]; simp
  have cl := a.create (i := i) (n := n) (Or.inl (by rw [n1]; exact b)) hd (by rw [v1]; exact ha) (by rw [o1]; exact hr)
    (by rw [n1, (c _).1]; exact hcu) (by rw [n1, n2, (c _).2]; exact hcid)
  have g1 := g.create (i := i) (l := l) (by rw [h1.fifo, hf]) (by rw [o1]; exact hr) n
  have w1 : s1.WaitStoreSound := (unqueue_wait hs.wait hu).of (by rw [← hs1]; simp) (by rw [← hs1]; simp)
  have : TablesSound (s1.createGrant i n) := ⟨g1, w1.of (by simp) (by simp), cl⟩
  exact this.frame (TablesSame.of (by simp) (by simp) (by simp) (by simp) (by simp) (by simp)).frame

/-! ### Every waiter (R55) -/

theorem queue_of_mem {s : State} (hs : TablesSound s) {k q}
    (h : (k, q) ∈ s.wts.queues) : s.queues k = q := Tab.get_of_mem _ _ hs.wait.form h

/-- Every queued waiter is in use. -/
theorem allWaiters_mem {s : State} (hs : TablesSound s) : ∀ i ∈ s.allWaiters, (s.waiter i).inUse = true := by
  intro i hi
  unfold State.allWaiters at hi
  rw [List.mem_flatMap] at hi
  obtain ⟨⟨k, q⟩, hk, hi⟩ := hi
  have := queue_of_mem hs hk
  rcases List.mem_append.1 hi with hi | hi
  · exact (hs.wait.queues.member k .priority i (by rw [State.queue, this]; exact hi)).1
  · exact (hs.wait.queues.member k .general i (by rw [State.queue, this]; exact hi)).1

theorem wf_lo {α : Type} [DecidableEq α] (d : α) {k : Nat} {v : α} : ∀ (t : Tab α)
    (lo : Nat), Tab.wfFrom d lo t = true → (k, v) ∈ t → lo ≤ k := by
  intro t; induction t with
  | nil => intro lo _ h; cases h
  | cons a t ih =>
    intro lo w h
    obtain ⟨j2, x2⟩ := a
    simp only [Tab.wfFrom, Bool.and_eq_true, decide_eq_true_eq] at w
    rcases List.mem_cons.1 h with e | h
    · cases e; exact w.1.1
    · have := ih _ w.2 h; omega

/-- Every waiter is queued once. -/
theorem allWaiters_nodup {s : State} (hs : TablesSound s) : s.allWaiters.Nodup := by
  have key : ∀ (t : Tab Queues) (lo : Nat), Tab.wfFrom Queues.none lo t = true → (∀ k q, (k, q) ∈ t → (k, q) ∈ s.wts.queues) →
      (t.flatMap (fun kv => kv.2.priority ++ kv.2.general)).Nodup := by
    intro t; induction t with
    | nil => intro lo _ _; exact List.nodup_nil
    | cons a t ih =>
      intro lo w h
      obtain ⟨k, q⟩ := a
      simp only [Tab.wfFrom, Bool.and_eq_true, decide_eq_true_eq] at w
      have hq := queue_of_mem hs (h k q (by simp))
      have P : ∀ i ∈ q.priority, (s.waiter i).inUse = true ∧ (s.waiter i).pool = k ∧ (s.waiter i).cls = .priority := fun i hi =>
        hs.wait.queues.member k .priority i (by rw [State.queue, hq]; exact hi)
      have G : ∀ i ∈ q.general, (s.waiter i).inUse = true ∧ (s.waiter i).pool = k ∧ (s.waiter i).cls = .general := fun i hi =>
        hs.wait.queues.member k .general i (by rw [State.queue, hq]; exact hi)
      rw [List.flatMap_cons]
      refine List.nodup_append.2 ⟨List.nodup_append.2 ⟨?_, ?_, ?_⟩, ih _ w.2 fun k2 q2 h2 => h k2 q2 (by simp [h2]), ?_⟩
      · have := hs.wait.queues.once k .priority; rw [State.queue, hq] at this; exact this
      · have := hs.wait.queues.once k .general; rw [State.queue, hq] at this; exact this
      · intro a ha b hb e; subst e
        have e1 := (P a ha).2.2; rw [(G a hb).2.2] at e1; cases e1
      · intro a ha b hb e; subst e
        have pk : (s.waiter a).pool = k := by
          rcases List.mem_append.1 ha with ha | ha
          · exact (P a ha).2.1
          · exact (G a ha).2.1
        rw [List.mem_flatMap] at hb
        obtain ⟨⟨k2, q2⟩, h2, hb⟩ := hb
        have hq2 := queue_of_mem hs (h k2 q2 (by simp [h2]))
        have pk2 : (s.waiter a).pool = k2 := by
          rcases List.mem_append.1 hb with hb | hb
          · exact (hs.wait.queues.member k2 .priority a (by rw [State.queue, hq2]; exact hb)).2.1
          · exact (hs.wait.queues.member k2 .general a (by rw [State.queue, hq2]; exact hb)).2.1
        have := wf_lo Queues.none t _ w.2 h2
        omega
  exact key s.wts.queues 0 hs.wait.form fun _ _ h => h

/-! ### Changes of service state (R159) -/

/-- The service state moves between two states that attend. -/
theorem serve_tables {s t : State} (hs : TablesSound s) (h1 : t.grt = s.grt) (h2 : t.adm.pools = s.adm.pools)
    (h3 : t.ada.op = s.ada.op) (h4 : t.clt = s.clt) (h5 : t.wts = s.wts)
    (ha : s.ada.service.attends = true) (hb : t.ada.service.attends = true) : TablesSound t := by
  have sl : ∀ i, t.slot i = s.slot i := State.slot_congr (by rw [h1])
  have cl : ∀ i, t.client i = s.client i := State.client_congr (by rw [h4])
  have w : ∀ i, t.waiter i = s.waiter i := State.waiter_congr (by rw [h5])
  have q : ∀ p c,
      t.queue p c = s.queue p c := fun p c => by rw [State.queue, State.queue, State.queues_congr (t := t) (s := s) (by rw [h5])]
  have c := hs.clients
  refine ⟨hs.grants.frame (GrantsSame.mk h1 h2 h3).frame,
      ⟨⟨fun p c wi => by rw [q, w]; exact hs.wait.queues.member p c wi, fun p c => by rw [q]; exact hs.wait.queues.once p c⟩,
          by rw [h5]; exact hs.wait.form,
    fun a b d => ?_⟩,
      ⟨⟨by rw [h4]; exact c.form, by rw [h5]; exact c.wform, fun ci => by rw [cl]; exact c.range ci,
          fun ci cj => by rw [cl, cl]; exact c.unique ci cj,
    fun _ i => by rw [sl, cl]; exact c.chained ha i, fun ci i => by rw [cl, sl]; exact c.member ci i,
      fun ci => by rw [cl]; exact c.once ci, fun ci => by rw [cl]; exact c.counted ci,
    fun ci => ?_, fun wi => by rw [w, cl, q]; exact c.held wi, fun cc => ?_, by rw [h4]; exact c.idleOnce,
      fun hh => (by rw [hb] at hh; cases hh), fun hh => ?_, fun r hr _ ci => ?_⟩,
    fun ci => by rw [h4, cl]; exact c.idle ci⟩⟩
  · have := (attends_iff _).2 ⟨a, b, d⟩; rw [hb] at this; cases this
  · rw [cl, c.waiting]; exact sumBelow_congr fun wi _ => by rw [w]
  · rw [h5, c.stored]; exact sumBelow_congr fun wi _ => by rw [w]
  · rcases hh with hh | hh <;> rw [hh] at hb <;> cases hb
  · rw [c.rebuilt r (by rw [← h3]; exact hr) ha ci]
    have : t.chainBelow r.cursor ci = s.chainBelow r.cursor ci := chainBelow_congr fun i _ => by rw [sl]
    rw [this]

theorem enterService_tables {s : State} (hs : TablesSound s) (n : Service) (ha : s.ada.service.attends = true)
    (hb : n.attends = true) : TablesSound (s.enterService n) :=
  serve_tables hs (by simp) (by simp) (by simp) (by simp) (by simp) ha (by simpa [State.enterService] using hb)

/-! ### The visits of a rebuild (R164) -/

theorem chainBelow_succ (s : State)
    (n ci) : s.chainBelow (n+1) ci = s.chainBelow n ci ++ if (s.slot n).state.live && (s.slot n).ownerIdx == ci then [n] else [] := by
  unfold State.chainBelow
  rw [List.range_succ, List.filter_append]
  congr 1
  simp only [List.filter_cons, List.filter_nil]

/-- The scan alone is rewritten. -/
theorem mapRebuild_tables {s : State} (hs : TablesSound s) {f : Rebuild → Rebuild} (hg : (s.mapRebuild f).GrantsSound)
    (h : ∀ r, s.ada.op = .rebuild r → s.ada.service.attends = true →
      ∀ ci, (f r).client ci = ⟨(s.chainBelow (f r).cursor ci).length, s.chainBelow (f r).cursor ci⟩) :
    TablesSound (s.mapRebuild f) := by
  have e : (s.mapRebuild f).grt = s.grt := by simp
  have sl : ∀ j, (s.mapRebuild f).slot j = s.slot j := State.slot_congr (by rw [e])
  have ew : (s.mapRebuild f).wts = s.wts := by simp
  have ec : (s.mapRebuild f).clt = s.clt := by simp
  have ev : (s.mapRebuild f).ada.service = s.ada.service := by unfold State.mapRebuild; split <;> rfl
  have cl : ∀ i, (s.mapRebuild f).client i = s.client i := State.client_congr (by rw [ec])
  have w : ∀ i, (s.mapRebuild f).waiter i = s.waiter i := State.waiter_congr (by rw [ew])
  have q : ∀ p c,
      (s.mapRebuild f).queue p c = s.queue p c := fun p c => by rw [State.queue, State.queue,
          State.queues_congr (t := s.mapRebuild f) (s := s) (by rw [ew])]
  have c := hs.clients
  refine ⟨hg, hs.wait.of ew ev,
      ⟨⟨by rw [ec]; exact c.form, by rw [ew]; exact c.wform, fun ci => by rw [cl]; exact c.range ci,
          fun ci cj => by rw [cl, cl]; exact c.unique ci cj,
    fun ha i => by rw [sl, cl]; exact c.chained (by rw [← ev]; exact ha) i, fun ci i => by rw [cl, sl]; exact c.member ci i,
      fun ci => by rw [cl]; exact c.once ci, fun ci => by rw [cl]; exact c.counted ci,
    fun ci => ?_, fun wi => by rw [w, cl, q]; exact c.held wi, fun cc => ?_, by rw [ec]; exact c.idleOnce,
      fun hh ci => (by rw [cl]; exact c.cleared (by rw [← ev]; exact hh) ci),
    fun hh i => (by rw [sl]; exact c.asleep (by rw [← ev]; exact hh) i), fun r hr ha ci => ?_⟩,
    fun ci => by rw [ec, cl]; exact c.idle ci⟩⟩
  · rw [cl, c.waiting]; exact sumBelow_congr fun wi _ => by rw [w]
  · rw [ew, c.stored]; exact sumBelow_congr fun wi _ => by rw [w]
  · rw [State.mapRebuild_op] at hr
    cases ho : s.ada.op <;> rw [ho] at hr <;> simp only [reduceCtorEq] at hr
    rename_i r0
    cases hr
    rw [h r0 ho (by rw [← ev]; exact ha) ci]
    have : ∀ n, (s.mapRebuild f).chainBelow n ci = s.chainBelow n ci := fun n => chainBelow_congr fun i _ => by rw [sl]
    rw [this]

/-- The cursor moves past a slot that is not live. -/
theorem moveOn_tables {s : State} (hs : TablesSound s) {i} (ha : CursorAt s i) (hd : (s.slot i).state.live = false)
    {f : Rebuild → Rebuild}
    (hf : ∀ r, (f r).cursor = r.cursor + 1 ∧ (f r).live = r.live ∧ (∀ p c, (f r).sum c p = r.sum c p) ∧
      ∀ ci, (f r).client ci = r.client ci) : TablesSound (s.mapRebuild f) := by
  refine mapRebuild_tables hs (moveOn_grants hs.grants ha hd fun r => ⟨(hf r).1, (hf r).2.1, (hf r).2.2.1⟩) fun r ho hat ci => ?_
  rw [(hf r).2.2.2, (hf r).1, chainBelow_succ, ha r ho, hd, hs.clients.rebuilt r ho hat, ha r ho]
  simp

theorem Rebuild.client_adding (i g u) (r : Rebuild) (ci) :
    (Rebuild.adding i g u r).client ci = if ci = g.ownerIdx then ⟨(r.client ci).count + 1,
        (r.client ci).chain ++ [i]⟩ else r.client ci := by
  unfold Rebuild.client Rebuild.adding; dsimp only
  rw [Tab.get_put]; split
  · rename_i e; subst e; rfl
  · rfl

/-- The cursor moves past a live slot, its amounts added. -/
theorem rebuildAdd_tables {s : State} (hs : TablesSound s) {i} (ha : CursorAt s i)
    (hl : (s.slot i).state.live = true) : TablesSound (s.rebuildAdd i) := by
  refine mapRebuild_tables hs (rebuildAdd_grants hs.grants ha hl) fun r ho hat ci => ?_
  show (Rebuild.adding i (s.slot i) (s.unitsCounted (s.slot i)) r).client ci = ⟨(s.chainBelow (r.cursor + 1) ci).length,
      s.chainBelow (r.cursor + 1) ci⟩
  rw [Rebuild.client_adding, chainBelow_succ, ha r ho, hl, hs.clients.rebuilt r ho hat, ha r ho]
  by_cases e : ci = (s.slot i).ownerIdx
  · subst e; simp
  · simp [e, Ne.symm e]

/-- A BAD slot joins the FIFO. -/
theorem freeBad_tables {s : State} (hs : TablesSound s) {i} (hi : i < Config.slots)
    (hb : (s.slot i).state = .bad) : TablesSound (s.freeSlot i) := by
  have hslot : ∀ j, (s.freeSlot i).slot j = if j = i then (s.slot i).freed else s.slot j := by
    intro j
    rw [State.slot_congr (t := s.freeSlot i) (s := s.setSlot i (s.slot i).freed) rfl j, State.slot_setSlot]
  have hd : (s.slot i).state.live = false := by rw [hb]; rfl
  have ev : (s.freeSlot i).ada = s.ada := by simp
  have ec : (s.freeSlot i).clt = s.clt := by simp
  have ew : (s.freeSlot i).wts = s.wts := by simp
  refine ⟨freeBad_grants hs.grants hi hb, hs.wait.of ew (by rw [ev]),
      hs.clients.frame ⟨fun j => ?_, fun j hj => ?_, fun ci => .of_eq (State.client_congr (by rw [ec]) ci),
          fun w => by rw [ec]; exact w,
    by rw [ec], ew, by rw [ev], fun r hr => ⟨r, by rw [← ev]; exact hr, rfl, fun _ => rfl⟩⟩⟩
  · rw [hslot]; split
    · rename_i e; subst e; rw [hd]; rfl
    · rfl
  · have e : j ≠ i := fun e => by rw [e, hd] at hj; cases hj
    rw [hslot, if_neg e]; exact ⟨rfl, rfl⟩

/-- While clients do not attend, a release that leaves the chains alone. -/
theorem orphan_tables {s : State} (hs : TablesSound s) {i} (hl : (s.slot i).state.live = true)
    (ha : s.ada.service.attends = false) : TablesSound (s.releaseFrom false i) := by
  have c := hs.clients
  have hslot := s.slot_releaseFrom false i
  have ec : (s.releaseFrom false i).clt = s.clt := by rw [State.releaseFrom_clt]; rfl
  have ew : (s.releaseFrom false i).wts = s.wts := by simp
  have ev : (s.releaseFrom false i).ada.service = s.ada.service := releaseFrom_service ..
  have cl : ∀ j, (s.releaseFrom false i).client j = s.client j := State.client_congr (by rw [ec])
  have w : ∀ j, (s.releaseFrom false i).waiter j = s.waiter j := State.waiter_congr (by rw [ew])
  have q : ∀ p k,
      (s.releaseFrom false i).queue p k = s.queue p k := fun p k => by rw [State.queue, State.queue,
          State.queues_congr (t := s.releaseFrom false i) (s := s) (by rw [ew])]
  refine ⟨hs.grants.release hl false, hs.wait.of ew ev,
      ⟨⟨by rw [ec]; exact c.form, by rw [ew]; exact c.wform, fun ci => by rw [cl]; exact c.range ci,
          fun ci cj => by rw [cl, cl]; exact c.unique ci cj,
    fun hh => (by rw [ev, ha] at hh; cases hh), fun ci j hj => (by rw [cl, (c.cleared ha ci).2] at hj; cases hj),
      fun ci => by rw [cl]; exact c.once ci, fun ci => by rw [cl]; exact c.counted ci,
    fun ci => ?_, fun wi => by rw [w, cl, q]; exact c.held wi, fun cc => ?_, by rw [ec]; exact c.idleOnce,
      fun hh ci => (by rw [cl]; exact c.cleared ha ci),
    fun hh j => ?_, fun r hr hh ci => (by rw [ev, ha] at hh; cases hh)⟩,
    fun ci => by rw [ec, cl]; exact c.idle ci⟩⟩
  · rw [cl, c.waiting]; exact sumBelow_congr fun wi _ => by rw [w]
  · rw [ew, c.stored]; exact sumBelow_congr fun wi _ => by rw [w]
  · rw [hslot]; split
    · rfl
    · exact c.asleep (by rw [← ev]; exact hh) j

/-! ### The completion of a rebuild (R166) -/

/-- One entry takes the chain of its live grants: its count stands, and the idle list. -/
theorem install_step {s : State} {r : Rebuild} {i : Nat} (hc : (r.client i).count = (s.client i).grants)
    (hi : (s.client i).grants ≠ 0 → i ∉ s.clt.idle) :
    (∀ j, (s.installClient r i).client j = if j = i then { s.client i with chain := (r.client i).chain } else s.client j) ∧
    (s.installClient r i).clt.idle = s.clt.idle ∧
        (Tab.wf Client.zero s.clt.clients = true → Tab.wf Client.zero (s.installClient r i).clt.clients = true) := by
  have ec : (s.setClient i { s.client i with grants := (s.client i).grants, chain := (r.client i).chain }).clt.idle = s.clt.idle := rfl
  have main : ∀ j, (s.setClient i { s.client i with grants := (s.client i).grants, chain := (r.client i).chain }).client j =
      if j = i then { s.client i with chain := (r.client i).chain } else s.client j := fun j => by rw [State.client_setClient]
  unfold State.installClient; dsimp only; rw [hc]
  by_cases h0 : (s.client i).grants = 0
  · rw [if_pos h0, if_neg (by simp [h0])]
    exact ⟨main, rfl, fun w => setClient_form w _ _⟩
  · rw [if_neg h0]
    refine ⟨main, ?_, fun w => setClient_form w _ _⟩
    show s.clt.idle.erase i = s.clt.idle
    exact List.erase_of_not_mem (hi h0)

/-- What the installation leaves in the client table. -/
theorem install_fold {r : Rebuild}
    (l : List Nat) : ∀ {s : State}, (∀ i ∈ l, (r.client i).count = (s.client i).grants ∧ ((s.client i).grants ≠ 0 → i ∉ s.clt.idle)) →
    (∀ j,
        (l.foldl (fun s i => s.installClient r i) s).client j = if j ∈ l then { s.client j with chain := (r.client j).chain } else s.client j) ∧
    (l.foldl (fun s i => s.installClient r i) s).clt.idle = s.clt.idle ∧
    (Tab.wf Client.zero s.clt.clients = true →
        Tab.wf Client.zero (l.foldl (fun s i => s.installClient r i) s).clt.clients = true) := by
  induction l with
  | nil => intro s _; exact ⟨fun j => by simp, rfl, id⟩
  | cons a l ih =>
    intro s h
    obtain ⟨a1, a2, a3⟩ := install_step (h a (by simp)).1 (h a (by simp)).2
    have ag : ∀ j,
        ((s.installClient r a).client j).grants = (s.client j).grants := fun j => by rw [a1]; split; (rename_i e; rw [e]); rfl
    obtain ⟨b1, b2, b3⟩ := ih (s := s.installClient r a) fun i hi => by
      rw [ag, a2]; exact h i (by simp [hi])
    rw [List.foldl_cons]
    refine ⟨fun j => ?_, b2.trans a2, fun w => b3 (a3 w)⟩
    rw [b1, a1]
    by_cases e : j = a
    · subst e; simp
    · simp [e]

/-- The installed counts and chains are those of the live grants. -/
theorem rebuildDone_tables {s : State} (hs : TablesSound s) {r} (ho : s.ada.op = .rebuild r) (hc : Config.slots ≤ r.cursor) :
    TablesSound (s.rebuildDone r) := by
  have hg := rebuildDone_grants hs.grants ho hc
  have c := hs.clients
  -- the entries
  have key : ∀ ci ∈ s.clientsInUse,
      (r.client ci).chain.Perm (s.client ci).chain ∧ (r.client ci).count = (s.client ci).grants ∧
          ((s.client ci).grants ≠ 0 → ci ∉ s.clt.idle) := by
    intro ci hm
    have hu : (s.client ci).inUse = true := by
      unfold State.clientsInUse at hm
      rw [List.mem_map] at hm
      obtain ⟨⟨k, v⟩, h1, h2⟩ := hm
      rw [List.mem_filter] at h1
      have e : s.client k = v := Tab.get_of_mem _ _ c.form h1.1
      simp at h2; subst h2; rw [e]; exact h1.2
    have ha : s.ada.service.attends = true := by
      by_contra hh; rw [Bool.not_eq_true] at hh
      rw [(c.cleared hh ci).1] at hu; cases hu
    have R := c.rebuilt r ho ha ci
    have P : (s.chainBelow r.cursor ci).Perm (s.client ci).chain := by
      refine (List.perm_ext_iff_of_nodup (List.Nodup.filter _ List.nodup_range) (c.once ci)).2 fun i => ?_
      show i ∈ s.chainBelow r.cursor ci ↔ _
      rw [mem_chainBelow]
      constructor
      · rintro ⟨-, h2, h3⟩; have := (c.chained ha i h2).1; rw [h3] at this; exact this
      · intro hi
        obtain ⟨h2, h3⟩ := c.member ci i hi
        exact ⟨by have := hs.grants.range i h2; omega, h2, h3⟩
    refine ⟨by rw [R]; exact P, by rw [R, c.counted]; exact P.length_eq, fun hn hh => ?_⟩
    have := (c.idle ci).1 hh; simp [Client.isIdle, hn] at this
  unfold State.rebuildDone at hg ⊢; dsimp only at hg ⊢
  generalize hs1 : List.foldl (fun s p => State.setPoolLive p (r.pool p (s.poolLive p)) s) s (s.rebuildPools r) = s1 at hg ⊢
  generalize hs2 : List.foldl (fun s i => State.setFeatLive i (r.feature i (s.featLive i)) s) s1 (s.rebuildFeatures r) = s2 at hg ⊢
  generalize hb : s.rebuildFigures r = b at hg ⊢
  have k1 : s1.grt = s.grt ∧ s1.clt = s.clt ∧ s1.wts = s.wts ∧ s1.ada = s.ada := by
    refine ⟨?_, ?_, ?_,
        ?_⟩ <;> rw [← hs1] <;> first | exact foldl_keep _ State.grt (fun b a => by simp) _ _ | exact foldl_keep _ State.clt (fun b a => by simp) _ _ | exact foldl_keep _ State.wts (fun b a => by simp) _ _ | exact foldl_keep _ State.ada (fun b a => by simp) _ _
  have k2 : s2.grt = s1.grt ∧ s2.clt = s1.clt ∧ s2.wts = s1.wts ∧ s2.ada = s1.ada := by
    refine ⟨?_, ?_, ?_,
        ?_⟩ <;> rw [← hs2] <;> first | exact foldl_keep _ State.grt (fun b a => by simp) _ _ | exact foldl_keep _ State.clt (fun b a => by simp) _ _ | exact foldl_keep _ State.wts (fun b a => by simp) _ _ | exact foldl_keep _ State.ada (fun b a => by simp) _ _
  have cl2 : ∀ j, s2.client j = s.client j := State.client_congr (by rw [k2.2.1, k1.2.1])
  have id2 : s2.clt = s.clt := by rw [k2.2.1, k1.2.1]
  obtain ⟨f1, f2, f3⟩ := install_fold (r := r) s.clientsInUse (s := s2) fun i hi => by rw [cl2, id2]; exact (key i hi).2
  have inst : ∀ (i : Nat) (t : State),
      (t.installClient r i).grt = t.grt ∧ (t.installClient r i).ada = t.ada ∧ (t.installClient r i).wts = t.wts := by
    intro i t; unfold State.installClient; dsimp only
    split
    · split <;> simp
    · simp
  generalize hs3 : List.foldl (fun s i => s.installClient r i) s2 s.clientsInUse = s3 at hg f1 f2 f3 ⊢
  have g3 : s3.grt = s2.grt := by rw [← hs3]; exact foldl_keep _ State.grt (fun b a => (inst a b).1) _ _
  have a3 : s3.ada = s2.ada := by rw [← hs3]; exact foldl_keep _ State.ada (fun b a => (inst a b).2.1) _ _
  have w3 : s3.wts = s2.wts := by rw [← hs3]; exact foldl_keep _ State.wts (fun b a => (inst a b).2.2) _ _
  generalize hs4 : ({ s3 with grt.liveTotal := r.live, grt.suspect := false } : State) = s4 at hg ⊢
  have c4 : s4.clt = s3.clt := by rw [← hs4]
  have eclt : (s4.completeOp b).clt = s3.clt := by simp [c4]
  have ewts : (s4.completeOp b).wts = s.wts := by
    rw [State.completeOp_wts, ← hs4]; show s3.wts = _; rw [w3, k2.2.2.1, k1.2.2.1]
  have esv : (s4.completeOp b).ada.service = s.ada.service := by
    have : (s4.completeOp b).ada.service = s4.ada.service := State.longReply_service s4 .done b
    rw [this, ← hs4]; show s3.ada.service = _; rw [a3, k2.2.2.2, k1.2.2.2]
  have sl : ∀ i, (s4.completeOp b).slot i = s.slot i := State.slot_congr (by
    rw [State.completeOp_grt, ← hs4]; show s3.grt.slots = _; rw [g3, k2.1, k1.1])
  have eop : (s4.completeOp b).ada.op.isRebuild = false := rfl
  generalize s4.completeOp b = t at *
  have C : ∀ j, t.client j = if j ∈ s.clientsInUse then { s.client j with chain := (r.client j).chain } else s.client j := fun j => by
    rw [State.client_congr (t := t) (s := s3) (by rw [eclt]), f1, cl2]
  have idl : t.clt.idle = s.clt.idle := by rw [eclt, f2, id2]
  have w : ∀ wi, t.waiter wi = s.waiter wi := State.waiter_congr (by rw [ewts])
  have q : ∀ p c,
      t.queue p c = s.queue p c := fun p c => by rw [State.queue, State.queue, State.queues_congr (t := t) (s := s) (by rw [ewts])]
  have cu : ∀ ci, (t.client ci).inUse = (s.client ci).inUse := fun ci => by rw [C]; split <;> rfl
  have cid : ∀ ci, (t.client ci).id = (s.client ci).id := fun ci => by rw [C]; split <;> rfl
  have cgr : ∀ ci, (t.client ci).grants = (s.client ci).grants := fun ci => by rw [C]; split <;> rfl
  have cw : ∀ ci, (t.client ci).waiters = (s.client ci).waiters := fun ci => by rw [C]; split <;> rfl
  have cp : ∀ ci, (t.client ci).chain.Perm (s.client ci).chain := fun ci => by
    rw [C]; split
    · rename_i h; exact (key ci h).1
    · exact .refl _
  refine ⟨hg, hs.wait.of ewts esv,
      ⟨⟨by rw [eclt]; exact f3 (by rw [id2]; exact c.form), by rw [ewts]; exact c.wform, fun ci => by rw [cu]; exact c.range ci,
          fun ci cj => by rw [cu, cu, cid, cid]; exact c.unique ci cj,
    fun hh i hl => ?_, fun ci i hi => ?_, fun ci => (cp ci).nodup_iff.2 (c.once ci),
      fun ci => by rw [cgr, (cp ci).length_eq]; exact c.counted ci, fun ci => ?_,
      fun wi hw => (by rw [w] at hw ⊢; rw [cu, cid, q]; exact c.held wi hw),
    fun cc => ?_, by rw [idl]; exact c.idleOnce, fun hh ci => ?_, fun hh i => (by rw [sl]; exact c.asleep (by rw [← esv]; exact hh) i),
      fun r2 hr2 => (by rw [hr2] at eop; cases eop)⟩, fun ci => ?_⟩⟩
  · rw [sl] at hl ⊢; rw [(cp _).mem_iff, cu, cid]; exact c.chained (by rw [← esv]; exact hh) i hl
  · rw [sl]; exact c.member ci i ((cp ci).mem_iff.1 hi)
  · rw [cw, c.waiting]; exact sumBelow_congr fun wi _ => by rw [w]
  · rw [ewts, c.stored]; exact sumBelow_congr fun wi _ => by rw [w]
  · obtain ⟨a1, a2⟩ := c.cleared (by rw [← esv]; exact hh) ci
    have := cp ci; rw [a2] at this
    exact ⟨by rw [cu]; exact a1, this.eq_nil⟩
  · rw [idl]; have : (t.client ci).isIdle = (s.client ci).isIdle := by simp [Client.isIdle, cu, cgr, cw]
    rw [this]; exact c.idle ci

/-! ### Power-on, the boot read and SERVICE RESET (R168, R169) -/

/-- The cleared tables are sound. -/
theorem clear_tables {s : State} (hg : s.grt = .clear) (hp : s.adm.pools = []) (hr : s.ada.op.isRebuild = false) (hc : s.clt = .clear)
    (hw : s.wts = .clear) : TablesSound s := by
  have sl : ∀ i, (s.slot i).state.live = false := fun i => by rw [State.slot, hg]; rfl
  exact ⟨clear_grants hg hp hr, waitSound_clear hw, clientsSound_clear hc hw (Or.inr sl) (fun _ => sl) (Or.inr hr)⟩

theorem resetDone_tables (s : State) : TablesSound (s.resetDone) := by
  have h : ∀ t : State,
      t.restartPasses.grt = t.grt ∧ t.restartPasses.adm = t.adm ∧ t.restartPasses.clt = t.clt ∧ t.restartPasses.wts = t.wts := by
    intro t; unfold State.restartPasses; split <;> exact ⟨rfl, rfl, rfl, rfl⟩
  have h2 : ∀ t : State, t.serviceOn.grt = t.grt ∧ t.serviceOn.adm = t.adm ∧ t.serviceOn.clt = t.clt ∧ t.serviceOn.wts = t.wts := by
    intro t; unfold State.serviceOn; split
    · exact ⟨rfl, rfl, rfl, rfl⟩
    · exact ⟨by simp, by simp, by simp, by simp⟩
  unfold State.resetDone
  refine clear_tables ?_ ?_ rfl ?_ ?_
  · rw [State.completeOp_grt, (h2 _).1, (h _).1]; rfl
  · rw [State.completeOp_adm, (h2 _).2.1, (h _).2.1]; rfl
  · rw [State.completeOp_clt, (h2 _).2.2.1, (h _).2.2.1]; rfl
  · rw [State.completeOp_wts, (h2 _).2.2.2, (h _).2.2.2]; rfl

/-- The end of the boot read: nothing stands, so nothing is found. -/
theorem bootRead_tables {s : State} (hs : TablesSound s) (h0 : s.ada.service = .starting) (hr : s.ada.op.isRebuild = false)
    (b) : TablesSound (s.bootRead b) := by
  have c := hs.clients
  have hna : s.ada.service.attends = false := by rw [h0]; rfl
  have key : ∀ t : State,
      t.grt = s.grt → t.adm.pools = s.adm.pools → t.ada.op = s.ada.op → t.clt = s.clt → t.wts = s.wts → TablesSound t := by
    intro t h1 h2 h3 h4 h5
    have sl : ∀ i, t.slot i = s.slot i := State.slot_congr (by rw [h1])
    have cl : ∀ i, t.client i = s.client i := State.client_congr (by rw [h4])
    have w : ∀ i, t.waiter i = s.waiter i := State.waiter_congr (by rw [h5])
    have lv : ∀ i, (t.slot i).state.live = false := fun i => by rw [sl]; exact c.asleep (Or.inl h0) i
    have wc : t.wts = .clear := by
      rw [h5]; exact hs.wait.cleared (by rw [h0]; simp) (by rw [h0]; simp) (by rw [h0]; simp)
    have ci0 : ∀ ci, (t.client ci).inUse = false ∧ (t.client ci).chain = [] := fun ci => by rw [cl]; exact c.cleared hna ci
    refine ⟨hs.grants.frame (GrantsSame.mk h1 h2 h3).frame, waitSound_clear wc,
        ⟨⟨by rw [h4]; exact c.form, by rw [h5]; exact c.wform, fun ci => by rw [cl]; exact c.range ci,
            fun ci cj => by rw [cl, cl]; exact c.unique ci cj,
      fun _ i hl => (by rw [lv] at hl; cases hl), fun ci i => by rw [cl, sl]; exact c.member ci i,
        fun ci => by rw [cl]; exact c.once ci, fun ci => by rw [cl]; exact c.counted ci,
      fun ci => ?_, fun wi hh => ?_, fun cc => ?_, by rw [h4]; exact c.idleOnce, fun _ => ci0, fun _ => lv,
        fun r hh => (by rw [h3] at hh; rw [hh] at hr; cases hr)⟩,
      fun ci => by rw [h4, cl]; exact c.idle ci⟩⟩
    · rw [cl, c.waiting]; exact sumBelow_congr fun wi _ => by rw [w]
    · rw [State.waiter, wc] at hh; cases hh
    · rw [h5, c.stored]; exact sumBelow_congr fun wi _ => by rw [w]
  unfold State.bootRead; split
  · exact key _ (by simp) (by simp) (by simp) (by simp) (by simp)
  · exact key _ rfl rfl rfl rfl rfl

end Sys2Proof.Machine
end

