-- ==== Sys2Proof/Laws/PerInstr.lean ====
section
/-!
SUPPORT. Laws/PerInstr.lean: what is true of every command as syntax, one lemma per constructor of Instr: the memory words that a
well-formed command names as struck all exist in the part, and only a code directory word loses its index alone (R110, R171).
-/
namespace Sys2Proof.Laws.Operands

/-- The struck words of a well-formed command exist, and lose an index alone only where a code directory word does. -/
def Statement (i : Instr) : Prop :=
  i.wellFormed = true → ∀ h ∈ i.hits,
    h.word.inPart = true ∧ (h.damage = .indexLost → ∃ bank code, h.word = .codeDir bank code)

/-- A list of struck words that passes the check holds only such words. -/
theorem hits_inPart {hits : List Hit} (hw : hitsWellFormed hits = true) : ∀ h ∈ hits,
    h.word.inPart = true ∧ (h.damage = .indexLost → ∃ bank code, h.word = .codeDir bank code) := by
  intro h hm
  have hh := List.all_eq_true.mp hw h hm
  obtain ⟨word, damage⟩ := h
  cases word <;> cases damage <;> simp_all [Hit.wellFormed]

/-- A command that names no struck word. -/
theorem of_no_hits {i : Instr} (h : i.hits = []) : Statement i := by
  intro _ x hx
  rw [h] at hx
  cases hx

theorem resetN : Statement .resetN := of_no_hits rfl
theorem bootReadCompletion (read : Option (List Byte)) : Statement (.bootReadCompletion read) := of_no_hits rfl
theorem linkUp (p : Port) : Statement (.linkUp p) := of_no_hits rfl
theorem linkDown (p : Port) (cause : DownCause) : Statement (.linkDown p cause) := of_no_hits rfl
theorem mtAdvance : Statement .mtAdvance := of_no_hits rfl
theorem frameArrival (p : Port) (fr : Frame) : Statement (.frameArrival p fr) := of_no_hits rfl
theorem portReady (p : Port) : Statement (.portReady p) := of_no_hits rfl
theorem claim (hits : List Hit) : Statement (.claim hits) := hits_inPart
theorem renew (hits : List Hit) : Statement (.renew hits) := hits_inPart
theorem renewHandle (hits : List Hit) : Statement (.renewHandle hits) := hits_inPart
theorem yieldGrant (hits : List Hit) : Statement (.yieldGrant hits) := hits_inPart
theorem query (hits : List Hit) : Statement (.query hits) := hits_inPart
theorem withdraw (hits : List Hit) : Statement (.withdraw hits) := hits_inPart
theorem poolServiceRound (pool : Round) (hits : List Hit) : Statement (.poolServiceRound pool hits) := fun hw => hits_inPart (Bool.and_eq_true _ _ ▸ hw).2
theorem grantPassVisit (hits : List Hit) : Statement (.grantPassVisit hits) := hits_inPart
theorem waiterPassVisit (hits : List Hit) : Statement (.waiterPassVisit hits) := hits_inPart
theorem poolPassVisit (hits : List Hit) : Statement (.poolPassVisit hits) := hits_inPart
theorem clientPassVisit (hits : List Hit) : Statement (.clientPassVisit hits) := hits_inPart
theorem noticeHandoff : Statement .noticeHandoff := of_no_hits rfl
theorem readStatus : Statement .readStatus := of_no_hits rfl
theorem readEntry (hits : List Hit) : Statement (.readEntry hits) := hits_inPart
theorem readPool (hits : List Hit) : Statement (.readPool hits) := hits_inPart
theorem readFeatureLive (hits : List Hit) : Statement (.readFeatureLive hits) := hits_inPart
theorem readGrant (hits : List Hit) : Statement (.readGrant hits) := hits_inPart
theorem readWaiter (hits : List Hit) : Statement (.readWaiter hits) := hits_inPart
theorem readClient (hits : List Hit) : Statement (.readClient hits) := hits_inPart
theorem writeEntry (hits : List Hit) : Statement (.writeEntry hits) := hits_inPart
theorem setTime : Statement .setTime := of_no_hits rfl
theorem setWithhold (hits : List Hit) : Statement (.setWithhold hits) := hits_inPart
theorem setService (hits : List Hit) : Statement (.setService hits) := hits_inPart
theorem revokeHandle (hits : List Hit) : Statement (.revokeHandle hits) := hits_inPart
theorem clearCapture : Statement .clearCapture := of_no_hits rfl
theorem writeBootRecord : Statement .writeBootRecord := of_no_hits rfl
theorem flashWriteCompletion (readBack : List Byte) : Statement (.flashWriteCompletion readBack) := of_no_hits rfl
theorem copyBank : Statement .copyBank := of_no_hits rfl
theorem copyBankVisit (hits : List Hit) : Statement (.copyBankVisit hits) := hits_inPart
theorem copyBankCompletion : Statement .copyBankCompletion := of_no_hits rfl
theorem swapBank (hits : List Hit) : Statement (.swapBank hits) := hits_inPart
theorem reconcileGrantVisit (hits : List Hit) : Statement (.reconcileGrantVisit hits) := hits_inPart
theorem reconcileWaiterVisit (hits : List Hit) : Statement (.reconcileWaiterVisit hits) := hits_inPart
theorem reconcilePoolVisit (hits : List Hit) : Statement (.reconcilePoolVisit hits) := hits_inPart
theorem reconcileCompletion : Statement .reconcileCompletion := of_no_hits rfl
theorem audit : Statement .audit := of_no_hits rfl
theorem auditVisit (hits : List Hit) : Statement (.auditVisit hits) := hits_inPart
theorem auditCompletion : Statement .auditCompletion := of_no_hits rfl
theorem scanRevoke : Statement .scanRevoke := of_no_hits rfl
theorem scanRevokeGrantVisit (hits : List Hit) : Statement (.scanRevokeGrantVisit hits) := hits_inPart
theorem scanRevokeWaiterVisit (hits : List Hit) : Statement (.scanRevokeWaiterVisit hits) := hits_inPart
theorem scanRevokeCompletion : Statement .scanRevokeCompletion := of_no_hits rfl
theorem countRebuild : Statement .countRebuild := of_no_hits rfl
theorem countRebuildVisit (hits : List Hit) : Statement (.countRebuildVisit hits) := hits_inPart
theorem countRebuildCompletion (hits : List Hit) : Statement (.countRebuildCompletion hits) := hits_inPart
theorem serviceReset : Statement .serviceReset := of_no_hits rfl
theorem serviceResetCompletion : Statement .serviceResetCompletion := of_no_hits rfl
theorem resetNLow : Statement .resetNLow := of_no_hits rfl
theorem modulePresenceChange (p : Port) (present : Bool) : Statement (.modulePresenceChange p present) := of_no_hits rfl
theorem cexDatagramOfOtherKind : Statement .cexDatagramOfOtherKind := of_no_hits rfl
theorem adminCandidateRefused : Statement .adminCandidateRefused := of_no_hits rfl

end Sys2Proof.Laws.Operands
end

