-- ==== Sys2Proof/Laws/Service.lean ====
section
/-!
SUPPORT. Laws/Service.lean: what the examination of a queue head does when the memories hold no error: it finds no head, removes the head,
grants it, or leaves it blocked (R58 to R61), and how a round and a run go on from there (R57, R62).
-/
namespace Sys2Proof.Machine

/-! ### The tests of R59 and R60 -/

theorem State.outOfWindow_iff (s : State) (e : FeatureEntry) : s.outOfWindow e = true ↔ s.OutsideWindow e := by
  simp only [State.outOfWindow, State.OutsideWindow, FeatureEntry.inWindow, Bool.and_eq_true, Bool.not_eq_true', Bool.and_eq_false_iff,
    Bool.or_eq_false_iff, beq_eq_false_iff_ne, ne_eq, decide_eq_false_iff_not, BitVec.not_le, BitVec.not_lt]

theorem State.headRefusal_of_refused {s : State} {w : Waiter} {r : Reason} (h : s.HeadRefused w r) : s.headRefusal w = some r := by
  unfold State.headRefusal State.epochCurrent
  rcases h with ⟨he, rfl⟩ | ⟨he, h⟩
  · simp [he]
  · rw [if_neg (by simp [he])]
    rcases h with ⟨hf, rfl⟩ | ⟨e, hf, h⟩
    · rw [hf]
    · rw [hf]
      rcases h with ⟨hp, rfl⟩ | ⟨hp, h⟩
      · simp [hp]
      · rcases h with ⟨hd, rfl⟩ | ⟨hw, hd, h⟩
        · simp only [ne_eq, hp, not_true, if_false, Option.isNone_iff_eq_none]; rw [if_pos hd]
        · simp only [ne_eq, hp, not_true, if_false, Option.isNone_iff_eq_none]
          rw [if_neg (by simp [hw, hd])]
          rcases h with ⟨ho, rfl⟩ | ⟨ho, hl, rfl⟩
          · rw [if_pos ((s.outOfWindow_iff e).2 ho)]
          · rw [if_neg (fun hx => ho ((s.outOfWindow_iff e).1 hx)), if_pos hl]

theorem State.headRefusal_of_servable {s : State} {w : Waiter} {e : FeatureEntry} {pe : PoolEntry} (h : s.HeadServable w e pe) :
    s.headRefusal w = none := by
  unfold State.headRefusal State.epochCurrent
  rw [if_neg (by simp [h.epoch]), h.feature]
  simp only [ne_eq, h.pool, not_true, if_false, Option.isNone_iff_eq_none]
  rw [if_neg (by simp [h.weight, h.defined]), if_neg (fun hx => h.window ((s.outOfWindow_iff e).1 hx)), if_neg (Nat.not_le.2 h.limit)]

theorem State.headFits_iff {s : State} {w : Waiter} {e : FeatureEntry} (h : s.featureEntry w.feature = some e) :
    s.headFits w = true ↔ s.HeadFits w e := by
  simp [State.headFits, State.HeadFits, capPasses, h]

/-! ### What the grant of a head sends -/

theorem State.lowerWaiterCount_reply (s : State) (i j : Nat) : ((s.lowerWaiterCount i).client j).reply = (s.client j).reply := by
  unfold State.lowerWaiterCount; dsimp only
  split
  · rw [State.client_congr (s := s) (by simp [State.countUnderflow])]
  · simp only [State.client_setClient]; split <;> simp_all

theorem State.lowerWaiterCount_slots (s : State) (i : Nat) : (s.lowerWaiterCount i).grt.slots = s.grt.slots := by
  unfold State.lowerWaiterCount; dsimp only
  split
  · simp [State.countUnderflow, State.setSuspect]
  · rfl

theorem State.tell_reply {c d : Client} (h : c.reply = d.reply) (id : W32) (tag : W16) (m : CexMsg) (s : State) :
    s.tell c id tag m = s.tell d id tag m := by simp only [State.tell, h]

/-- A head is granted as R61 says: its GRANT goes to its client's reply address with the code of its feature. -/
theorem grantWaiter_served {s : State} (h : s.damage = []) {wi i : Nat} {e : FeatureEntry} {pe : PoolEntry}
    (hs : s.HeadServable (s.waiter wi) e pe) : s.grantWaiter wi i = s.headServed wi i e pe := by
  have hri : ((s.poolEntry (s.waiter wi).pool).map (·.ri)).getD 0 = pe.ri := by rw [hs.defined]; rfl
  unfold State.grantWaiter State.headServed
  dsimp only
  rw [hri]
  generalize hn : (s.waiter wi).newGrant pe.ri = n
  generalize hu : (s.unqueue wi).lowerWaiterCount (s.waiter wi).clientIdx = u
  have hud : (u.createGrant i n).damage = [] := by rw [← hu]; simp [h]
  have hheal : (u.createGrant i n).heal (.grantRec i) = u.createGrant i n := by
    have : ∀ t : State, t.damage = [] → t.heal (.grantRec i) = t := by
      intro t ht; cases t; simp_all [State.heal]
    exact this _ hud
  have hcode : (u.createGrant i n).loadedCode (s.waiter wi).feature = e.code := by
    have : (u.createGrant i n).featureEntry (s.waiter wi).feature = s.featureEntry (s.waiter wi).feature := by
      simp only [State.featureEntry]
      rw [State.activeBank_congr (t := u.createGrant i n) (s := s) (by rw [← hu]; simp)]
    rw [State.loadedCode, this, hs.feature]
  have hslot : u.slot i = s.slot i := by
    rw [← hu, State.slot_congr (State.lowerWaiterCount_slots ..)]; rfl
  have hmsg : ∀ code, (u.createGrant i n).grantMsg i code =
      .grant (handleOf i (s.slot i).generation) (s.waiter wi).cost (s.waiter wi).units (s.waiter wi).cls pe.ri code := by
    intro code
    rw [State.grantMsg, State.createGrant_slot, if_pos rfl, hslot, ← hn]; rfl
  have hrep : ((u.createGrant i n).client (s.waiter wi).clientIdx).reply = (s.client (s.waiter wi).clientIdx).reply := by
    rw [createGrant_client]
    have : (u.client (s.waiter wi).clientIdx).reply = (s.client (s.waiter wi).clientIdx).reply := by
      rw [← hu, State.lowerWaiterCount_reply]; rfl
    split <;> exact this
  rw [hheal, hcode, hmsg, State.tell_reply hrep, ← hn]
  rfl

/-! ### The examination of a head -/

section
variable {s : State} (h : s.damage = []) {p : Nat} {c : Cls}
include h

/-- An empty queue gives no waiter (R58). -/
theorem examineHead_empty (hq : s.queue p c = []) : examineHead p c s = .ok false s := by
  rw [examineHead, check_bind_clean h, Op.get_bind, hq]; rfl

/-- A head that can no longer be served is removed (R59). -/
theorem examineHead_refused {wi : Nat} {rest : List Nat} {r : Reason} (hq : s.queue p c = wi :: rest)
    (hr : s.HeadRefused (s.waiter wi) r) : examineHead p c s = .ok true (s.dropWaiter wi r none) := by
  rw [examineHead, check_bind_clean h, Op.get_bind, hq]
  simp only [check_bind_clean h, Op.get_bind, checkAll_bind_clean h, State.headRefusal_of_refused hr]
  rw [Op.bind_ok (removeWaiter_clean h ..)]; rfl

/-- A servable head that does not fit is blocked (R60). -/
theorem examineHead_blocked {wi : Nat} {rest : List Nat} {e : FeatureEntry} {pe : PoolEntry} (hq : s.queue p c = wi :: rest)
    (hs : s.HeadServable (s.waiter wi) e pe) (hf : ¬ s.HeadFits (s.waiter wi) e) : examineHead p c s = .ok false s := by
  rw [examineHead, check_bind_clean h, Op.get_bind, hq]
  simp only [check_bind_clean h, Op.get_bind, checkAll_bind_clean h, State.headRefusal_of_servable hs]
  rw [if_neg (fun hx => hf ((State.headFits_iff hs.feature).1 hx))]; rfl

/-- A head that fits finds no FREE slot and is blocked (R30, R60). -/
theorem examineHead_unslotted {wi : Nat} {rest : List Nat} {e : FeatureEntry} {pe : PoolEntry} (hq : s.queue p c = wi :: rest)
    (hs : s.HeadServable (s.waiter wi) e pe) (hf : s.HeadFits (s.waiter wi) e) (hx : s.grt.freeFifo = []) :
    examineHead p c s = .ok false (s.headUnslotted (s.waiter wi)) := by
  rw [examineHead, check_bind_clean h, Op.get_bind, hq]
  simp only [check_bind_clean h, Op.get_bind, checkAll_bind_clean h, State.headRefusal_of_servable hs]
  rw [if_pos ((State.headFits_iff hs.feature).2 hf), hx]; rfl

/-- A head that fits is granted in the slot at the head of the FIFO, the pressure check not holding (R61). -/
theorem examineHead_served {wi i : Nat} {rest fifo : List Nat} {e : FeatureEntry} {pe : PoolEntry} (hq : s.queue p c = wi :: rest)
    (hs : s.HeadServable (s.waiter wi) e pe) (hf : s.HeadFits (s.waiter wi) e) (hx : s.grt.freeFifo = i :: fifo)
    (hp : (s.headServed wi i e pe).PressureStands p false) :
    examineHead p c s = .ok true (s.headServed wi i e pe) := by
  have hd : (s.headServed wi i e pe).damage = [] := by simp [State.headServed, h]
  rw [examineHead, check_bind_clean h, Op.get_bind, hq]
  simp only [check_bind_clean h, Op.get_bind, checkAll_bind_clean h, State.headRefusal_of_servable hs]
  rw [if_pos ((State.headFits_iff hs.feature).2 hf), hx]
  simp only [check_bind_clean h, Op.modify_bind, grantWaiter_served h hs]
  rw [Op.bind_ok (pressure_stands hd hp)]; rfl

/-- A queue that does not stop the round gives no waiter and changes nothing (R58, R60). -/
theorem examineHead_passes (hq : s.RoundPasses p c) : examineHead p c s = .ok false s := by
  rcases hq with hq | ⟨wi, rest, e, pe, hq, hs, hf⟩
  · exact examineHead_empty h hq
  · exact examineHead_blocked h hq hs hf

/-- The end of a run with sound memories queues the notices it owes (R82 point 4). -/
theorem finishRun_clean : settle (finishRun p) s = s.endRun p := by
  refine settle_ok ?_
  rw [finishRun, Op.get_bind]
  have ha : ∀ {m : Op Unit}, m s = .ok () s → attempt m s = .ok () s := fun hm => by rw [attempt, settle_ok hm]
  split
  · rw [Op.bind_ok (ha (checkActive_clean h ..)), Op.bind_ok (ha (check_clean h _))]; rfl
  · rfl

end

/-! ### Rounds (R57, R58, R62) -/

/-- What POOL_SERVICE_ROUND does with sound memories (R58, R62). -/
theorem execPoolServiceRound_quiet {s : State} (hq : s.Quiet) (p b) : exec (.poolServiceRound ⟨p, b⟩ []) s = .next (
    match s.runOf p with
    | none => s
    | some r =>
      if s.ada.op.isRebuild then settle (finishRun p) s
      else
        match r.stage with
        | .priority => closeRound p false (serviceRound p b s)
        | .general cause => closeRound p cause (generalHead p (s.mapRun p (fun r => { r with stage := .priority })))) := by
  show Host.Outcome.next (awake s _) = _
  rw [awake_high hq.high]; rfl

theorem State.mapRun_stage (s : State) (p x) : s.mapRun p (fun r => { r with stage := x }) = s.atStage p x := by
  simp [State.mapRun, State.atStage]

/-- The last examination of a round. -/
theorem generalHead_of {s : State} {p b} {t} (h : examineHead p .general s = .ok b t) :
    generalHead p s = .ok (if b then .taken else .nothing) t := by
  rw [generalHead, Op.bind_ok h]; cases b <;> rfl

/-- A round that takes the PRIORITY head (R58). -/
theorem serviceRound_taken {s t : State} {p b} (h : examineHead p .priority s = .ok true t) : serviceRound p b s = .ok .taken t := by
  rw [serviceRound, Op.bind_ok h]; rfl

/-- A round that goes on to the GENERAL head (R58). -/
theorem serviceRound_goes {s t : State} {p b} (h : examineHead p .priority s = .ok false t) (hb : b = true → t.queue p .priority = []) :
    serviceRound p b s = generalHead p t := by
  rw [serviceRound, Op.bind_ok h]
  simp only [Bool.false_eq_true, if_false, Op.get_bind]
  rw [if_neg]; simp; intro hx; exact hb hx

/-- A round parted at a blocked PRIORITY head (R62). -/
theorem serviceRound_parts {s t : State} {p} (h : examineHead p .priority s = .ok false t) (hb : t.queue p .priority ≠ []) :
    serviceRound p true s = .ok .parted (t.atStage p (.general false)) := by
  rw [serviceRound, Op.bind_ok h]
  simp only [Bool.false_eq_true, if_false, Op.get_bind]
  rw [if_pos]; · rw [← State.mapRun_stage]; rfl
  simp; exact hb

theorem State.headUnslotted_queue (s : State) (w p c) : (s.headUnslotted w).queue p c = s.queue p c := by
  unfold State.headUnslotted; split
  · rfl
  · unfold State.queue State.queues; simp

theorem State.headUnslotted_damage (s : State) (w) : (s.headUnslotted w).damage = s.damage := by
  unfold State.headUnslotted; split <;> simp

theorem State.headUnslotted_passes {s : State} (w) {p c} (h : s.RoundPasses p c) : (s.headUnslotted w).RoundPasses p c := by
  unfold State.headUnslotted; split
  · exact h
  · rcases h with h | ⟨wi, rest, e, pe, h1, h2, h3⟩
    · left; unfold State.queue State.queues at *; simpa using h
    · right
      generalize hg : (State.queueNotice _ { s with grt.exhausted := true }).softEvent _ = u
      have e1 : u.wts = s.wts := by rw [← hg]; simp
      have e2 : u.adm = s.adm := by rw [← hg]; simp
      have e3 : u.tbs = s.tbs := by rw [← hg]; simp
      have e4 : u.swp = s.swp := by rw [← hg]; simp
      have e5 : u.clt = s.clt := by rw [← hg]; simp
      have w1 : u.waiter wi = s.waiter wi := by simp only [State.waiter, e1]
      have ab : u.activeBank = s.activeBank := State.activeBank_congr e3
      have fl : ∀ i, u.featLive i = s.featLive i := fun i => by simp only [State.featLive, e2]
      refine ⟨wi, rest, e, pe, by rw [← h1]; unfold State.queue State.queues; rw [e1], ?_, ?_⟩
      · rw [w1]
        exact ⟨by rw [fl]; exact h2.epoch, by have := h2.feature; simpa only [State.featureEntry, ab] using this, h2.pool, h2.weight,
          by have := h2.defined; simpa only [State.poolEntry, ab] using this,
          by have := h2.window; simpa only [State.OutsideWindow, State.dt, e4] using this,
          by have := h2.limit; simpa only [State.client, State.globalEntry, ab, e5] using this⟩
      · rw [w1]; intro hx; apply h3
        simpa only [State.HeadFits, fl, State.availability, State.poolEntry, ab, State.ce, State.poolLive, e2] using hx

theorem State.runOf_none {s : State} {p} (h : ∀ r ∈ s.adm.runs, r.pool ≠ p) : s.runOf p = none := by
  simpa [State.runOf] using h

end Sys2Proof.Machine
end

