-- ==== Sys2Proof/Laws/Uphold.lean ====
section
/-!
SUPPORT. Laws/Uphold.lean: the shared operations keep the grant table sound and, when asked of both, the wait store and the client table
too: every checked read, release, recall, pressure check and removal of a waiter, whether it runs through or ends at a read (R171, R173).
-/
namespace Sys2Proof.Machine

/-- The grant table is sound; of `both`, the wait store and the client table are too. -/
def Upheld (both : Bool) (s : State) : Prop :=
  match both with
  | false => s.GrantsSound
  | true => TablesSound s

theorem Upheld.grants {both : Bool} {s : State} (h : Upheld both s) : s.GrantsSound := by
  cases both
  · exact h
  · exact TablesSound.grants h
theorem Upheld.tables {both : Bool} {s : State} (h : Upheld both s) (hb : both = true) : TablesSound s := by subst hb; exact h
/-- The facts of the client table, claimed of both only, may be left aside. -/
theorem Upheld.of {both : Bool} {s : State} (h : s.GrantsSound) (k : both = true → TablesSound s) : Upheld both s := by
  cases both
  · exact h
  · exact k rfl
theorem Upheld.frame {both : Bool} {s t : State} (h : Upheld both s) (k : TablesFrame s t) : Upheld both t :=
  .of (h.grants.frame k.toGrantsFrame) fun hb => (h.tables hb).frame k
theorem Upheld.loseFatal {both : Bool} {s : State} (h : Upheld both s) (w : MemWord) (hw : fatalWord w = true) :
    Upheld both ((s.zeroWord w).hardEvent (wordFatalEvent w)).enterFaulted :=
  .of (loseFatal_grants h.grants w hw) fun hb => loseFatal_tables (h.tables hb) w hw
theorem Upheld.release {both : Bool} {s : State} (h : Upheld both s) {i : Nat} (hl : (s.slot i).state.live = true) :
    Upheld both (s.releaseSlot i) :=
  .of (h.grants.release hl true) fun hb => (h.tables hb).release hl
theorem Upheld.bad {both : Bool} {s t u : State} (h : Upheld both s) (i : Nat) (hb : TablesSame (s.slotBad i) u)
    (ht : t = if s.inChain i then u.leaveChain i else u) : Upheld both t := by
  refine .of ?_ fun e => (h.tables e).bad i hb ht
  have hu := (h.grants.bad i).frame hb.toGrantsSame.frame
  rw [ht]; split
  · exact hu.frame (leaveChain_grants u i)
  · exact hu

end Sys2Proof.Machine

namespace Sys2Proof.Machine.Uphold

variable {both : Bool}

/-! triples -/
/-- Every end of an operation: `Q` when it runs through, soundness when it ends at a read. -/
def Ends (both : Bool) {α : Type} (m : Op α) (s : State) (Q : α → State → Prop) : Prop :=
  match m s with
  | .ok a t => Q a t
  | .error _ t => Upheld both t

theorem Ends.bind {α β : Type} {m : Op α} {f : α → Op β} {s : State} {Q : β → State → Prop}
    (h : Ends both m s fun a t => Ends both (f a) t Q) : Ends both (m >>= f) s Q := by
  unfold Ends at *
  cases hm : m s with
  | ok a t => rw [hm] at h; rw [Op.bind_ok hm]; exact h
  | error e t => rw [hm] at h; rw [Op.bind_error hm]; exact h
theorem Ends.mono {α : Type} {m : Op α} {s : State} {Q R : α → State → Prop} (h : Ends both m s Q)
    (k : ∀ a t, Q a t → R a t) : Ends both m s R := by
  unfold Ends at *
  cases hm : m s with
  | ok a t => rw [hm] at h; exact k a t h
  | error e t => rw [hm] at h; exact h
theorem Ends.getB {β : Type} {f : State → Op β} {s : State} {Q : β → State → Prop} (h : Ends both (f s) s Q) :
    Ends both ((MonadState.get : Op State) >>= f) s Q := h

/-- The operation keeps what is upheld, however it ends. -/
def Keeps (both : Bool) {α : Type} (m : Op α) : Prop := ∀ s, Upheld both s → Ends both m s fun _ t => Upheld both t

theorem Keeps.bind {α β : Type} {m : Op α} {f : α → Op β} (h : Keeps both m) (k : ∀ a, Keeps both (f a)) : Keeps both (m >>= f) :=
  fun s hs => Ends.bind ((h s hs).mono fun a t ht => k a t ht)
theorem Keeps.pure {α : Type} (a : α) : Keeps both (Pure.pure a : Op α) := fun _ hs => hs
theorem Keeps.upd {f : State → State}
    (h : ∀ s, Upheld both s → Upheld both (f s)) : Keeps both (modify f : Op PUnit) := fun s hs => h s hs
theorem Keeps.get {β : Type} {f : State → Op β} (h : ∀ s, Upheld both s → Ends both (f s) s fun _ t => Upheld both t) :
    Keeps both ((MonadState.get : Op State) >>= f) := fun s hs => h s hs
theorem Keeps.frame {f : State → State}
    (h : ∀ s, TablesFrame s (f s)) : Keeps both (modify f : Op PUnit) := .upd fun s hs => hs.frame (h s)
theorem Keeps.setTo {s : State} (hs : Upheld both s) {t : State}
    (h : TablesFrame s t) : Ends both (set t : Op PUnit) s fun _ t => Upheld both t := hs.frame h
theorem Keeps.settled {m : Op Unit} (h : Keeps both m) {s : State} (hs : Upheld both s) : Upheld both (settle m s) := by
  have := h s hs
  unfold Ends at this; unfold settle
  cases hm : m s <;> rw [hm] at this <;> exact this

/-- Checked reads of other words than grant records: they change nothing that is upheld, or end and keep it. -/
def Reads (both : Bool) {α : Type} (m : Op α) : Prop := ∀ s,
    Upheld both s → match m s with | .ok _ t => TablesSame s t | .error _ t => Upheld both t

theorem Reads.bind {α β : Type} {m : Op α} {f : α → Op β} (h : Reads both m) (k : ∀ a, Reads both (f a)) : Reads both (m >>= f) := by
  intro s hs
  have h1 := h s hs
  cases hm : m s with
  | ok a t =>
    rw [hm] at h1; rw [Op.bind_ok hm]
    have h2 := k a t (hs.frame h1.frame)
    cases hf : f a t with
    | ok b u => rw [hf] at h2; exact h1.trans h2
    | error e u => rw [hf] at h2; exact h2
  | error e t => rw [hm] at h1; rw [Op.bind_error hm]; exact h1
theorem Reads.pure {α : Type} (a : α) : Reads both (Pure.pure a : Op α) := fun s _ => .refl s
theorem Reads.then {α β : Type} {m : Op α} {f : α → Op β} {s : State} {Q : β → State → Prop} (h : Reads both m) (hs : Upheld both s)
    (k : ∀ a t, TablesSame s t → Upheld both t → Ends both (f a) t Q) : Ends both (m >>= f) s Q := by
  apply Ends.bind
  have h1 := h s hs
  unfold Ends
  cases hm : m s with
  | ok a t => rw [hm] at h1; exact k a t h1 (hs.frame h1.frame)
  | error e t => rw [hm] at h1; exact h1
theorem Reads.keeps {α : Type} {m : Op α} (h : Reads both m) : Keeps both m := by
  intro s hs
  have h1 := h s hs
  unfold Ends
  cases hm : m s with
  | ok a t => rw [hm] at h1; exact hs.frame h1.frame
  | error e t => rw [hm] at h1; exact h1

theorem loseFatal_reads (w : MemWord) (h : fatalWord w = true) : Reads both (loseFatal w) := fun _ hs => hs.loseFatal w h

theorem heal_benign (s : State) (w) : TablesSame s (s.heal w) := .of (by simp) (by simp) (by simp) (by simp) (by simp) (by simp)

theorem checkOr_reads (w : MemWord) (l : Damage → Op Unit) (h : ∀ d, Reads both (l d)) : Reads both (checkOr w l) := by
  intro s hs
  unfold checkOr
  split
  · rename_i e; split at e <;> rename_i e2
    · cases e; exact .refl _
    · split at e
      · cases e; exact .of (by simp) (by simp) (by simp) (by simp) (by simp) (by simp)
      · have := h (by assumption) (s.heal w) (hs.frame (heal_benign s w).frame); rw [e] at this
        exact (heal_benign s w).trans this
  · rename_i e; split at e <;> rename_i e2
    · cases e
    · split at e
      · cases e
      · have := h (by assumption) (s.heal w) (hs.frame (heal_benign s w).frame); rw [e] at this
        exact this

theorem damageEntry_benign (s : State) (b k i) : TablesSame s (s.damageEntry b k i) := by
  unfold State.damageEntry; exact .of (by simp) (by simp) (by simp) (by simp) (by simp) (by simp)
theorem forgetCode_benign (s : State) (b c) : TablesSame s (s.forgetCode b c) := by
  unfold State.forgetCode; exact .of (by simp) (by simp) (by simp) (by simp) (by simp) (by simp)
theorem loseDirectory_benign (s : State) (b c l) : TablesSame s (s.loseDirectory b c l) := by
  unfold State.loseDirectory; dsimp only; split
  · exact forgetCode_benign ..
  · split
    · exact (forgetCode_benign ..).trans (damageEntry_benign _ _ _ _)
    · exact forgetCode_benign ..

theorem check_reads (w : MemWord) (h : notRec w = true) : Reads both (check w) := by
  refine checkOr_reads w _ fun d => ?_
  cases w <;> simp only [lose] <;> first | exact loseFatal_reads _ rfl | skip
  · cases h
  · intro s _; exact damageEntry_benign ..
  · intro s _; exact loseDirectory_benign ..
theorem checkAll_reads {ws : List MemWord} (h : ∀ w ∈ ws, notRec w = true) : Reads both (checkAll ws) := by
  induction ws with
  | nil => exact .pure _
  | cons w ws ih => exact .bind (check_reads w (h w (by simp))) fun _ => ih fun x hx => h x (by simp [hx])
theorem checkActive_reads (k i) : Reads both (checkActive k i) := by
  intro s hs; exact check_reads (s.activeWord k i) rfl s hs

/-! slots -/
theorem dropGrantCount_ids (s : State) (o ci : Nat) :
    ((s.dropGrantCount o).client ci).inUse = (s.client ci).inUse ∧ ((s.dropGrantCount o).client ci).id = (s.client ci).id := by
  unfold State.dropGrantCount; dsimp only
  refine ⟨(idleIfQuiet_client _ _ _).1.trans ?_, (idleIfQuiet_client _ _ _).2.1.trans ?_⟩ <;> split
  all_goals first | rw [State.countUnderflow_client] | (rw [State.client_setClient]; split <;> simp_all)
theorem leaveChain_ids (s : State) (i ci : Nat) :
    ((s.leaveChain i).client ci).inUse = (s.client ci).inUse ∧ ((s.leaveChain i).client ci).id = (s.client ci).id := by
  unfold State.leaveChain; dsimp only; split
  · refine ⟨(dropGrantCount_ids _ _ _).1.trans ?_, (dropGrantCount_ids _ _ _).2.trans ?_⟩ <;>
      (rw [State.client_setClient]; split <;> simp_all)
  · exact ⟨rfl, rfl⟩

/-- Reads made while a slot just lost still stands in its owner's chain. -/
def ReadsLost (both : Bool) {α : Type} (m : Op α) : Prop :=
  ∀ s,
      s.GrantsSound → (both = true → s.ada.service.attends = true) →
          match m s with | .ok _ t => TablesSame s t | .error _ t => Upheld both t
theorem ReadsLost.checkOr {w : MemWord} (hw : fatalWord w = true) : ReadsLost both (checkOr w (fun _ => loseFatal w)) := by
  intro s hg ha
  have hb := heal_benign s w
  unfold Machine.checkOr
  split
  · rename_i e; split at e
    · cases e; exact .refl _
    · split at e
      · cases e; exact .of (by simp) (by simp) (by simp) (by simp) (by simp) (by simp)
      · cases e
  · rename_i e; split at e
    · cases e
    · split at e
      · cases e
      · cases e
        have hh := hg.frame hb.toGrantsSame.frame
        exact .of (loseFatal_grants hh w hw) fun h => loseFatal_clears hh (by simpa using ha h) w hw
theorem ReadsLost.then {α β : Type} {m : Op α} {f : α → Op β} {s : State} {Q : β → State → Prop} (h : ReadsLost both m)
    (hs : s.GrantsSound)
    (ha : both = true → s.ada.service.attends = true) (k : ∀ a t, TablesSame s t → Ends both (f a) t Q) : Ends both (m >>= f) s Q := by
  apply Ends.bind
  have h1 := h s hs ha
  unfold Ends
  cases hm : m s with
  | ok a t => rw [hm] at h1; exact k a t h1
  | error e t => rw [hm] at h1; exact h1

/-- What the read of slot `i` leaves. -/
structure SlotRead (both : Bool) (s : State) (i : Nat) (t : State) : Prop where
  sound : Upheld both t
  service : t.ada.service = s.ada.service
  op : NotVisited s i → t.ada.op = s.ada.op
  ids : ∀ ci, (t.client ci).inUse = (s.client ci).inUse ∧ (t.client ci).id = (s.client ci).id

theorem loseRecord_ends {s : State} (hs : Upheld both s) (i : Nat) : Ends both (loseRecord i) s fun _ t => SlotRead both s i t := by
  have ho : NotVisited s i → (s.slotBad i).ada.op = s.ada.op := by
    intro hn
    rw [State.slotBad_op, State.rebuildPassed_op]
    split
    · cases ho : s.ada.op <;> simp only
      rw [if_neg (hn _ ho)]
    · rfl
  have cl : ∀ ci, (s.slotBad i).client ci = s.client ci := State.client_congr (by simp)
  unfold loseRecord
  apply Ends.getB
  apply Ends.bind
  show Ends both _ (s.slotBad i) _
  by_cases hc : s.inChain i = true
  · simp only [hc, if_true]
    have ha : both = true → s.ada.service.attends = true := by
      intro hb
      by_contra hh; rw [Bool.not_eq_true] at hh
      have := ((hs.tables hb).clients.cleared hh (s.slot i).ownerIdx).2
      simp [State.inChain, this] at hc
    have ha2 : both = true → (s.slotBad i).ada.service.attends = true := by rw [slotBad_service]; exact ha
    have hg2 := hs.grants.bad i
    refine ReadsLost.then (ReadsLost.checkOr rfl) hg2 ha2 fun _ t h1 => ?_
    refine ReadsLost.then (ReadsLost.checkOr rfl) (hg2.frame h1.toGrantsSame.frame) (by rw [h1.service]; exact ha2) fun _ u h2 => ?_
    have h3 := h1.trans h2
    show SlotRead both s i (u.leaveChain i)
    refine ⟨hs.bad (u := u) i h3 (by rw [hc]; rfl), by simp [h3.service, slotBad_service],
        fun hn => by rw [State.leaveChain_ada, h3.op, ho hn], fun ci => ?_⟩
    obtain ⟨a, b⟩ := leaveChain_ids u i ci
    rw [a, b, h3.client, cl]; exact ⟨rfl, rfl⟩
  · rw [Bool.not_eq_true] at hc
    simp only [hc, Bool.false_eq_true, if_false]
    refine ⟨hs.bad (u := s.slotBad i) i (.refl _) (by rw [hc]; rfl), slotBad_service .., ho, fun ci => by rw [cl]; exact ⟨rfl, rfl⟩⟩

theorem checkRec_ends {s : State} (hs : Upheld both s)
    (i : Nat) : Ends both (check (.grantRec i)) s fun _ t => SlotRead both s i t := by
  have hb := heal_benign s (.grantRec i)
  have lift : ∀ t, SlotRead both (s.heal (.grantRec i)) i t → SlotRead both s i t := fun t k =>
    ⟨k.sound, k.service.trans hb.service, fun hn => (k.op fun r hr => hn r (by rw [← hb.op]; exact hr)).trans hb.op,
        fun ci => by rw [(k.ids ci).1, (k.ids ci).2, hb.client]; exact ⟨rfl, rfl⟩⟩
  unfold Ends check checkOr
  split
  · rename_i e; split at e
    · cases e; exact ⟨hs, rfl, fun _ => rfl, fun _ => ⟨rfl, rfl⟩⟩
    · split at e
      · cases e
        have hb2 : TablesSame s ((s.heal (.grantRec i)).softEvent (wordSoftEvent s (.grantRec i))) := .of (by simp) (by simp) (by simp) (by simp) (by simp) (by simp)
        exact ⟨hs.frame hb2.frame, hb2.service, fun _ => hb2.op, fun ci => by rw [hb2.client]; exact ⟨rfl, rfl⟩⟩
      · have := loseRecord_ends (hs.frame hb.frame) i
        unfold Ends at this; simp only [lose] at e; rw [e] at this
        exact lift _ this
  · rename_i e; split at e
    · cases e
    · split at e
      · cases e
      · have := loseRecord_ends (hs.frame hb.frame) i
        unfold Ends at this; simp only [lose] at e; rw [e] at this
        exact this

theorem check_keeps (w : MemWord) : Keeps both (check w) := by
  by_cases h : notRec w = true
  · exact (check_reads w h).keeps
  · cases w <;> simp [notRec] at h
    intro s hs; exact (checkRec_ends hs _).mono fun _ _ h => h.sound
theorem checkAll_keeps (ws : List MemWord) : Keeps both (checkAll ws) := by
  induction ws with
  | nil => exact .pure _
  | cons w ws ih => exact .bind (check_keeps w) fun _ => ih

theorem readSlot_ends {s : State} (hs : Upheld both s)
    (i : Nat) : Ends both (readSlot i) s fun g t => SlotRead both s i t ∧ g = t.slot i := by
  unfold readSlot
  refine (check_reads _ rfl).then hs fun _ t h1 ht => ?_
  apply Ends.bind
  refine (checkRec_ends ht i).mono fun _ u k => ?_
  exact ⟨⟨k.sound, k.service.trans h1.service, fun hn => (k.op fun r hr => hn r (by rw [← h1.op]; exact hr)).trans h1.op,
    fun ci => by rw [(k.ids ci).1, (k.ids ci).2, h1.client]; exact ⟨rfl, rfl⟩⟩, rfl⟩
theorem readSlot_keeps (i : Nat) : Keeps both (readSlot i) := fun _ hs => (readSlot_ends hs i).mono fun _ _ h => h.1.sound

/-- The walk of a chain keeps the entries' clients. -/
theorem readSlots_ends (l : List Nat) : ∀ {s : State}, Upheld both s → Ends both (readSlots l) s fun _ t => Upheld both t ∧
    t.ada.service = s.ada.service ∧
    ∀ ci, (t.client ci).inUse = (s.client ci).inUse ∧ (t.client ci).id = (s.client ci).id := by
  induction l with
  | nil => intro s hs; exact ⟨hs, rfl, fun _ => ⟨rfl, rfl⟩⟩
  | cons a l ih =>
    intro s hs
    unfold readSlots
    apply Ends.bind
    refine (readSlot_ends hs a).mono fun _ t k => ?_
    refine (ih k.1.sound).mono fun _ u hu => ?_
    exact ⟨hu.1, hu.2.1.trans k.1.service, fun ci => ⟨(hu.2.2 ci).1.trans (k.1.ids ci).1, (hu.2.2 ci).2.trans (k.1.ids ci).2⟩⟩

theorem release_keeps (i : Nat) : Keeps both (release i) := by
  intro s hs
  unfold release
  apply Ends.bind
  refine (readSlot_ends hs i).mono fun g t ht => ?_
  obtain ⟨⟨ht, -, -, -⟩, hg⟩ := ht
  split
  · rename_i hl
    apply Ends.getB
    have rd : Reads both (checkAll (t.releaseWords i)) := by
      apply checkAll_reads
      intro w hw
      unfold State.releaseWords at hw; dsimp only at hw
      split at hw <;> simp at hw
      · rcases hw with h | h | h | h <;> subst h <;> rfl
      · rcases hw with h | h <;> subst h <;> rfl
    refine rd.then ht fun _ u hb hu => ?_
    have : (u.slot i).state.live = true := by rw [hb.slot, ← hg]; exact hl
    exact hu.release this
  · exact ht


theorem frame_same {s t : State} (h1 : t.grt = s.grt) (h2 : t.adm.pools = s.adm.pools) (h3 : t.ada.op = s.ada.op) (h4 : t.clt = s.clt)
    (h5 : t.wts = s.wts) (h6 : t.ada.service = s.ada.service) : TablesFrame s t := (TablesSame.of h1 h2 h3 h4 h5 h6).frame

theorem pressureNotice_frame (s : State)
    (p st t) : TablesFrame s (s.pressureNotice p st t) := (TablesSame.of (by simp) (by simp) (by simp) (by simp) (by simp) (by simp)).frame
theorem startRun_frame (s : State)
    (p) : TablesFrame s (s.startRun p) := (TablesSame.of (by simp) (by simp) (by simp) (by simp) (by simp) (by simp)).frame
theorem entryService_frame (s : State) (p) : TablesFrame s (s.entryService p) := by
  refine (TablesSame.of (by simp) ?_ (by simp) (by simp) (by simp) (by simp)).frame
  unfold State.entryService; dsimp only; split <;> simp
/-- The owner and other fields of the slots stand; clients, waiters, service and operation too. -/
theorem frame_of {s t : State} (f : GrantsFrame s t)
    (hsl : ∀ i, (t.slot i).ownerIdx = (s.slot i).ownerIdx ∧ (t.slot i).owner = (s.slot i).owner)
    (h4 : t.clt = s.clt) (h5 : t.wts = s.wts) (h6 : t.ada.service = s.ada.service) (h7 : t.ada.op = s.ada.op) : TablesFrame s t :=
  .of f hsl h4 h5 h6 (Or.inl h7)
theorem owners_same {s t : State} (h : t.grt.slots = s.grt.slots)
    (i : Nat) : (t.slot i).ownerIdx = (s.slot i).ownerIdx ∧ (t.slot i).owner = (s.slot i).owner := by
  rw [State.slot_congr h]; exact ⟨rfl, rfl⟩
theorem setPoolLive_frame {s : State} {p} {l : PoolLive}
    (h : ∀ c, l.used c = (s.poolLive p).used c) : TablesFrame s (s.setPoolLive p l) :=
  frame_of (setPoolLive_grants h) (owners_same (by simp)) (by simp) (by simp) (by simp) (by simp)
theorem enterPressure_frame (s : State) (p st) : TablesFrame s (s.enterPressure p st) := setPoolLive_frame fun c => by cases c <;> rfl
theorem linger_frame (s : State) (p l) : TablesFrame s (s.setLinger p l) :=
  frame_of (linger_grants s p l) (owners_same rfl) rfl rfl rfl rfl
/-- One live slot rewritten, its owner standing. -/
theorem setSlot_frame {s : State} {i : Nat} {g : Slot} (h : SlotSame (s.slot i) g) (ho : g.ownerIdx = (s.slot i).ownerIdx)
    (hw : g.owner = (s.slot i).owner) :
    TablesFrame s (s.setSlot i g) :=
  frame_of (GrantsFrame.setSlot h) (fun j => by
    rw [State.slot_setSlot]; split
    · rename_i e; subst e; exact ⟨ho, hw⟩
    · exact ⟨rfl, rfl⟩) rfl rfl rfl rfl

theorem drainLinger_keeps (p : Nat) {other : Nat → Op Unit} (h : ∀ q, Keeps both (other q))
    (l : List Nat) : Keeps both (drainLinger p other l) := by
  induction l with
  | nil => exact .pure _
  | cons i l ih =>
    unfold drainLinger
    refine .bind (release_keeps i) fun r => ?_
    cases r with
    | none => exact ih
    | some r =>
      dsimp only
      split
      · refine .bind (checkActive_reads _ _).keeps fun _ => .get fun s hs => ?_
        split
        · split
          · exact ih s hs
          · exact Keeps.bind (h _) (fun _ => ih) s hs
        · exact ih s hs
      · exact ih

theorem pressureCheck_keeps (n : Nat) : ∀ p leave, Keeps both (pressureCheck n p leave) := by
  induction n with
  | zero => intro p l; exact .pure _
  | succ n ih =>
    intro p leave
    unfold pressureCheck
    refine .get fun s hs => ?_
    split
    · exact hs
    · refine Keeps.bind (check_keeps _) (fun _ => .bind (checkActive_reads _ _).keeps fun _ => .get fun s hs => ?_) s hs
      split
      · split
        · refine Keeps.bind (f := fun _ => _) (m := set (s.enterPressure p .constrained)) (fun t ht => hs.frame (enterPressure_frame ..)) (fun _ => ?_) s hs
          refine .bind (drainLinger_keeps p (fun q => .bind (ih q false) fun _ => .frame fun s => startRun_frame s q) _) fun _ => ?_
          exact .bind (.frame fun s => linger_frame s p []) fun _ => .frame fun s => entryService_frame s p
        · exact hs
      · split
        · exact hs.frame ((enterPressure_frame ..).trans (pressureNotice_frame ..))
        · exact hs

theorem pressure_keeps (p l) : Keeps both (pressure p l) := pressureCheck_keeps _ _ _

theorem hfFellElsewhere_keeps (p f) : Keeps both (hfFellElsewhere p f) := by
  unfold hfFellElsewhere
  refine .bind (checkActive_reads _ _).keeps fun _ => .get fun s hs => ?_
  split
  · split
    · exact hs
    · exact Keeps.bind (pressure_keeps _ _) (fun _ => .frame fun s => startRun_frame s _) s hs
  · exact hs

theorem afterRelease_keeps (r) : Keeps both (afterRelease r) := by
  unfold afterRelease
  refine .bind (pressure_keeps _ _) fun _ => .bind (.frame fun s => startRun_frame s _) fun _ => ?_
  split
  · exact hfFellElsewhere_keeps _ _
  · exact .pure _

theorem afterRecall_keeps (p f) : Keeps both (afterRecall p f) := by
  unfold afterRecall
  refine .bind (hfFellElsewhere_keeps _ _) fun _ => .get fun s hs => ?_
  split
  · exact hs.frame (startRun_frame s _)
  · exact hs

/-- After `match r with some → afterRelease`. -/
theorem afterMaybe_keeps (r : Option Released) : Keeps both (match r with | some r => afterRelease r | none => pure ()) := by
  cases r
  · exact .pure _
  · exact afterRelease_keeps _

theorem returnUnits_frame (s : State) (i g) : TablesFrame s (s.returnUnits i g) :=
  frame_of (returnUnits_grants s i g) (owners_same (by simp [State.returnUnits_grt])) (by simp) (by simp) (by simp) (by simp)

theorem recallHeld_frame {s : State} {i : Nat} (h : (s.slot i).state = .held ∨ (s.slot i).state = .stale)
    (r) : TablesFrame s (s.recallHeld i r) := by
  have hl : (s.slot i).state.live = true := by rcases h with h | h <;> rw [h] <;> rfl
  have hf := recallHeld_grants h r
  have C : (s.recallHeld i r).clt = s.clt := by simp
  have W : (s.recallHeld i r).wts = s.wts := by simp
  have V : (s.recallHeld i r).ada.service = s.ada.service := by
    unfold State.recallHeld State.recallSlot; dsimp only; repeat' split
    all_goals simp
  have O : ∀ j, ((s.recallHeld i r).slot j).ownerIdx = (s.slot j).ownerIdx ∧ ((s.recallHeld i r).slot j).owner = (s.slot j).owner := by
    have e : ∀ j,
        ((s.recallSlot i r).slot j).ownerIdx = (s.slot j).ownerIdx ∧ ((s.recallSlot i r).slot j).owner = (s.slot j).owner := by
      intro j; unfold State.recallSlot; dsimp only
      rw [State.slot_setSlot]; split
      · rename_i e; subst e; exact ⟨rfl, rfl⟩
      · rw [State.slot_congr (s := s) (by split <;> simp [State.returnUnits_grt])]; exact ⟨rfl, rfl⟩
    intro j; unfold State.recallHeld; dsimp only; split
    · rw [State.slot_congr (s := s.recallSlot i r) (by simp)]; exact e j
    · exact e j
  have R : ∀ q, (s.recallHeld i r).ada.op = .rebuild q → ∃ r0, s.ada.op = .rebuild r0 ∧ q.cursor = r0.cursor ∧ ∀ ci,
      q.client ci = r0.client ci := by
    intro q hq
    have e : (s.recallHeld i r).ada.op = (s.recallSlot i r).ada.op := by
      unfold State.recallHeld; dsimp only; split
      · simp
      · rfl
    rw [e] at hq; unfold State.recallSlot at hq; dsimp only at hq
    split at hq
    · simp only [State.setSlot] at hq
      rw [State.rebuildPassed_op] at hq
      rw [State.returnUnits_ada] at hq
      cases ho : s.ada.op <;> rw [ho] at hq <;> simp only [reduceCtorEq] at hq
      rename_i r0
      split at hq
      · cases hq; exact ⟨r0, rfl, rfl, fun _ => rfl⟩
      · cases hq; exact ⟨q, rfl, rfl, fun _ => rfl⟩
    · exact ⟨q, hq, rfl, fun _ => rfl⟩
  exact ⟨hf, fun j _ => O j, fun ci => .of_eq (State.client_congr (by rw [C]) ci), fun w => by rw [C]; exact w, by rw [C], W, V, R⟩

theorem recallGrant_keeps (i r) {note : Recalled → State → State}
    (hn : ∀ x s, TablesFrame s (note x s)) : Keeps both (recallGrant i r note) := by
  intro s hs
  unfold recallGrant
  apply Ends.bind
  refine (readSlot_ends hs i).mono fun g t ht => ?_
  obtain ⟨⟨ht, -, -, -⟩, hg⟩ := ht
  have hold : ∀ g : Slot, g = t.slot i → (g.state = .held ∨ g.state = .stale) →
      Ends both (do
        let s ← get
        checkAll ([.featLive g.feature] ++ if s.inChain i then [.clientEnt g.ownerIdx] else [])
        let s ← get
        set (note .recalled (s.recallHeld i r))
        if s.unitsCounted g && decide (0 < (s.featLive g.feature).hf) then afterRecall g.pool g.feature else pure ()) t
        fun _ t => Upheld both t := by
    intro g hg hst
    apply Ends.bind
    show Ends both _ t _
    refine Reads.then (checkAll_reads ?_) ht fun _ u hb hu => ?_
    · intro w hw
      split at hw <;> simp at hw
      · rcases hw with h | h <;> subst h <;> rfl
      · subst hw; rfl
    · have hst2 : (u.slot i).state = .held ∨ (u.slot i).state = .stale := by rw [hb.slot, ← hg]; exact hst
      have hk := (hu.frame (recallHeld_frame hst2 r)).frame (hn .recalled _)
      apply Ends.bind; show Ends both _ u _
      apply Ends.bind; show Ends both _ (note .recalled (u.recallHeld i r)) _
      split
      · exact afterRecall_keeps _ _ _ hk
      · exact hk
  cases hgs : g.state <;> simp only
  · exact ht
  · exact hold g hg (Or.inl hgs)
  · exact hold g hg (Or.inr hgs)
  · refine Keeps.bind (release_keeps i) (fun r => ?_) t ht
    cases r
    · exact .pure _
    · exact .bind (.frame fun s => hn _ s) fun _ => afterRelease_keeps _
  · exact ht
  · exact ht

/-- A waiter in use is removed: the others stand. -/
theorem removeWaiter_ends {s : State} (hs : Upheld both s) {i : Nat} (hu : both = true → (s.waiter i).inUse = true) (r o b) :
    Ends both (removeWaiter i r o b) s fun _ t => Upheld both t ∧ t.ada.service = s.ada.service ∧ ∀ j,
        j ≠ i → (t.waiter j).inUse = (s.waiter j).inUse := by
  unfold removeWaiter
  refine (check_reads _ rfl).then hs fun _ t h1 ht => ?_
  apply Ends.getB
  dsimp only
  refine Reads.then (checkAll_reads ?_) ht fun _ u h2 hu2 => ?_
  · intro w hw
    simp at hw
    rcases hw with h | h | h | h | h <;> subst h <;> rfl
  have huu : both = true → (u.waiter i).inUse = true := by rw [h2.waiter, h1.waiter]; exact hu
  apply Ends.getB
  have hd : Upheld both (u.dropWaiter i r o) :=
    .of (hu2.grants.frame (dropWaiter_grants ..)) fun hb => dropWaiter_tables (hu2.tables hb) (huu hb) r o
  have hv : (u.dropWaiter i r o).ada.service = s.ada.service := by
    have : (u.dropWaiter i r o).ada.service = u.ada.service := by
      unfold State.dropWaiter State.dropWaiterCount; dsimp only
      cases o <;> simp
    rw [this, h2.service, h1.service]
  have hw : ∀ j, j ≠ i → ((u.dropWaiter i r o).waiter j).inUse = (s.waiter j).inUse := by
    intro j hj
    have : (u.dropWaiter i r o).waiter j = (u.unqueue i).waiter j := by
      apply State.waiter_congr
      unfold State.dropWaiter State.dropWaiterCount; dsimp only
      cases o <;> simp
    rw [this, unqueue_waiter, if_neg hj, h2.waiter, h1.waiter]
  show Upheld both _ ∧ _
  split
  · exact ⟨hd.frame (startRun_frame ..), by simpa using hv,
      fun j hj => by rw [← hw j hj]; exact congrArg Waiter.inUse (State.waiter_congr (by simp) j)⟩
  · exact ⟨hd, hv, hw⟩
theorem removeWaiter_sound {s : State} (hs : Upheld both s) {i : Nat} (hu : both = true → (s.waiter i).inUse = true) (r o b) :
    Ends both (removeWaiter i r o b) s fun _ t => Upheld both t := (removeWaiter_ends hs hu r o b).mono fun _ _ h => h.1

end Sys2Proof.Machine.Uphold
end

