-- ==== Sys2Proof/Laws/UpholdCommands.lean ====
section
/-!
SUPPORT. Laws/UpholdCommands.lean: what the commands run keeps the grant table sound and, when asked of both, the wait store and the client
table too: the claim sequence and the other requests, a service round, the pass visits, the administration commands and the long operations.
-/
namespace Sys2Proof.Machine.Uphold

variable {both : Bool}

theorem denyClaim_frame (s : State)
    (d r c) : TablesFrame s (s.denyClaim d r c) := (TablesSame.of (by simp) (by simp) (by simp) (by simp) (by simp) (by simp)).frame
theorem replyTo_frame (s : State)
    (d m) : TablesFrame s (s.replyTo d m) := (TablesSame.of (by simp) (by simp) (by simp) (by simp) (by simp) (by simp)).frame
theorem handBack_frame (s : State)
    (d) : TablesFrame s (s.handBack d) := (TablesSame.of (by simp) (by simp) (by simp) (by simp) (by simp) (by simp)).frame
theorem capacityEvent_frame (s : State)
    (a b c d e) : TablesFrame s (s.capacityEvent a b c d e) := (TablesSame.of (by simp) (by simp) (by simp) (by simp) (by simp) (by simp)).frame
theorem exhausted_frame (s : State) : TablesFrame s { s with grt.exhausted := true } :=
  frame_of (exhausted_grants s) (owners_same rfl) rfl rfl rfl rfl
theorem heal_frame (s : State)
    (w) : TablesFrame s (s.heal w) := (TablesSame.of (by simp) (by simp) (by simp) (by simp) (by simp) (by simp)).frame
theorem count_frame {s : State} {n} : TablesFrame s { s with ada.stats := n } := frame_same rfl rfl rfl rfl rfl rfl
theorem toTail_perm (s : State) (i) : (s.idleToTail i).clt.idle.Perm s.clt.idle := by
  unfold State.idleToTail; split
  · rename_i h
    exact (List.perm_append_comm (l₁ := s.clt.idle.erase i) (l₂ := [i])).trans (List.perm_cons_erase (by simpa using h)).symm
  · exact .refl _
theorem toTail_clients (s : State) (i) : (s.idleToTail i).clt.clients = s.clt.clients := by
  unfold State.idleToTail; split <;> rfl
/-- An entry rewritten, its identity, counts and chain standing. -/
theorem client_frame {s t : State} {i c} (hc : ClientSame (s.client i) c) (h1 : t.clt.clients = (s.setClient i c).clt.clients)
    (hi : t.clt.idle.Perm s.clt.idle)
    (hg : t.grt = s.grt) (hp : t.adm.pools = s.adm.pools) (ho : t.ada.op = s.ada.op) (hw : t.wts = s.wts)
    (hv : t.ada.service = s.ada.service) : TablesFrame s t where
  toGrantsFrame := (GrantsSame.mk hg hp ho).frame
  owner := fun j _ => by rw [State.slot_congr (t := t) (s := s) (by rw [hg])]; exact ⟨rfl, rfl⟩
  clients := fun ci => by
    rw [State.client_congr h1, State.client_setClient]; split
    · rename_i e; subst e; exact hc
    · exact .refl _
  cform := fun w => by rw [h1]; exact setClient_form w i c
  idle := hi
  wts := hw
  service := hv
  scanC := fun r hr => ⟨r, by rw [← ho]; exact hr, rfl, fun _ => rfl⟩
theorem noteContact_frame (s : State) (i d) : TablesFrame s (s.noteContact i d) :=
  client_frame (i := i) (c := { s.client i with reply := d.replyAddr, lastActivity := s.swp.mt }) ⟨rfl, rfl, rfl, rfl,
      rfl⟩ (toTail_clients ..)
    (toTail_perm (s.setClient i _) i) (by simp) (by simp) (by simp) (by simp) (by simp)
theorem noteClaim_frame (s : State) (ci x) : TablesFrame s (s.noteClaim ci x) :=
  client_frame (i := ci) (c := { s.client ci with
    reply := x.d.replyAddr, lastSite := x.q.site, lastJob := x.q.job, activity := true,
        lastActivity := s.swp.mt }) ⟨rfl, rfl, rfl, rfl, rfl⟩ (toTail_clients ..)
    (toTail_perm (s.setClient ci _) ci) (by simp) (by simp) (by simp) (by simp) (by simp)
theorem churnUpdate_frame (s : State) (i) : TablesFrame s (s.churnUpdate i) :=
  client_frame (i := (s.slot i).ownerIdx) (c := { s.client (s.slot i).ownerIdx with ch := churnAfter s.globalEntry (s.client (s.slot i).ownerIdx).ch (s.secondsSince (s.slot i).start) })
    ⟨rfl, rfl, rfl, rfl, rfl⟩ rfl (.refl _) (by simp) (by simp) (by simp) (by simp) (by simp)

/-- Clients attend, and entry `ci` is in use for client `id`. -/
structure Entry (both : Bool) (s : State) (ci : Nat) (id : W32) : Prop where
  attends : s.ada.service.attends = true
  inUse : both = true → (s.client ci).inUse = true
  id : both = true → (s.client ci).id = id
theorem Entry.frame {s t : State} {ci id} (h : Entry both s ci id) (k : TablesFrame s t) : Entry both t ci id :=
  ⟨by rw [k.service]; exact h.attends, fun hb => by rw [(k.clients ci).1]; exact h.inUse hb,
      fun hb => by rw [(k.clients ci).2.1]; exact h.id hb⟩

theorem countGranted_frame (s : State) : TablesFrame s s.countGranted := frame_same rfl rfl rfl rfl rfl rfl
theorem countDeferred_frame (s : State) : TablesFrame s s.countDeferred := frame_same rfl rfl rfl rfl rfl rfl

theorem contact_keeps (d) : Keeps both (contact d) := by
  unfold contact
  refine .get fun s hs => ?_
  split
  · exact hs
  · exact Keeps.bind (checkAll_keeps _) (fun _ => .frame fun s => noteContact_frame ..) s hs

theorem claimEnqueue_ends {s : State} (hs : Upheld both s) {x : ClaimCtx} {ci} (he : Entry both s ci x.q.client) (pe) :
    Ends both (claimEnqueue x pe ci) s fun _ t => Upheld both t := by
  unfold claimEnqueue
  refine Reads.then (checkAll_reads (by intro w hw; simp at hw; rcases hw with h | h <;> subst h <;> rfl)) hs fun _ t hb hs => ?_
  have he := he.frame hb.frame
  apply Ends.getB
  dsimp only
  split
  · exact hs.frame (denyClaim_frame ..)
  · split
    · exact hs.frame ((denyClaim_frame ..).trans (capacityEvent_frame ..))
    · split
      · exact hs.frame (denyClaim_frame ..)
      · rename_i wi hw
        obtain ⟨a, b⟩ := freeWaiter_some hw
        have : Upheld both (t.placeWaiter wi (x.waiter pe ci t)) := .of (hs.grants.frame (placeWaiter_grants ..)) fun hb =>
          placeWaiter_tables (hs.tables hb) a b rfl (he.inUse hb) (he.id hb) he.attends
        exact this.frame ((heal_frame ..).trans (replyTo_frame ..))

theorem claimWaitOrDeny_ends {s : State} (hs : Upheld both s) {x : ClaimCtx} {ci} (he : Entry both s ci x.q.client) (pe r) :
    Ends both (claimWaitOrDeny x pe ci r) s fun _ t => Upheld both t := by
  unfold claimWaitOrDeny; split
  · exact claimEnqueue_ends hs he _
  · exact hs.frame (denyClaim_frame ..)

theorem claimGrant_ends {s : State} (hs : Upheld both s) (hr : s.ada.op.isRebuild = false) {x : ClaimCtx} {ci}
    (he : Entry both s ci x.q.client) (pe) :
    Ends both (claimGrant x pe ci) s fun _ t => Upheld both t := by
  unfold claimGrant
  apply Ends.getB
  cases hf : s.grt.freeFifo with
  | nil =>
    exact hs.frame (((denyClaim_frame ..).trans (exhausted_frame _)).trans (capacityEvent_frame ..))
  | cons i l =>
    dsimp only
    refine Reads.then (checkAll_reads (by intro w hw; simp at hw; rcases hw with h | h <;> subst h <;> rfl)) hs fun _ t hb ht => ?_
    have he := he.frame hb.frame
    apply Ends.getB
    apply Ends.bind
    have hf2 : t.grt.freeFifo = i :: l := by rw [hb.grt, hf]
    have hr2 : t.ada.op.isRebuild = false := by rw [hb.op]; exact hr
    have hc : Upheld both (t.createGrant i (x.newGrant pe ci t)) := .of (ht.grants.create hf2 hr2 _) fun e =>
      (ht.tables e).create hf2 he.attends hr2 (he.inUse e) (he.id e)
    exact pressure_keeps _ _ _ (hc.frame (((heal_frame ..).trans (replyTo_frame ..)).trans (countGranted_frame _)))

theorem claimAdmit_ends {s : State} (hs : Upheld both s) (hr : s.ada.op.isRebuild = false) {x : ClaimCtx} {ci}
    (he : Entry both s ci x.q.client) (pe) :
    Ends both (claimAdmit x pe ci) s fun _ t => Upheld both t := by
  unfold claimAdmit
  refine Reads.then (checkAll_reads (by intro w hw; simp at hw; rcases hw with h | h | h <;> subst h <;> rfl)) hs fun _ t hb ht => ?_
  have he := he.frame hb.frame
  apply Ends.getB
  split
  · exact claimWaitOrDeny_ends ht he _ _
  · split
    · exact claimWaitOrDeny_ends ht he _ _
    · split
      · exact claimWaitOrDeny_ends ht he _ _
      · exact claimGrant_ends ht (by rw [hb.op]; exact hr) he _

theorem claimEntitled_ends {s : State} (hs : Upheld both s) (hr : s.ada.op.isRebuild = false) {x : ClaimCtx} {ci}
    (he : Entry both s ci x.q.client) :
    Ends both (claimEntitled x ci) s fun _ t => Upheld both t := by
  unfold claimEntitled
  apply Ends.getB
  split
  · exact hs.frame (denyClaim_frame ..)
  · split
    · exact hs.frame (TablesSame.of (by simp) (by simp) (by simp) (by simp) (by simp) (by simp)).frame
    · split
      · exact hs.frame (denyClaim_frame ..)
      · split
        · exact hs.frame (denyClaim_frame ..)
        · exact claimAdmit_ends hs hr he _

theorem claimPaced_ends {s : State} (hs : Upheld both s) {x : ClaimCtx} {ci}
    (he : Entry both s ci x.q.client) : Ends both (claimPaced x ci) s fun _ t => Upheld both t := by
  unfold claimPaced
  apply Ends.getB
  split
  · exact hs.frame ((replyTo_frame ..).trans (countDeferred_frame _))
  · rename_i h
    rw [Bool.not_eq_true] at h
    split
    · exact hs.frame ((replyTo_frame ..).trans (countDeferred_frame _))
    · exact claimEntitled_ends hs h he

theorem reuseSlot_frame {s : State} {i : Nat} (h : (s.slot i).state.live = true) (tag) : TablesFrame s (s.reuseSlot i tag) := by
  unfold State.reuseSlot; dsimp only
  refine (linger_frame s (s.slot i).pool ((s.lingerList (s.slot i).pool).erase i)).trans ?_
  exact setSlot_frame (s := s.leaveLinger i (s.slot i).pool) (.live h rfl rfl rfl rfl) rfl rfl

theorem reuse_frame {x : ClaimCtx} {s : State} {i : Nat} (h : x.reuses s (s.slot i) = true) : TablesFrame s (x.reuse i s) := by
  have hl : (s.slot i).state.live = true := by
    unfold ClaimCtx.reuses at h; simp only [Bool.and_eq_true, beq_iff_eq] at h; rw [h.1.1.1]; rfl
  unfold ClaimCtx.reuse; dsimp only
  exact ((reuseSlot_frame hl _).trans (replyTo_frame ..)).trans (countGranted_frame _)

theorem claimReuse_ends {s : State} (hs : Upheld both s) {x : ClaimCtx} {ci} (he : Entry both s ci x.q.client)
    (chain) : Ends both (claimReuse x ci chain) s fun _ t => Upheld both t := by
  unfold claimReuse
  refine Reads.then (check_reads _ rfl) hs fun _ t hb hs => ?_
  apply Ends.getB
  split
  · rename_i h; exact hs.frame (reuse_frame (by simpa using List.find?_some h))
  · exact claimPaced_ends hs (he.frame hb.frame)

theorem claimRelease_keeps (x i r) : Keeps both (claimRelease x i r) := by
  unfold claimRelease
  exact .bind (release_keeps _) fun r => .bind (.frame fun s => denyClaim_frame ..) fun _ => afterMaybe_keeps r

theorem claimDuplicate_keeps (x i) : Keeps both (claimDuplicate x i) := by
  unfold claimDuplicate
  refine .get fun s hs => ?_
  dsimp only
  refine Reads.then (check_reads _ rfl) hs fun _ t hb ht => ?_
  refine Reads.then (checkActive_reads _ _) ht fun _ u hb2 hu => ?_
  apply Ends.getB
  have e : s.slot i = u.slot i := by rw [hb2.slot, hb.slot]
  rw [e]
  split
  · split
    · rename_i h; exact hu.frame (reuse_frame h)
    · exact claimRelease_keeps _ _ _ _ hu
  · exact claimRelease_keeps _ _ _ _ hu
  all_goals exact hu.frame (replyTo_frame ..)

theorem claimWaiting_keeps (x wi) : Keeps both (claimWaiting x wi) := by
  unfold claimWaiting
  refine .bind (check_keeps _) fun _ => .get fun s hs => ?_
  exact Keeps.bind (checkAll_keeps _) (fun _ => Keeps.get fun s hs => Keeps.setTo hs (replyTo_frame ..)) s hs

theorem claimTag_ends {s : State} (hs : Upheld both s) {x : ClaimCtx} {ci}
    (he : Entry both s ci x.q.client) : Ends both (claimTag x ci) s fun _ t => Upheld both t := by
  unfold claimTag
  apply Ends.getB
  apply Ends.bind
  refine (readSlots_ends _ hs).mono fun _ t ht => ?_
  obtain ⟨ht, hv, hi⟩ := ht
  have he : Entry both t ci x.q.client := ⟨by rw [hv]; exact he.attends, fun hb => by rw [(hi ci).1]; exact he.inUse hb,
      fun hb => by rw [(hi ci).2]; exact he.id hb⟩
  apply Ends.getB
  split
  · exact claimWaiting_keeps _ _ _ ht
  · dsimp only
    split
    · exact claimDuplicate_keeps _ _ _ ht
    · exact claimReuse_ends ht he _

theorem claimClient_ends {s : State} (hs : Upheld both s) (ha : s.ada.service.attends = true)
    (x) : Ends both (claimClient x) s fun _ t => Upheld both t := by
  unfold claimClient
  refine Reads.then (check_reads _ rfl) hs fun _ t hb ht => ?_
  have hat : t.ada.service.attends = true := by rw [hb.service]; exact ha
  apply Ends.getB
  split
  · rename_i ci hf
    refine Reads.then (check_reads _ rfl) ht fun _ u hb2 hu => ?_
    have he : Entry both u ci x.q.client := Entry.frame ⟨hat, fun e => ((ht.tables e).clients.toClientsCore.find_some hf).1,
      fun e => ((ht.tables e).clients.toClientsCore.find_some hf).2⟩ hb2.frame
    apply Ends.bind
    exact claimTag_ends (hu.frame (noteClaim_frame ..)) (he.frame (noteClaim_frame ..))
  · rename_i hf
    split
    · rename_i ci hn
      apply Ends.bind
      have h1 : Upheld both (t.newClient ci x.q.client) := .of (ht.grants.frame (newClient_grants ..)) fun e => newClient_tables (ht.tables e) hn hf hat
      have he : Entry both (t.newClient ci x.q.client) ci x.q.client := by
        have : (t.newClient ci x.q.client).client ci = { Client.zero with inUse := true, id := x.q.client } := by
          have := State.client_setClient t ci ci { Client.zero with inUse := true, id := x.q.client }
          rw [if_pos rfl] at this; exact this
        exact ⟨by simpa using hat, fun _ => by rw [this], fun _ => by rw [this]⟩
      exact claimTag_ends (h1.frame ((heal_frame ..).trans (noteClaim_frame ..))) (he.frame ((heal_frame ..).trans (noteClaim_frame ..)))
    · exact ht.frame ((denyClaim_frame ..).trans (capacityEvent_frame ..))

theorem claimServe_ends {s : State} (hs : Upheld both s) (ha : s.ada.service.attends = true)
    (d) : Ends both (claimServe d) s fun _ t => Upheld both t := by
  unfold claimServe
  dsimp only
  refine (checkActive_reads _ _).then hs fun _ s h1 hs => ?_
  apply Ends.getB
  split
  · exact hs.frame (handBack_frame ..)
  · refine (check_reads _ rfl).then hs fun _ s h2 hs => ?_
    apply Ends.getB
    split
    · exact hs.frame (handBack_frame ..)
    · refine (checkActive_reads _ _).then hs fun _ s h3 hs => ?_
      apply Ends.getB
      split
      · exact hs.frame (handBack_frame ..)
      · refine (checkActive_reads _ _).then hs fun _ s h4 hs => ?_
        refine (checkActive_reads _ _).then hs fun _ s h5 hs => ?_
        apply Ends.getB
        split
        · exact hs.frame (handBack_frame ..)
        · exact claimClient_ends hs (by rw [h5.service, h4.service, h3.service, h2.service, h1.service]; exact ha) _

/-! commands -/
theorem strike_frame (s : State)
    (h) : TablesFrame s (s.strike h) := (TablesSame.of (by simp) (by simp) (by simp) (by simp) (by simp) (by simp)).frame

/-- The next state of an outcome of this model. -/
def Holds (both : Bool) (o : Out) : Prop := ∀ t, o = .next t → Upheld both t

theorem holds_next {t : State} (h : Upheld both t) : Holds both (.next t) := fun u e => by cases e; exact h
theorem holds_awake {s : State} {f : State → State} (hs : Upheld both s)
    (h : Upheld both s → Upheld both (f s)) : Holds both (.next (awake s f)) := by
  apply holds_next; unfold awake; split
  · exact hs
  · exact h hs

theorem servedIn_attends {k : CexKind} {v : Service} (h : k.servedIn v = true) : v.attends = true := by
  cases k <;> cases v <;> simp_all [CexKind.servedIn, Service.attends]

theorem takeClient_ends {k serve}
    (h : ∀ d s, Upheld both s → s.ada.service.attends = true → Ends both (serve d) s fun _ t => Upheld both t) {s : State}
    (hs : Upheld both s) : Upheld both (takeClient k serve s) := by
  unfold takeClient
  split
  · split
    · dsimp only
      have h1 : ∀ l, TablesFrame s { s with exu.intake := l } := fun l => frame_same rfl rfl rfl rfl rfl rfl
      split
      · exact hs.frame ((h1 _).trans (handBack_frame ..))
      · rename_i hh
        split
        · rename_i d rest _ _ _ _
          have := h d _ (hs.frame (h1 rest)) (servedIn_attends (k := k) (by simp at hh; exact hh.2))
          unfold Ends at this; unfold settle
          split <;> rename_i e <;> rw [e] at this <;> exact this
        · exact hs.frame (TablesSame.of (by simp) (by simp) (by simp) (by simp) (by simp) (by simp)).frame
    · exact hs
  · exact hs
theorem takeClient_sound {k serve} (h : ∀ d, Keeps both (serve d)) {s : State}
    (hs : Upheld both s) : Upheld both (takeClient k serve s) :=
  takeClient_ends (fun d s hs _ => h d s hs) hs

theorem renewServe_keeps (d) : Keeps both (renewServe d) := by
  unfold renewServe; dsimp only
  split
  · exact .bind (contact_keeps _) fun _ => .frame fun s => frame_same rfl rfl rfl rfl rfl rfl
  · exact .frame fun s => handBack_frame ..

theorem renewSlot_frame {s : State} {i : Nat} (h : (s.slot i).state.live = true) : TablesFrame s (s.renewSlot i) :=
  setSlot_frame (.live h rfl rfl rfl rfl) rfl rfl

theorem renewOne_keeps (h c) : Keeps both (renewOne h c) := by
  intro s hs
  unfold renewOne
  split
  · apply Ends.bind
    refine (readSlot_ends hs _).mono fun g t ht => ?_
    obtain ⟨⟨ht, -, -, -⟩, hg⟩ := ht
    apply Ends.getB
    dsimp only
    split
    · exact ht
    · split
      · exact Keeps.bind (release_keeps _) (fun _ => .pure _) t ht
      · refine Reads.then (check_reads _ rfl) ht fun _ u hb hu => ?_
        refine Reads.then (checkActive_reads _ _) hu fun _ v hb2 hv => ?_
        apply Ends.getB
        have e : g = v.slot (handleSlot h) := by rw [hb2.slot, hb.slot, hg]
        split
        · exact Keeps.bind (release_keeps _) (fun _ => .pure _) v hv
        · cases hgs : g.state
          · exact hv
          · exact hv.frame (renewSlot_frame (by rw [← e, hgs]; rfl))
          · exact hv.frame (renewSlot_frame (by rw [← e, hgs]; rfl))
          · exact hv
          · exact hv
          · exact hv
  · exact hs

theorem renewNote_frame (s : State) (w l st) : TablesFrame s (s.renewNote w l st) := by
  unfold State.renewNote; dsimp only; split
  · exact (frame_same rfl rfl rfl rfl rfl rfl : TablesFrame s { s with exu.work := none }).trans (replyTo_frame ..)
  · exact frame_same rfl rfl rfl rfl rfl rfl

theorem renewStep_keeps (w h l) : Keeps both (renewStep w h l) := by
  unfold renewStep
  exact .bind (renewOne_keeps _ _) fun x => .bind (.frame fun s => renewNote_frame ..) fun _ => afterMaybe_keeps x.2

theorem renewHandle_holds {s : State} (hs : Upheld both s) (h) : Holds both (execRenewHandle h s) := by
  refine holds_awake hs fun hs => ?_
  have hs := hs.frame (strike_frame s h)
  dsimp only
  split
  · split
    · rename_i w _ _ h0 rest _
      have := renewStep_keeps w h0 rest _ hs
      unfold Ends at this
      split
      · rename_i e; rw [e] at this; exact this
      · rename_i e; rw [e] at this; exact this.frame (frame_same rfl rfl rfl rfl rfl rfl)
    · exact hs
  · exact hs

theorem enterLinger_frame {s : State} {i : Nat} (h : (s.slot i).state.live = true) : TablesFrame s (s.enterLinger i) := by
  unfold State.enterLinger; dsimp only
  refine TablesFrame.trans ?_ (linger_frame ..)
  exact setSlot_frame (.live h rfl rfl rfl rfl) rfl rfl

theorem yieldOne_keeps (h c) : Keeps both (yieldOne h c) := by
  intro s hs
  unfold yieldOne; dsimp only
  apply Ends.bind
  refine (readSlot_ends hs _).mono fun g t ht => ?_
  obtain ⟨⟨ht, -, -, -⟩, hg⟩ := ht
  apply Ends.getB
  split
  · exact ht
  · have key : ∀ g : Slot, g = t.slot (handleSlot h) → g.state.live = true → Ends both (do
        checkAll (t.yieldWords g)
        modify (·.churnUpdate (handleSlot h))
        let s ← get
        if s.lingers (handleSlot h) then
          set (s.enterLinger (handleSlot h))
          return (YieldStatus.lingering, none)
        else
          let r ← release (handleSlot h)
          return (.released, r)) t fun _ t => Upheld both t := by
      intro g hg hl
      refine Reads.then (checkAll_reads ?_) ht fun _ u hb hu => ?_
      · intro w hw
        simp [State.yieldWords] at hw
        rcases hw with h | h | h | h | h | h | h <;> subst h <;> rfl
      apply Ends.bind
      have hv := hu.frame (churnUpdate_frame u (handleSlot h))
      show Ends both _ (u.churnUpdate (handleSlot h)) _
      apply Ends.getB
      split
      · exact hv.frame (enterLinger_frame (by rw [State.slot_congr (s := u) (by simp), hb.slot, ← hg]; exact hl))
      · exact Keeps.bind (release_keeps _) (fun _ => .pure _) _ hv
    cases hgs : g.state
    · exact ht
    · exact key g hg (by rw [hgs]; rfl)
    · exact key g hg (by rw [hgs]; rfl)
    · exact ht
    · exact Keeps.bind (release_keeps _) (fun _ => .pure _) t ht
    · exact ht

theorem yieldServe_keeps (d) : Keeps both (yieldServe d) := by
  unfold yieldServe; dsimp only
  split
  · exact .bind (contact_keeps _) fun _ => .bind (yieldOne_keeps _ _) fun x =>
      .bind (.frame fun s => replyTo_frame ..) fun _ => afterMaybe_keeps x.2
  · exact .frame fun s => handBack_frame ..

theorem queryServe_keeps (d) : Keeps both (queryServe d) := by
  unfold queryServe
  dsimp only
  refine .bind (checkActive_reads _ _).keeps fun _ => .get fun s hs => ?_
  split
  · exact hs.frame (handBack_frame ..)
  · refine Keeps.bind (check_keeps _) (fun _ => .get fun s hs => ?_) s hs
    split
    · exact hs.frame (handBack_frame ..)
    · refine Keeps.bind (checkActive_reads _ _).keeps (fun _ => .get fun s hs => ?_) s hs
      split
      · exact hs.frame (handBack_frame ..)
      · refine Keeps.bind (checkActive_reads _ _).keeps (fun _ => .bind (checkActive_reads _ _).keeps fun _ => .get fun s hs => ?_) s hs
        split
        · exact hs.frame (handBack_frame ..)
        · unfold queryReport
          exact Keeps.bind (checkAll_keeps _) (fun _ => Keeps.get fun s hs => Keeps.setTo hs (replyTo_frame ..)) s hs

theorem withdrawServe_keeps (d) : Keeps both (withdrawServe d) := by
  unfold withdrawServe
  refine .bind (contact_keeps _) fun _ => .get fun s hs => ?_
  split
  · exact hs.frame (replyTo_frame ..)
  · split
    · exact hs.frame (replyTo_frame ..)
    · rename_i hf; exact removeWaiter_sound hs (fun e => findWaiter_some (hs.tables e) hf) _ _ _

/-! Service -/
theorem headExhausted_frame (w : Waiter) (s : State) : TablesFrame s (s.headExhausted w) := by
  unfold State.headExhausted; split
  · exact .refl s
  · exact (exhausted_frame s).trans (capacityEvent_frame ..)

theorem examineHead_ends {s : State} (hs : Upheld both s) (hr : s.ada.op.isRebuild = false) (p c) :
    Ends both (examineHead p c) s fun b t => Upheld both t ∧ (b = false → t.ada.op.isRebuild = false) := by
  unfold examineHead
  refine Reads.then (check_reads _ rfl) hs fun _ t hb ht => ?_
  have hrt : t.ada.op.isRebuild = false := by rw [hb.op]; exact hr
  apply Ends.getB
  split
  · exact ⟨ht, fun _ => hrt⟩
  · rename_i wi _ hq
    have hut : both = true → (t.waiter wi).inUse = true := fun e => ((ht.tables e).wait.queues.member p c wi (by rw [hq]; simp)).1
    refine Reads.then (check_reads _ rfl) ht fun _ u hb2 hu => ?_
    have hru : u.ada.op.isRebuild = false := by rw [hb2.op]; exact hrt
    apply Ends.getB
    dsimp only
    refine Reads.then (checkAll_reads ?_) hu fun _ v hb3 hv => ?_
    · intro w hw
      simp [State.headWords] at hw
      rcases hw with h | h | h | h | h | h <;> subst h <;> rfl
    have hrv : v.ada.op.isRebuild = false := by rw [hb3.op]; exact hru
    have huv : both = true → (v.waiter wi).inUse = true := by rw [hb3.waiter, hb2.waiter]; exact hut
    apply Ends.getB
    split
    · apply Ends.bind
      exact (removeWaiter_sound hv huv _ _ _).mono fun _ w hw => ⟨hw, fun e => by cases e⟩
    · split
      · cases hf : v.grt.freeFifo with
        | nil => exact ⟨hv.frame (headExhausted_frame ..), fun _ => by
            show (v.headExhausted _).ada.op.isRebuild = false
            simp [hrv]⟩
        | cons i l =>
          dsimp only
          refine Reads.then (check_reads _ rfl) hv fun _ x hb4 hx => ?_
          apply Ends.bind
          have hrx : x.ada.op.isRebuild = false := by rw [hb4.op]; exact hrv
          have hfx : x.grt.freeFifo = i :: l := by rw [hb4.grt]; exact hf
          have : Upheld both (x.grantWaiter wi i) := .of (grantWaiter_grants hx.grants hrx hfx wi) fun e =>
            grantWaiter_tables (hx.tables e) hrx hfx (by rw [hb4.waiter]; exact huv e)
          show Ends both _ _ _
          apply Ends.bind
          exact (pressure_keeps _ _ _ this).mono fun _ w hw => ⟨hw, fun e => by cases e⟩
      · exact ⟨hv, fun _ => hrv⟩

theorem endRun_frame (s : State) (p) : TablesFrame s (s.endRun p) := by
  have : ∀ (l : List W32) (s : State), TablesSame s (l.foldl (fun s t => s.pressureNotice p .constrained t) s) := by
    intro l; induction l with
    | nil => intro s; exact .refl s
    | cons a l ih => intro s; exact (TablesSame.of (by simp) (by simp) (by simp) (by simp) (by simp) (by simp)).trans (ih _)
  unfold State.endRun; dsimp only
  exact (TablesSame.trans (s := s) (t := { s with adm.runs := s.adm.runs.filter (fun r => !(r.pool == p)) }) (TablesSame.of rfl rfl rfl rfl rfl rfl) (this _ _)).frame

theorem attempt_keeps {m : Op Unit} (h : Keeps both m) : Keeps both (attempt m) := fun _ hs => h.settled hs

theorem finishRun_keeps (p) : Keeps both (finishRun p) := by
  unfold finishRun
  refine .get fun s hs => ?_
  split
  · exact Keeps.bind (attempt_keeps (checkActive_reads _ _).keeps) (fun _ => .bind (attempt_keeps (check_keeps _)) fun _ => .frame fun s => endRun_frame ..) s hs
  · exact hs.frame (endRun_frame ..)

theorem mapRun_frame (s : State) (p f) : TablesFrame s (s.mapRun p f) :=
  (TablesSame.of (s := s) (t := s.mapRun p f) rfl rfl rfl rfl rfl rfl).frame

theorem generalHead_ends {s : State} (hs : Upheld both s) (hr : s.ada.op.isRebuild = false) (p) :
    Ends both (generalHead p) s fun _ t => Upheld both t := by
  unfold generalHead
  apply Ends.bind
  exact (examineHead_ends hs hr p .general).mono fun _ _ h => h.1

theorem serviceRound_ends {s : State} (hs : Upheld both s) (hr : s.ada.op.isRebuild = false) (p b) :
    Ends both (serviceRound p b) s fun _ t => Upheld both t := by
  unfold serviceRound
  apply Ends.bind
  refine (examineHead_ends hs hr p .priority).mono fun b t ht => ?_
  cases b
  · simp only [Bool.false_eq_true, if_false]
    apply Ends.getB
    split
    · exact ht.1.frame (mapRun_frame ..)
    · exact generalHead_ends ht.1 (ht.2 rfl) p
  · exact ht.1

theorem closeRound_upheld {s : State} {m : Op RoundEnd} (h : Ends both m s fun _ t => Upheld both t) (p c) :
    Upheld both (closeRound p c (m s)) := by
  unfold Ends at h
  split at h <;> rename_i e <;> rw [e]
  · rename_i x t
    cases x
    · exact h
    · cases c
      · exact (finishRun_keeps p).settled h
      · exact h
    · exact h
  · exact (finishRun_keeps p).settled h

theorem poolServiceRound_holds {s : State} (hs : Upheld both s) (p h) : Holds both (execPoolServiceRound p h s) := by
  refine holds_awake hs fun hs => ?_
  have hs := hs.frame (strike_frame s h)
  dsimp only
  split
  · exact hs
  · split
    · exact (finishRun_keeps _).settled hs
    · rename_i hr; rw [Bool.not_eq_true] at hr
      split
      · exact closeRound_upheld (serviceRound_ends hs hr _ _) _ false
      · exact closeRound_upheld (generalHead_ends (hs.frame (mapRun_frame ..)) (by exact hr) _) _ _


/-! ### The sweeper and the administration commands -/

theorem queueNotice_frame (s : State)
    (b) : TablesFrame s (s.queueNotice b) := (TablesSame.of (by simp) (by simp) (by simp) (by simp) (by simp) (by simp)).frame

theorem makeStale_frame {s : State} {i : Nat} (h : (s.slot i).state.live = true) : TablesFrame s (s.makeStale i) := by
  unfold State.makeStale; dsimp only
  refine TablesFrame.trans ?_ (queueNotice_frame ..)
  exact setSlot_frame (.live h rfl rfl rfl rfl) rfl rfl

theorem grantVisit_keeps (i) : Keeps both (grantVisit i) := by
  intro s hs
  unfold grantVisit
  apply Ends.bind
  refine (readSlot_ends hs i).mono fun g t ht => ?_
  obtain ⟨⟨ht, -, -, -⟩, hg⟩ := ht
  apply Ends.getB
  split
  · rename_i hl
    simp only [Bool.and_eq_true] at hl
    have hrel : Ends both (do
        let r ← release i
        match r with
        | some r => afterRelease r
        | none => pure ()) t fun _ t => Upheld both t := Keeps.bind (release_keeps i) (fun r => afterMaybe_keeps r) t ht
    cases hgs : g.state
    · exact hrel
    · refine Reads.then (checkActive_reads _ _) ht fun _ u hb hu => ?_
      exact hu.frame (makeStale_frame (by rw [hb.slot, ← hg]; exact hl.1))
    · refine Keeps.bind (release_keeps i) (fun r => .bind (.frame fun s => (TablesSame.of (by simp) (by simp) (by simp) (by simp) (by simp) (by simp)).frame) fun _ => afterMaybe_keeps r) t ht
    · exact hrel
    · exact hrel
    · exact hrel
  · exact ht

theorem passVisit_sound {id act} (h : ∀ l i, Keeps both (act l i)) {s : State}
    (hs : Upheld both s) : Upheld both (passVisit id act s) := by
  unfold passVisit
  split
  · exact hs
  · exact ((h _ _).settled hs).frame (frame_same rfl rfl rfl rfl rfl rfl)

theorem waiterVisit_keeps (i) : Keeps both (waiterVisit i) := by
  unfold waiterVisit
  refine .bind (check_reads _ rfl).keeps fun _ => .get fun s hs => ?_
  dsimp only
  split
  · rename_i hu
    refine Reads.then (checkAll_reads (by intro w hw; simp at hw; rcases hw with h | h | h <;> subst h <;> rfl)) hs fun _ t hb ht => ?_
    apply Ends.getB
    split
    · exact removeWaiter_sound ht (fun _ => by rw [hb.waiter]; exact hu) _ _ _
    · exact ht
  · exact hs

theorem poolVisit_keeps (p) : Keeps both (poolVisit p) := by
  unfold poolVisit
  exact .bind (check_keeps _) fun _ => .bind (pressure_keeps _ _) fun _ => .frame fun s => startRun_frame ..

theorem pace_same (g n) (c : Client) : ClientSame c (c.pace g n) := by
  unfold Client.pace; dsimp only
  repeat' split
  all_goals exact ⟨rfl, rfl, rfl, rfl, rfl⟩
theorem clientVisit_keeps (l i) : Keeps both (clientVisit l i) := by
  unfold clientVisit
  refine .bind (checkAll_keeps _) fun _ => .get fun s hs => ?_
  split
  · refine Keeps.bind (checkActive_reads _ _).keeps (fun _ => .frame fun s => ?_) s hs
    exact client_frame (i := i) (pace_same _ _ _) rfl (.refl _) (by simp) (by simp) (by simp) (by simp) (by simp)
  · exact hs

/-! Admin -/
theorem adminReply_frame (s : State)
    (x r b) : TablesFrame s (s.adminReply x r b) := (TablesSame.of (by simp) (by simp) (by simp) (by simp) (by simp) (by simp)).frame
theorem answer_keeps (x r b) : Keeps both (answer x r b) := by
  unfold answer; exact .frame fun s => adminReply_frame ..

theorem takeAdmin_ends {c run} (h : ∀ x s, Upheld both s → s.ada.service.serving = true → Ends both (run x) s fun _ t => Upheld both t)
    {s : State} (hs : Upheld both s) : Upheld both (takeAdmin c run s) := by
  unfold takeAdmin
  split
  · exact hs
  · split
    · exact hs
    · split
      · rename_i d rest _ hsv st _ _
        have h1 : Upheld both (State.noteNeighbour st d { s with ada.intake := rest }) := hs.frame (frame_same rfl rfl rfl rfl rfl rfl)
        dsimp only
        split
        · have := h ⟨c, d.issuer st, adminBody d.payload⟩ _ h1 (by
            show s.ada.service.serving = true
            have : (s.ada.service.serving && adminHeaderGood d.payload && (adminCode d.payload == some c)) = true := by assumption
            simp only [Bool.and_eq_true] at this; exact this.1.1)
          unfold Ends at this
          split <;> rename_i e <;> rw [e] at this
          · exact this
          · exact this.frame (adminReply_frame ..)
        · exact h1.frame (adminReply_frame ..)
      · exact hs
theorem takeAdmin_sound {c run} (h : ∀ x, Keeps both (run x)) {s : State} (hs : Upheld both s) : Upheld both (takeAdmin c run s) :=
  takeAdmin_ends (fun x s hs _ => h x s hs) hs

theorem stats_frame (s : State) (x) : TablesFrame s { s with ada.stats := x } := frame_same rfl rfl rfl rfl rfl rfl

theorem readStatusRun_keeps (x) : Keeps both (readStatusRun x) := by
  unfold readStatusRun
  split
  · exact answer_keeps _ _ _
  · refine .get fun s hs => ?_
    dsimp only
    show Upheld both _
    split
    · exact hs.frame ((stats_frame _ _).trans (adminReply_frame ..))
    · exact hs.frame (adminReply_frame ..)

theorem readEntries_keeps (b k n) : ∀ i, Keeps both (readEntries b k n i) := by
  induction n with
  | zero => intro i; exact .pure _
  | succ n ih => intro i; exact .bind (check_keeps _) fun _ => ih _

theorem readEntryRun_keeps (x) : Keeps both (readEntryRun x) := by
  unfold readEntryRun
  split
  · exact answer_keeps _ _ _
  · split
    · exact answer_keeps _ _ _
    · split
      · exact answer_keeps _ _ _
      · split
        · exact answer_keeps _ _ _
        · unfold readEntryReport
          exact .bind (readEntries_keeps _ _ _ _) fun _ => .get fun s hs => Keeps.setTo hs (adminReply_frame ..)

theorem readOne_keeps (n w r x) : Keeps both (readOne n w r x) := by
  unfold readOne
  split
  · exact answer_keeps _ _ _
  · split
    · exact answer_keeps _ _ _
    · exact .bind (checkAll_keeps _) fun _ => .get fun s hs => Keeps.setTo hs (adminReply_frame ..)

theorem readClientRun_keeps (x) : Keeps both (readClientRun x) := by
  unfold readClientRun
  split
  · exact answer_keeps _ _ _
  · refine .get fun s hs => ?_
    split
    · exact hs.frame (adminReply_frame ..)
    · exact Keeps.bind (checkAll_keeps _) (fun _ => Keeps.get fun s hs => Keeps.setTo hs (adminReply_frame ..)) s hs

theorem setTimeRun_keeps (x) : Keeps both (setTimeRun x) := by
  unfold setTimeRun; exact .frame fun s => (TablesSame.of (by simp) (by simp) (by simp) (by simp) (by simp) (by simp)).frame

theorem setWithholdRun_keeps (x) : Keeps both (setWithholdRun x) := by
  unfold setWithholdRun; dsimp only
  split
  · exact answer_keeps _ _ _
  · split
    · exact answer_keeps _ _ _
    · split
      · exact answer_keeps _ _ _
      · refine .bind (check_keeps _) fun _ => .get fun s hs => ?_
        apply Ends.bind
        refine Keeps.bind (pressure_keeps _ _) (fun _ => .frame fun s => ?_) _ (hs.frame (setPoolLive_frame fun c => by cases c <;> rfl))
        split
        · exact (startRun_frame ..).trans (adminReply_frame ..)
        · exact adminReply_frame ..

theorem removeAll_ends (r) : ∀ (l : List Nat)
    {s : State}, Upheld both s → l.Nodup ∨ both = false → (both = true → ∀ i ∈ l, (s.waiter i).inUse = true) →
    Ends both (removeAll r l) s fun _ t => Upheld both t ∧ t.ada.service = s.ada.service := by
  intro l; induction l with
  | nil => intro s hs _ _; exact ⟨hs, rfl⟩
  | cons a l ih =>
    intro s hs hn hu
    unfold removeAll
    apply Ends.bind
    refine (removeWaiter_ends hs (fun e => hu e a (by simp)) r none false).mono fun _ t ht => ?_
    obtain ⟨ht, hv, hw⟩ := ht
    rw [List.nodup_cons] at hn
    refine (ih ht (hn.imp (·.2) id) fun e i hi => ?_).mono fun _ u k => ⟨k.1, k.2.trans hv⟩
    have hna : a ∉ l := by rcases hn with hn | hn; exact hn.1; (rw [e] at hn; cases hn)
    rw [hw i (fun e => hna (e ▸ hi))]; exact hu e i (by simp [hi])

theorem enterService_sound {s : State} (hs : Upheld both s) (n : Service) (ha : s.ada.service.attends = true) (hb : n.attends = true) :
    Upheld both (s.enterService n) :=
  .of (hs.grants.frame (GrantsSame.mk (by simp) (by simp) (by simp)).frame) fun e => enterService_tables (hs.tables e) n ha hb

theorem nodup_or {s : State} (hs : Upheld both s) : s.allWaiters.Nodup ∨ both = false := by
  cases hb : both
  · exact Or.inr rfl
  · exact Or.inl (allWaiters_nodup (hs.tables hb))

theorem setService_answer {s : State} (hs : Upheld both s) (x r b n) (ha : s.ada.service.attends = true) (hb : n.attends = true) :
    Ends both (do set (s.enterService n); answer x r b) s fun _ t => Upheld both t :=
  Ends.bind (answer_keeps x r b _ (enterService_sound hs n ha hb))

theorem setServiceRun_ends (x) {s : State} (hs : Upheld both s)
    (hv : s.ada.service.serving = true) : Ends both (setServiceRun x) s fun _ t => Upheld both t := by
  unfold setServiceRun
  apply Ends.getB
  split
  · exact answer_keeps _ _ _ _ hs
  rename_i hnf
  have ha : s.ada.service.attends = true := by
    cases h : s.ada.service <;> simp_all [Service.attends, Service.serving]
  split
  · exact answer_keeps _ _ _ _ hs
  split
  · split
    · exact answer_keeps _ _ _ _ hs
    · exact setService_answer hs _ _ _ _ ha rfl
  split
  · split
    · apply Ends.bind
      unfold enterDrain
      apply Ends.getB
      apply Ends.bind
      refine (removeAll_ends .draining _ hs (nodup_or hs) fun e => allWaiters_mem (hs.tables e)).mono fun _ t ht => ?_
      have := enterService_sound ht.1 .drain (by rw [ht.2]; exact ha) rfl
      exact answer_keeps _ _ _ _ this
    all_goals exact answer_keeps _ _ _ _ hs
  split
  · split
    · exact answer_keeps _ _ _ _ hs
    · split
      · exact setService_answer hs _ _ _ _ ha rfl
      · exact answer_keeps _ _ _ _ hs
    all_goals exact answer_keeps _ _ _ _ hs
  · exact answer_keeps _ _ _ _ hs

theorem revokeHandleRun_keeps (x) : Keeps both (revokeHandleRun x) := by
  unfold revokeHandleRun; dsimp only
  split
  · exact answer_keeps _ _ _
  · refine .bind (readSlot_keeps _) fun g => ?_
    split
    · exact answer_keeps _ _ _
    · exact .bind (recallGrant_keeps _ _ fun _ s => .refl s) fun _ => .frame fun s => adminReply_frame ..

theorem clearCaptureRun_keeps (x) : Keeps both (clearCaptureRun x) := by
  unfold clearCaptureRun
  refine .get fun s hs => ?_
  split
  · exact hs.frame ((frame_same rfl rfl rfl rfl rfl rfl : TablesFrame s { s with fnu.soft := .zero }).trans (adminReply_frame ..))
  · split
    · exact hs.frame ((frame_same rfl rfl rfl rfl rfl rfl : TablesFrame s { s with fnu.hard := .zero }).trans (adminReply_frame ..))
    · exact hs.frame (adminReply_frame ..)

theorem writeBootRecordRun_keeps (x) : Keeps both (writeBootRecordRun x) := by
  unfold writeBootRecordRun
  refine .get fun s hs => ?_
  split
  · exact hs.frame (adminReply_frame ..)
  · split
    · exact hs.frame ((frame_same rfl rfl rfl rfl rfl rfl : TablesFrame s { s with ada.flash := .writing x.body }).trans (adminReply_frame ..))
    · exact hs.frame (adminReply_frame ..)

/-! Banks -/
theorem checkCarried_keeps (k c e) : Keeps both (checkCarried k c e) := by
  unfold checkCarried
  split
  · exact .pure _
  split
  · exact .pure _
  split
  · exact .pure _
  · refine .get fun s hs => ?_
    have tail : ∀ e2 : Machine.Entry, Keeps both (do
        let s ← get
        if (s.standbyBank.writeAll k e).duplicate c.index e2.featureCode then return Except.error Result.duplicateCode
        else
          check (.bankEntry s.standby k c.index)
          let s ← get
          if s.standbyBank.damaged k c.index then return Except.error Result.refusedState else return Except.ok e2) := by
      intro e2
      refine .get fun s hs => ?_
      split
      · exact hs
      · refine Keeps.bind (check_keeps _) (fun _ => .get fun s hs => ?_) s hs
        split <;> exact hs
    dsimp only
    split
    · exact Keeps.bind (check_keeps _) (fun _ => tail _) s hs
    · exact tail _ s hs

theorem checkAllCarried_keeps (k l) : ∀ d, Keeps both (checkAllCarried k l d) := by
  induction l with
  | nil => intro d; exact .pure _
  | cons c l ih =>
    intro d
    unfold checkAllCarried
    refine .bind (checkCarried_keeps _ _ _) fun r => ?_
    cases r
    · exact .pure _
    · exact ih _

theorem writeStandby_frame (s : State) (k i e) : TablesFrame s (s.writeStandby k i e) := by
  unfold State.writeStandby; dsimp only
  split <;> exact (TablesSame.of (by simp) (by simp) (by simp) (by simp) (by simp) (by simp)).frame

theorem writeCarried_keeps (k l) : Keeps both (writeCarried k l) := by
  induction l with
  | nil => exact .pure _
  | cons c l ih =>
    obtain ⟨i, e⟩ := c
    unfold writeCarried
    split
    · exact .bind (checkActive_reads _ _).keeps fun _ => .bind (.frame fun s => writeStandby_frame ..) fun _ => ih
    · exact .bind (.frame fun s => writeStandby_frame ..) fun _ => ih

theorem writeEntryRun_keeps (x) : Keeps both (writeEntryRun x) := by
  unfold writeEntryRun
  refine .get fun s hs => ?_
  split
  · exact answer_keeps _ _ _ _ hs
  · split
    · exact answer_keeps _ _ _ _ hs
    · split
      · exact answer_keeps _ _ _ _ hs
      · unfold writeEntries
        refine Keeps.bind (checkAllCarried_keeps _ _ _) (fun r => ?_) s hs
        cases r
        · exact answer_keeps _ _ _
        · exact .bind (writeCarried_keeps _ _) fun _ => answer_keeps _ _ _

theorem takeSlot_frame (s : State) (x op)
    (h : op.isRebuild = false) : TablesFrame s (s.takeSlot x op) := TablesFrame.drop rfl rfl h rfl rfl rfl

theorem copyBankRun_keeps (x) : Keeps both (copyBankRun x) := by
  unfold copyBankRun
  refine .get fun s hs => ?_
  split
  · exact hs.frame (takeSlot_frame _ _ _ rfl)
  · exact hs.frame (adminReply_frame ..)

theorem copyEntry_frame (s : State) (k i) : TablesFrame s (s.copyEntry k i) := by
  unfold State.copyEntry; dsimp only
  split <;> exact (TablesSame.of (by simp) (by simp) (by simp) (by simp) (by simp) (by simp)).frame

theorem copyVisit_keeps (k c) : Keeps both (copyVisit k c) := by
  unfold copyVisit
  refine .bind (checkActive_reads _ _).keeps fun _ => .get fun s hs => ?_
  exact Keeps.bind (check_keeps _) (fun _ => .frame fun s => copyEntry_frame ..) s hs

theorem setOp_frame (s : State) (op : LongOp)
    (h : op.isRebuild = false) : TablesFrame s { s with ada.op := op } := TablesFrame.drop rfl rfl h rfl rfl rfl

theorem completeOp_frame (s : State) (b) : TablesFrame s (s.completeOp b) := TablesFrame.drop (by simp) (by simp) rfl (by simp)
    (by simp) (State.longReply_service s .done b)

theorem copyDone_frame (s : State) : TablesFrame s s.copyDone := by
  unfold State.copyDone; dsimp only
  exact TablesFrame.drop (by simp) (by simp) rfl (by simp) (by simp) (by simp)

theorem advanceEpoch_frame (s : State) (i) : TablesFrame s (s.advanceEpoch i) := by
  unfold State.advanceEpoch; exact (TablesSame.of (by simp) (by simp [State.setFeatLive]) (by simp) (by simp) (by simp) (by simp)).frame

theorem advanceEpochs_keeps (l) : Keeps both (advanceEpochs l) := by
  induction l with
  | nil => exact .pure _
  | cons i l ih => exact .bind (attempt_keeps (.bind (check_keeps _) fun _ => .frame fun s => advanceEpoch_frame ..)) fun _ => ih

theorem startAllRuns_frame (s : State) : TablesFrame s s.startAllRuns := by
  have : ∀ (l : List Nat) (s : State), TablesFrame s (l.foldl (fun s p => s.startRun p) s) := by
    intro l; induction l with
    | nil => intro s; exact .refl s
    | cons a l ih => intro s; exact (startRun_frame s a).trans (ih _)
  exact this _ _

theorem swapBankRun_keeps (x) : Keeps both (swapBankRun x) := by
  unfold swapBankRun
  refine .get fun s hs => ?_
  split
  · exact hs.frame (adminReply_frame ..)
  · split
    · exact hs.frame (adminReply_frame ..)
    · apply Ends.bind
      have hk : Keeps both flip := by
        unfold flip
        exact .bind (.frame fun s => (TablesSame.of (by simp) (by simp) (by simp) (by simp) (by simp) (by simp)).frame) fun _ => .get fun s hs =>
          Keeps.bind (advanceEpochs_keeps _) (fun _ => .frame startAllRuns_frame) s hs
      exact hk _ (hs.frame (takeSlot_frame _ _ _ rfl))

theorem mapCounts_frame (f) (s : State) : TablesFrame s (s.mapCounts f) := by
  unfold State.mapCounts; split
  · exact TablesFrame.drop rfl rfl rfl rfl rfl rfl
  · exact TablesFrame.drop rfl rfl rfl rfl rfl rfl
  all_goals exact .refl s
theorem phaseOn_frame (s : State) : TablesFrame s s.phaseOn := by
  unfold State.phaseOn; split
  · exact TablesFrame.drop rfl rfl rfl rfl rfl rfl
  · exact TablesFrame.drop rfl rfl rfl rfl rfl rfl
  all_goals exact .refl s

theorem reconcileVisit_sound {ph act} (h : ∀ i, Keeps both (act i)) {s : State}
    (hs : Upheld both s) : Upheld both (reconcileVisit ph act s) := by
  unfold reconcileVisit
  split
  · split
    · exact ((h _).settled hs).frame (phaseOn_frame _)
    · exact hs
  · exact hs

theorem reconcileGrant_keeps (i) : Keeps both (reconcileGrant i) := by
  unfold reconcileGrant
  refine .bind (readSlot_keeps _) fun g => ?_
  have : Keeps both (do
    check (.featLive g.feature)
    let s ← get
    if s.epochCurrent g.feature g.epoch then pure () else recallGrant i .tableChanged State.noteRecall) := by
    refine .bind (check_keeps _) fun _ => .get fun s hs => ?_
    split
    · exact hs
    · exact recallGrant_keeps _ _ (fun x s => mapCounts_frame _ s) _ hs
  cases g.state <;> first | exact this | exact .pure _

theorem reconcileWaiter_keeps (i) : Keeps both (reconcileWaiter i) := by
  unfold reconcileWaiter
  refine .bind (check_reads _ rfl).keeps fun _ => .get fun s hs => ?_
  dsimp only
  split
  · rename_i hu
    refine Reads.then (checkAll_reads (by intro w hw; simp at hw; rcases hw with h | h <;> subst h <;> rfl)) hs fun _ t hb ht => ?_
    apply Ends.getB
    split
    · apply Ends.bind
      exact (removeWaiter_sound ht (fun _ => by rw [hb.waiter]; exact hu) _ _ _).mono fun _ u hu => hu.frame (mapCounts_frame _ u)
    · exact ht
  · exact hs

theorem reconcilePool_keeps (p) : Keeps both (reconcilePool p) := by
  unfold reconcilePool
  exact .bind (pressure_keeps _ _) fun _ => .frame fun s => startRun_frame ..

/-! LongOps -/
theorem auditRun_keeps (x) : Keeps both (auditRun x) := by
  unfold auditRun
  refine .get fun s hs => ?_
  split
  · exact hs.frame (adminReply_frame ..)
  split
  · exact hs.frame (adminReply_frame ..)
  split
  · exact hs.frame (adminReply_frame ..)
  split
  · exact hs.frame (adminReply_frame ..)
  · exact hs.frame (takeSlot_frame _ _ _ rfl)

theorem auditStep_sound {s : State} (hs : Upheld both s) (a) : Upheld both (s.auditStep a) := by
  unfold State.auditStep
  have := readSlot_keeps a.cursor s hs
  unfold Ends at this
  split <;> rename_i e <;> rw [e] at this
  · exact this.frame (setOp_frame _ _ rfl)
  · exact this.frame (setOp_frame _ _ rfl)

theorem scanRevokeRun_keeps (x) : Keeps both (scanRevokeRun x) := by
  unfold scanRevokeRun
  refine .get fun s hs => ?_
  split
  · exact hs.frame (adminReply_frame ..)
  split
  · exact hs.frame (adminReply_frame ..)
  split
  · exact hs.frame (adminReply_frame ..)
  · exact hs.frame (takeSlot_frame _ _ _ rfl)

theorem scanVisit_sound {ph act} (h : ∀ t i, Keeps both (act t i)) {s : State}
    (hs : Upheld both s) : Upheld both (scanVisit ph act s) := by
  unfold scanVisit
  split
  · split
    · exact ((h _ _).settled hs).frame (phaseOn_frame _)
    · exact hs
  · exact hs

theorem scanGrant_keeps (t i) : Keeps both (scanGrant t i) := by
  unfold scanGrant
  refine .bind (readSlot_keeps _) fun g => ?_
  split
  · exact recallGrant_keeps _ _ fun x s => mapCounts_frame _ s
  · exact .pure _

theorem scanWaiter_keeps (t i) : Keeps both (scanWaiter t i) := by
  unfold scanWaiter
  refine .bind (check_reads _ rfl).keeps fun _ => .get fun s hs => ?_
  dsimp only
  split
  · rename_i hu
    apply Ends.bind
    exact (removeWaiter_sound hs (fun _ => by simp at hu; exact hu.1) _ _ _).mono fun _ u hu => hu.frame (mapCounts_frame _ u)
  · exact hs


/-! ### Long operations -/

/-! COUNT REBUILD -/
theorem countRebuildRun_keeps (x) : Keeps both (countRebuildRun x) := by
  unfold countRebuildRun
  refine .get fun s hs => ?_
  split
  · exact hs.frame (adminReply_frame ..)
  split
  · exact hs.frame (adminReply_frame ..)
  · show Upheld both _
    have g : (s.takeSlot x (.rebuild .start)).GrantsSound :=
      ⟨hs.grants.once, hs.grants.fifo, hs.grants.range, hs.grants.total, hs.grants.balance,
          fun r hr => by cases hr; exact ⟨rfl, fun p c => by cases c <;> rfl⟩⟩
    refine .of g fun e => ?_
    have h := hs.tables e
    have c := h.clients
    exact ⟨g, h.wait.of rfl rfl,
        ⟨⟨c.form, c.wform, c.range, c.unique, c.chained, c.member, c.once, c.counted, c.waiting, c.held, c.stored, c.idleOnce,
            c.cleared, c.asleep,
      fun r hr _ ci => by cases hr; rfl⟩, c.idle⟩⟩

/-- A visited slot that is not live. -/
theorem moveOn_sound {s : State} (hs : Upheld both s) {i} (ha : CursorAt s i) (hd : (s.slot i).state.live = false)
    {f : Rebuild → Rebuild}
    (hf : ∀ r, (f r).cursor = r.cursor + 1 ∧ (f r).live = r.live ∧ (∀ p c, (f r).sum c p = r.sum c p) ∧
      ∀ ci, (f r).client ci = r.client ci) :
    Upheld both (s.mapRebuild f) :=
  .of (moveOn_grants hs.grants ha hd fun r => ⟨(hf r).1, (hf r).2.1, (hf r).2.2.1⟩) fun e => moveOn_tables (hs.tables e) ha hd hf

theorem rebuildVisit_keeps {s : State} (hs : Upheld both s) {i} (ha : CursorAt s i) (hi : i < Config.slots) :
    Ends both (rebuildVisit i) s fun _ t => Upheld both t := by
  unfold rebuildVisit
  apply Ends.bind
  refine (readSlot_ends hs i).mono fun g t ht => ?_
  obtain ⟨⟨ht, -, ho, -⟩, hg⟩ := ht
  have hat : CursorAt t i := ha.op_eq (ho ha.notVisited)
  have live : g.state.live = true → Ends both (rebuildLive i g) t fun _ t => Upheld both t := by
    intro hl
    unfold rebuildLive
    refine Reads.then (checkAll_reads (by intro w hw; simp at hw; rcases hw with h | h <;> subst h <;> rfl)) ht fun _ u hb hu => ?_
    apply Ends.getB
    have hgu : g = u.slot i := by rw [hb.slot]; exact hg
    have hlu : (u.slot i).state.live = true := by rw [← hgu]; exact hl
    split
    · exact .of (rebuildAdd_grants hu.grants (hat.op_eq hb.op) hlu) fun e => rebuildAdd_tables (hu.tables e) (hat.op_eq hb.op) hlu
    · rename_i hno
      have hna : both = true → u.ada.service.attends = false := by
        intro e
        by_contra hh; rw [Bool.not_eq_false] at hh
        obtain ⟨-, a, b⟩ := (hu.tables e).clients.chained hh i hlu
        apply hno; rw [hgu]; unfold State.ownerStands; dsimp only; simp [a, b]
      refine Reads.then (check_reads _ rfl) hu fun _ v hb2 hv => ?_
      apply Ends.getB
      apply Ends.bind
      have hlv : (v.slot i).state.live = true := by rw [hb2.slot]; exact hlu
      have hav : CursorAt v i := (hat.op_eq hb.op).op_eq hb2.op
      have hr : Upheld both (v.releaseFrom false i) := .of (hv.grants.release hlv false) fun e =>
        orphan_tables (hv.tables e) hlv (by rw [hb2.service]; exact hna e)
      refine afterRelease_keeps _ _ (moveOn_sound (i := i) hr ?_ ?_ fun r => ⟨rfl, rfl, fun p c => by cases c <;> rfl, fun _ => rfl⟩)
      · refine hav.op_eq ?_
        rw [State.releaseFrom_op, State.rebuildPassed_op]
        cases ho : v.ada.op <;> simp only
        rw [if_neg (hav.notVisited _ ho)]
      · rw [State.slot_releaseFrom, if_pos rfl]; rfl
  cases hgs : g.state
  · exact moveOn_sound (i := i) ht hat (by rw [← hg, hgs]; rfl) fun r => ⟨rfl, rfl, fun p c => by cases c <;> rfl, fun _ => rfl⟩
  · exact live (by rw [hgs]; rfl)
  · exact live (by rw [hgs]; rfl)
  · exact live (by rw [hgs]; rfl)
  · exact live (by rw [hgs]; rfl)
  · have hb : (t.slot i).state = .bad := by rw [← hg]; exact hgs
    have : Upheld both (t.freeSlot i) := .of (freeBad_grants ht.grants hi hb) fun e => freeBad_tables (ht.tables e) hi hb
    refine moveOn_sound (i := i) this (hat.op_eq (by simp)) ?_ fun r => ⟨rfl, rfl, fun p c => by cases c <;> rfl, fun _ => rfl⟩
    rw [State.slot_congr (t := t.freeSlot i) (s := t.setSlot i (t.slot i).freed) rfl i, State.slot_setSlot, if_pos rfl]; rfl

theorem servePools_keeps (l) : Keeps both (servePools l) := by
  induction l with
  | nil => exact .pure _
  | cons p l ih => exact .bind (pressure_keeps _ _) fun _ => .bind (.frame fun s => startRun_frame ..) fun _ => ih

theorem rebuildFinish_ends' {s : State} (hs : Upheld both s) {r} (ho : s.ada.op = .rebuild r) (hc : Config.slots ≤ r.cursor)
    (l : List Nat) :
    Ends both (do
      let s ← get
      checkAll ((s.damage.map (·.word)).filter wordReadByRebuildDone)
      modify (·.rebuildDone r)
      servePools l) s fun _ t => Upheld both t := by
  apply Ends.getB
  refine Reads.then (checkAll_reads ?_) hs fun _ t hb ht => ?_
  · intro w hw
    have := (List.mem_filter.1 hw).2
    cases w <;> simp [wordReadByRebuildDone] at this <;> rfl
  apply Ends.bind
  exact servePools_keeps _ _ (.of (rebuildDone_grants ht.grants (by rw [hb.op]; exact ho) hc) fun e =>
    rebuildDone_tables (ht.tables e) (by rw [hb.op]; exact ho) hc)

theorem rebuildFinish_ends {s : State} (hs : Upheld both s) {r} (ho : s.ada.op = .rebuild r) (hc : Config.slots ≤ r.cursor) :
    Ends both (rebuildFinish r) s fun _ t => Upheld both t := rebuildFinish_ends' hs ho hc _

theorem abortOp_service (s : State) : s.abortOp.ada.service = s.ada.service := by
  exact State.longReply_service s .aborted _

theorem serviceResetRun_keeps (x) : Keeps both (serviceResetRun x) := by
  unfold serviceResetRun
  refine .get fun s hs => ?_
  split
  · exact hs.frame (adminReply_frame ..)
  · show Upheld both _
    split
    · exact hs.frame (takeSlot_frame _ _ _ rfl)
    · exact hs.frame (TablesFrame.drop (by simp) (by simp) rfl (by simp) (by simp) (abortOp_service s))

theorem resetDone_sound (s : State) : Upheld both s.resetDone := .of (resetDone_tables s).grants fun _ => resetDone_tables s

/-! Link -/
theorem setPort_frame (s : State) (p ps) : TablesFrame s (s.setPort p ps) := by cases p <;> exact frame_same rfl rfl rfl rfl rfl rfl
theorem countDropped_frame (s : State) : TablesFrame s s.countDropped := frame_same rfl rfl rfl rfl rfl rfl
theorem forwardTo_frame (s : State) (q fr) : TablesFrame s (s.forwardTo q fr) := by
  unfold State.forwardTo; dsimp only; split
  · exact setPort_frame ..
  · exact .refl s
theorem arrive_frame (s : State) (p fr) : TablesFrame s (s.arrive p fr) := by
  unfold State.arrive
  split
  · split
    · unfold State.arriveAdmin; split
      · split
        · exact frame_same rfl rfl rfl rfl rfl rfl
        · exact countDropped_frame s
      · exact countDropped_frame s
    · unfold State.arriveIntercept; split
      · split
        · exact frame_same rfl rfl rfl rfl rfl rfl
        · unfold State.overflow; split
          · exact (frame_same rfl rfl rfl rfl rfl rfl : TablesFrame s s.countForwarded).trans (forwardTo_frame ..)
          · exact .refl s
      · exact countDropped_frame s
    · exact forwardTo_frame ..
  · exact forwardTo_frame ..

theorem originate_frame (s : State) (p n a b) : TablesFrame s (s.originate p n a b) :=
  frame_same (by simp) (by simp) (State.originate_op ..) (by simp) (by simp) (State.originate_service ..)

end Sys2Proof.Machine.Uphold
end

