-- ==== Sys2Proof/Tests/Slice0.lean ====
section
/-!
SUPPORT. Tests/Slice0.lean: the author's own checks. First the ill-formed commands that WellFormed refuses, then worked figures of the
manual, then for every statement of Certificates/Slice0/Obligations.lean a state and operands that meet its hypotheses.
-/
set_option Elab.async false

namespace Sys2Proof.Tests

open Sys2Proof Sys2Proof.Machine

/-! ### Builders: datagrams and the worked pool of section 5.4 -/

def code107 : W32 := 0x000B0107#32

/-- A client request of a kind with a body. -/
def request (kind : Byte) (client : W32) (tag : W16) (body : List Byte) : List Byte :=
  [0xA5, 0x1C, 3, kind] ++ bytes32 client ++ bytes16 tag ++ nat16 body.length ++ body

/-- A CLAIM of site 1. -/
def claimOf (client : W32) (tag : W16) (code : W32) (job units flags limit : Nat) : List Byte :=
  request 0x10 client tag (bytes32 code ++ [1] ++ nat8 job ++ nat8 units ++ nat8 flags ++ nat16 limit)

/-- A candidate on Port F with a payload. -/
def fromClient (p : List Byte) : Cand :=
  ⟨⟨[1, 2, 3], 4⟩, .f, 0x0A0000000001#48, 0x0B0000000002#48, some 0x0064#16, 0x0A000001#32, 4000, p⟩

def admin (code : Byte) (body : List Byte) : List Byte :=
  [0xA5, 0x1D, 3, 0x40, code, 0, 0, 7] ++ nat16 body.length ++ body

/-- A candidate from station 0. -/
def fromStation (p : List Byte) : Cand :=
  ⟨⟨[1], 2⟩, .s, 0x0A0000000001#48, 0x0C0000000003#48, none, 0x0A0000F0#32, 5000, p⟩

def addrs0 : Addrs := ⟨0x0A0000000001#48, 0x0A0000FE#32, 6000, 0x0A0000FD#32, 7000, [⟨0x0A0000F0#32, 5000, .s⟩]⟩

/-- The feature of section 5.4: weight 32, cap 0, mapped to pool 12. -/
def feature5 : FeatureEntry := ⟨code107, 12, 32, 0, 0xFFFF#16, 0, 0, true, true⟩
/-- Pool 12 of section 5.4. -/
def pool12 : PoolEntry := ⟨true, 400, 0, 0, 20, 60, 120, 90, 300, 30, 8, 600⟩
/-- Site 1: group 3, every job class GENERAL but class 1, PRIORITY. -/
def site1 : SiteEntry :=
  ⟨true, 3, [.zero, ⟨.priority, true, true⟩, .zero, .zero, .zero, .zero, .zero, .zero]⟩

def bankA : Bank :=
  (((Bank.powerOn.write .feature 5 (.feature feature5)).write .pool 12 (.pool pool12)).write .site 1 (.site site1))

/-- A client entry with grants in a chain. -/
def clientOf (id : W32) (chain : List Nat) (waiters : Nat) : Client :=
  ⟨true, id, ⟨0x0B0000000002#48, none, 0x0A000001#32, 4000, .f⟩, 1, 0, 0, false, 0, chain.length, chain, waiters, 0⟩

/-- A grant of feature 5 charged to pool 12. -/
def grantOf (st : GState) (owner : W32) (ci : Nat) (tag : W16) (units : Nat) (deadline : W32) : Slot :=
  ⟨st, owner, tag, 5, 0, 12, .general, units, costOf units 32, 300, 4990, deadline,
    if st = .recalled then some .revoked else none, 1, ci⟩

/-- A device in ON at MT 5,000 with the tables above, its ports up, no grant and no client. -/
def base : State :=
  { State.reset with
    lnk := ⟨⟨true, true, [], [], .originate, none⟩, ⟨true, true, [], [], .originate, none⟩, some addrs0, [], 0⟩
    tbs.bank0 := bankA
    grt.freeFifo := [9, 10, 11]
    swp.mt := 5000
    ada.service := .on
    ada.bootReading := false }

/-- The same with client 0x4411 at entry 0, holding slot 3. -/
def holding (st : GState) (units : Nat) (deadline : W32) : State :=
  { base with
    grt.slots := [(3, grantOf st 0x4411 0 0x0107 units deadline)]
    grt.liveTotal := 1
    grt.linger := if st = .linger then [(12, [3])] else []
    adm.pools := [(12, ⟨0, costOf units 32, 0, .normal, 0⟩)]
    adm.features := if st = .recalled then [] else [(5, ⟨units, 0⟩)]
    clt.clients := [(0, clientOf 0x4411 [3] 0)] }

def withClient (s : State) (p : List Byte) : State := { s with exu.intake := [fromClient p] }
def withAdmin (s : State) (p : List Byte) : State := { s with ada.intake := [fromStation p] }

def adminHeadB (s : State) (c : AdminCode) (d : Cand) (rest : List Cand) (st : Nat) : Bool :=
  !s.resetLow && decide (s.damage = []) && s.ada.service.serving && decide (s.ada.intake = d :: rest) &&
    decide (s.stationOf d = some st) && adminHeaderGood d.payload && decide (adminCode d.payload = some c) &&
    adminLengthGood c d.payload

theorem adminHead_of {s c d rest st} (h : adminHeadB s c d rest st = true) : s.AdminHead c d rest st := by
  simp only [adminHeadB, Bool.and_eq_true, Bool.not_eq_true', decide_eq_true_eq] at h
  obtain ⟨⟨⟨⟨⟨⟨⟨h1, h2⟩, h3⟩, h4⟩, h5⟩, h6⟩, h7⟩, h8⟩ := h
  exact ⟨⟨h1, h2⟩, h3, h4, h5, h6, h7, h8⟩

def servedHeadB (s : State) (k : CexKind) (d : Cand) (rest : List Cand) : Bool :=
  !s.resetLow && decide (s.damage = []) && s.ada.service.serving && decide (s.exu.intake = d :: rest) &&
    decide (s.exu.work = none) && decide (cexKind d.payload = k) && !s.ada.op.isReset && k.servedIn s.ada.service &&
    cexWellFormed d.payload

theorem servedHead_of {s k d rest} (h : servedHeadB s k d rest = true) : s.ServedHead k d rest := by
  simp only [servedHeadB, Bool.and_eq_true, Bool.not_eq_true', decide_eq_true_eq] at h
  obtain ⟨⟨⟨⟨⟨⟨⟨⟨h1, h2⟩, h3⟩, h4⟩, h5⟩, h6⟩, h7⟩, h8⟩, h9⟩ := h
  exact ⟨⟨⟨h1, h2⟩, h3, h4, h5, h6⟩, h7, h8, h9⟩

/-- A claim that finds the entry of its client, or creates entry `ci`. -/
def claimHeadB (s : State) (d : Cand) (rest : List Cand) (x : ClaimCtx) (ci : Nat) : Bool :=
  servedHeadB s .claim d rest && decide (x.d = d) && decide (x.q = readClaim d.payload) &&
    decide (s.siteEntry x.q.site = some x.site) && decide (s.activeBank.lookup x.q.code = some x.fi) &&
    decide (s.featureEntry x.fi = some x.fe) && !s.activeBank.damaged .pool x.fe.pool && !s.activeBank.damagedGlobal &&
    decide (s.findClient x.q.client = some ci ∨ (s.findClient x.q.client = none ∧ s.newClientIndex = some ci))

theorem claimHead_of {s d rest x ci} (h : claimHeadB s d rest x ci = true) : s.ClaimHead d rest x ci := by
  simp only [claimHeadB, Bool.and_eq_true, Bool.not_eq_true', decide_eq_true_eq] at h
  obtain ⟨⟨⟨⟨⟨⟨⟨⟨h1, h2⟩, h3⟩, h4⟩, h5⟩, h6⟩, h7⟩, h8⟩, h9⟩ := h
  exact ⟨servedHead_of h1, h2, h3, h4, h5, h6, h7, h8, h9⟩

def claimReachesB (s : State) (d : Cand) (rest : List Cand) (x : ClaimCtx) (ci : Nat) : Bool :=
  let t := s.claimStart rest x ci
  claimHeadB s d rest x ci && decide (t.findWaiter ci x.q.tag = none) &&
    (t.client ci).chain.all (fun i => decide ((s.slot i).tag ≠ x.q.tag) && !x.reuses s (s.slot i))

theorem claimReaches_of {s d rest x ci} (h : claimReachesB s d rest x ci = true) : s.ClaimReaches d rest x ci := by
  simp only [claimReachesB, Bool.and_eq_true, Bool.not_eq_true', decide_eq_true_eq, List.all_eq_true] at h
  obtain ⟨⟨h1, h2⟩, h3⟩ := h
  exact ⟨claimHead_of h1, h2, fun i hi => (h3 i hi).1, fun i hi => (h3 i hi).2⟩

def claimEntitledB (s : State) (rest : List Cand) (x : ClaimCtx) (ci : Nat) (pe : PoolEntry) : Bool :=
  let t := s.claimStart rest x ci
  !s.ada.op.isRebuild && decide (x.classSlot.paceExempt = true ∨ t.paceValue ci ≤ s.globalEntry.pt) &&
    decide (x.fe.weight ≠ 0) && decide (s.poolEntry x.fe.pool = some pe) && x.fe.groupMask.getLsbD x.site.group &&
    decide ((x.fe.windowStart = 0 ∧ x.fe.windowEnd = 0) ∨ (s.swp.dtValid = true ∧ x.fe.inWindow s.dt = true)) &&
    decide ((t.client ci).grants < s.globalEntry.grantLimit)

theorem claimEntitled_of {s rest x ci pe} (h : claimEntitledB s rest x ci pe = true) : s.ClaimEntitled rest x ci pe := by
  simp only [claimEntitledB, Bool.and_eq_true, Bool.not_eq_true', decide_eq_true_eq] at h
  obtain ⟨⟨⟨⟨⟨⟨h1, h2⟩, h3⟩, h4⟩, h5⟩, h6⟩, h7⟩ := h
  exact ⟨h1, h2, h3, h4, h5, h6, h7⟩

def claimA : List Byte := claimOf 0x4411 0x0108 code107 0 2 0 0
def ctxOf (p : List Byte) : ClaimCtx := ⟨fromClient p, readClaim p, site1, 5, feature5⟩

theorem claimA_reaches : (withClient (holding .held 2 5080) claimA).ClaimReaches (fromClient claimA) [] (ctxOf claimA) 0 :=
  claimReaches_of (by decide +kernel)

theorem readPool_head : (withAdmin base (admin 3 [0, 12, 0, 0])).AdminHead .readPool (fromStation (admin 3 [0, 12, 0, 0])) [] 0 :=
  adminHead_of (by decide +kernel)


/-! ### Worked figures of the manual -/

/-- R4: the greatest cost of a claim, and 3 units at weight 40. -/
theorem test_cost_rounds_up : costOf 3 40 = 8 ∧ costOf 255 4095 = 65265 ∧ costOf 1 1 = 1 := by decide

/-- R27: slot 0x1004 at generation 3, and slot 5 at generations 0 and 1. -/
theorem test_handle_layout : handleOf 5 0 = 0x80000005#32 ∧ handleOf 5 1 = 0x80008005#32 ∧
    handleSlot 0x80008005 = 5 ∧ handleGeneration 0x80008005 = 1 := by decide

/-- Section 12.3: the content sum of a bank after power-on. -/
theorem test_power_on_sum : (Entry.global .powerOn).sum = 0x056E0C40#32 := by decide +kernel

/-- The check value of CRC-32 over the nine digits (IEEE 802.3; log entry 3). -/
theorem test_crc_check_value : fcsOf [0x31, 0x32, 0x33, 0x34, 0x35, 0x36, 0x37, 0x38, 0x39] = 0xCBF43926#32 := by
  decide +kernel

/-- Section 5.4 at MT 5,000: with Ug 370 of 400 the free measure is 30, and both availabilities equal it. -/
theorem test_section_5_4_free_measure :
    let s := base.setPoolLive 12 ⟨0, 370, 0, .normal, 0⟩
    s.freeMeasure 12 = 30 ∧ s.availability 12 .general = 30 ∧ s.availability 12 .priority = 30 := by decide +kernel

/-- Linger list of section 5.4: slots 615 and 700. -/
def lingering54 : State :=
  { base with
    grt.slots := [(615, { grantOf .linger 0x4411 0 1 2 5080 with pool := 12 }), (700, grantOf .linger 0x4420 1 1 3 5085)]
    grt.linger := [(12, [615, 700])]
    grt.liveTotal := 2
    adm.pools := [(12, ⟨0, 370, 0, .normal, 0⟩)]
    adm.features := [(5, ⟨5, 0⟩)]
    clt.clients := [(0, clientOf 0x4411 [615] 0), (1, clientOf 0x4420 [700] 0)] }

/-- The state after a command; the state before it where the command did not answer one. -/
def after (c : Instr) (s : State) : State :=
  match exec c s with
  | .next t => t
  | _ => s

/-- Section 5.4 at MT 5,010: SET WITHHOLD 15 takes the pool into CONSTRAINED and releases the linger list from its head. -/
theorem test_section_5_4_withhold :
    let t := after (.setWithhold []) (withAdmin lingering54 (admin 0x0A [0, 12, 0, 0, 0, 0, 0, 15]))
    t.poolLive 12 = ⟨0, 360, 15, .constrained, 5000⟩ ∧ t.grt.freeFifo = [9, 10, 11, 615, 700] ∧ t.lingerList 12 = [] ∧
      t.adm.runs = [⟨12, [5000], .priority⟩] := by decide +kernel

/-- A round of that run finds nothing to serve and ends it with the POOL PRESSURE notice of section 5.4: F 25, Ce 385, Ug 360, W 15. -/
theorem test_section_5_4_notice :
    let t := after (.poolServiceRound ⟨12, false⟩ [])
      (after (.setWithhold []) (withAdmin lingering54 (admin 0x0A [0, 12, 0, 0, 0, 0, 0, 15])))
    t.adm.runs = [] ∧ t.fnu.notices = [⟨5000, .poolPressure 12 .constrained 5000 25 385 0 360 15⟩] := by decide +kernel

/-- R23: a claim of 2 units at weight 32 costs 4 tokens, takes the slot at the FIFO's head and is answered GRANT. -/
theorem test_claim_grants :
    let t := after (.claim []) (withClient base (claimOf 0x4411 7 code107 0 2 0 0))
    (t.slot 9).state = .held ∧ (t.slot 9).cost = 4 ∧ (t.slot 9).deadline = 5600 ∧ (t.poolLive 12).ug = 4 ∧
      t.featLive 5 = ⟨2, 0⟩ ∧ t.grt.freeFifo = [10, 11] ∧ t.ada.stats.granted = 1 := by decide +kernel

/-- R37, R42: a long-held grant is released at its YIELD; slot 3 joins the FIFO's tail a generation on. -/
theorem test_yield_releases :
    let t := after (.yieldGrant [])
      (withClient (holding .held 2 5080) (request 0x12 0x4411 0 (bytes32 (handleOf 3 1))))
    (t.slot 3).state = .free ∧ (t.slot 3).generation = 2 ∧ (t.poolLive 12).ug = 0 ∧ t.grt.freeFifo = [9, 10, 11, 3] := by
  decide +kernel

/-- R38: pool 12 gives a stale grace of 30 s. -/
theorem test_grant_becomes_stale :
    let t := after (.grantPassVisit [])
      { holding .held 2 5000 with swp.grantPass := ⟨3, [5000]⟩ }
    (t.slot 3).state = .stale ∧ (t.slot 3).deadline = 5030 ∧ t.swp.grantPass.cursor = 4 := by decide +kernel

/-- R44: a lost grant record makes its slot BAD, sets SUSPECT and drives FAULT_N low. -/
theorem test_lost_record_is_bad :
    let t := after (.grantPassVisit [⟨.grantRec 3, .uncorrectable⟩])
      { holding .held 2 5000 with swp.grantPass := ⟨3, [5000]⟩ }
    (t.slot 3).state = .bad ∧ t.grt.suspect = true ∧ t.faultN = true ∧ (t.client 0).grants = 0 := by decide +kernel

/-- R173: a lost waiter record at its visit puts the device in FAULTED. -/
theorem test_lost_waiter_is_faulted :
    let t := after (.waiterPassVisit [⟨.waiterRec 0, .uncorrectable⟩]) { base with swp.waiterPass := ⟨0, [5000]⟩ }
    t.ada.service = .faulted ∧ t.fnu.hard.code = 0x85 ∧ t.swp.waiterPass.rounds = [] := by decide +kernel

/-- R93: MT wraps from its greatest value to 0 and opens an even round. -/
theorem test_mt_wraps :
    let t := after .mtAdvance { base with swp.mt := 0xFFFFFFFF }
    t.swp.mt = 0 ∧ t.swp.grantPass.rounds = [0] ∧ t.swp.clientPass.rounds = [0] := by decide +kernel

/-! ### The checks of WellFormed, each with a command it refuses -/

theorem test_ill_formed_boot_read : (Instr.bootReadCompletion (some [0])).wellFormed = false := by decide
theorem test_ill_formed_read_back : (Instr.flashWriteCompletion []).wellFormed = false := by decide
theorem test_ill_formed_pool : (Instr.poolServiceRound ⟨1024, false⟩ []).wellFormed = false := by decide
theorem test_ill_formed_words :
    [MemWord.grantRec 32768, .grantLink 32768, .waiterRec 4096, .queueStore 1024, .clientEnt 8192, .bankEntry .b0 .feature 16384,
      .bankEntry .b1 .pool 1024, .bankEntry .b0 .site 256, .bankEntry .b0 .global 1, .codeDir .b0 0, .poolLive 1024,
      .featLive 16384].all (fun w => !(Instr.claim [⟨w, .correctable⟩]).wellFormed) = true := by decide
theorem test_ill_formed_damage : (Instr.grantPassVisit [⟨.grantRec 0, .indexLost⟩]).wellFormed = false := by decide
theorem test_well_formed_damage : (Instr.grantPassVisit [⟨.grantRec 32767, .uncorrectable⟩, ⟨.codeDir .b0 1, .indexLost⟩]).wellFormed = true := by
  decide

/-! ### Witnesses: steps, reset, the boot record, the ports -/

theorem witness_StepRunsFrontCommandOrIdles :
    ({ base with pending := [.mtAdvance, .setTime] }).pending = .mtAdvance :: [.setTime] ∧ base.pending = [] := by decide +kernel

theorem witness_ResetNHoldsAndPowersOn :
    ({ base with resetLow := true }).resetLow = true ∧ (Instr.claim []).isPowerOn = false ∧
      ∀ p b, Instr.claim [] ≠ .modulePresenceChange p b := ⟨rfl, rfl, by simp⟩

/-- A boot record of one station at the management port of station 0. -/
def bootOne : List Byte :=
  bytes48 0x0A0000000001 ++ bytes32 0x0A0000FE ++ nat16 6000 ++ bytes32 0x0A0000FD ++ nat16 7000 ++ [1, 0] ++
    bytes32 0x0A0000F0 ++ nat16 5000 ++ [1, 0] ++ List.replicate 24 0 ++ [0x8C, 0xC4]

theorem witness_BootReadAndBootRecordWrite :
    (State.reset.resetLow = false ∧ State.reset.ada.service = .starting ∧ State.reset.ada.bootReading = true ∧
      bootOne = (some bootOne).getD (List.replicate 54 0xFF) ∧ bootValid bootOne = true ∧
      bootValid ((none : Option (List Byte)).getD (List.replicate 54 0xFF)) = false) ∧
    (let d := fromStation (admin 0x0E bootOne)
     (withAdmin base d.payload).AdminHead .writeBootRecord d [] 0 ∧ bootValid (adminBody d.payload) = true ∧
       (∀ r, (withAdmin base d.payload).ada.flash ≠ .writing r) ∧
       State.AdminHead { withAdmin base d.payload with ada.flash := .writing bootOne } .writeBootRecord d [] 0) ∧
    (let d := fromStation (admin 0x0E (List.replicate 54 0))
     (withAdmin base d.payload).AdminHead .writeBootRecord d [] 0 ∧ bootValid (adminBody d.payload) = false) ∧
    (({ base with ada.flash := .writing bootOne }).resetLow = false ∧
      ({ base with ada.flash := .writing bootOne }).ada.flash = .writing bootOne) :=
  ⟨by decide +kernel, ⟨adminHead_of (by decide +kernel), by decide +kernel, fun r h => by simp [withAdmin, base, State.reset] at h, adminHead_of (by decide +kernel)⟩,
    ⟨adminHead_of (by decide +kernel), by decide +kernel⟩, rfl, rfl⟩

theorem witness_LinkEventsMoveOneportState :
    base.resetLow = false ∧ (base.port .f).module = true ∧ (State.reset.port .s).module = false := by decide +kernel

/-- Port F with a frame on its forward path, one in its originate queue, or both. -/
def portF (forward : List Frame) (originate : List OutFrame) (mark : Mark) : State :=
  { base with lnk.portF := ⟨true, true, forward, originate, mark, none⟩ }

theorem witness_PortReadyServesByMark :
    base.resetLow = false ∧ (State.reset.port .f).up = false ∧ (base.port .f).up = true ∧ base.ada.service.serving = true ∧
    ((base.port .f).forward = [] ∧ (base.port .f).originate = []) ∧
    (let s := portF [⟨[1], 1⟩] [⟨⟨[2], 2⟩, none⟩] .originate
     (s.port .f).forward = ⟨[1], 1⟩ :: [] ∧ ((s.port .f).originate = [] ∨ (s.port .f).mark = .originate)) ∧
    (let s := portF [⟨[1], 1⟩] [⟨⟨[2], 2⟩, none⟩] .forward
     (s.port .f).originate = ⟨⟨[2], 2⟩, none⟩ :: [] ∧ ((s.port .f).forward = [] ∨ (s.port .f).mark = .forward)) ∧
    (let s : State := { portF [⟨[1], 1⟩] [] .originate with ada.service := .passOnly }
     (s.port .f).up = true ∧ s.ada.service.serving = false ∧ (s.port .f).originate = [] ∧ (s.port .f).forward = ⟨[1], 1⟩ :: []) := by
  decide +kernel

/-- A frame of the device to itself, as a client or a station would send it. -/
def frameTo (mac : W48) (ip : W32) (port : W16) (p : List Byte) : Frame :=
  composeFrame ⟨mac, 0x0B0000000002, none, 0x0A0000F0, 5000, ip, port⟩ 1 p

/-- The same frame with one byte of its payload changed under a good frame check sequence. -/
def spoilt (fr : Frame) : Frame :=
  let b := fr.bytes.set 42 (fr.bytes.getD 42 0 ^^^ 0x01)
  ⟨b, fcsOf b⟩

theorem witness_ArrivingFrameGoesByItsClass :
    (State.reset.port .f).up = false ∧ base.resetLow = false ∧ (base.port .f).up = true ∧ base.ada.service.serving = true ∧
    (let fr := frameTo 0x0A0000000009 0x0A0000FD 7000 [0xA5, 0x1C, 3]
     fr.fcs = fcsOf fr.bytes ∧ fr.bytes.length + 4 ≤ 9216 ∧
       (parseUdp fr.bytes).map (fun u => (classify base.addrs .f fr.bytes == .intercept u, u.checksumsGood)) = some (true, true) ∧
       classify base.addrs .s fr.bytes = .passThrough) ∧
    (let fr := frameTo 0x0A0000000001 0x0A0000FE 6000 [0xA5, 0x1D]
     (parseUdp fr.bytes).map (fun u => (classify base.addrs .s fr.bytes == .admin u, u.checksumsGood)) = some (true, true)) ∧
    (let fr := spoilt (frameTo 0x0A0000000001 0x0A0000FE 6000 [0xA5, 0x1D])
     fr.fcs = fcsOf fr.bytes ∧
       (parseUdp fr.bytes).map (fun u => (classify base.addrs .s fr.bytes == .admin u, u.checksumsGood)) = some (true, false)) := by
  decide +kernel

theorem witness_ComposedFrameReadsBack : ([] : List Byte).length ≤ 65507 ∧ (List.replicate 65507 (0 : Byte)).length ≤ 65507 := by
  decide +kernel

theorem witness_ComposedFramesChangeOnlyOutput :
    (base.port .f).originate.length < 256 ∧
    256 ≤ ((portF [] (List.replicate 256 ⟨⟨[], 0⟩, none⟩) .forward).port .f).originate.length := by decide +kernel

theorem witness_MtAdvanceOpensRoundsVisitedOnce :
    base.resetLow = false ∧ base.swp.grantPass.rounds = [] ∧ base.swp.waiterPass.rounds = [] ∧ base.swp.poolPass.rounds = [] ∧
      base.swp.clientPass.rounds = [] ∧
    (let s : State := { base with swp.grantPass := ⟨32766, [5000]⟩ }
     (s.swp.pass .grant).rounds = 5000 :: [] ∧ (s.swp.pass .grant).cursor + 1 < PassId.size .grant) ∧
    (let s : State := { base with swp.grantPass := ⟨32767, [5000]⟩ }
     (s.swp.pass .grant).rounds = 5000 :: [] ∧ PassId.size .grant ≤ (s.swp.pass .grant).cursor + 1) := by decide +kernel

theorem witness_OnlyMtAdvanceMovesMT :
    Instr.linkUp .f ≠ .mtAdvance ∧ (Instr.linkUp .f).isPowerOn = false ∧ ∃ t, exec (.linkUp .f) base = .next t :=
  ⟨by decide, rfl, _, rfl⟩

/-! ### Helpers for witnesses -/

def bankCanonicalB (b : Bank) : Bool :=
  Tab.wf .empty b.features && Tab.wf .undefined b.pools && Tab.wf .undefined b.sites && Tab.wf none b.directory &&
    Tab.wf false b.damagedFeatures && Tab.wf false b.damagedPools && Tab.wf false b.damagedSites

theorem bankCanonical_of {b : Bank} (h : bankCanonicalB b = true) : b.Canonical := by
  simp only [bankCanonicalB, Bool.and_eq_true] at h
  obtain ⟨⟨⟨⟨⟨⟨h1, h2⟩, h3⟩, h4⟩, h5⟩, h6⟩, h7⟩ := h
  exact ⟨h1, h2, h3, h4, h5, h6, h7⟩

def canonicalB (s : State) : Bool :=
  bankCanonicalB s.tbs.bank0 && bankCanonicalB s.tbs.bank1 && Tab.wf false s.tbs.differs && Tab.wf PoolLive.zero s.adm.pools &&
    Tab.wf FeatLive.zero s.adm.features && Tab.wf Slot.zero s.grt.slots && Tab.wf [] s.grt.linger &&
    Tab.wf Waiter.zero s.wts.waiters && Tab.wf Queues.none s.wts.queues && Tab.wf Client.zero s.clt.clients &&
    Tab.wf none s.lnk.neighbours

theorem canonical_of {s : State} (h : canonicalB s = true) : s.Canonical := by
  simp only [canonicalB, Bool.and_eq_true] at h
  obtain ⟨⟨⟨⟨⟨⟨⟨⟨⟨⟨h1, h2⟩, h3⟩, h4⟩, h5⟩, h6⟩, h7⟩, h8⟩, h9⟩, h10⟩, h11⟩ := h
  exact ⟨bankCanonical_of h1, bankCanonical_of h2, h3, h4, h5, h6, h7, h8, h9, h10, h11⟩

/-- Queues of one pool alone are sound when each of its two lists is. -/
theorem queuesSound_one (s : State) (p : Nat) (a b : List Nat) (h : s.wts.queues = [(p, ⟨a, b⟩)])
    (ha : a.all (fun i => (s.waiter i).inUse && decide ((s.waiter i).pool = p) && decide ((s.waiter i).cls = .priority)) = true)
    (hb : b.all (fun i => (s.waiter i).inUse && decide ((s.waiter i).pool = p) && decide ((s.waiter i).cls = .general)) = true)
    (na : a.Nodup) (nb : b.Nodup) : s.QueuesSound := by
  simp only [List.all_eq_true, Bool.and_eq_true, decide_eq_true_eq] at ha hb
  have hq : ∀ q c, s.queue q c = if p = q then (Queues.mk a b).of c else [] := by
    intro q c
    simp only [State.queue, State.queues, h, Tab.get]
    split <;> cases c <;> rfl
  refine ⟨fun q c i hi => ?_, fun q c => ?_⟩
  · rw [hq] at hi
    split at hi
    · subst_vars; cases c
      · exact ⟨(hb i hi).1.1, (hb i hi).1.2, (hb i hi).2⟩
      · exact ⟨(ha i hi).1.1, (ha i hi).1.2, (ha i hi).2⟩
    · cases hi
  · rw [hq]
    split
    · cases c <;> assumption
    · exact List.nodup_nil

/-- A waiter for feature 5 in pool 12. -/
def waiterOf (client : W32) (ci : Nat) (tag : W16) (cls : Cls) (units : Nat) (deadline : W32) : Waiter :=
  ⟨true, ci, client, tag, 5, 0, 12, cls, units, costOf units 32, deadline⟩

/-- Clients 0x4430 and 0x4431 wait in pool 12, one in each queue, 40 and 4 tokens asked for. -/
def waiting : State :=
  { base with
    wts := ⟨[(0, waiterOf 0x4431 1 2 .priority 2 5100), (4095, waiterOf 0x4430 0 1 .general 20 5100)], [(12, ⟨[0], [4095]⟩)], 1, 1⟩
    clt.clients := [(0, clientOf 0x4430 [] 1), (1, clientOf 0x4431 [] 1)] }

theorem waiting_sound : waiting.QueuesSound :=
  queuesSound_one waiting 12 [0] [4095] rfl (by decide +kernel) (by decide +kernel) (by decide) (by decide)

theorem stands_normal {s : State} {p : Nat} {leave : Bool}
    (h : (s.poolLive p).pressure = .normal ∧ s.lowMark p ≤ s.freeMeasure p) : s.PressureStands p leave := Or.inr (Or.inl h)

/-- The checks after a release of pool 12 stand when the pool stays NORMAL. -/
theorem release_stands {t : State} {r : Released} (h : (t.poolLive r.pool).pressure = .normal ∧ t.lowMark r.pool ≤ t.freeMeasure r.pool)
    (hf : t.mappedPool r.feature = some r.pool) : t.ReleaseStands r :=
  ⟨stands_normal h, fun _ q hq => Or.inl (by rw [hf] at hq; exact (Option.some.inj hq).symm)⟩

/-! ### Witnesses: administration -/

theorem witness_SetTimeWritesOffset :
    (withAdmin base (admin 9 [0, 0, 0, 1])).AdminHead .setTime (fromStation (admin 9 [0, 0, 0, 1])) [] 0 :=
  adminHead_of (by decide +kernel)

theorem witness_AdminDatagramsAreCheckedFirst :
    base.resetLow = false ∧ base.ada.service.serving = true ∧
    base.stationOf { fromStation (admin 9 []) with srcPort := 5001 } = none ∧
    base.stationOf (fromStation []) = some 0 ∧ adminHeaderGood [] = false ∧
    (adminHeaderGood (admin 0x0F []) = true ∧ adminCode (admin 0x0F []) = none) ∧
    (Instr.setTime.adminKind = some .setTime ∧ adminHeaderGood (admin 9 [0, 0, 0]) = true ∧
      adminCode (admin 9 [0, 0, 0]) = some .setTime ∧ adminLengthGood .setTime (admin 9 [0, 0, 0]) = false) := by decide +kernel

/-- A read of index `i` with spare bytes. -/
def readOf (code : Byte) (i spare : Nat) : List Byte := admin code (nat16 i ++ nat16 spare)

theorem witness_RecordReadsReportAsItStands :
    ((withAdmin base (readOf 3 1023 0)).AdminHead .readPool (fromStation (readOf 3 1023 0)) [] 0 ∧
      (withAdmin base (readOf 3 1024 0)).AdminHead .readPool (fromStation (readOf 3 1024 0)) [] 0 ∧
      (withAdmin base (readOf 3 0 1)).AdminHead .readPool (fromStation (readOf 3 0 1)) [] 0) ∧
    ((withAdmin base (readOf 4 16383 0)).AdminHead .readFeatureLive (fromStation (readOf 4 16383 0)) [] 0 ∧
      (withAdmin base (readOf 4 16384 1)).AdminHead .readFeatureLive (fromStation (readOf 4 16384 1)) [] 0) ∧
    ((withAdmin base (readOf 5 32767 0)).AdminHead .readGrant (fromStation (readOf 5 32767 0)) [] 0 ∧
      (withAdmin base (readOf 5 32768 1)).AdminHead .readGrant (fromStation (readOf 5 32768 1)) [] 0) ∧
    ((withAdmin base (readOf 6 4095 0)).AdminHead .readWaiter (fromStation (readOf 6 4095 0)) [] 0 ∧
      (withAdmin base (readOf 6 4096 1)).AdminHead .readWaiter (fromStation (readOf 6 4096 1)) [] 0) ∧
    ((be16 (adminBody (readOf 5 32767 0)) 0).toNat = 32767 ∧ be16 (adminBody (readOf 5 32767 0)) 2 = 0) ∧
    (let p := admin 7 [0, 0, 0x44, 0x11]
     (withAdmin (holding .held 2 5080) p).AdminHead .readClient (fromStation p) [] 0 ∧ be32 (adminBody p) 0 ≠ 0 ∧
       (withAdmin (holding .held 2 5080) p).findClient (be32 (adminBody p) 0) = some 0 ∧
       (withAdmin base p).AdminHead .readClient (fromStation p) [] 0 ∧ (withAdmin base p).findClient (be32 (adminBody p) 0) = none) ∧
    ((withAdmin base (admin 7 [0, 0, 0, 0])).AdminHead .readClient (fromStation (admin 7 [0, 0, 0, 0])) [] 0) :=
  ⟨⟨adminHead_of (by decide +kernel), adminHead_of (by decide +kernel), adminHead_of (by decide +kernel)⟩,
    ⟨adminHead_of (by decide +kernel), adminHead_of (by decide +kernel)⟩,
    ⟨adminHead_of (by decide +kernel), adminHead_of (by decide +kernel)⟩,
    ⟨adminHead_of (by decide +kernel), adminHead_of (by decide +kernel)⟩, by decide +kernel,
    ⟨adminHead_of (by decide +kernel), by decide +kernel, by decide +kernel, adminHead_of (by decide +kernel), by decide +kernel⟩,
    adminHead_of (by decide +kernel)⟩

/-- A READ ENTRY of Bank 0's features. -/
def readEntryOf (first count : Nat) : List Byte := admin 2 ([0, 1] ++ nat16 first ++ nat8 count ++ [0, 0, 0])

theorem witness_StatusAndEntryReadsReport :
    (∀ b ∈ [0, 1, 2], (withAdmin base (admin 1 [b])).AdminHead .readStatus (fromStation (admin 1 [b])) [] 0) ∧
    (∀ f ∈ [(0, 0), (0, 17), (16383, 1), (16368, 16), (16383, 2)],
      (withAdmin base (readEntryOf f.1 f.2)).AdminHead .readEntry (fromStation (readEntryOf f.1 f.2)) [] 0 ∧
      TableKind.ofCode (byteAt (adminBody (readEntryOf f.1 f.2)) 1).toNat = some .feature ∧
      (be16 (adminBody (readEntryOf f.1 f.2)) 2).toNat = f.1 ∧ (byteAt (adminBody (readEntryOf f.1 f.2)) 4).toNat = f.2 ∧
      byteAt (adminBody (readEntryOf f.1 f.2)) 5 = 0 ∧ be16 (adminBody (readEntryOf f.1 f.2)) 6 = 0 ∧
      bankOf (byteAt (adminBody (readEntryOf f.1 f.2)) 0).toNat = some .b0) := by
  have h1 : ∀ b ∈ [(0 : Byte), 1, 2], adminHeadB (withAdmin base (admin 1 [b])) .readStatus (fromStation (admin 1 [b])) [] 0 = true := by
    decide +kernel
  have h2 : ∀ f ∈ [(0, 0), (0, 17), (16383, 1), (16368, 16), (16383, 2)],
      adminHeadB (withAdmin base (readEntryOf f.1 f.2)) .readEntry (fromStation (readEntryOf f.1 f.2)) [] 0 = true ∧
      TableKind.ofCode (byteAt (adminBody (readEntryOf f.1 f.2)) 1).toNat = some .feature ∧
      (be16 (adminBody (readEntryOf f.1 f.2)) 2).toNat = f.1 ∧ (byteAt (adminBody (readEntryOf f.1 f.2)) 4).toNat = f.2 ∧
      byteAt (adminBody (readEntryOf f.1 f.2)) 5 = 0 ∧ be16 (adminBody (readEntryOf f.1 f.2)) 6 = 0 ∧
      bankOf (byteAt (adminBody (readEntryOf f.1 f.2)) 0).toNat = some .b0 := by decide +kernel
  exact ⟨fun b hb => adminHead_of (h1 b hb), fun f hf => ⟨adminHead_of (h2 f hf).1, (h2 f hf).2⟩⟩

/-- A SET WITHHOLD. -/
def withholdOf (p w : Nat) : List Byte := admin 0x0A (nat16 p ++ [0, 0] ++ nat32 w)

theorem witness_SetWithholdWritesW :
    (∀ f ∈ [(1024, 0), (12, 1048576), (12, 1048575), (12, 0)],
      (withAdmin base (withholdOf f.1 f.2)).AdminHead .setWithhold (fromStation (withholdOf f.1 f.2)) [] 0 ∧
      (be16 (adminBody (withholdOf f.1 f.2)) 0).toNat = f.1 ∧ (be32 (adminBody (withholdOf f.1 f.2)) 4).toNat = f.2 ∧
      be16 (adminBody (withholdOf f.1 f.2)) 2 = 0) ∧
    (let s := withAdmin (base.setPoolLive 12 ⟨0, 0, 9, .normal, 0⟩) (withholdOf 12 8)
     (s.setPoolLive 12 { s.poolLive 12 with w := 8 }).PressureStands 12 false ∧ 8 < (s.poolLive 12).w) := by
  have h : ∀ f ∈ [(1024, 0), (12, 1048576), (12, 1048575), (12, 0)],
      adminHeadB (withAdmin base (withholdOf f.1 f.2)) .setWithhold (fromStation (withholdOf f.1 f.2)) [] 0 = true ∧
      (be16 (adminBody (withholdOf f.1 f.2)) 0).toNat = f.1 ∧ (be32 (adminBody (withholdOf f.1 f.2)) 4).toNat = f.2 ∧
      be16 (adminBody (withholdOf f.1 f.2)) 2 = 0 := by decide +kernel
  exact ⟨fun f hf => ⟨adminHead_of (h f hf).1, (h f hf).2⟩, stands_normal (by decide +kernel), by decide +kernel⟩

/-- A SET SERVICE. -/
def serviceOf (n : Byte) : List Byte := admin 0x0B [n]

theorem witness_SetServiceFollowsTable :
    (∀ f ∈ [(Service.faulted, (1 : Byte)), (.on, 0), (.on, 4), (.on, 1), (.drain, 2), (.off, 3), (.drain, 1), (.off, 1), (.on, 2),
        (.drain, 3), (.off, 2), (.on, 3)],
      State.AdminHead { withAdmin base (serviceOf f.2) with ada.service := f.1 } .setService (fromStation (serviceOf f.2)) [] 0) ∧
    State.AdminHead { withAdmin base (serviceOf 1) with ada.op := .reset } .setService (fromStation (serviceOf 1)) [] 0 ∧
    base.ada.op ≠ .reset ∧ base.allWaiters = [] ∧ base.grt.liveTotal = 0 ∧ base.wts.np + base.wts.ng = 0 ∧
    waiting.wts.np + waiting.wts.ng ≠ 0 ∧
    (let s := withAdmin waiting (serviceOf 2)
     s.AdminHead .setService (fromStation (serviceOf 2)) [] 0 ∧ s.ada.service = .on ∧ s.ada.op ≠ .reset ∧ s.QueuesSound ∧
       s.Canonical) := by
  have h : ∀ f ∈ [(Service.faulted, (1 : Byte)), (.on, 0), (.on, 4), (.on, 1), (.drain, 2), (.off, 3), (.drain, 1), (.off, 1), (.on, 2),
      (.drain, 3), (.off, 2), (.on, 3)],
      adminHeadB { withAdmin base (serviceOf f.2) with ada.service := f.1 } .setService (fromStation (serviceOf f.2)) [] 0 = true := by
    decide +kernel
  refine ⟨fun f hf => adminHead_of (h f hf), adminHead_of (by decide +kernel), by decide +kernel, by decide +kernel, by decide +kernel,
    by decide +kernel, by decide +kernel, adminHead_of (by decide +kernel), by decide +kernel, by decide +kernel, ?_,
    canonical_of (by decide +kernel)⟩
  exact queuesSound_one _ 12 [0] [4095] rfl (by decide +kernel) (by decide +kernel) (by decide) (by decide)

/-- A REVOKE HANDLE of slot 3 at generation 1. -/
def revoke3 : List Byte := admin 0x0C (bytes32 (handleOf 3 1))

theorem witness_RevokeHandleRecalls :
    ((withAdmin base (admin 0x0C [0, 0, 0, 3])).AdminHead .revokeHandle (fromStation (admin 0x0C [0, 0, 0, 3])) [] 0 ∧
      handleOurs (be32 (adminBody (admin 0x0C [0, 0, 0, 3])) 0) = false) ∧
    ((withAdmin base revoke3).AdminHead .revokeHandle (fromStation revoke3) [] 0 ∧ handleOurs (handleOf 3 1) = true ∧
      (base.slot 3).state = .free) ∧
    (∀ st ∈ [GState.held, .stale, .linger, .recalled],
      (withAdmin (holding st 2 5080) revoke3).AdminHead .revokeHandle (fromStation revoke3) [] 0 ∧
      ((holding st 2 5080).slot (handleSlot (handleOf 3 1))).generation = handleGeneration (handleOf 3 1) ∧
      ((holding st 2 5080).slot 3).state = st) ∧
    (let s := withAdmin (holding .held 2 5080) revoke3
     s.RecallStands 3 ((s.adminTaken (fromStation revoke3) [] 0).recallHeld 3 .revoked)) ∧
    (let s := withAdmin (holding .linger 2 5080) revoke3
     ((s.adminTaken (fromStation revoke3) [] 0).releaseSlot 3).ReleaseStands (s.releasedOf 3)) := by
  have h : ∀ st ∈ [GState.held, .stale, .linger, .recalled],
      adminHeadB (withAdmin (holding st 2 5080) revoke3) .revokeHandle (fromStation revoke3) [] 0 = true ∧
      ((holding st 2 5080).slot (handleSlot (handleOf 3 1))).generation = handleGeneration (handleOf 3 1) ∧
      ((holding st 2 5080).slot 3).state = st := by decide +kernel
  have hm : (withAdmin (holding .held 2 5080) revoke3).mappedPool
      ((withAdmin (holding .held 2 5080) revoke3).slot 3).feature = some 12 := by decide +kernel
  refine ⟨⟨adminHead_of (by decide +kernel), by decide +kernel⟩, ⟨adminHead_of (by decide +kernel), by decide +kernel, by decide +kernel⟩,
    fun st hst => ⟨adminHead_of (h st hst).1, (h st hst).2⟩, ?_, release_stands (by decide +kernel) (by decide +kernel)⟩
  exact fun _ q hq => Or.inl (by rw [hm] at hq; exact (Option.some.inj hq).symm)

theorem witness_CapturesLockAndClear :
    (base.fnu.soft.locked = false ∧ base.fnu.hard.locked = false) ∧
    (let s : State := { base with fnu.soft.locked := true, fnu.hard.locked := true }
     s.fnu.soft.locked = true ∧ s.fnu.hard.locked = true) ∧
    (∀ b ∈ [(0 : Byte), 1, 2, 3], (withAdmin base (admin 0x0D [b])).AdminHead .clearCapture (fromStation (admin 0x0D [b])) [] 0) := by
  have h : ∀ b ∈ [(0 : Byte), 1, 2, 3],
      adminHeadB (withAdmin base (admin 0x0D [b])) .clearCapture (fromStation (admin 0x0D [b])) [] 0 = true := by decide +kernel
  exact ⟨by decide +kernel, by decide +kernel, fun b hb => adminHead_of (h b hb)⟩

/-- A notice queue of `n` notices. -/
def noticesOf (n : Nat) : State := { base with fnu.notices := List.replicate n ⟨5000, .serviceState .on .drain 5000⟩ }

theorem witness_NoticesQueueAndLeave :
    (noticesOf 31).fnu.notices.length < 32 ∧ 32 ≤ (noticesOf 32).fnu.notices.length ∧ (noticesOf 32).fnu.soft.locked = false ∧
    (let s : State := { noticesOf 32 with fnu.soft.locked := true }
     32 ≤ s.fnu.notices.length ∧ s.fnu.soft.locked = true) ∧
    (let s := noticesOf 1
     s.resetLow = false ∧ s.ada.service.serving = true ∧ s.fnu.notices = ⟨5000, .serviceState .on .drain 5000⟩ :: [] ∧
       ∀ o ∈ (s.port (s.station 0).port).originate, o.notice = none) ∧
    (let s : State := { noticesOf 1 with lnk.portS.originate := [⟨⟨[], 0⟩, some .softEvent⟩] }
     s.fnu.notices = ⟨5000, .serviceState .on .drain 5000⟩ :: [] ∧
       ∃ o ∈ (s.port (s.station 0).port).originate, o.notice.isSome = true) := by decide +kernel

/-! ### Witnesses: client requests -/

/-- The tables of `base` with another feature entry, pool entry or global entry. -/
def tables (fe : FeatureEntry) (pe : PoolEntry) (g : GlobalEntry) : Bank :=
  { (((Bank.powerOn.write .feature 5 (.feature fe)).write .pool 12 (.pool pe)).write .site 1 (.site site1)) with global := g }

def claimState (s : State) (fe : FeatureEntry) (pe : PoolEntry) (g : GlobalEntry) (p : List Byte) : State :=
  withClient { s with tbs.bank0 := tables fe pe g } p

def ctxWith (p : List Byte) (fe : FeatureEntry) : ClaimCtx := ⟨fromClient p, readClaim p, site1, 5, fe⟩

theorem witness_ClientDatagramsForwardedOrMalformed :
    ((Instr.claim []).clientKind = some .claim ∧ base.resetLow = false ∧ base.exu.work = none ∧
      cexKind (fromClient claimA).payload = .claim ∧ CexKind.servedIn .claim .drain = false ∧
      Service.serving .drain = true ∧ CexKind.servedIn .claim .on = true) ∧
    (base.lnk.portS.forward.length < 2048 ∧
      2048 ≤ ({ base with lnk.portS.forward := List.replicate 2048 ⟨[], 0⟩ }).lnk.portS.forward.length) ∧
    (let p := claimOf 0x4411 1 code107 0 0 0 0
     cexKind p = .claim ∧ cexWellFormed p = false ∧ base.ada.op ≠ .reset ∧ CexKind.servedIn .claim base.ada.service = true) ∧
    (base.ada.service = .on ∧ Instr.cexDatagramOfOtherKind.clientKind = some .other ∧ cexKind [0xA5, 0x1C] = .other ∧ cexWellFormed [0xA5, 0x1C] = false ∧
      CexKind.servedIn .other .on = true ∧ CexKind.servedIn .other .off = false) := by decide +kernel

theorem tab_get_range {α : Type} (d : α) (f : Nat → α) (n a k : Nat) :
    Tab.get d ((List.range' a n).map (fun i => (i, f i))) k = if a ≤ k ∧ k < a + n then f k else d := by
  induction n generalizing a with
  | zero => simp only [List.range', List.map_nil, Tab.get]; rw [if_neg (by omega)]
  | succ n ih =>
    simp only [List.range', List.map_cons, Tab.get, ih]
    by_cases h : a = k
    · subst h; rw [if_pos rfl, if_pos (by omega)]
    · rw [if_neg h]; congr 1; simp only [eq_iff_iff]; omega

theorem tab_search_none {α : Type} (p : α → Bool) (f : Nat → α) (l : List Nat) (h : ∀ i ∈ l, p (f i) = false) :
    Tab.search p (l.map (fun i => (i, f i))) = none := by
  induction l with
  | nil => rfl
  | cons a t ih =>
    simp only [List.map_cons, Tab.search, h a (by simp), Bool.false_eq_true, if_false]
    exact ih (fun i hi => h i (by simp [hi]))

theorem lowestFree_none (used : Nat → Bool) (n i : Nat) (h : ∀ j, i ≤ j → j < i + n → used j = true) :
    lowestFree used n i = none := by
  induction n generalizing i with
  | zero => rfl
  | succ n ih =>
    simp only [lowestFree, h i (Nat.le_refl i) (by omega), if_true]
    exact ih (i + 1) (fun j h1 h2 => h j (by omega) (by omega))

theorem newClientIndex_full {s : State} (f : Nat → Client) (h : s.clt.clients = (List.range' 0 8192).map (fun i => (i, f i)))
    (hf : ∀ i, (f i).inUse = true) (hi : s.clt.idle = []) : s.newClientIndex = none := by
  have h1 : lowestFree (fun i => (s.client i).inUse) Config.clients 0 = none := by
    refine lowestFree_none _ _ _ (fun j _ h2 => ?_)
    have h3 : j < 0 + 8192 := h2
    simp only [State.client, h, tab_get_range, Nat.zero_le, h3, and_self, if_true, hf]
  simp only [State.newClientIndex, h1, hi, List.head?_nil]

theorem findClient_full {s : State} (f : Nat → Client) (h : s.clt.clients = (List.range' 0 8192).map (fun i => (i, f i))) (id : W32)
    (hf : ∀ i, ((f i).inUse && (f i).id == id) = false) : s.findClient id = none := by
  simp only [State.findClient, h, tab_search_none (fun c => c.inUse && c.id == id) f _ (fun i _ => hf i),
    Option.map_none]

/-- Every client entry in use by a client that holds a grant, so that none is idle. -/
def fullTable : State :=
  { withClient base claimA with clt.clients := (List.range' 0 8192).map (fun i => (i, clientOf 0xFFFFFFFF [0] 0)) }

theorem witness_ClaimOutsideTablesOrClientTableFull :
    (let p := claimOf 0x4411 1 0x000B0108 0 2 0 0
     (withClient base p).ServedHead .claim (fromClient p) [] ∧ (withClient base p).activeBank.lookup (readClaim p).code = none) ∧
    (let s : State := { withClient base claimA with tbs.bank0.sites := [] }
     s.ServedHead .claim (fromClient claimA) [] ∧ s.siteEntry (readClaim claimA).site = none) ∧
    (let s : State := { withClient base claimA with tbs.bank0.damagedGlobal := true }
     s.ServedHead .claim (fromClient claimA) [] ∧ s.activeBank.damagedGlobal = true ∧
       s.activeBank.lookup (readClaim claimA).code = some 5) ∧
    (fullTable.ServedHead .claim (fromClient claimA) [] ∧ fullTable.siteEntry (readClaim claimA).site = some site1 ∧
      fullTable.activeBank.lookup (readClaim claimA).code = some 5 ∧ fullTable.featureEntry 5 = some feature5 ∧
      fullTable.activeBank.damaged .pool feature5.pool = false ∧ fullTable.activeBank.damagedGlobal = false ∧
      fullTable.findClient (readClaim claimA).client = none ∧ fullTable.newClientIndex = none) := by
  refine ⟨⟨servedHead_of (by decide +kernel), by decide +kernel⟩, ⟨servedHead_of (by decide +kernel), by decide +kernel⟩,
    ⟨servedHead_of (by decide +kernel), by decide +kernel, by decide +kernel⟩, servedHead_of (by decide +kernel), by decide +kernel,
    by decide +kernel, by decide +kernel, by decide +kernel, by decide +kernel, ?_, ?_⟩
  · exact findClient_full (fun _ => clientOf 0xFFFFFFFF [0] 0) rfl _ (fun _ => by decide)
  · exact newClientIndex_full (fun _ => clientOf 0xFFFFFFFF [0] 0) rfl (fun _ => rfl) rfl

/-- A repeated claim of the holding client, and one of the waiting one. -/
def repeatA : List Byte := claimOf 0x4411 0x0107 code107 0 2 0 0
def repeatW : List Byte := claimOf 0x4430 1 code107 0 20 1 100
/-- Its tag again with other units. -/
def repeatB : List Byte := claimOf 0x4411 0x0107 code107 0 3 0 0

/-- The state a claim of an ended grant leaves before the checks. -/
def endedOf (s : State) (p : List Byte) (r : Reason) : State :=
  ((s.claimStart [] (ctxOf p) 0).releaseSlot 3).denyClaim (fromClient p) r (readClaim p).code

theorem witness_RepeatedClaimIsSettledAtItsRecord :
    ((withClient waiting repeatW).ClaimHead (fromClient repeatW) [] (ctxOf repeatW) 0 ∧
      ((withClient waiting repeatW).claimStart [] (ctxOf repeatW) 0).findWaiter 0 (readClaim repeatW).tag = some 4095) ∧
    (∀ st ∈ [GState.held, .stale], (withClient (holding st 2 5080) repeatA).ClaimHead (fromClient repeatA) [] (ctxOf repeatA) 0 ∧
      ((withClient (holding st 2 5080) repeatA).claimStart [] (ctxOf repeatA) 0).findWaiter 0 (readClaim repeatA).tag = none ∧
      (((withClient (holding st 2 5080) repeatA).claimStart [] (ctxOf repeatA) 0).client 0).chain.find?
        (fun i => ((withClient (holding st 2 5080) repeatA).slot i).tag == (readClaim repeatA).tag) = some 3 ∧
      ((withClient (holding st 2 5080) repeatA).slot 3).state = st) ∧
    (let s := withClient (holding .linger 2 5080) repeatB
     s.ClaimHead (fromClient repeatB) [] (ctxOf repeatB) 0 ∧ (s.slot 3).state = .linger ∧
       (ctxOf repeatB).reuses s (s.slot 3) = false ∧ (endedOf s repeatB .tryLater).ReleaseStands ((s.claimStart [] (ctxOf repeatB) 0).releasedOf 3)) ∧
    (let s := withClient (holding .recalled 2 5080) repeatB
     s.ClaimHead (fromClient repeatB) [] (ctxOf repeatB) 0 ∧ (s.slot 3).state = .recalled ∧ (s.slot 3).reason = some .revoked ∧
       (endedOf s repeatB .revoked).ReleaseStands ((s.claimStart [] (ctxOf repeatB) 0).releasedOf 3)) := by
  have h : ∀ st ∈ [GState.held, .stale],
      claimHeadB (withClient (holding st 2 5080) repeatA) (fromClient repeatA) [] (ctxOf repeatA) 0 = true ∧
      ((withClient (holding st 2 5080) repeatA).claimStart [] (ctxOf repeatA) 0).findWaiter 0 (readClaim repeatA).tag = none ∧
      (((withClient (holding st 2 5080) repeatA).claimStart [] (ctxOf repeatA) 0).client 0).chain.find?
        (fun i => ((withClient (holding st 2 5080) repeatA).slot i).tag == (readClaim repeatA).tag) = some 3 ∧
      ((withClient (holding st 2 5080) repeatA).slot 3).state = st := by decide +kernel
  exact ⟨⟨claimHead_of (by decide +kernel), by decide +kernel⟩, fun st hst => ⟨claimHead_of (h st hst).1, (h st hst).2⟩,
    ⟨claimHead_of (by decide +kernel), by decide +kernel, by decide +kernel, release_stands (by decide +kernel) (by decide +kernel)⟩,
    ⟨claimHead_of (by decide +kernel), by decide +kernel, by decide +kernel, release_stands (by decide +kernel) (by decide +kernel)⟩⟩

theorem witness_MatchingClaimReusesLingeringGrant :
    let s := withClient (holding .linger 2 5080) claimA
    let x := ctxOf claimA
    s.ClaimHead (fromClient claimA) [] x 0 ∧ (s.claimStart [] x 0).findWaiter 0 x.q.tag = none ∧
    (∀ j ∈ ((s.claimStart [] x 0).client 0).chain, (s.slot j).tag ≠ x.q.tag) ∧
    ((s.claimStart [] x 0).client 0).chain.find? (fun j => x.reuses s (s.slot j)) = some 3 :=
  ⟨claimHead_of (by decide +kernel), by decide +kernel, by decide +kernel, by decide +kernel⟩

/-- The state of `base` in a COUNT REBUILD. -/
def rebuilding : State := { base with ada.op := .rebuild .start }

/-- A client whose pace counter is `n`. -/
def paced (n : Nat) : State := { base with clt.clients := [(0, { clientOf 0x4411 [] 0 with rp := n })], clt.idle := [0] }

def weight0 : FeatureEntry := { feature5 with weight := 0 }
def blocked3 : FeatureEntry := { feature5 with groupMask := 0xFFF7 }
def windowed : FeatureEntry := { feature5 with windowStart := 100, windowEnd := 200 }
/-- DT is `n`. -/
def atDT (n : W32) : State := { base with swp.dtOffset := n - 5000, swp.dtValid := true }

theorem witness_ClaimDeferredOrNotEntitled :
    (withClient rebuilding claimA).ClaimReaches (fromClient claimA) [] (ctxOf claimA) 0 ∧
    (let s := withClient (paced 13) claimA
     s.ClaimReaches (fromClient claimA) [] (ctxOf claimA) 0 ∧ s.ada.op.isRebuild = false ∧
       (ctxOf claimA).classSlot.paceExempt = false ∧
       s.globalEntry.pt < min ((s.claimStart [] (ctxOf claimA) 0).client 0).rp s.globalEntry.pmax) ∧
    ((claimState base weight0 pool12 .powerOn claimA).ClaimReaches (fromClient claimA) [] (ctxWith claimA weight0) 0 ∧
      ((claimState base weight0 pool12 .powerOn claimA).claimStart [] (ctxWith claimA weight0) 0).paceValue 0 ≤ 12) ∧
    (let s := claimState base feature5 .undefined .powerOn claimA
     s.ClaimReaches (fromClient claimA) [] (ctxOf claimA) 0 ∧ feature5.weight ≠ 0 ∧ s.poolEntry 12 = none) ∧
    (let s := claimState base blocked3 pool12 .powerOn claimA
     s.ClaimReaches (fromClient claimA) [] (ctxWith claimA blocked3) 0 ∧ blocked3.groupMask.getLsbD site1.group = false) ∧
    (let s := claimState base windowed pool12 .powerOn claimA
     s.ClaimReaches (fromClient claimA) [] (ctxWith claimA windowed) 0 ∧ s.swp.dtValid = false) ∧
    (let s := claimState (atDT 99) windowed pool12 .powerOn claimA
     s.ClaimReaches (fromClient claimA) [] (ctxWith claimA windowed) 0 ∧ s.swp.dtValid = true ∧ s.dt < windowed.windowStart) ∧
    (let s := claimState (atDT 200) windowed pool12 .powerOn claimA
     s.ClaimReaches (fromClient claimA) [] (ctxWith claimA windowed) 0 ∧ s.swp.dtValid = true ∧ windowed.windowStart ≤ s.dt ∧
       windowed.windowEnd ≤ s.dt) ∧
    (let s := claimState (holding .held 2 5080) feature5 pool12 { GlobalEntry.powerOn with grantLimit := 1 } claimA
     s.ClaimReaches (fromClient claimA) [] (ctxOf claimA) 0 ∧
       s.globalEntry.grantLimit ≤ ((s.claimStart [] (ctxOf claimA) 0).client 0).grants) :=
  ⟨claimReaches_of (by decide +kernel), ⟨claimReaches_of (by decide +kernel), by decide +kernel, by decide +kernel, by decide +kernel⟩,
    ⟨claimReaches_of (by decide +kernel), by decide +kernel⟩,
    ⟨claimReaches_of (by decide +kernel), by decide +kernel, by decide +kernel⟩,
    ⟨claimReaches_of (by decide +kernel), by decide +kernel⟩, ⟨claimReaches_of (by decide +kernel), by decide +kernel⟩,
    ⟨claimReaches_of (by decide +kernel), by decide +kernel, by decide +kernel⟩,
    ⟨claimReaches_of (by decide +kernel), by decide +kernel, by decide +kernel, by decide +kernel⟩,
    ⟨claimReaches_of (by decide +kernel), by decide +kernel⟩⟩

/-- A claim with waiting. -/
def claimW : List Byte := claimOf 0x4411 0x0108 code107 0 2 1 100
def capped : FeatureEntry := { feature5 with cap := 1 }
/-- Pool 12 used up. -/
def full12 : State := base.setPoolLive 12 ⟨0, 400, 0, .normal, 0⟩

/-- A claim reaches the entitlement checks of a state and passes them. -/
def admitsB (s : State) (p : List Byte) (fe : FeatureEntry) (pe : PoolEntry) (g : GlobalEntry) (ci : Nat) : Bool :=
  claimReachesB (claimState s fe pe g p) (fromClient p) [] (ctxWith p fe) ci &&
    claimEntitledB (claimState s fe pe g p) [] (ctxWith p fe) ci pe

theorem admits_of {s p fe pe g ci} (h : admitsB s p fe pe g ci = true) :
    (claimState s fe pe g p).ClaimReaches (fromClient p) [] (ctxWith p fe) ci ∧
      (claimState s fe pe g p).ClaimEntitled [] (ctxWith p fe) ci pe := by
  simp only [admitsB, Bool.and_eq_true] at h
  exact ⟨claimReaches_of h.1, claimEntitled_of h.2⟩

def guaranteed : GlobalEntry := { GlobalEntry.powerOn with mp := 4096 }

theorem witness_ClaimNotAdmittedWaitsOrIsDenied :
    (admitsB waiting claimA feature5 pool12 .powerOn 2 = true ∧ waiting.queue 12 .general ≠ [] ∧ (readClaim claimA).wait = false) ∧
    (admitsB base claimA capped pool12 .powerOn 0 = true ∧ base.queue 12 .general = [] ∧ capped.cap ≠ 0 ∧
      capped.cap < (base.featLive 5).hf + (readClaim claimA).units) ∧
    (admitsB full12 claimA feature5 pool12 .powerOn 0 = true ∧ (feature5.cap = 0) ∧
      (claimState full12 feature5 pool12 .powerOn claimA).availability 12 .general < costOf 2 32) ∧
    (admitsB full12 claimW feature5 pool12 .powerOn 0 = true ∧ (readClaim claimW).wait = true ∧ 0 < (readClaim claimW).waitLimit ∧
      0 < pool12.mw ∧ feature5.waiting = true ∧ (claimState full12 feature5 pool12 .powerOn claimW).storeAdmits .general = true ∧
      (claimState full12 feature5 pool12 .powerOn claimW).freeWaiter .general = some 4095 ∧
      (claimState full12 feature5 pool12 .powerOn claimW).availability 12 .general < costOf 2 32) ∧
    (admitsB waiting claimW feature5 { pool12 with mw := 1 } .powerOn 2 = true ∧ 1 ≤ (waiting.queue 12 .general).length) ∧
    (admitsB waiting claimW feature5 pool12 guaranteed 2 = true ∧ (waiting.queue 12 .general).length < pool12.mw ∧
      (claimState waiting feature5 pool12 guaranteed claimW).storeAdmits .general = false) ∧
    (claimState waiting feature5 pool12 guaranteed claimW).QueuesSound ∧ (claimState full12 feature5 pool12 .powerOn claimW).QueuesSound := by
  refine ⟨by decide +kernel, by decide +kernel, by decide +kernel, by decide +kernel, by decide +kernel, by decide +kernel,
    queuesSound_one _ 12 [0] [4095] rfl (by decide +kernel) (by decide +kernel) (by decide) (by decide), ?_⟩
  exact ⟨fun p c i hi => (by cases c <;> cases hi), fun p c => (by cases c <;> exact List.nodup_nil)⟩

theorem witness_FittingClaimIsGranted :
    (admitsB base claimA feature5 pool12 .powerOn 0 = true ∧ base.queue 12 .general = [] ∧ feature5.cap = 0 ∧
      costOf 2 32 ≤ (claimState base feature5 pool12 .powerOn claimA).availability 12 .general ∧ base.grt.freeFifo = 9 :: [10, 11]) ∧
    (admitsB { base with grt.freeFifo := [] } claimA feature5 pool12 .powerOn 0 = true ∧ ({ base with grt.freeFifo := [] }).grt.freeFifo = []) ∧
    (let s := claimState base feature5 pool12 .powerOn claimA
     let t := (((s.claimStart [] (ctxOf claimA) 0).createGrant 9
          { owner := 0x4411, ownerIdx := 0, tag := 0x0108, feature := 5, epoch := 0, pool := 12, cls := .general, units := 2, cost := 4,
            renew := 300 }).replyTo (fromClient claimA) (.grant (handleOf 9 0) 4 2 .general 300 code107)).countGranted
     t.PressureStands 12 false) :=
  ⟨by decide +kernel, by decide +kernel, stands_normal (by decide +kernel)⟩

/-- A RENEW of one handle. -/
def renewOf (h : W32) : List Byte := request 0x11 0x4411 5 ([1] ++ bytes32 h)
/-- The RENEW of a handle in hand. -/
def renewing (s : State) (h client : W32) : State := { s with exu.work := some ⟨fromClient (renewOf h), client, 5, [h], []⟩ }

theorem renewal_stands {s : State} {g : Slot} {e : FeatureEntry} (h1 : g.epoch = (s.featLive g.feature).epoch)
    (h2 : s.featureEntry g.feature = some e) (h3 : e.weight ≠ 0) (h4 : s.swp.dtValid = false) : ¬ s.RenewalEnds g := by
  rintro (h | ⟨e', he, h | h⟩)
  · exact h h1
  · rw [h2] at he; cases he; exact h3 h
  · exact absurd h.1 (by simp [h4])

/-- The state after slot 3's grant is ended at its renewal. -/
def endedRenewal (s : State) : State :=
  (s.releaseSlot 3).renewNote ⟨fromClient (renewOf (handleOf 3 1)), 0x4411, 5, [handleOf 3 1], []⟩ [] .ended

theorem witness_RenewDecidesItsHandles :
    ((withClient base (renewOf 3)).ServedHead .renew (fromClient (renewOf 3)) [] ∧
      handleOurs ((renewHandles (renewOf 3)).headD 0) = false) ∧
    ((withClient base (renewOf (handleOf 3 1))).ServedHead .renew (fromClient (renewOf (handleOf 3 1))) [] ∧
      handleOurs ((renewHandles (renewOf (handleOf 3 1))).headD 0) = true) ∧
    ((renewing base 3 0x4411).resetLow = false ∧ (renewing base 3 0x4411).damage = [] ∧ handleOurs 3 = false) ∧
    (handleOurs (handleOf 3 1) = true ∧ handleSlot (handleOf 3 1) = 3 ∧ (base.slot 3).state = .free) ∧
    (∀ st ∈ [GState.held, .stale, .linger, .recalled],
      ((holding st 2 5080).slot 3).generation = handleGeneration (handleOf 3 1) ∧ ((holding st 2 5080).slot 3).state = st ∧
        ((holding st 2 5080).slot 3).owner = 0x4411 ∧ ((holding st 2 5080).slot 3).owner ≠ 0x4412) ∧
    (∀ st ∈ [GState.held, .stale, .linger],
      ¬ (renewing (holding st 2 5080) (handleOf 3 1) 0x4411).RenewalEnds ((holding st 2 5080).slot 3)) ∧
    (endedRenewal (renewing (holding .recalled 2 5080) (handleOf 3 1) 0x4411)).ReleaseStands ((holding .recalled 2 5080).releasedOf 3) ∧
    (let s := (renewing (holding .held 2 5080) (handleOf 3 1) 0x4411).setFeatLive 5 ⟨0, 1⟩
     s.RenewalEnds (s.slot 3) ∧ (endedRenewal s).ReleaseStands (s.releasedOf 3)) := by
  have h : ∀ st ∈ [GState.held, .stale, .linger],
      ((holding st 2 5080).slot 3).epoch =
        ((renewing (holding st 2 5080) (handleOf 3 1) 0x4411).featLive ((holding st 2 5080).slot 3).feature).epoch ∧
      (renewing (holding st 2 5080) (handleOf 3 1) 0x4411).featureEntry ((holding st 2 5080).slot 3).feature = some feature5 ∧
      (renewing (holding st 2 5080) (handleOf 3 1) 0x4411).swp.dtValid = false := by decide +kernel
  exact ⟨⟨servedHead_of (by decide +kernel), by decide +kernel⟩, ⟨servedHead_of (by decide +kernel), by decide +kernel⟩,
    by decide +kernel, by decide +kernel, by decide +kernel,
    fun st hst => renewal_stands (h st hst).1 (h st hst).2.1 (by decide) (h st hst).2.2,
    release_stands (by decide +kernel) (by decide +kernel), Or.inl (by decide +kernel),
    release_stands (by decide +kernel) (by decide +kernel)⟩

/-- A YIELD of a handle. -/
def yieldOf (h : W32) : List Byte := request 0x12 0x4411 0 (bytes32 h)
def yield3 : List Byte := yieldOf (handleOf 3 1)
/-- Slot 3's holder has a churn counter of `n`. -/
def churned (n : Nat) : State :=
  { holding .held 2 5080 with clt.clients := [(0, { clientOf 0x4411 [3] 0 with ch := n })] }
/-- A state after its YIELD of slot 3 has updated the churn counter. -/
def yielding (s : State) : State :=
  let c := ((withClient s yield3).clientTaken []).contacted (fromClient yield3)
  c.setClient 0 { c.client 0 with ch := churnAfter c.globalEntry (c.client 0).ch (c.swp.mt - (c.slot 3).start).toNat }

theorem witness_YieldIsDecidedAtItsSlot :
    ((withClient base (yieldOf 3)).ServedHead .yieldGrant (fromClient (yieldOf 3)) [] ∧ handleOurs 3 = false) ∧
    ((withClient base yield3).ServedHead .yieldGrant (fromClient yield3) [] ∧ be32 yield3 12 = handleOf 3 1 ∧
      handleOurs (handleOf 3 1) = true ∧ (base.slot 3).state = .free) ∧
    (∀ st ∈ [GState.held, .stale, .linger, .recalled],
      (withClient (holding st 2 5080) yield3).ServedHead .yieldGrant (fromClient yield3) [] ∧
        ((holding st 2 5080).slot 3).generation = handleGeneration (handleOf 3 1) ∧
        ((holding st 2 5080).slot 3).owner = cexClient yield3 ∧ ((holding st 2 5080).slot 3).state = st) ∧
    (let p := request 0x12 0x4412 0 (bytes32 (handleOf 3 1))
     (withClient (holding .held 2 5080) p).ServedHead .yieldGrant (fromClient p) [] ∧
       ((holding .held 2 5080).slot 3).owner ≠ cexClient p) ∧
    (let c := ((withClient (holding .recalled 2 5080) yield3).clientTaken []).contacted (fromClient yield3)
     ((c.releaseSlot 3).replyTo (fromClient yield3) (.yieldReport (handleOf 3 1) .ended)).ReleaseStands (c.releasedOf 3)) ∧
    ((yielding (churned 3)).LingerHolds 3 ∧ (yielding (churned 4)).LingerHolds 3 ∧
      (yielding (churned 3)).poolEntry 12 = some pool12) ∧
    (¬ (yielding (churned 2)).LingerHolds 3 ∧
      (((yielding (churned 2)).releaseSlot 3).replyTo (fromClient yield3) (.yieldReport (handleOf 3 1) .released)).ReleaseStands
        ((yielding (churned 2)).releasedOf 3)) := by
  have h : ∀ st ∈ [GState.held, .stale, .linger, .recalled],
      servedHeadB (withClient (holding st 2 5080) yield3) .yieldGrant (fromClient yield3) [] = true ∧
        ((holding st 2 5080).slot 3).generation = handleGeneration (handleOf 3 1) ∧
        ((holding st 2 5080).slot 3).owner = cexClient yield3 ∧ ((holding st 2 5080).slot 3).state = st := by decide +kernel
  have hl : ∀ n ∈ [3, 4], (yielding (churned n)).LingerHolds 3 := by
    have hb : ∀ n ∈ [3, 4], (yielding (churned n)).ada.service = .on ∧
        ((yielding (churned n)).client ((yielding (churned n)).slot 3).ownerIdx).ch = (yielding (churned n)).globalEntry.cmax ∧
        ((yielding (churned n)).client ((yielding (churned n)).slot 3).ownerIdx).lastJob = 0 ∧
        ((yielding (churned n)).slot 3).epoch =
          ((yielding (churned n)).featLive ((yielding (churned n)).slot 3).feature).epoch ∧
        (yielding (churned n)).featureEntry ((yielding (churned n)).slot 3).feature = some feature5 ∧
        (yielding (churned n)).poolEntry ((yielding (churned n)).slot 3).pool = some pool12 ∧
        feature5.pool = ((yielding (churned n)).slot 3).pool ∧
        ((yielding (churned n)).poolLive ((yielding (churned n)).slot 3).pool).pressure = .normal := by decide +kernel
    intro n hn
    obtain ⟨h1, h2, h3, h4, h5, h6, h7, h8⟩ := hb n hn
    exact ⟨h1, h2, fun _ _ => Or.inl h3, h4, ⟨feature5, h5, rfl, h7⟩, ⟨pool12, h6, by decide⟩, h8⟩
  exact ⟨⟨servedHead_of (by decide +kernel), by decide +kernel⟩,
    ⟨servedHead_of (by decide +kernel), by decide +kernel, by decide +kernel, by decide +kernel⟩,
    fun st hst => ⟨servedHead_of (h st hst).1, (h st hst).2⟩, ⟨servedHead_of (by decide +kernel), by decide +kernel⟩,
    release_stands (by decide +kernel) (by decide +kernel), ⟨hl 3 (by decide), hl 4 (by decide), by decide +kernel⟩,
    fun hn => absurd hn.churn (by decide +kernel), release_stands (by decide +kernel) (by decide +kernel)⟩

/-- A QUERY of site 1 and job class 1. -/
def queryOf (code : W32) : List Byte := request 0x13 0x4411 0 (bytes32 code ++ [1, 1])

theorem witness_QueryReportsFiguresOrIsForwarded :
    ((withClient base (queryOf 1)).ServedHead .query (fromClient (queryOf 1)) [] ∧ (withClient base (queryOf 1)).activeBank.lookup 1 = none) ∧
    (let s := withClient base (queryOf code107)
     s.ServedHead .query (fromClient (queryOf code107)) [] ∧ be32 (queryOf code107) 12 = code107 ∧
       (byteAt (queryOf code107) 16).toNat = 1 ∧ (byteAt (queryOf code107) 17).toNat = 1 ∧ s.siteEntry 1 = some site1 ∧
       s.activeBank.lookup code107 = some 5 ∧ s.featureEntry 5 = some feature5 ∧ s.activeBank.damaged .pool 12 = false ∧
       s.activeBank.damagedGlobal = false) :=
  ⟨⟨servedHead_of (by decide +kernel), by decide +kernel⟩, servedHead_of (by decide +kernel), by decide +kernel⟩

/-- A WITHDRAW. -/
def withdrawOf (client : W32) (tag : W16) : List Byte := request 0x14 client tag []

theorem witness_WithdrawRemovesNamedWaiter :
    ((withClient base (withdrawOf 9 1)).Canonical ∧
      (withClient base (withdrawOf 9 1)).ServedHead .withdraw (fromClient (withdrawOf 9 1)) [] ∧
      (withClient base (withdrawOf 9 1)).findClient 9 = none) ∧
    (let s := withClient waiting (withdrawOf 0x4430 2)
     s.Canonical ∧ s.ServedHead .withdraw (fromClient (withdrawOf 0x4430 2)) [] ∧ s.findClient 0x4430 = some 0 ∧ s.findWaiter 0 2 = none) ∧
    (let s := withClient waiting (withdrawOf 0x4430 1)
     s.Canonical ∧ s.ServedHead .withdraw (fromClient (withdrawOf 0x4430 1)) [] ∧ s.findClient 0x4430 = some 0 ∧
       s.findWaiter 0 1 = some 4095) ∧
    (0 < (waiting.client (waiting.waiter 4095).clientIdx).waiters ∧ (waiting.client 0).inUse = true ∧ (waiting.client 0).grants = 0 ∧
      (waiting.client 0).waiters = 1 ∧ 0 ∉ waiting.clt.idle) ∧
    (let s : State := { waiting with clt.clients := [(0, clientOf 0x4430 [] 2)] }
     0 < (s.client (s.waiter 4095).clientIdx).waiters ∧ (s.client 0).waiters ≠ 1) :=
  ⟨⟨canonical_of (by decide +kernel), servedHead_of (by decide +kernel), by decide +kernel⟩,
    ⟨canonical_of (by decide +kernel), servedHead_of (by decide +kernel), by decide +kernel, by decide +kernel⟩,
    ⟨canonical_of (by decide +kernel), servedHead_of (by decide +kernel), by decide +kernel, by decide +kernel⟩,
    by decide +kernel, by decide +kernel⟩

theorem witness_ReleaseAndRecallMoveCounts :
    (∀ st ∈ [GState.held, .stale, .linger, .recalled],
      ((holding st 2 5080).slot 3).state.live = true ∧
      ((holding st 2 5080).slot 3).cost ≤ ((holding st 2 5080).poolLive 12).used .general ∧
      ((holding st 2 5080).unitsCounted ((holding st 2 5080).slot 3) = true →
        ((holding st 2 5080).slot 3).units ≤ ((holding st 2 5080).featLive 5).hf) ∧
      3 ∈ ((holding st 2 5080).client 0).chain ∧ 0 < ((holding st 2 5080).client 0).grants ∧
      (holding st 2 5080).ada.op.isRebuild = false ∧ ((holding st 2 5080).client 0).inUse = true ∧
      ((holding st 2 5080).client 0).grants = 1 ∧ ((holding st 2 5080).client 0).waiters = 0 ∧ 0 ∉ (holding st 2 5080).clt.idle ∧
      (holding st 2 5080).lnk.portF.originate.length < 256) ∧
    (let s := (holding .held 2 5080).setFeatLive 5 ⟨0, 1⟩
     (s.slot 3).epoch ≠ (s.featLive 5).epoch ∧ s.unitsCounted (s.slot 3) = false) ∧
    (let s : State := { holding .held 2 5080 with clt.clients := [] }
     (s.slot 3).state = .held ∧ 3 ∉ (s.client (s.slot 3).ownerIdx).chain) := by decide +kernel

theorem sum_single (n k v : Nat) :
    ((List.range n).map (fun i => if i = k then v else 0)).sum = if k < n then v else 0 := by
  induction n with
  | zero => simp
  | succ n ih =>
    rw [List.range_succ, List.map_append, List.sum_append, ih]
    simp only [List.map_cons, List.map_nil, List.sum_cons, List.sum_nil, Nat.add_zero]
    rcases Nat.lt_trichotomy n k with h | h | h
    · simp [show ¬ k < n by omega, show ¬ k < n + 1 by omega, show n ≠ k by omega]
    · subst h; simp
    · simp [h, show k < n + 1 by omega, show n ≠ k by omega]

/-- The tokens of a state with one live grant, slot 3. -/
theorem balanced_one {s : State} {g : Slot} {l : PoolLive} (h : s.grt.slots = [(3, g)]) (hl : g.state.live = true)
    (ha : s.adm.pools = [(g.pool, l)]) (hu : ∀ c, l.used c = if g.cls = c then g.cost else 0) : s.TokensBalanced := by
  intro p c
  have hs : ∀ i, (if (s.slot i).state.live = true ∧ (s.slot i).pool = p ∧ (s.slot i).cls = c then (s.slot i).cost else 0) =
      if i = 3 then (if g.pool = p ∧ g.cls = c then g.cost else 0) else 0 := by
    intro i
    simp only [State.slot, h, Tab.get]
    by_cases hi : i = 3
    · subst hi; simp [hl]
    · have h3 : ¬ 3 = i := fun h => hi h.symm
      simp [hi, h3, Slot.zero, GState.live]
  unfold State.tokenSum State.tokensBelow sumBelow Slot.tokens
  rw [funext hs, sum_single, if_pos (by decide)]
  simp only [State.poolLive, ha, Tab.get]
  by_cases hp : g.pool = p
  · rw [if_pos hp, hu]; simp [hp]
  · rw [if_neg hp]; simp [hp]; cases c <;> rfl

theorem balanced_reset : State.reset.TokensBalanced :=
  (clear_grants (s := State.reset) rfl rfl rfl).balance rfl

theorem witness_GrantsKeepTokenBalance :
    (State.reset.TokensBalanced ∧ (State.reset.slot 32767).state = .free) ∧
    (∀ st ∈ [GState.held, .stale, .linger, .recalled],
      (holding st 2 5080).TokensBalanced ∧ ((holding st 2 5080).slot 3).state.live = true) := by
  refine ⟨⟨balanced_reset, by decide +kernel⟩, fun st hst => ⟨?_, ?_⟩⟩
  · refine balanced_one (g := grantOf st 0x4411 0 0x0107 2 5080) (l := ⟨0, 4, 0, .normal, 0⟩) rfl ?_ rfl ?_
    · revert st; decide
    · intro c; cases c <;> rfl
  · revert st; decide +kernel

/-! ### Witnesses: the pool service and the sweeper -/

/-- A run of pool 12 in progress. -/
def inRun (s : State) : State := { s with adm.runs := [⟨12, [], .priority⟩] }

/-- A run of pool 12 in progress, its round parted before the GENERAL examination. -/
def midRound (cause : Bool) (s : State) : State := { s with adm.runs := [⟨12, [], .general cause⟩] }

/-- R57, R62: a round is parted at the blocked PRIORITY head; W then falls by SET WITHHOLD, the GENERAL head is examined on the tokens that
returns and granted, and the run goes on. -/
theorem test_parted_round :
    let s := (inRun waiting).setPoolLive 12 ⟨0, 0, 400, .normal, 0⟩
    let u := after (.poolServiceRound ⟨12, true⟩ []) s
    let v := after (.setWithhold []) (withAdmin u (admin 0x0A [0, 12, 0, 0, 0, 0, 0, 0]))
    let t := after (.poolServiceRound ⟨12, false⟩ []) v
    u.adm.runs = [⟨12, [], .general false⟩] ∧ v.adm.runs = [⟨12, [], .general true⟩] ∧ t.adm.runs = [⟨12, [], .priority⟩] ∧
      t.queue 12 .priority = [0] ∧ t.queue 12 .general = [] ∧ (t.slot 9).owner = 0x4430 := by decide +kernel

theorem inRun_of {s : State} {x : RunStage} (h : (!s.resetLow && decide (s.damage = []) && decide (s.runOf 12 = some ⟨12, [], x⟩) &&
    !s.ada.op.isRebuild) = true) : s.InRun 12 x := by
  simp only [Bool.and_eq_true, Bool.not_eq_true', decide_eq_true_eq] at h
  obtain ⟨⟨⟨h1, h2⟩, h3⟩, h4⟩ := h
  exact ⟨⟨h1, h2⟩, ⟨_, h3, rfl⟩, h4⟩

theorem outside_not {s : State} {e : FeatureEntry} (h : s.swp.dtValid = false) : ¬ s.OutsideWindow e := fun hw =>
  absurd (h.symm.trans hw.1) (by decide)

theorem servable_of {s : State} {w : Waiter} {e : FeatureEntry} {pe : PoolEntry}
    (h : w.epoch = (s.featLive w.feature).epoch ∧ s.featureEntry w.feature = some e ∧ e.pool = w.pool ∧ e.weight ≠ 0 ∧
      s.poolEntry w.pool = some pe ∧ s.swp.dtValid = false ∧ (s.client w.clientIdx).grants < s.globalEntry.grantLimit) :
    s.HeadServable w e pe :=
  ⟨h.1, h.2.1, h.2.2.1, h.2.2.2.1, h.2.2.2.2.1, outside_not h.2.2.2.2.2.1, h.2.2.2.2.2.2⟩

/-- Only the GENERAL queue of pool 12 holds a waiter. -/
def waitingGeneral : State :=
  { base with
    wts := ⟨[(4095, waiterOf 0x4430 0 1 .general 20 5100)], [(12, ⟨[], [4095]⟩)], 0, 1⟩
    clt.clients := [(0, clientOf 0x4430 [] 1)] }

/-- `waiting` with pool 12 used up. -/
def waitingFull : State := inRun (waiting.setPoolLive 12 ⟨0, 400, 0, .normal, 0⟩)

theorem blocked_of {s : State} {w : Waiter} {e : FeatureEntry} (h : s.availability w.pool w.cls < w.cost) : ¬ s.HeadFits w e :=
  fun hf => absurd hf.2 (Nat.not_le.mpr h)

theorem sound_of_wts {s t : State} (h : t.wts = s.wts) (hs : s.QueuesSound) : t.QueuesSound := by
  obtain ⟨h1, h2⟩ := hs
  have hq : ∀ p c, t.queue p c = s.queue p c := fun p c => by unfold State.queue State.queues; rw [h]
  have hw : ∀ i, t.waiter i = s.waiter i := fun i => by unfold State.waiter; rw [h]
  exact ⟨fun p c i hi => by rw [hw]; rw [hq] at hi; exact h1 p c i hi, fun p c => by rw [hq]; exact h2 p c⟩

theorem base_sound : base.QueuesSound :=
  ⟨fun p c i hi => (by cases c <;> cases hi), fun p c => (by cases c <;> exact List.nodup_nil)⟩

theorem witness_ServiceRoundServesHeads :
    ((inRun base).InRun 12 .priority ∧ (inRun base).QueuesSound ∧ (inRun base).RoundPasses 12 .priority ∧ (inRun base).RoundPasses 12 .general) ∧
    (waitingFull.InRun 12 .priority ∧ waitingFull.QueuesSound ∧ waitingFull.RoundPasses 12 .priority ∧ waitingFull.RoundPasses 12 .general) ∧
    (let s := inRun (waiting.setFeatLive 5 ⟨0, 1⟩)
     s.InRun 12 .priority ∧ s.QueuesSound ∧ s.queue 12 .priority = 0 :: [] ∧ s.HeadRefused (s.waiter 0) .tableChanged) ∧
    (let s := inRun waiting
     s.InRun 12 .priority ∧ s.QueuesSound ∧ s.queue 12 .priority = 0 :: [] ∧ s.HeadServable (s.waiter 0) feature5 pool12 ∧
       s.HeadFits (s.waiter 0) feature5 ∧ s.grt.freeFifo = 9 :: [10, 11] ∧ (s.headServed 0 9 feature5 pool12).PressureStands 12 false) ∧
    (let s : State := { inRun waitingGeneral with grt.freeFifo := [] }
     s.InRun 12 .priority ∧ s.QueuesSound ∧ s.RoundPasses 12 .priority ∧ s.queue 12 .general = 4095 :: [] ∧
       s.HeadServable (s.waiter 4095) feature5 pool12 ∧ s.HeadFits (s.waiter 4095) feature5 ∧ s.grt.freeFifo = []) ∧
    (base.resetLow = false ∧ base.damage = [] ∧ (∀ r ∈ base.adm.runs, r.pool ≠ 12) ∧
      (inRun rebuilding).ada.op.isRebuild = true ∧ ∃ r ∈ (inRun rebuilding).adm.runs, r.pool = 12) := by
  refine ⟨⟨inRun_of (by decide +kernel), sound_of_wts (s := base) rfl base_sound, Or.inl rfl, Or.inl rfl⟩,
    ⟨inRun_of (by decide +kernel), sound_of_wts (s := waiting) rfl waiting_sound, Or.inr ⟨0, [], feature5, pool12, by decide +kernel,
      servable_of (by decide +kernel), blocked_of (by decide +kernel)⟩, Or.inr ⟨4095, [], feature5, pool12, by decide +kernel,
      servable_of (by decide +kernel), blocked_of (by decide +kernel)⟩⟩,
    ⟨inRun_of (by decide +kernel), sound_of_wts (s := waiting) rfl waiting_sound, by decide +kernel, Or.inl (by decide +kernel)⟩,
    ⟨inRun_of (by decide +kernel), sound_of_wts (s := waiting) rfl waiting_sound, by decide +kernel, servable_of (by decide +kernel),
      ⟨Or.inl rfl, by decide +kernel⟩, by decide +kernel, stands_normal (by decide +kernel)⟩,
    ⟨inRun_of (by decide +kernel), ?_, Or.inl (by decide +kernel), by decide +kernel, servable_of (by decide +kernel),
      ⟨Or.inl rfl, by decide +kernel⟩, by decide +kernel⟩, by decide +kernel⟩
  exact queuesSound_one _ 12 [] [4095] rfl (by decide +kernel) (by decide +kernel) (by decide) (by decide)

theorem witness_ServiceRoundServesHeads_parted :
    (waitingFull.InRun 12 .priority ∧ waitingFull.QueuesSound ∧ waitingFull.queue 12 .priority = 0 :: [] ∧
      waitingFull.HeadServable (waitingFull.waiter 0) feature5 pool12 ∧ ¬ waitingFull.HeadFits (waitingFull.waiter 0) feature5) ∧
    (let s : State := { inRun waiting with grt.freeFifo := [] }
     s.InRun 12 .priority ∧ s.QueuesSound ∧ s.queue 12 .priority = 0 :: [] ∧ s.HeadServable (s.waiter 0) feature5 pool12 ∧
       s.HeadFits (s.waiter 0) feature5 ∧ s.grt.freeFifo = []) :=
  ⟨⟨inRun_of (by decide +kernel), sound_of_wts (s := waiting) rfl waiting_sound, by decide +kernel, servable_of (by decide +kernel),
      blocked_of (by decide +kernel)⟩,
    inRun_of (by decide +kernel), sound_of_wts (s := waiting) rfl waiting_sound, by decide +kernel, servable_of (by decide +kernel),
      ⟨Or.inl rfl, by decide +kernel⟩, by decide +kernel⟩

theorem witness_ServiceRoundServesHeads_general : ∀ cause : Bool,
    (let s := midRound cause (waiting.setPoolLive 12 ⟨0, 400, 0, .normal, 0⟩)
     s.InRun 12 (.general cause) ∧ s.QueuesSound ∧ s.RoundPasses 12 .general) ∧
    (let s := midRound cause (waiting.setFeatLive 5 ⟨0, 1⟩)
     s.InRun 12 (.general cause) ∧ s.QueuesSound ∧ s.queue 12 .general = 4095 :: [] ∧ s.HeadRefused (s.waiter 4095) .tableChanged) ∧
    (let s := midRound cause waiting
     s.InRun 12 (.general cause) ∧ s.QueuesSound ∧ s.queue 12 .general = 4095 :: [] ∧
       s.HeadServable (s.waiter 4095) feature5 pool12 ∧ s.HeadFits (s.waiter 4095) feature5 ∧ s.grt.freeFifo = 9 :: [10, 11] ∧
       (s.headServed 4095 9 feature5 pool12).PressureStands 12 false) ∧
    (let s : State := { midRound cause waiting with grt.freeFifo := [] }
     s.InRun 12 (.general cause) ∧ s.QueuesSound ∧ s.queue 12 .general = 4095 :: [] ∧
       s.HeadServable (s.waiter 4095) feature5 pool12 ∧ s.HeadFits (s.waiter 4095) feature5 ∧ s.grt.freeFifo = []) ∧
    (midRound cause waiting).ada.op.isRebuild = false ∧ (∃ r ∈ (midRound cause waiting).adm.runs, r.pool = 12 ∧ r.stage ≠ .priority) := by
  intro cause
  cases cause <;>
    exact ⟨⟨inRun_of (by decide +kernel), sound_of_wts (s := waiting) rfl waiting_sound, Or.inr ⟨4095, [], feature5, pool12,
        by decide +kernel, servable_of (by decide +kernel), blocked_of (by decide +kernel)⟩⟩,
      ⟨inRun_of (by decide +kernel), sound_of_wts (s := waiting) rfl waiting_sound, by decide +kernel, Or.inl (by decide +kernel)⟩,
      ⟨inRun_of (by decide +kernel), sound_of_wts (s := waiting) rfl waiting_sound, by decide +kernel, servable_of (by decide +kernel),
        ⟨Or.inl rfl, by decide +kernel⟩, by decide +kernel, stands_normal (by decide +kernel)⟩,
      ⟨inRun_of (by decide +kernel), sound_of_wts (s := waiting) rfl waiting_sound, by decide +kernel, servable_of (by decide +kernel),
        ⟨Or.inl rfl, by decide +kernel⟩, by decide +kernel⟩, by decide +kernel⟩

/-- A grant pass round at slot 3. -/
def atSlot3 (s : State) : State := { s with swp.grantPass := ⟨3, [5000]⟩ }

theorem witness_HeldGrantBecomesStaleAtDeadline :
    (∀ d ∈ [5000, 4999], (atSlot3 (holding .held 2 (BitVec.ofNat 32 d))).resetLow = false ∧ (atSlot3 (holding .held 2 (BitVec.ofNat 32 d))).damage = [] ∧
      (atSlot3 (holding .held 2 (BitVec.ofNat 32 d))).swp.grantPass.rounds = 5000 :: [] ∧ (atSlot3 (holding .held 2 (BitVec.ofNat 32 d))).swp.grantPass.cursor = 3 ∧
      ((holding .held 2 (BitVec.ofNat 32 d)).slot 3).state = .held ∧ (((holding .held 2 (BitVec.ofNat 32 d)).slot 3).deadline - 5000).toInt ≤ 0 ∧
      (atSlot3 (holding .held 2 (BitVec.ofNat 32 d))).poolEntry 12 = some pool12) ∧
    ({ atSlot3 (holding .held 2 5000) with tbs.bank0.damagedPools := [(12, true)] }).poolEntry 12 = none ∧
    0 < (((holding .held 2 5001).slot 3).deadline - 5000).toInt ∧ (base.slot 3).state = .free := by decide +kernel

theorem witness_PassedGrantIsReleased :
    (∀ st ∈ [GState.stale, .linger, .recalled], (atSlot3 (holding st 2 5000)).resetLow = false ∧
      (atSlot3 (holding st 2 5000)).damage = [] ∧ (atSlot3 (holding st 2 5000)).swp.grantPass.rounds = 5000 :: [] ∧
      (((holding st 2 5000).slot 3).deadline - 5000).toInt ≤ 0 ∧ ((holding st 2 5000).slot 3).state = st) ∧
    (let s := atSlot3 (holding .stale 2 5000)
     (State.countReclaimed (State.queueNotice (.grantReclaimed (handleOf 3 1) 0x4411 12 5) (s.releaseSlot 3))).ReleaseStands
       (s.releasedOf 3)) ∧
    (∀ st ∈ [GState.linger, .recalled], ((atSlot3 (holding st 2 5000)).releaseSlot 3).ReleaseStands ((atSlot3 (holding st 2 5000)).releasedOf 3)) := by
  have h : ∀ st ∈ [GState.linger, .recalled],
      let s := atSlot3 (holding st 2 5000)
      (((s.releaseSlot 3).poolLive (s.releasedOf 3).pool).pressure = .normal ∧
        (s.releaseSlot 3).lowMark (s.releasedOf 3).pool ≤ (s.releaseSlot 3).freeMeasure (s.releasedOf 3).pool) ∧
      (s.releaseSlot 3).mappedPool (s.releasedOf 3).feature = some (s.releasedOf 3).pool := by decide +kernel
  exact ⟨by decide +kernel, release_stands (by decide +kernel) (by decide +kernel), fun st hst => release_stands (h st hst).1 (h st hst).2⟩

/-- A waiter pass round at record 4,095, a pool pass round at pool 1,023, a client pass round at entry 0 labelled `n`. -/
def atWaiter (s : State) : State := { s with swp.waiterPass := ⟨4095, [5000]⟩ }
def atPool : State := { base with swp.poolPass := ⟨1023, [5000]⟩ }
def atClient (n : W32) (c : Client) : State := { base with swp.clientPass := ⟨0, [n]⟩, clt.clients := [(0, c)] }

theorem waiter_stands {s : State} {w : Waiter} {e : FeatureEntry}
    (h : 0 < (w.deadline - s.swp.mt).toInt ∧ w.epoch = (s.featLive w.feature).epoch ∧ s.featureEntry w.feature = some e ∧
      e.pool = w.pool ∧ e.weight ≠ 0 ∧ s.poolEntry w.pool ≠ none ∧ s.swp.dtValid = false) (r : Reason) : ¬ s.WaiterRefused w r := by
  obtain ⟨h1, h2, h3, h4, h5, h6, h7⟩ := h
  rintro (⟨h, -⟩ | ⟨-, ⟨h, -⟩ | ⟨-, e', he, h⟩⟩)
  · omega
  · exact h h2
  · rw [h3] at he
    cases he
    rcases h with ⟨h, -⟩ | ⟨-, ⟨h | h, -⟩ | ⟨-, -, h, -⟩⟩
    · exact h h4
    · exact h5 h
    · exact h6 h
    · exact outside_not h7 h

theorem witness_WaiterPoolAndClientPassesAct :
    (let s := atWaiter waiting
     s.resetLow = false ∧ s.damage = [] ∧ s.swp.waiterPass.rounds = 5000 :: [] ∧ s.swp.waiterPass.cursor = 4095 ∧
       (s.waiter 4095).inUse = true ∧ ∀ r, ¬ s.WaiterRefused (s.waiter 4095) r) ∧
    (let s := atWaiter { waiting with swp.mt := 5100 }
     (s.waiter 4095).inUse = true ∧ s.WaiterRefused (s.waiter 4095) .waitExpired) ∧
    ((atWaiter base).waiter 4095).inUse = false ∧
    (atPool.resetLow = false ∧ atPool.damage = [] ∧ atPool.swp.poolPass.rounds = 5000 :: [] ∧ atPool.PressureStands 1023 true) ∧
    (∀ n ∈ [5010, 5011], (atClient (BitVec.ofNat 32 n) (clientOf 0x4411 [] 0)).resetLow = false ∧ (atClient (BitVec.ofNat 32 n) (clientOf 0x4411 [] 0)).damage = [] ∧
      (atClient (BitVec.ofNat 32 n) (clientOf 0x4411 [] 0)).swp.clientPass.rounds = BitVec.ofNat 32 n :: [] ∧
      ((atClient (BitVec.ofNat 32 n) (clientOf 0x4411 [] 0)).client 0).inUse = true) ∧
    ((atClient 5010 .zero).client 0).inUse = false :=
  ⟨⟨by decide +kernel, by decide +kernel, by decide +kernel, by decide +kernel, by decide +kernel,
      waiter_stands (e := feature5) (by decide +kernel)⟩,
    ⟨by decide +kernel, Or.inl (by decide +kernel)⟩, by decide +kernel,
    ⟨by decide +kernel, by decide +kernel, by decide +kernel, stands_normal (by decide +kernel)⟩, by decide +kernel, by decide +kernel⟩

/-! ### Witnesses: tokens, pressure, banks -/

theorem witness_CostAndAvailabilityAreExact :
    base.poolEntry 13 = none ∧ base.poolEntry 12 = some pool12 ∧ 0 < 400 ∧ 400 ≤ base.availability 12 .priority := by decide +kernel

theorem get_stored {α : Type} {P : α → Prop} {d : α} (hd : P d) (t : Tab α) (h : ∀ kv ∈ t, P kv.2) (i : Nat) : P (Tab.get d t i) := by
  induction t with
  | nil => exact hd
  | cons kv t ih =>
    obtain ⟨j, w⟩ := kv
    simp only [Tab.get]
    split
    · exact h (j, w) (by simp)
    · exact ih (fun x hx => h x (by simp [hx]))

theorem entriesStored_of {b : Bank} {f : FeatureEntry} {p : PoolEntry} {s : SiteEntry} (h1 : b.features = [(5, f)]) (h2 : b.pools = [(12, p)])
    (h3 : b.sites = [(1, s)]) (hf : (Entry.feature f).Stored) (hp : (Entry.pool p).Stored) (hs : (Entry.site s).Stored)
    (hg : (Entry.global b.global).Stored) : b.EntriesStored := by
  intro k i _
  cases k
  · exact get_stored (P := fun e => (Entry.feature e).Stored) (Or.inl rfl) _ (by rw [h1]; simpa using hf) i
  · exact get_stored (P := fun e => (Entry.pool e).Stored) (Or.inl rfl) _ (by rw [h2]; simpa using hp) i
  · exact get_stored (P := fun e => (Entry.site e).Stored) (Or.inl rfl) _ (by rw [h3]; simpa using hs) i
  · exact hg

theorem powerOn_stored : Bank.powerOn.EntriesStored := by
  intro k i _
  cases k
  · exact Or.inl rfl
  · exact Or.inl rfl
  · exact Or.inl rfl
  · show GlobalEntry.inRange _ = true; decide

theorem base_inRange : base.BanksInRange :=
  ⟨entriesStored_of (f := feature5) (p := pool12) (s := site1) (by decide +kernel) (by decide +kernel) (by decide +kernel)
    (Or.inr ⟨by decide, by decide⟩) (Or.inr ⟨by decide, by decide⟩) (Or.inr ⟨by decide, by decide, by decide⟩)
    (by show GlobalEntry.inRange _ = true; decide), powerOn_stored⟩

/-- Pool 12 CONSTRAINED since MT 4,880. -/
def constrained12 (ug : Nat) : State := base.setPoolLive 12 ⟨0, ug, 0, .constrained, 4880⟩

theorem witness_FreeMeasureBoundsAvailability :
    base.BanksInRange ∧ base.resetLow = false ∧ base.damage = [] ∧ base.ada.service ≠ .faulted ∧
    (base.poolLive 12).pressure = .normal ∧ base.lingerList 12 = [] ∧
    (let s := constrained12 340
     (s.poolLive 12).pressure = .constrained ∧ s.minResidency 12 ≤ (s.swp.mt - (s.poolLive 12).entryTime).toNat) :=
  ⟨base_inRange, by decide +kernel⟩

/-- The linger list of section 5.4 with Ug 381, F 19. -/
def below54 : State := { lingering54 with adm.pools := [(12, ⟨0, 381, 0, .normal, 0⟩)] }

theorem witness_PressureEntersAndLeaves :
    (let s : State := { base with ada.service := .faulted }
     s.resetLow = false ∧ s.damage = [] ∧ s.ada.service = .faulted) ∧
    (let s := full12
     s.resetLow = false ∧ s.damage = [] ∧ s.ada.service ≠ .faulted ∧ (s.poolLive 12).pressure = .normal ∧
       s.freeMeasure 12 < s.lowMark 12 ∧ s.lingerList 12 = [] ∧ s.ada.op.isRebuild = false ∧ ∀ r ∈ s.adm.runs, r.pool ≠ 12) ∧
    (let s := rebuilding.setPoolLive 12 ⟨0, 381, 0, .normal, 0⟩
     s.freeMeasure 12 < s.lowMark 12 ∧ s.lingerList 12 = [] ∧ s.ada.op.isRebuild = true) ∧
    (let s := below54
     s.freeMeasure 12 = 19 ∧ s.freeMeasure 12 < s.lowMark 12 ∧ (s.lingerList 12).Nodup ∧
       ∀ i ∈ s.lingerList 12, (s.slot i).state = .linger ∧ (s.slot i).pool = 12 ∧ s.mappedPool (s.slot i).feature = some 12) ∧
    (let s := constrained12 340
     s.ada.service ≠ .faulted ∧ (s.poolLive 12).pressure = .constrained ∧ s.highMark 12 ≤ s.freeMeasure 12 ∧
       s.minResidency 12 ≤ (s.swp.mt - (s.poolLive 12).entryTime).toNat) := by decide +kernel

theorem witness_EntryWordsReadBack :
    (Entry.feature .empty).Stored ∧ (Entry.feature feature5).Stored ∧ (Entry.pool pool12).Stored ∧ (Entry.site site1).Stored ∧
      (Entry.global .powerOn).Stored :=
  ⟨Or.inl rfl, Or.inr ⟨by decide, by decide⟩, Or.inr ⟨by decide, by decide⟩, Or.inr ⟨by decide, by decide, by decide⟩,
    by show GlobalEntry.inRange _ = true; decide⟩

/-- A WRITE ENTRY of one feature entry. -/
def writeOf (i : Nat) (spare : Byte) (e : FeatureEntry) : List Byte :=
  admin 8 ([1, 1, 0, 0] ++ nat16 i ++ [0, spare] ++ (e.words.map bytes32).flatten)
/-- A WRITE ENTRY of no known kind. -/
def writeBad : List Byte := admin 8 [5, 1, 0, 0]

theorem witness_WriteEntryReplacesStandbyEntry :
    (∀ f ∈ [(16383, (0 : Byte)), (16384, 0), (0, 1)],
      (withAdmin base (writeOf f.1 f.2 feature5)).AdminHead .writeEntry (fromStation (writeOf f.1 f.2 feature5)) [] 0 ∧
      TableKind.ofCode (byteAt (adminBody (writeOf f.1 f.2 feature5)) 0).toNat = some .feature ∧
      be16 (adminBody (writeOf f.1 f.2 feature5)) 2 = 0 ∧ byteAt (adminBody (writeOf f.1 f.2 feature5)) 1 = 1 ∧
      carriedEntries 6 1 ((adminBody (writeOf f.1 f.2 feature5)).drop 4) = [⟨f.1, f.2.setWidth 16, feature5.words⟩] ∧
      readEntryWords .feature feature5.words = some (.feature feature5)) ∧
    ((withAdmin base writeBad).AdminHead .writeEntry (fromStation writeBad) [] 0 ∧ TableKind.ofCode (byteAt (adminBody writeBad) 0).toNat = none) ∧
    (∀ k c, base.ada.op ≠ .copy k c) ∧ ({ base with ada.op := .copy .feature 0 }).ada.op = .copy .feature 0 ∧
    (∀ j, base.standbyBank.lookup (Entry.feature feature5).featureCode = some j → j = 16383) ∧
    base.standbyBank.damaged .feature 16383 = false ∧
    ({ base with tbs.bank1 := bankA }).standbyBank.lookup (Entry.feature feature5).featureCode = some 5 ∧
    ({ base with tbs.bank1.damagedFeatures := [(16383, true)] }).standbyBank.damaged .feature 16383 = true ∧
    readEntryWords .feature ({ feature5 with pool := 1024 }).words = none ∧
    (Entry.feature feature5).kind = .feature ∧ Bank.powerOn.damaged .feature 5 = false ∧ bankA.Canonical := by
  have h : ∀ f ∈ [(16383, (0 : Byte)), (16384, 0), (0, 1)],
      adminHeadB (withAdmin base (writeOf f.1 f.2 feature5)) .writeEntry (fromStation (writeOf f.1 f.2 feature5)) [] 0 = true ∧
      TableKind.ofCode (byteAt (adminBody (writeOf f.1 f.2 feature5)) 0).toNat = some .feature ∧
      be16 (adminBody (writeOf f.1 f.2 feature5)) 2 = 0 ∧ byteAt (adminBody (writeOf f.1 f.2 feature5)) 1 = 1 ∧
      carriedEntries 6 1 ((adminBody (writeOf f.1 f.2 feature5)).drop 4) = [⟨f.1, f.2.setWidth 16, feature5.words⟩] ∧
      readEntryWords .feature feature5.words = some (.feature feature5) := by decide +kernel
  have hn : base.standbyBank.lookup (Entry.feature feature5).featureCode = none := by decide +kernel
  exact ⟨fun f hf => ⟨adminHead_of (h f hf).1, (h f hf).2⟩, ⟨adminHead_of (by decide +kernel), by decide +kernel⟩,
    fun k c hc => (by simp [base, State.reset] at hc), rfl, fun j hj => (by rw [hn] at hj; cases hj), by decide +kernel, by decide +kernel,
    by decide +kernel, by decide +kernel, by decide +kernel, by decide +kernel, bankCanonical_of (by decide +kernel)⟩

/-- A COPY BANK at an index. -/
def copying (k : TableKind) (i : Nat) : State := { base with ada.op := .copy k i }

theorem witness_CopyBankBringsActiveToStandby :
    ((withAdmin base (admin 0x10 [])).AdminHead .copyBank (fromStation (admin 0x10 [])) [] 0 ∧ base.ada.op = .idle) ∧
    ((withAdmin rebuilding (admin 0x10 [])).AdminHead .copyBank (fromStation (admin 0x10 [])) [] 0 ∧ rebuilding.ada.op ≠ .idle) ∧
    (∀ f ∈ [(TableKind.feature, 5), (.feature, 16383), (.pool, 1023), (.site, 255), (.global, 0)],
      (copying f.1 f.2).resetLow = false ∧ (copying f.1 f.2).damage = [] ∧ (copying f.1 f.2).ada.op = .copy f.1 f.2 ∧ f.2 < f.1.size ∧
        (copying f.1 f.2).activeBank.damaged f.1 f.2 = false) ∧
    (let s : State := { copying .pool 12 with tbs.bank0.damagedPools := [(12, true)] }
     s.activeBank.damaged .pool 12 = true) ∧
    (copying .global 1).ada.op = .copy .global 1 :=
  ⟨⟨adminHead_of (by decide +kernel), by decide +kernel⟩, ⟨adminHead_of (by decide +kernel), by decide +kernel⟩, by decide +kernel,
    by decide +kernel, by decide +kernel⟩

/-- A SWAP BANK expecting a sum. -/
def swapOf (v : W32) : List Byte := admin 0x11 (bytes32 v)

theorem witness_SwapBankFlips :
    ((withAdmin rebuilding (swapOf 0)).AdminHead .swapBank (fromStation (swapOf 0)) [] 0 ∧ rebuilding.ada.op ≠ .idle) ∧
    ((withAdmin base (swapOf 0)).AdminHead .swapBank (fromStation (swapOf 0)) [] 0 ∧
      base.standbyBank.sum ≠ be32 (adminBody (swapOf 0)) 0) ∧
    (let s : State := { withAdmin base (swapOf 0x056E0C40) with tbs.differs := [(5, true)] }
     s.AdminHead .swapBank (fromStation (swapOf 0x056E0C40)) [] 0 ∧ s.ada.op = .idle ∧
       s.standbyBank.sum = be32 (adminBody (swapOf 0x056E0C40)) 0 ∧ s.Canonical ∧ Tab.get false s.tbs.differs 5 = true) :=
  ⟨⟨adminHead_of (by decide +kernel), by decide +kernel⟩, ⟨adminHead_of (by decide +kernel), by decide +kernel⟩,
    adminHead_of (by decide +kernel), by decide +kernel, by decide +kernel, canonical_of (by decide +kernel), by decide +kernel⟩

/-! ### Witnesses: long operations -/

/-- A reconcile pass at a record. -/
def reconciling (s : State) (ph : Phase) (i : Nat) : State := { s with ada.op := .reconcile ph i .zero }

theorem witness_ReconcilePassRecallsAndEnds :
    (∀ st ∈ [GState.held, .stale, .linger, .recalled],
      (reconciling (holding st 2 5080) .grants 3).resetLow = false ∧ (reconciling (holding st 2 5080) .grants 3).damage = [] ∧
      ((holding st 2 5080).slot 3).state = st ∧ (st = .recalled ∨ ((holding st 2 5080).slot 3).epoch = ((holding st 2 5080).featLive 5).epoch) ∧
      (((holding st 2 5080).setFeatLive 5 ⟨0, 1⟩).slot 3).epoch ≠ (((holding st 2 5080).setFeatLive 5 ⟨0, 1⟩).featLive 5).epoch) ∧
    (let s := reconciling ((holding .linger 2 5080).setFeatLive 5 ⟨0, 1⟩) .grants 3
     State.ReleaseStands { s.releaseSlot 3 with ada.op := .reconcile .grants 3 ⟨0, 1, 0⟩ } (s.releasedOf 3)) ∧
    (let s := reconciling (waiting.setFeatLive 5 ⟨0, 1⟩) .waiters 4095
     s.resetLow = false ∧ s.damage = [] ∧ (s.waiter 4095).inUse = true ∧ (s.waiter 4095).epoch ≠ (s.featLive 5).epoch) ∧
    (let s := reconciling base .waiters 4095
     s.ada.op = .reconcile .waiters 4095 .zero ∧ (s.waiter 4095).inUse = false) ∧
    (let s := reconciling base .pools 1023
     s.resetLow = false ∧ s.damage = [] ∧ s.ada.op = .reconcile .pools 1023 .zero ∧ s.PressureStands 1023 true) ∧
    ((reconciling base .pools 1024).resetLow = false ∧ (reconciling base .pools 1024).ada.op = .reconcile .pools 1024 .zero) :=
  ⟨by decide +kernel, release_stands (by decide +kernel) (by decide +kernel), by decide +kernel, by decide +kernel,
    ⟨by decide +kernel, by decide +kernel, by decide +kernel, stands_normal (by decide +kernel)⟩, by decide +kernel⟩

/-- An AUDIT of a kind, start slot and value. -/
def auditOf (kind : Byte) (start : Nat) (v : W32) : List Byte := admin 0x12 ([kind, 0] ++ nat16 start ++ bytes32 v)
def auditing (s : State) (i : Nat) (found : List AuditMatch) : State := { s with ada.op := .audit ⟨.state .held, i, found, none⟩ }

theorem witness_AuditListsPickedSlots :
    (∀ f ∈ [((1 : Byte), 32767, (0x4411 : W32)), (2, 0, 1023), (3, 0, 16383), (4, 0, 5)],
      (withAdmin base (auditOf f.1 f.2.1 f.2.2)).AdminHead .audit (fromStation (auditOf f.1 f.2.1 f.2.2)) [] 0 ∧
      be32 (adminBody (auditOf f.1 f.2.1 f.2.2)) 4 = f.2.2 ∧ (be16 (adminBody (auditOf f.1 f.2.1 f.2.2)) 2).toNat = f.2.1 ∧
      byteAt (adminBody (auditOf f.1 f.2.1 f.2.2)) 1 = 0 ∧ byteAt (adminBody (auditOf f.1 f.2.1 f.2.2)) 0 = f.1) ∧
    base.ada.op = .idle ∧ (5 : W32).toNat = GState.code .bad ∧
    ((withAdmin rebuilding (auditOf 1 0 1)).AdminHead .audit (fromStation (auditOf 1 0 1)) [] 0 ∧ rebuilding.ada.op ≠ .idle) ∧
    (let s := auditing (holding .held 2 5080) 3 (List.replicate 63 ⟨0, 0, .held, 0⟩)
     s.resetLow = false ∧ s.damage = [] ∧ s.ada.op = .audit ⟨.state .held, 3, List.replicate 63 ⟨0, 0, .held, 0⟩, none⟩) ∧
    ((auditing base 32768 []).ada.op = .audit ⟨.state .held, 32768, [], none⟩ ∧
      (auditing base 5 (List.replicate 64 ⟨0, 0, .held, 0⟩)).resetLow = false) := by
  have h : ∀ f ∈ [((1 : Byte), 32767, (0x4411 : W32)), (2, 0, 1023), (3, 0, 16383), (4, 0, 5)],
      adminHeadB (withAdmin base (auditOf f.1 f.2.1 f.2.2)) .audit (fromStation (auditOf f.1 f.2.1 f.2.2)) [] 0 = true ∧
      be32 (adminBody (auditOf f.1 f.2.1 f.2.2)) 4 = f.2.2 ∧ (be16 (adminBody (auditOf f.1 f.2.1 f.2.2)) 2).toNat = f.2.1 ∧
      byteAt (adminBody (auditOf f.1 f.2.1 f.2.2)) 1 = 0 ∧ byteAt (adminBody (auditOf f.1 f.2.1 f.2.2)) 0 = f.1 := by decide +kernel
  exact ⟨fun f hf => ⟨adminHead_of (h f hf).1, (h f hf).2⟩, by decide +kernel, by decide,
    ⟨adminHead_of (by decide +kernel), by decide +kernel⟩, by decide +kernel, by decide +kernel⟩

/-- A SCAN REVOKE of a target kind and value. -/
def scanOf (kind : Byte) (v : W32) : List Byte := admin 0x13 ([kind, 0, 0, 0] ++ bytes32 v)
def scanning (s : State) (t : Target) (ph : Phase) (i : Nat) : State := { s with ada.op := .scanRevoke t ph i .zero }

theorem witness_ScanRevokeRecallsTargetsAndEnds :
    (∀ f ∈ [(1, 0x4411), (2, 16383)],
      (withAdmin base (scanOf (BitVec.ofNat 8 f.1) (BitVec.ofNat 32 f.2))).AdminHead .scanRevoke (fromStation (scanOf (BitVec.ofNat 8 f.1) (BitVec.ofNat 32 f.2))) [] 0 ∧
      be32 (adminBody (scanOf (BitVec.ofNat 8 f.1) (BitVec.ofNat 32 f.2))) 4 = BitVec.ofNat 32 f.2 ∧ byteAt (adminBody (scanOf (BitVec.ofNat 8 f.1) (BitVec.ofNat 32 f.2))) 1 = 0 ∧ be16 (adminBody (scanOf (BitVec.ofNat 8 f.1) (BitVec.ofNat 32 f.2))) 2 = 0 ∧
      byteAt (adminBody (scanOf (BitVec.ofNat 8 f.1) (BitVec.ofNat 32 f.2))) 0 = BitVec.ofNat 8 f.1) ∧
    ((withAdmin rebuilding (scanOf 1 1)).AdminHead .scanRevoke (fromStation (scanOf 1 1)) [] 0 ∧ base.ada.op = .idle) ∧
    (∀ st ∈ [GState.held, .stale, .linger, .recalled],
      (scanning (holding st 2 5080) (.client 0x4411) .grants 3).resetLow = false ∧
      (scanning (holding st 2 5080) (.client 0x4411) .grants 3).damage = [] ∧ ((holding st 2 5080).slot 3).owner = 0x4411 ∧
      ((holding st 2 5080).slot 3).feature = 5 ∧ ((holding st 2 5080).slot 3).state = st) ∧
    (let s := scanning (holding .held 2 5080) (.feature 5) .grants 3
     s.RecallStands 3 { s.recallHeld 3 .revoked with ada.op := .scanRevoke (.feature 5) .grants 3 ⟨1, 0, 0⟩ }) ∧
    (let s := scanning (holding .linger 2 5080) (.feature 5) .grants 3
     State.ReleaseStands { s.releaseSlot 3 with ada.op := .scanRevoke (.feature 5) .grants 3 ⟨0, 1, 0⟩ } (s.releasedOf 3)) ∧
    (let s := scanning waiting (.client 0x4430) .waiters 4095
     s.resetLow = false ∧ s.damage = [] ∧ (s.waiter 4095).inUse = true ∧ (s.waiter 4095).client = 0x4430) ∧
    ((scanning base (.client 1) .waiters 4096).resetLow = false ∧
      (scanning base (.client 1) .waiters 4096).ada.op = .scanRevoke (.client 1) .waiters 4096 .zero) := by
  have h : ∀ f ∈ [(1, 0x4411), (2, 16383)],
      adminHeadB (withAdmin base (scanOf (BitVec.ofNat 8 f.1) (BitVec.ofNat 32 f.2))) .scanRevoke (fromStation (scanOf (BitVec.ofNat 8 f.1) (BitVec.ofNat 32 f.2))) [] 0 = true ∧
      be32 (adminBody (scanOf (BitVec.ofNat 8 f.1) (BitVec.ofNat 32 f.2))) 4 = BitVec.ofNat 32 f.2 ∧ byteAt (adminBody (scanOf (BitVec.ofNat 8 f.1) (BitVec.ofNat 32 f.2))) 1 = 0 ∧ be16 (adminBody (scanOf (BitVec.ofNat 8 f.1) (BitVec.ofNat 32 f.2))) 2 = 0 ∧
      byteAt (adminBody (scanOf (BitVec.ofNat 8 f.1) (BitVec.ofNat 32 f.2))) 0 = BitVec.ofNat 8 f.1 := by decide +kernel
  have hm : (scanning (holding .held 2 5080) (.feature 5) .grants 3).mappedPool
      ((scanning (holding .held 2 5080) (.feature 5) .grants 3).slot 3).feature = some 12 := by decide +kernel
  exact ⟨fun f hf => ⟨adminHead_of (h f hf).1, (h f hf).2⟩, ⟨adminHead_of (by decide +kernel), by decide +kernel⟩, by decide +kernel,
    fun _ q hq => Or.inl (by rw [hm] at hq; exact (Option.some.inj hq).symm), release_stands (by decide +kernel) (by decide +kernel),
    by decide +kernel, by decide +kernel⟩

/-- A COUNT REBUILD at a slot. -/
def rebuildAt (s : State) (i : Nat) : State := { s with ada.op := .rebuild ⟨i, [], [], [], [], 0, 0, 0⟩ }

theorem empty_stands {s : State} (h : s.adm.pools = []) (h2 : s.activeBank.pools = []) (p : Nat) : s.PressureStands p false := by
  have h3 : s.poolEntry p = none := by simp [State.poolEntry, h2, Tab.get, PoolEntry.undefined]
  exact stands_normal ⟨by simp [State.poolLive, h, Tab.get, PoolLive.zero], by simp [State.lowMark, h3]⟩

theorem witness_CountRebuildVisitsAndInstalls :
    ((∀ sv ∈ [Service.faulted, .on], State.AdminHead { withAdmin base (admin 0x14 []) with ada.service := sv } .countRebuild
        (fromStation (admin 0x14 [])) [] 0) ∧
      (withAdmin rebuilding (admin 0x14 [])).AdminHead .countRebuild (fromStation (admin 0x14 [])) [] 0) ∧
    (∀ st ∈ [GState.held, .stale, .linger, .recalled],
      (rebuildAt (holding st 2 5080) 3).resetLow = false ∧ (rebuildAt (holding st 2 5080) 3).damage = [] ∧
      ((holding st 2 5080).slot 3).state.live = true ∧ ((holding st 2 5080).client 0).inUse = true ∧
      ((holding st 2 5080).client 0).id = ((holding st 2 5080).slot 3).owner) ∧
    ((rebuildAt (holding .bad 2 0) 3).slot 3).state = .bad ∧ ((rebuildAt base 32767).slot 32767).state = .free ∧
    (let s : State := { rebuildAt (holding .held 2 5080) 3 with clt.clients := [] }
     (s.client (s.slot 3).ownerIdx).inUse = false ∧
       State.ReleaseStands { s.releaseFrom false 3 with ada.op := .rebuild ⟨4, [], [], [], [], 0, 0, 0⟩ } (s.releasedOf 3)) ∧
    (let s := rebuildAt State.reset 32768
     s.resetLow = false ∧ s.damage = [] ∧ s.Canonical ∧ s.clt.idle.Nodup ∧
       ∀ p, p < 1024 → (s.rebuildDone ⟨32768, [], [], [], [], 0, 0, 0⟩).PressureStands p false) := by
  have h : ∀ sv ∈ [Service.faulted, .on], adminHeadB { withAdmin base (admin 0x14 []) with ada.service := sv } .countRebuild
        (fromStation (admin 0x14 [])) [] 0 = true := by decide +kernel
  exact ⟨⟨fun sv hsv => adminHead_of (h sv hsv), adminHead_of (by decide +kernel)⟩, by decide +kernel, by decide +kernel,
    by decide +kernel, ⟨by decide +kernel, release_stands (by decide +kernel) (by decide +kernel)⟩, by decide +kernel, by decide +kernel,
    canonical_of (by decide +kernel), by decide +kernel, fun p _ => empty_stands (by decide +kernel) (by decide +kernel) p⟩

theorem witness_ServiceResetTakesSlotAndClears :
    (∀ op ∈ [LongOp.idle, .reset, .copy .feature 0],
      State.AdminHead { withAdmin base (admin 0x15 []) with ada.op := op } .serviceReset (fromStation (admin 0x15 [])) [] 0) ∧
    (∀ sv ∈ [Service.on, .drain, .off, .faulted],
      ({ holding .held 2 5080 with ada.op := .reset, ada.service := sv }).resetLow = false ∧
      ({ holding .held 2 5080 with ada.op := .reset, ada.service := sv }).ada.op = .reset ∧
      ({ holding .held 2 5080 with ada.op := .reset, ada.service := sv }).fnu.notices.length < 32) := by
  have h : ∀ op ∈ [LongOp.idle, .reset, .copy .feature 0],
      adminHeadB { withAdmin base (admin 0x15 []) with ada.op := op } .serviceReset (fromStation (admin 0x15 [])) [] 0 = true := by
    decide +kernel
  exact ⟨fun op hop => adminHead_of (h op hop), by decide +kernel⟩

/-- One damaged word. -/
def struck (w : MemWord) (d : Damage) : State := { holding .held 2 5080 with damage := [⟨w, d⟩] }

theorem witness_CheckedReadsFollowTheirMemory :
    base.damageAt .idleStore = none ∧ (struck (.grantRec 3) .correctable).damageAt (.grantRec 3) = some .correctable ∧
    (struck (.grantRec 3) .uncorrectable).damageAt (.grantRec 3) = some .uncorrectable ∧
    (struck (.bankEntry .b0 .pool 12) .uncorrectable).damageAt (.bankEntry .b0 .pool 12) = some .uncorrectable ∧
    (∀ w ∈ [MemWord.waiterRec 0, .queueStore 12, .clientEnt 0, .idleStore, .grantLink 3, .poolLive 12, .featLive 5],
      (struck w .uncorrectable).damageAt w = some .uncorrectable ∧ (struck w .uncorrectable).ada.service = .on) ∧
    (∀ sv ∈ [Service.drain, .off], ({ struck .idleStore .uncorrectable with ada.service := sv }).ada.service = sv) := by decide +kernel

/-! ### Witnesses: invariants -/

/-- `s` with a command waiting. -/
def withTick (s : State) : State := { s with pending := [.mtAdvance] }

theorem tick_steps (s : State) : ∃ t, step (withTick s) = .next t := ⟨_, rfl⟩

theorem witness_QueuesStayBounded :
    (withTick (noticesOf 32)).QueuesBounded ∧ ∃ t, step (withTick (noticesOf 32)) = .next t :=
  ⟨⟨by decide +kernel, by decide +kernel, by decide +kernel, by decide +kernel, by decide +kernel, by decide +kernel, by decide +kernel⟩,
    tick_steps _⟩

theorem witness_StoresStayCanonical :
    (withTick waiting).Canonical ∧ ∃ t, step (withTick waiting) = .next t := ⟨canonical_of (by decide +kernel), tick_steps _⟩

theorem witness_WaitStoreStaysSound : (withTick waiting).WaitStoreSound ∧ ∃ t, step (withTick waiting) = .next t :=
  ⟨⟨sound_of_wts (s := waiting) rfl waiting_sound, by decide +kernel, fun h => absurd (by decide +kernel) h⟩, tick_steps _⟩

theorem witness_BankEntriesStayInRange : (withTick base).BanksInRange ∧ ∃ t, step (withTick base) = .next t :=
  ⟨⟨base_inRange.1, base_inRange.2⟩, tick_steps _⟩

theorem reset_silent : State.reset.StartupSilent :=
  fun _ => ⟨rfl, rfl, rfl, rfl, rfl, rfl, rfl, fun id => (by cases id <;> rfl), rfl⟩

theorem witness_StartupStaysSilent :
    (withTick State.reset).StartupSilent ∧ (withTick State.reset).ada.service.serving = false ∧ ∃ t, step (withTick State.reset) = .next t :=
  ⟨fun h => ⟨rfl, rfl, rfl, rfl, rfl, rfl, rfl, fun id => (by cases id <;> rfl), rfl⟩, rfl, tick_steps _⟩

theorem witness_ServiceStateMovesByItsCommands :
    State.reset.StartupSilent ∧ (Instr.bootReadCompletion none).isPowerOn = false ∧
      (after (.bootReadCompletion none) State.reset).ada.service = .passOnly ∧ State.reset.ada.service ≠ .passOnly ∧
      ∃ t, exec (.bootReadCompletion none) State.reset = .next t :=
  ⟨reset_silent, rfl, by decide +kernel, by decide, _, rfl⟩

/-- The served device with its tables cleared, then client 0x4430 at entry 0 with a grant in slot 0. -/
def cleared : State := { base with grt := .clear }
def grantNew : NewGrant :=
  { owner := 0x4430, ownerIdx := 0, tag := 1, feature := 5, epoch := 0, pool := 12, cls := .general, units := 2, cost := 4, renew := 60 }
def granted : State := (cleared.newClient 0 0x4430).createGrant 0 grantNew

theorem granted_sound : TablesSound granted := by
  have h1 : TablesSound cleared := clear_tables rfl rfl rfl rfl rfl
  have h2 : TablesSound (cleared.newClient 0 0x4430) := newClient_tables h1 (by decide +kernel) rfl rfl
  exact h2.create (l := List.range' 1 32767) rfl rfl rfl rfl rfl

theorem witness_GrantsKeepTokenBalance_step :
    (withTick granted).GrantsSound ∧ (withTick granted).WaitStoreSound ∧ (withTick granted).StartupSilent ∧
      (withTick granted).ClientsSound ∧ ((withTick granted).slot 0).state = .held ∧ ((withTick granted).client 0).chain = [0] ∧
      ∃ t, step (withTick granted) = .next t := by
  have h : TablesSound (withTick granted) :=
    granted_sound.frame (TablesSame.of (s := granted) (t := withTick granted) rfl rfl rfl rfl rfl rfl).frame
  exact ⟨h.grants, h.wait, fun hs => absurd hs (by decide +kernel), h.clients, by decide +kernel, by decide +kernel, tick_steps _⟩

/-! ### Witnesses: the checks that move a pool -/

/-- The linger list of a pool holds lingering grants of that pool alone. -/
def lingerOwnB (s : State) (p : Nat) : Bool :=
  decide (s.lingerList p).Nodup &&
    (s.lingerList p).all (fun i =>
      decide ((s.slot i).state = .linger) && decide ((s.slot i).pool = p) && decide (s.mappedPool (s.slot i).feature = some p))

theorem settles_of {s : State} {p : Nat} (h : lingerOwnB s p = true) : s.PressureSettles p := by
  simp only [lingerOwnB, Bool.and_eq_true, decide_eq_true_eq, List.all_eq_true] at h
  intro _
  refine ⟨h.1, fun i hi => ⟨(h.2 i hi).1.1, (h.2 i hi).1.2, fun q hq => ?_⟩⟩
  rw [(h.2 i hi).2] at hq
  exact (Option.some.inj hq).symm

/-- A release of a feature that maps to its recorded pool. -/
theorem release_settles {t : State} {r : Released} (h : lingerOwnB t r.pool = true ∧ t.mappedPool r.feature = some r.pool) :
    t.ReleaseSettles r :=
  ⟨settles_of h.1, fun q _ hq hne => absurd (by rw [h.2] at hq; exact (Option.some.inj hq).symm) hne⟩

/-- The grant of slot 3 in a pool CONSTRAINED since MT 4,880. -/
def tight (st : GState) : State := { holding st 2 5000 with adm.pools := [(12, ⟨0, 4, 0, .constrained, 4880⟩)] }

/-- The grant of slot 3 charged to pool 13, its feature mapping to pool 12, where F is 10. -/
def elsewhere : State :=
  { holding .held 2 5080 with
    grt.slots := [(3, { grantOf .held 0x4411 0 0x0107 2 5080 with pool := 13 })]
    adm.pools := [(12, ⟨0, 390, 0, .normal, 0⟩), (13, ⟨0, 4, 0, .normal, 0⟩)] }

theorem witness_SetWithholdWritesW_enters :
    (let p := withholdOf 12 15
     let s := withAdmin lingering54 p
     let t := (s.adminTaken (fromStation p) [] 0).setPoolLive 12 { s.poolLive 12 with w := 15 }
     s.AdminHead .setWithhold (fromStation p) [] 0 ∧ t.PressureEnters 12 ∧ t.PressureSettles 12) ∧
    (let p := withholdOf 12 15
     let s := withAdmin { lingering54 with grt.linger := [] } p
     let t := (s.adminTaken (fromStation p) [] 0).setPoolLive 12 { s.poolLive 12 with w := 15 }
     s.AdminHead .setWithhold (fromStation p) [] 0 ∧ t.PressureEnters 12 ∧ t.lingerList 12 = [] ∧ s.ada.op.isRebuild = false ∧
       ∀ r ∈ s.adm.runs, r.pool ≠ 12) :=
  ⟨⟨adminHead_of (by decide +kernel), by decide +kernel, settles_of (by decide +kernel)⟩,
    adminHead_of (by decide +kernel), by decide +kernel⟩

theorem witness_RevokeHandleRecalls_settles :
    (let s := withAdmin elsewhere revoke3
     let t := (s.adminTaken (fromStation revoke3) [] 0).recallHeld 3 .revoked
     s.AdminHead .revokeHandle (fromStation revoke3) [] 0 ∧ t.PressureEnters 12 ∧ s.RecallSettles 3 t) ∧
    (let s := withAdmin (tight .linger) revoke3
     let t := (s.adminTaken (fromStation revoke3) [] 0).releaseSlot 3
     s.AdminHead .revokeHandle (fromStation revoke3) [] 0 ∧ t.PressureLeaves 12 ∧ t.ReleaseSettles (s.releasedOf 3)) := by
  have hm : (withAdmin elsewhere revoke3).mappedPool ((withAdmin elsewhere revoke3).slot 3).feature = some 12 := by decide +kernel
  refine ⟨⟨adminHead_of (by decide +kernel), by decide +kernel, fun _ q hq => Or.inr ?_⟩, adminHead_of (by decide +kernel),
    by decide +kernel, release_settles (by decide +kernel)⟩
  rw [hm] at hq
  rw [← Option.some.inj hq]
  exact settles_of (by decide +kernel)

theorem witness_RepeatedClaimIsSettledAtItsRecord_settles :
    let s := withClient (tight .recalled) repeatB
    s.ClaimHead (fromClient repeatB) [] (ctxOf repeatB) 0 ∧ (s.slot 3).state = .recalled ∧ (s.slot 3).reason = some .revoked ∧
      (endedOf s repeatB .revoked).PressureLeaves 12 ∧
      (endedOf s repeatB .revoked).ReleaseSettles ((s.claimStart [] (ctxOf repeatB) 0).releasedOf 3) :=
  ⟨claimHead_of (by decide +kernel), by decide +kernel, by decide +kernel, by decide +kernel, release_settles (by decide +kernel)⟩

/-- Step 5: the linger grant carries the claim's own tag. -/
theorem witness_MatchingClaimReusesLingeringGrant_tag :
    let s := withClient (holding .linger 2 5080) repeatA
    s.ClaimHead (fromClient repeatA) [] (ctxOf repeatA) 0 ∧
    (s.claimStart [] (ctxOf repeatA) 0).findWaiter 0 (readClaim repeatA).tag = none ∧
    ((s.claimStart [] (ctxOf repeatA) 0).client 0).chain.find? (fun j => (s.slot j).tag == (readClaim repeatA).tag) = some 3 ∧
    (ctxOf repeatA).reuses s (s.slot 3) = true :=
  ⟨claimHead_of (by decide +kernel), by decide +kernel⟩

/-- A claim of 40 tokens of the 50 that are left. -/
def claim40 : List Byte := claimOf 0x4411 0x0108 code107 0 20 0 0
def near12 : State := base.setPoolLive 12 ⟨0, 350, 0, .normal, 0⟩

theorem witness_FittingClaimIsGranted_enters :
    admitsB near12 claim40 feature5 pool12 .powerOn 0 = true ∧
    (let s := claimState near12 feature5 pool12 .powerOn claim40
     let t := (((s.claimStart [] (ctxOf claim40) 0).createGrant 9
          { owner := 0x4411, ownerIdx := 0, tag := 0x0108, feature := 5, epoch := 0, pool := 12, cls := .general, units := 20, cost := 40,
            renew := 300 }).replyTo (fromClient claim40) (.grant (handleOf 9 0) 40 20 .general 300 code107)).countGranted
     costOf 20 32 ≤ s.availability 12 .general ∧ t.PressureEnters 12 ∧ t.PressureSettles 12) :=
  ⟨by decide +kernel, by decide +kernel, by decide +kernel, settles_of (by decide +kernel)⟩

theorem witness_RenewAndYield_settle :
    (let s := renewing (tight .recalled) (handleOf 3 1) 0x4411
     (endedRenewal s).PressureLeaves 12 ∧ (endedRenewal s).ReleaseSettles (s.releasedOf 3)) ∧
    (let c := ((withClient (tight .recalled) yield3).clientTaken []).contacted (fromClient yield3)
     let t := (c.releaseSlot 3).replyTo (fromClient yield3) (.yieldReport (handleOf 3 1) .ended)
     t.PressureLeaves 12 ∧ t.ReleaseSettles (c.releasedOf 3)) ∧
    (let u := yielding (tight .held)
     let t := (u.releaseSlot 3).replyTo (fromClient yield3) (.yieldReport (handleOf 3 1) .released)
     ¬ u.LingerHolds 3 ∧ t.PressureLeaves 12 ∧ t.ReleaseSettles (u.releasedOf 3)) :=
  ⟨⟨by decide +kernel, release_settles (by decide +kernel)⟩, ⟨by decide +kernel, release_settles (by decide +kernel)⟩,
    fun h => absurd h.normal (by decide +kernel), by decide +kernel, release_settles (by decide +kernel)⟩

theorem witness_PassesMovePressure :
    (let s := atSlot3 (tight .stale)
     let t := State.countReclaimed (State.queueNotice (.grantReclaimed (handleOf 3 1) 0x4411 12 5) (s.releaseSlot 3))
     t.PressureLeaves 12 ∧ t.ReleaseSettles (s.releasedOf 3)) ∧
    (∀ st ∈ [GState.linger, .recalled], ((atSlot3 (tight st)).releaseSlot 3).PressureLeaves 12 ∧
      ((atSlot3 (tight st)).releaseSlot 3).ReleaseSettles ((atSlot3 (tight st)).releasedOf 3)) ∧
    (let s : State := { constrained12 340 with swp.poolPass := ⟨12, [5000]⟩ }
     s.resetLow = false ∧ s.damage = [] ∧ s.PressureLeaves 12) ∧
    (let s : State := { below54 with swp.poolPass := ⟨12, [5000]⟩ }
     s.PressureEnters 12 ∧ s.PressureSettles 12) := by
  have h : ∀ st ∈ [GState.linger, .recalled], ((atSlot3 (tight st)).releaseSlot 3).PressureLeaves 12 ∧
      lingerOwnB ((atSlot3 (tight st)).releaseSlot 3) ((atSlot3 (tight st)).releasedOf 3).pool = true ∧
      ((atSlot3 (tight st)).releaseSlot 3).mappedPool ((atSlot3 (tight st)).releasedOf 3).feature =
        some ((atSlot3 (tight st)).releasedOf 3).pool := by decide +kernel
  exact ⟨⟨by decide +kernel, release_settles (by decide +kernel)⟩,
    fun st hst => ⟨(h st hst).1, release_settles (h st hst).2⟩, by decide +kernel, by decide +kernel, settles_of (by decide +kernel)⟩

theorem witness_PressureEntersAndLeaves_runs :
    (below54.resetLow = false ∧ below54.damage = [] ∧ below54.PressureEnters 12 ∧ below54.PressureSettles 12 ∧
      below54.lingerList 12 = [615, 700] ∧ below54.ada.op.isRebuild = false ∧ ∀ r ∈ below54.adm.runs, r.pool ≠ 12) ∧
    (let s : State := { below54 with ada.op := .rebuild .start }
     s.PressureEnters 12 ∧ s.PressureSettles 12 ∧ s.ada.op.isRebuild = true) ∧
    (let s := inRun below54
     s.PressureEnters 12 ∧ s.PressureSettles 12 ∧ s.ada.op.isRebuild = false ∧ ∃ r ∈ s.adm.runs, r.pool = 12) ∧
    (let s : State := { below54 with adm.runs := [⟨3, [], .priority⟩, ⟨12, [4990, 5000], .priority⟩] }
     s.adm.runs = [⟨3, [], .priority⟩] ++ ⟨12, [4990, 5000], .priority⟩ :: [] ∧ ∀ r ∈ [Run.mk 3 [] .priority], r.pool ≠ 12) :=
  ⟨⟨by decide +kernel, by decide +kernel, by decide +kernel, settles_of (by decide +kernel), by decide +kernel⟩,
    ⟨by decide +kernel, settles_of (by decide +kernel), by decide +kernel⟩,
    ⟨by decide +kernel, settles_of (by decide +kernel), by decide +kernel⟩, by decide +kernel⟩

/-! ### Witnesses: other clauses -/

theorem witness_ArrivingFrameGoesByItsClass_full :
    let s : State := { base with exu.intake := List.replicate 64 (fromClient []) }
    ¬ s.exu.intake.length < 64 ∧ s.lnk.portS.up = true ∧ s.lnk.portS.forward.length < 2048 ∧
      ({ s with lnk.portS.up := false }).lnk.portS.up ≠ true := by decide +kernel

theorem witness_StatusAndEntryReadsReport_refused :
    (let p := admin 2 [2, 1, 0, 0, 1, 0, 0, 0]
     (withAdmin base p).AdminHead .readEntry (fromStation p) [] 0 ∧ 1 < (byteAt (adminBody p) 0).toNat ∧
       TableKind.ofCode (byteAt (adminBody p) 1).toNat = some .feature ∧ byteAt (adminBody p) 4 = 1) ∧
    (let p := admin 2 [0, 5, 0, 0, 1, 1, 0, 1]
     (withAdmin base p).AdminHead .readEntry (fromStation p) [] 0 ∧ TableKind.ofCode (byteAt (adminBody p) 1).toNat = none ∧
       byteAt (adminBody p) 5 ≠ 0 ∧ be16 (adminBody p) 6 ≠ 0) :=
  ⟨⟨adminHead_of (by decide +kernel), by decide +kernel⟩, adminHead_of (by decide +kernel), by decide +kernel⟩

theorem witness_WithdrawRemovesNamedWaiter_full :
    let s : State := { waiting with lnk.portF.originate := List.replicate 256 ⟨⟨[], 0⟩, none⟩ }
    256 ≤ s.lnk.portF.originate.length ∧ 0 < (s.client (s.waiter 4095).clientIdx).waiters ∧
      waiting.lnk.portF.originate.length < 256 := by decide +kernel

theorem witness_ReleaseAndRecallMoveCounts_underflow :
    (let s : State := { holding .held 2 5080 with adm.pools := [], adm.features := [] }
     (s.slot 3).state = .held ∧ (s.poolLive 12).used .general < (s.slot 3).cost ∧ s.unitsCounted (s.slot 3) = true ∧
       (s.featLive 5).hf < (s.slot 3).units ∧ s.fnu.hard.locked = false) ∧
    (let s : State := { holding .held 2 5080 with clt.clients := [(0, { clientOf 0x4411 [3] 0 with grants := 0 })] }
     (s.slot 3).state.live = true ∧ 3 ∈ (s.client 0).chain ∧ (s.client 0).grants = 0 ∧
       (s.slot 3).cost ≤ (s.poolLive 12).used .general ∧ (s.slot 3).units ≤ (s.featLive 5).hf) ∧
    (∀ n ∈ [3, 4], (rebuildAt (holding .held 2 5080) n).ada.op = .rebuild ⟨n, [], [], [], [], 0, 0, 0⟩ ∧
      ((rebuildAt (holding .held 2 5080) n).slot 3).state.live = true ∧
      (rebuildAt (holding .held 2 5080) n).unitsCounted ((rebuildAt (holding .held 2 5080) n).slot 3) = true) := by decide +kernel

/-- A WRITE ENTRY of two feature entries with one code each. -/
def writeTwo (c1 c2 : W32) : List Byte :=
  admin 8 ([1, 2, 0, 0] ++ (nat16 7 ++ [0, 0] ++ (({ feature5 with code := c1 } : FeatureEntry).words.map bytes32).flatten)
    ++ (nat16 8 ++ [0, 0] ++ (({ feature5 with code := c2 } : FeatureEntry).words.map bytes32).flatten))

theorem test_write_two_entries :
    let t := after (.writeEntry []) (withAdmin base (writeTwo 1 2))
    t.standbyBank.entry .feature 7 = .feature { feature5 with code := 1 } ∧ t.standbyBank.lookup 2 = some 8 ∧
      (after (.writeEntry []) (withAdmin base (writeTwo 1 1))).standbyBank = base.standbyBank := by decide +kernel

theorem witness_WriteEntryReplacesStandbyEntry_many :
    ((withAdmin base (writeTwo 1 2)).AdminHead .writeEntry (fromStation (writeTwo 1 2)) [] 0 ∧
      (withAdmin base (writeTwo 1 1)).AdminHead .writeEntry (fromStation (writeTwo 1 1)) [] 0 ∧
      TableKind.ofCode (byteAt (adminBody (writeTwo 1 2)) 0).toNat = some .feature ∧
      (byteAt (adminBody (writeTwo 1 2)) 1).toNat = 2 ∧ be16 (adminBody (writeTwo 1 2)) 2 = 0) ∧
    (let e (c : W32) : FeatureEntry := { feature5 with code := c }
     let cs := carriedEntries 6 2 ((adminBody (writeTwo 1 2)).drop 4)
     cs = [⟨7, 0, (e 1).words⟩, ⟨8, 0, (e 2).words⟩] ∧
       CarriedPass .feature base.standbyBank [] cs [(7, .feature (e 1)), (8, .feature (e 2))]) ∧
    (let e : FeatureEntry := { feature5 with code := 1 }
     let cs := carriedEntries 6 2 ((adminBody (writeTwo 1 1)).drop 4)
     cs = [⟨7, 0, e.words⟩] ++ ⟨8, 0, e.words⟩ :: [] ∧
       CarriedPass .feature base.standbyBank [] [⟨7, 0, e.words⟩] [(7, .feature e)] ∧
       Carried.Fails .feature base.standbyBank [(7, .feature e)] ⟨8, 0, e.words⟩ .duplicateCode) := by
  have n1 : base.standbyBank.lookup 1 = none := by decide +kernel
  have n2 : (base.standbyBank.writeAll .feature [(7, .feature { feature5 with code := 1 })]).lookup 2 = none := by decide +kernel
  refine ⟨⟨adminHead_of (by decide +kernel), adminHead_of (by decide +kernel), by decide +kernel⟩, ⟨by decide +kernel, ?_⟩, by decide +kernel, ?_, ?_⟩
  · refine ⟨.feature { feature5 with code := 1 }, ⟨by decide, rfl, by decide +kernel, fun j hj => ?_, by decide +kernel⟩,
      .feature { feature5 with code := 2 }, ⟨by decide, rfl, by decide +kernel, fun j hj => ?_, by decide +kernel⟩, rfl⟩
    · exact absurd (n1.symm.trans hj) (by simp)
    · exact absurd (n2.symm.trans hj) (by simp)
  · exact ⟨.feature { feature5 with code := 1 },
      ⟨by decide, rfl, by decide +kernel, fun j hj => absurd (n1.symm.trans hj) (by simp), by decide +kernel⟩, rfl⟩
  · exact Or.inr (Or.inr ⟨by decide, rfl, .feature { feature5 with code := 1 }, by decide +kernel,
      Or.inl ⟨⟨7, by decide +kernel, by decide⟩, rfl⟩⟩)

theorem witness_ScanRevokeRecallsTargetsAndEnds_refused :
    ((withAdmin base (scanOf 3 1)).AdminHead .scanRevoke (fromStation (scanOf 3 1)) [] 0 ∧ byteAt (adminBody (scanOf 3 1)) 0 = 3) ∧
    ((withAdmin base (scanOf 1 0)).AdminHead .scanRevoke (fromStation (scanOf 1 0)) [] 0 ∧ be32 (adminBody (scanOf 1 0)) 4 = 0 ∧
      byteAt (adminBody (scanOf 1 0)) 0 = 1) ∧
    ((withAdmin base (scanOf 2 16384)).AdminHead .scanRevoke (fromStation (scanOf 2 16384)) [] 0 ∧
      16384 ≤ (be32 (adminBody (scanOf 2 16384)) 4).toNat ∧ byteAt (adminBody (scanOf 2 16384)) 0 = 2 ∧
      byteAt (adminBody (scanOf 2 16384)) 1 = 0 ∧ be16 (adminBody (scanOf 2 16384)) 2 = 0) :=
  ⟨⟨adminHead_of (by decide +kernel), by decide +kernel⟩, ⟨adminHead_of (by decide +kernel), by decide +kernel⟩,
    adminHead_of (by decide +kernel), by decide +kernel⟩

/-- The sums of one grant of 4 tokens and 2 units. -/
def scanned : Rebuild := ⟨32768, [], [(12, 4)], [(5, 2)], [(0, ⟨1, [3]⟩)], 1, 0, 0⟩

theorem witness_CountRebuildVisitsAndInstalls_figures :
    let s : State := { holding .held 2 5080 with ada.op := .rebuild scanned }
    let t := s.rebuildDone scanned
    s.Canonical ∧ s.ada.op = .rebuild scanned ∧ (∀ p, 1024 ≤ p → t.poolLive p = s.poolLive p) ∧
      (∀ i, 16384 ≤ i → t.featLive i = s.featLive i) ∧ ∀ i, 8192 ≤ i → (s.client i).inUse = false := by
  refine ⟨canonical_of (by decide +kernel), rfl, fun p hp => ?_, fun i hi => ?_, fun i hi => ?_⟩
  · rfl
  · rfl
  · simp only [State.client, holding, Tab.get]
    rw [if_neg (by omega)]; rfl

theorem witness_ServiceResetTakesSlotAndClears_queues :
    (({ base with ada.op := .reset }).port (({ base with ada.op := .reset }).station base.ada.issuer.station).port).originate.length < 256 ∧
    (let s : State := { base with ada.op := .reset, lnk.portS.originate := List.replicate 256 ⟨⟨[], 0⟩, none⟩ }
     256 ≤ (s.port (s.station s.ada.issuer.station).port).originate.length) := by decide +kernel

theorem witness_CheckedReadsFollowTheirMemory_lost :
    (let s := struck (.grantRec 3) .uncorrectable
     3 ∈ (s.client 0).chain ∧ s.damageAt (.clientEnt 0) = none ∧ s.damageAt .idleStore = none) ∧
    (let s : State := { holding .held 2 5080 with damage := [⟨.grantRec 3, .uncorrectable⟩, ⟨.clientEnt 0, .uncorrectable⟩] }
     s.damageAt (.grantRec 3) = some .uncorrectable ∧ s.damageAt (.clientEnt 0) = some .uncorrectable ∧ s.ada.service = .on) ∧
    (let s := rebuildAt (struck (.grantRec 3) .uncorrectable) 4
     s.ada.op = .rebuild ⟨4, [], [], [], [], 0, 0, 0⟩ ∧ (s.slot 3).state.live = true) ∧
    (∀ dm ∈ [Damage.uncorrectable, .indexLost],
      (struck (.codeDir .b0 code107) dm).damageAt (.codeDir .b0 code107) = some dm ∧
      ((struck (.codeDir .b0 code107) dm).bank .b0).lookup code107 = some 5) ∧
    ((struck (.codeDir .b0 1) .uncorrectable).bank .b0).lookup 1 = none ∧
    (let s : State := { struck (.poolLive 12) .uncorrectable with ada.service := .faulted }
     s.ada.service = .faulted ∧ s.damageAt (.poolLive 12) = some .uncorrectable) := by decide +kernel

theorem witness_ServiceStateMovesByItsCommands_faulted :
    let s : State := { base with swp.waiterPass := ⟨0, [5000]⟩ }
    let c := Instr.waiterPassVisit [⟨.waiterRec 0, .uncorrectable⟩]
    (after c s).ada.service = .faulted ∧ s.ada.service = .on ∧ (s.strike c.hits).damageAt (.waiterRec 0) = some .uncorrectable ∧
      s.ada.service.serving = true := by decide +kernel

end Sys2Proof.Tests
end

/-!
PROOFS. Token arithmetic: the free measure (R7), its bound by the capacity of an entry in range and by the availabilities, and the
comparison a pressure check makes of it.
-/
namespace Sys2Proof.Machine

/-! ### The figures of a pool, with its entry (R5 to R7) -/

/-- A pool entry is read when it is undamaged and defined (R122). -/
theorem State.poolEntry_eq_some {s : State} {p : Nat} {e : PoolEntry} :
    s.poolEntry p = some e ↔
      s.activeBank.damaged .pool p = false ∧ e.defined = true ∧ s.activeBank.entry .pool p = .pool e := by
  simp only [State.poolEntry, Bank.damaged, Bank.entry, Option.ite_none_left_eq_some, Entry.pool.injEq, Option.some.injEq]
  constructor
  · rintro ⟨h, rfl⟩; simpa using h
  · rintro ⟨h, hd, rfl⟩; simp [h, hd]

theorem State.activeBank_entriesStored {s : State} (h : s.BanksInRange) : s.activeBank.EntriesStored := by
  unfold State.activeBank
  cases s.tbs.active
  · exact h.bank0
  · exact h.bank1

/-- With both banks in range, so is a pool entry that is read: an undefined one is not (R108, R122). -/
theorem State.poolEntry_inRange {s : State} (h : s.BanksInRange) {p : Nat} {e : PoolEntry} (he : s.poolEntry p = some e) :
    e.inRange = true := by
  obtain ⟨hundamaged, hdefined, hentry⟩ := State.poolEntry_eq_some.1 he
  have hstored : (Entry.pool e).Stored := hentry ▸ s.activeBank_entriesStored h .pool p hundamaged
  rcases hstored with rfl | ⟨-, hrange⟩
  · cases hdefined
  · exact hrange

/-- Ce is within the token range (R5). -/
theorem State.ce_le_maxTokens {s : State} (h : s.BanksInRange) (p : Nat) : s.ce p ≤ Config.maxTokens := by
  cases he : s.poolEntry p with
  | none => simp only [State.ce, he, Nat.zero_le]
  | some e =>
    have hcap : e.capacity ≤ Config.maxTokens := (of_decide_eq_true (s.poolEntry_inRange h he)).2.1
    simp only [State.ce, he]
    exact (Nat.sub_le _ _).trans hcap

theorem State.freeMeasure_le_ce (s : State) (p : Nat) : s.freeMeasure p ≤ s.ce p :=
  (Nat.sub_le _ _).trans (Nat.sub_le _ _)

/-- What an availability subtracts for the other class is at least that class's use, which is all F subtracts (R6, R7). -/
theorem State.availability_le_freeMeasure (s : State) (p : Nat) (c : Cls) : s.availability p c ≤ s.freeMeasure p := by
  cases he : s.poolEntry p with
  | none => simp only [State.availability, he, Nat.zero_le]
  | some e =>
    cases c with
    | priority =>
      simp only [State.availability, he, State.freeMeasure]
      exact Nat.sub_le_sub_left (le_max_left _ _) _
    | general =>
      simp only [State.availability, he, State.freeMeasure]
      rw [Nat.sub_right_comm (s.ce p)]
      exact Nat.sub_le_sub_right (Nat.sub_le_sub_left (le_max_left _ _) _) _

/-! ### The pressure state after a check (R81 to R83) -/

@[simp] theorem State.entryService_poolLive (s : State) (p q : Nat) : (s.entryService p).poolLive q = s.poolLive q := by
  refine State.poolLive_congr ?_ q
  unfold State.entryService
  split
  · simp
  · simp

@[simp] theorem State.pressureNotice_poolLive (s : State) (p q : Nat) (st : Pressure) (t : W32) :
    (s.pressureNotice p st t).poolLive q = s.poolLive q :=
  State.poolLive_congr (by simp) q

@[simp] theorem State.setLinger_poolLive (s : State) (p q : Nat) (l : List Nat) : (s.setLinger p l).poolLive q = s.poolLive q :=
  State.poolLive_congr (by simp) q

theorem State.checked_pressure_of_enters {s : State} {p : Nat} {leave : Bool} (h : s.PressureEnters p) (hl : s.lingerList p = []) :
    ((s.checked p leave).poolLive p).pressure = .constrained := by
  simp [State.checked_enters h, State.lingerReleased, hl]

theorem State.checked_pressure_of_leaves {s : State} {p : Nat} (h : s.PressureLeaves p) :
    ((s.checked p true).poolLive p).pressure = .normal := by
  simp [State.checked_leaves h]

/-- From NORMAL a check compares F with LM (R7, R81). -/
theorem State.checked_constrained_iff {s : State} {p : Nat} {leave : Bool} (hf : s.ada.service ≠ .faulted)
    (hn : (s.poolLive p).pressure = .normal) (hl : s.lingerList p = []) :
    ((s.checked p leave).poolLive p).pressure = .constrained ↔ s.freeMeasure p < s.lowMark p := by
  by_cases hm : s.freeMeasure p < s.lowMark p
  · exact iff_of_true (State.checked_pressure_of_enters ⟨hf, hn, hm⟩ hl) hm
  · have hstands : s.checked p leave = s :=
      State.checked_stands (fun he => hm he.2.2) fun ⟨_, hv⟩ => absurd (hn.symm.trans hv.2.1) nofun
    rw [hstands, hn]
    exact iff_of_false nofun hm

/-- From CONSTRAINED, MR past, a check that makes the leave test compares F with HM (R7, R83). -/
theorem State.checked_normal_iff {s : State} {p : Nat} (hf : s.ada.service ≠ .faulted)
    (hc : (s.poolLive p).pressure = .constrained) (hr : s.minResidency p ≤ s.secondsSince (s.poolLive p).entryTime) :
    ((s.checked p true).poolLive p).pressure = .normal ↔ s.highMark p ≤ s.freeMeasure p := by
  by_cases hm : s.highMark p ≤ s.freeMeasure p
  · exact iff_of_true (State.checked_pressure_of_leaves ⟨hf, hc, hm, hr⟩) hm
  · have hstands : s.checked p true = s :=
      State.checked_stands (fun he => absurd (hc.symm.trans he.2.1) nofun) fun ⟨_, hv⟩ => hm hv.2.2.1
    rw [hstands, hc]
    exact iff_of_false nofun hm

/-- Settles O42: F is at most Ce, which the capacity's range bounds; its use by the pressure check is read off `State.checked`, a check
with an empty linger list or from CONSTRAINED going no further than its pool. -/
theorem freeMeasureBoundsAvailability : Obligations.FreeMeasureBoundsAvailability := by
  intro s p hbanks
  refine ⟨?_, ?_, s.availability_le_freeMeasure p, ?_, ?_⟩
  · simp only [State.freeMeasure]; omega
  · exact (s.freeMeasure_le_ce p).trans (s.ce_le_maxTokens hbanks p)
  · intro leave hquiet hf hn hl
    have hsettles : s.PressureSettles p := fun _ => by simp [hl]
    exact ⟨_, pressure_settles hquiet.sound hsettles, State.checked_constrained_iff hf hn hl⟩
  · intro hquiet hf hc hr
    have hsettles : s.PressureSettles p := fun he => absurd (hc.symm.trans he.2.1) nofun
    exact ⟨_, pressure_settles hquiet.sound hsettles, State.checked_normal_iff hf hc hr⟩

end Sys2Proof.Machine

/-!
PROOFS. The grant pass: a visit where every read finds no error (R98, R99), and the HELD grant past its deadline (R38).
-/
namespace Sys2Proof.Machine

/-! ### A visit of a pass (R98) -/

/-- With a round in progress a visit acts at the cursor, and the cursor moves on (R98). -/
theorem passVisit_of_round {id : PassId} {act : W32 → Nat → Op Unit} {s : State} {label : W32} {later : List W32}
    (hround : (s.swp.pass id).rounds = label :: later) :
    passVisit id act s = (settle (act label (s.swp.pass id).cursor) s).passOn id := by
  simp only [passVisit, hround, State.passOn]

theorem exec_grantPassVisit_of_round {s : State} {label : W32} {later : List W32} (hhigh : s.resetLow = false)
    (hround : s.swp.grantPass.rounds = label :: later) :
    exec (.grantPassVisit []) s = .next ((settle (grantVisit s.swp.grantPass.cursor) s).passOn .grant) := by
  have hvisit := passVisit_of_round (id := .grant) (act := fun _ i => grantVisit i) hround
  change execGrantPassVisit [] s = _
  rw [execGrantPassVisit, awake_high hhigh, State.strike_nil, hvisit, Swp.pass]

/-! ### The visit to a slot (R38, R99) -/

@[simp] theorem State.passed_iff {s : State} {d : W32} : s.passed d = true ↔ (d - s.swp.mt).toInt ≤ 0 := decide_eq_true_iff

/-- A grant that is not live, or whose deadline is yet to come, stands. -/
theorem grantVisit_stands {s : State} (h : s.damage = []) {i : Nat}
    (hstands : ¬ ((s.slot i).state.live = true ∧ s.passed (s.slot i).deadline = true)) : grantVisit i s = .ok () s := by
  rw [grantVisit, readSlot_bind_clean h, Op.get_bind, if_neg (by simpa using hstands), Op.pure_apply]

theorem grantVisit_held {s : State} (h : s.damage = []) {i : Nat} (hheld : (s.slot i).state = .held)
    (hpassed : s.passed (s.slot i).deadline = true) : grantVisit i s = .ok () (s.makeStale i) := by
  have hlive : ((s.slot i).state.live && s.passed (s.slot i).deadline) = true := by rw [hheld, hpassed]; rfl
  rw [grantVisit, readSlot_bind_clean h, Op.get_bind, if_pos hlive]
  simp only [hheld]
  rw [checkActive_bind_clean h, Op.modify_apply]

/-! ### The stale grant's deadline (R38, R122) -/

/-- SG is that of the pool's entry, 0 when there is none to read. -/
theorem State.makeStale_eq {s : State} {i sg : Nat}
    (hsg : (∃ pe, s.poolEntry (s.slot i).pool = some pe ∧ sg = pe.sg) ∨ (s.poolEntry (s.slot i).pool = none ∧ sg = 0)) :
    s.makeStale i =
      State.queueNotice (.grantStale (handleOf i (s.slot i).generation) (s.slot i).owner (s.slot i).pool (s.slot i).feature)
        (s.setSlot i { s.slot i with state := .stale, deadline := s.swp.mt + BitVec.ofNat 32 sg }) := by
  have hgrace : ((s.poolEntry (s.slot i).pool).map (·.sg)).getD 0 = sg := by
    rcases hsg with ⟨pe, hpe, rfl⟩ | ⟨hnone, rfl⟩
    · rw [hpe]; rfl
    · rw [hnone]; rfl
  rw [State.makeStale, hgrace, State.deadlineIn]

/-- Settles O38: the visit reads slot and pool entry without error, so it is `makeStale` on a HELD grant past its deadline and leaves
a slot that is not live or whose deadline is yet to come. -/
theorem heldGrantBecomesStaleAtDeadline : Obligations.HeldGrantBecomesStaleAtDeadline := by
  rintro s label later i g hquiet hround rfl rfl
  rw [exec_grantPassVisit_of_round hquiet.high hround]
  constructor
  · intro hheld hdeadline sg hsg
    rw [settle_ok (grantVisit_held hquiet.sound hheld (State.passed_iff.2 hdeadline)), State.makeStale_eq hsg]
  · intro hstands
    have hnot : ¬ ((s.slot s.swp.grantPass.cursor).state.live = true ∧
        s.passed (s.slot s.swp.grantPass.cursor).deadline = true) := by
      rintro ⟨hlive, hpassed⟩
      rcases hstands with hahead | hfree | hbad
      · exact absurd (State.passed_iff.1 hpassed) (not_le.2 hahead)
      · rw [hfree] at hlive; exact absurd hlive nofun
      · rw [hbad] at hlive; exact absurd hlive nofun
    rw [settle_ok (grantVisit_stands hquiet.sound hnot)]

end Sys2Proof.Machine

/-!
PROOFS. What a command writes: every command but power-on leaves a state that a chain of single writes reaches (`Effect`), each of
them with what the later invariants need to know of the moment it is made. An invariant of the machine is then a property that each
single write keeps.
-/
namespace Sys2Proof

/-- The commands that change the service state although no word is lost (R159, R168, R169). -/
def Instr.movesService : Instr → Bool
  | .bootReadCompletion _ => true
  | .setService _ => true
  | .serviceResetCompletion => true
  | _ => false

end Sys2Proof

namespace Sys2Proof.Machine

/-! ### Single writes -/

/-- A single write of command `c`. -/
inductive Effect (c : Instr) : State → State → Prop
  | port (s : State) (p : Port) (ps : PortState)
      (forward : ps.forward.length ≤ (s.port p).forward.length ∨ ps.forward.length ≤ Config.forwardPath)
      (originate : ps.originate.length ≤ (s.port p).originate.length) : Effect c s (s.setPort p ps)
  | originate (s : State) (p : Port) (n : Option NoticeKind) (a : Addressing) (b : List Byte) : Effect c s (s.originate p n a b)
  | handBack (s : State) (d : Cand) : Effect c s (s.handBack d)
  | addrs (s : State) (a : Option Addrs) : Effect c s { s with lnk.addrs := a }
  | neighbour (s : State) (n : Nat) (d : Cand) : Effect c s (s.noteNeighbour n d)
  | notice (s : State) (b : NoticeBody) : Effect c s (s.queueNotice b)
  | soft (s : State) (e : Event) : Effect c s (s.softEvent e)
  | hard (s : State) (e : Event) : Effect c s (s.hardEvent e)
  | captures (s : State) (a b : Capture) : Effect c s { s with fnu.soft := a, fnu.hard := b }
  | handoff (s : State) (n : Notice) (rest : List Notice) (head : s.fnu.notices = n :: rest) :
      Effect c s { s with fnu.notices := rest, fnu.lost := false }
  | exu (s : State) (x : Exu) (intake : x.intake.length ≤ s.exu.intake.length ∨ x.intake.length ≤ Config.exuIntake) :
      Effect c s { s with exu := x }
  | ada (s : State) (a : Ada) (service : a.service = s.ada.service)
      (intake : a.intake.length ≤ s.ada.intake.length ∨ a.intake.length ≤ Config.adaIntake) : Effect c s { s with ada := a }
  | serve (s : State) (new : Service) (moves : c.movesService = true)
      (stands : new.attends = true ∨ s.ada.service.serving = false) : Effect c s { s with ada.service := new }
  | swp (s : State) (w : Swp) (time : c = .mtAdvance ∨ w.mt = s.swp.mt) : Effect c s { s with swp := w }
  | slot (s : State) (i : Nat) (g : Slot) : Effect c s (s.setSlot i g)
  | linger (s : State) (p : Nat) (l : List Nat) : Effect c s (s.setLinger p l)
  | table (s : State) (fifo : List Nat) (exhausted suspect : Bool) (total : Nat) :
      Effect c s { s with grt.freeFifo := fifo, grt.exhausted := exhausted, grt.suspect := suspect, grt.liveTotal := total }
  | poolLive (s : State) (p : Nat) (l : PoolLive) : Effect c s (s.setPoolLive p l)
  | featLive (s : State) (i : Nat) (l : FeatLive) : Effect c s (s.setFeatLive i l)
  | runs (s : State) (l : List Run) : Effect c s { s with adm.runs := l }
  | client (s : State) (i : Nat) (x : Client) : Effect c s (s.setClient i x)
  | idle (s : State) (l : List Nat) : Effect c s { s with clt.idle := l }
  | unqueue (s : State) (i : Nat) : Effect c s (s.unqueue i)
  | place (s : State) (i : Nat) (w : Waiter) (free : (s.waiter i).inUse = false) (used : w.inUse = true)
      (attends : s.ada.service.attends = true) : Effect c s (s.placeWaiter i w)
  | bankLost (s : State) (b : BankId) (k : TableKind) (i : Nat) :
      Effect c s (s.setBank b (((s.bank b).store i (Entry.zero k)).mark k i true))
  | forgetCode (s : State) (b : BankId) (code : W32) : Effect c s (s.forgetCode b code)
  | writeStandby (s : State) (i : Nat) (e : Entry) (stored : e.Stored) : Effect c s (s.writeStandby e.kind i e)
  | copyEntry (s : State) (k : TableKind) (i : Nat) : Effect c s (s.copyEntry k i)
  | copySums (s : State) :
      Effect c s { s.setBank s.standby { s.standbyBank with sum := s.activeBank.sum, directory := s.activeBank.directory } with
        tbs.differs := [] }
  | flipPointer (s : State) : Effect c s s.flipPointer
  | heal (s : State) (w : MemWord) : Effect c s (s.heal w)
  | lost (s : State) (w : MemWord) (d : Damage) (fatal : fatalWord w = true) (found : s.damageAt w = some d)
      (uncorrected : d ≠ .correctable) : Effect c s (((s.heal w).zeroWord w).hardEvent (wordFatalEvent w)).enterFaulted
  | clearRecords (s : State) : Effect c s s.clearRecords

/-- A chain of writes of a command. -/
abbrev Effects (c : Instr) : State → State → Prop := Relation.ReflTransGen (Effect c)

variable {c : Instr}

theorem Effect.one {s t : State} (h : Effect c s t) : Effects c s t := .single h

theorem Effects.refl {s : State} : Effects c s s := Relation.ReflTransGen.refl

/-- A property that each single write keeps is kept by the chain. -/
theorem Effects.keeps {P : State → Prop} (h : ∀ s t, Effect c s t → P s → P t) {s t : State} (he : Effects c s t) (hs : P s) :
    P t := by
  induction he with
  | refl => exact hs
  | tail _ hstep ih => exact h _ _ hstep ih

/-! ### The shared effects as chains of writes -/

namespace Effects

/-- A write of the Administration Agent that leaves its service state and its intake. -/
theorem ada (s : State) (a : Ada) (hs : a.service = s.ada.service) (hi : a.intake = s.ada.intake) :
    Effects c s { s with ada := a } := (Effect.ada s a hs (.inl (by rw [hi]))).one

theorem work (s : State) (w : Option RenewWork) : Effects c s { s with exu.work := w } :=
  (Effect.exu s ⟨s.exu.intake, w⟩ (.inl le_rfl)).one

theorem stats (s : State) (x : Stats) : Effects c s { s with ada.stats := x } := ada s _ rfl rfl

theorem op (s : State) (o : LongOp) : Effects c s { s with ada.op := o } := ada s _ rfl rfl

theorem suspect (s : State) : Effects c s s.setSuspect := (Effect.table s _ _ true _).one

theorem adminSend (s : State) (dest code r b) : Effects c s (s.adminSend dest code r b) := (Effect.originate ..).one

theorem adminReply (s : State) (x r b) : Effects c s (s.adminReply x r b) := adminSend ..

theorem replyTo (s : State) (d m) : Effects c s (s.replyTo d m) := (Effect.originate ..).one

theorem tell (s : State) (x id tag m) : Effects c s (s.tell x id tag m) := (Effect.originate ..).one

theorem longReply (s : State) (r b) : Effects c s (s.longReply r b) := adminSend ..

theorem completeOp (s : State) (b) : Effects c s (s.completeOp b) := (longReply s ..).trans (op _ _)

theorem abortOp (s : State) : Effects c s s.abortOp := (longReply s ..).trans (op _ _)

theorem denyClaim (s : State) (d r code) : Effects c s (s.denyClaim d r code) := (replyTo s ..).trans (stats _ _)

theorem denyMalformed (s : State) (d) : Effects c s (s.denyMalformed d) :=
  ((replyTo s ..).tail (.soft ..)).trans (stats _ _)

theorem capacityEvent (s : State) (st cls p cl code) : Effects c s (s.capacityEvent st cls p cl code) :=
  (Effect.notice ..).one.tail (.soft ..)

theorem exhausted (s : State) : Effects c s { s with grt.exhausted := true } := (Effect.table s _ true _ _).one

theorem mapRun (s : State) (p f) : Effects c s (s.mapRun p f) := (Effect.runs ..).one

theorem startRun (s : State) (p) : Effects c s (s.startRun p) := by
  unfold State.startRun
  split
  · exact .refl
  · split
    · exact mapRun ..
    · exact (Effect.runs ..).one

theorem pressureNotice (s : State) (p st t) : Effects c s (s.pressureNotice p st t) := (Effect.notice ..).one

theorem foldl {α : Type} {f : State → α → State} (h : ∀ s a, Effects c s (f s a)) (l : List α) :
    ∀ s, Effects c s (l.foldl f s) := by
  induction l with
  | nil => exact fun _ => .refl
  | cons a l ih => exact fun s => (h s a).trans (ih _)

theorem endRun (s : State) (p) : Effects c s (s.endRun p) :=
  (Effect.runs s _).one.trans (foldl (fun s _ => pressureNotice s ..) _ _)

theorem entryService (s : State) (p) : Effects c s (s.entryService p) := by
  unfold State.entryService
  split
  · exact pressureNotice ..
  · exact (startRun ..).trans (mapRun ..)

theorem leaveIdle (s : State) (i) : Effects c s (s.leaveIdle i) := (Effect.idle ..).one

theorem idleToTail (s : State) (i) : Effects c s (s.idleToTail i) := by
  unfold State.idleToTail
  split
  · exact (Effect.idle ..).one
  · exact .refl

theorem idleIfQuiet (s : State) (i) : Effects c s (s.idleIfQuiet i) := by
  unfold State.idleIfQuiet
  split
  · exact (Effect.client ..).one.tail (.idle ..)
  · exact .refl

theorem countUnderflow (s : State) (i) : Effects c s (s.countUnderflow i) := (suspect s).tail (.hard ..)

theorem liveUnderflow (s : State) (i g) : Effects c s (s.liveUnderflow i g) := (suspect s).tail (.hard ..)

theorem dropGrantCount (s : State) (i) : Effects c s (s.dropGrantCount i) := by
  unfold State.dropGrantCount
  refine Relation.ReflTransGen.trans ?_ (idleIfQuiet ..)
  split
  · exact countUnderflow ..
  · exact (Effect.client ..).one

theorem lowerWaiterCount (s : State) (i) : Effects c s (s.lowerWaiterCount i) := by
  unfold State.lowerWaiterCount
  dsimp only
  split
  · exact countUnderflow ..
  · exact (Effect.client ..).one

theorem dropWaiterCount (s : State) (i) : Effects c s (s.dropWaiterCount i) := (lowerWaiterCount ..).trans (idleIfQuiet ..)

theorem rebuildPassed (s : State) (i f) : Effects c s (s.rebuildPassed i f) := by
  unfold State.rebuildPassed
  split
  · split
    · exact op ..
    · exact .refl
  · exact .refl

theorem mapRebuild (s : State) (f) : Effects c s (s.mapRebuild f) := by
  unfold State.mapRebuild
  split
  · exact op ..
  all_goals exact .refl

theorem mapCounts (s : State) (f) : Effects c s (s.mapCounts f) := by
  unfold State.mapCounts
  split
  · exact op ..
  · exact op ..
  all_goals exact .refl

theorem phaseOn (s : State) : Effects c s s.phaseOn := by
  unfold State.phaseOn
  split
  · exact op ..
  · exact op ..
  all_goals exact .refl

theorem returnTokens (s : State) (i g) : Effects c s (s.returnTokens i g) := by
  unfold State.returnTokens
  dsimp only
  split
  · exact (Effect.poolLive ..).one.trans (liveUnderflow ..)
  · exact (Effect.poolLive ..).one

theorem returnUnits (s : State) (i g) : Effects c s (s.returnUnits i g) := by
  unfold State.returnUnits
  dsimp only
  split
  · exact (Effect.featLive ..).one.trans (liveUnderflow ..)
  · exact (Effect.featLive ..).one

theorem leaveChain (s : State) (i) : Effects c s (s.leaveChain i) := by
  unfold State.leaveChain
  dsimp only
  split
  · exact (Effect.client ..).one.trans (dropGrantCount ..)
  · exact .refl

theorem leaveLinger (s : State) (i p) : Effects c s (s.leaveLinger i p) := (Effect.linger ..).one

theorem freeSlot (s : State) (i) : Effects c s (s.freeSlot i) := (Effect.slot ..).one.tail (.table ..)

/-- A write made under a condition. -/
theorem iteWrite {p : Prop} [Decidable p] {s t : State} (h : Effects c s t) : Effects c s (if p then t else s) := by
  split
  · exact h
  · exact .refl

theorem liveTotal (s : State) : Effects c s { s with grt.liveTotal := s.grt.liveTotal - 1 } := (Effect.table s _ _ _ _).one

theorem leaveFifo (s : State) (i) : Effects c s { s with grt.freeFifo := s.grt.freeFifo.erase i } := (Effect.table s _ _ _ _).one

theorem releaseFrom (s : State) (b i) : Effects c s (s.releaseFrom b i) := by
  have htokens := returnTokens (c := c) s i (s.slot i)
  have hunits := htokens.trans (iteWrite (p := s.unitsCounted (s.slot i) = true) (returnUnits _ i (s.slot i)))
  have hchain := hunits.trans (iteWrite (p := b = true) (leaveChain _ i))
  have hlinger := hchain.trans (iteWrite (p := (s.slot i).state = .linger) (leaveLinger _ i (s.slot i).pool))
  exact ((hlinger.trans (rebuildPassed ..)).trans (liveTotal _)).trans (freeSlot ..)

theorem createGrant (s : State) (i n) : Effects c s (s.createGrant i n) := by
  have htable := (Effect.table (c := c) s (s.grt.freeFifo.drop 1) s.grt.exhausted s.grt.suspect (s.grt.liveTotal + 1)).one
  exact ((((htable.tail (.poolLive ..)).tail (.featLive ..)).tail (.slot ..)).tail (.client ..)).trans (leaveIdle ..)

theorem recallSlot (s : State) (i r) : Effects c s (s.recallSlot i r) := by
  have hunits := iteWrite (p := s.unitsCounted (s.slot i) = true) (returnUnits (c := c) s i (s.slot i))
  exact (hunits.trans (iteWrite (p := s.unitsCounted (s.slot i) = true) (rebuildPassed ..))).tail (.slot ..)

theorem recallHeld (s : State) (i r) : Effects c s (s.recallHeld i r) := (recallSlot ..).trans (iteWrite (tell ..))

theorem slotBad (s : State) (i) : Effects c s (s.slotBad i) := by
  have hlinger := iteWrite (p := (s.slot i).state = .linger) (leaveLinger (c := c) s i (s.slot i).pool)
  have hfifo := hlinger.trans (iteWrite (p := (s.slot i).state = .free) (leaveFifo _ i))
  have hslot := hfifo.tail (.slot _ i { Slot.zero with state := .bad, generation := (s.slot i).generation, ownerIdx := (s.slot i).ownerIdx })
  have hscan := hslot.trans (iteWrite (p := (s.slot i).state.live = true) ((liveTotal _).trans
    (rebuildPassed _ i fun r => { Rebuild.start with badFreed := r.badFreed, restarts := r.restarts + 1 })))
  exact (hscan.trans (suspect _)).tail (.hard ..)

theorem enterPressure (s : State) (p st) : Effects c s (s.enterPressure p st) := (Effect.poolLive ..).one

theorem dropWaiter (s : State) (i r o) : Effects c s (s.dropWaiter i r o) := by
  have hleft := (Effect.unqueue (c := c) s i).one.trans (dropWaiterCount _ (s.waiter i).clientIdx)
  unfold State.dropWaiter
  refine Relation.ReflTransGen.trans (hleft.trans ?_) (stats _ _)
  cases o
  · exact tell ..
  · exact replyTo ..

theorem grantWaiter (s : State) (wi i) : Effects c s (s.grantWaiter wi i) :=
  (((((Effect.unqueue (c := c) s wi).one.trans (lowerWaiterCount ..)).trans (createGrant ..)).tail (.heal ..)).trans (tell ..)).trans
    (stats _ _)

theorem headExhausted (s : State) (w) : Effects c s (s.headExhausted w) := by
  unfold State.headExhausted
  split
  · exact .refl
  · exact (exhausted s).trans (capacityEvent ..)

theorem noteContact (s : State) (i d) : Effects c s (s.noteContact i d) := (Effect.client ..).one.trans (idleToTail ..)

theorem noteClaim (s : State) (i x) : Effects c s (s.noteClaim i x) := (Effect.client ..).one.trans (idleToTail ..)

theorem newClient (s : State) (i id) : Effects c s (s.newClient i id) := (Effect.client ..).one.tail (.idle ..)

theorem damageEntry (s : State) (b k i) : Effects c s (s.damageEntry b k i) := (Effect.bankLost ..).one.tail (.hard ..)

theorem loseDirectory (s : State) (b code l) : Effects c s (s.loseDirectory b code l) := by
  unfold State.loseDirectory
  dsimp only
  split
  · exact (Effect.forgetCode ..).one
  · split
    · exact (Effect.forgetCode ..).one.trans (damageEntry ..)
    · exact (Effect.forgetCode ..).one

theorem reuse (s : State) (x : ClaimCtx) (i) : Effects c s (x.reuse i s) :=
  (((leaveLinger ..).tail (.slot ..)).trans (replyTo ..)).trans (stats _ _)

theorem renewNote (s : State) (w l st) : Effects c s (s.renewNote w l st) := by
  unfold State.renewNote
  dsimp only
  split
  · exact (work ..).trans (replyTo ..)
  · exact work ..

theorem enterLinger (s : State) (i) : Effects c s (s.enterLinger i) := (Effect.slot ..).one.tail (.linger ..)

theorem makeStale (s : State) (i) : Effects c s (s.makeStale i) := (Effect.slot ..).one.tail (.notice ..)

theorem takeSlot (s : State) (x o) : Effects c s (s.takeSlot x o) := ada s _ rfl rfl

theorem copyDone (s : State) : Effects c s s.copyDone := (Effect.copySums s).one.trans (completeOp _ [])

theorem startAllRuns (s : State) : Effects c s s.startAllRuns := foldl startRun _ s

theorem rebuildOrphan (s : State) (i) : Effects c s (s.rebuildOrphan i) := (releaseFrom ..).trans (mapRebuild ..)

theorem rebuildFree (s : State) (i) : Effects c s (s.rebuildFree i) := (freeSlot ..).trans (mapRebuild ..)

theorem installClient (s : State) (r i) : Effects c s (s.installClient r i) := by
  unfold State.installClient
  dsimp only
  split
  · exact (Effect.client ..).one.trans (iteWrite (idleIfQuiet ..))
  · exact (Effect.client ..).one.trans (leaveIdle ..)

theorem rebuildDone (s : State) (r) : Effects c s (s.rebuildDone r) := by
  have hpools := foldl (c := c) (f := fun s p => s.setPoolLive p (r.pool p (s.poolLive p))) (fun s p => (Effect.poolLive s ..).one)
    (s.rebuildPools r) s
  have hfeatures := hpools.trans (foldl (f := fun s i => s.setFeatLive i (r.feature i (s.featLive i)))
    (fun s i => (Effect.featLive s ..).one) (s.rebuildFeatures r) _)
  have hclients := hfeatures.trans (foldl (f := fun s i => s.installClient r i) (fun s i => installClient s ..) s.clientsInUse _)
  exact (hclients.tail (.table _ _ _ false r.live)).trans (completeOp ..)

end Effects

end Sys2Proof.Machine

/-!
PROOFS. What an operation writes: each operation of the commands, whether it runs through or ends at a read, leaves a state that a chain
of writes reaches. A checked read that finds its word legible leaves the service state as it was (R171).
-/
namespace Sys2Proof.Machine

/-- However an operation ended, a chain of writes of command `c` leads from `s` to the state it left; `Q` holds when it ran through. -/
def Led (c : Instr) (s : State) {α : Type} (Q : α → State → Prop) : EStateM.Result Stop State α → Prop
  | .ok a t => Effects c s t ∧ Q a t
  | .error _ t => Effects c s t

/-- However the operation ends at `s`, a chain of writes leads to the state it leaves. -/
def Leads (c : Instr) {α : Type} (m : Op α) (s : State) (Q : α → State → Prop) : Prop := Led c s Q (m s)

/-- An operation leads from every state to one it may leave. -/
def Acts (c : Instr) {α : Type} (m : Op α) : Prop := ∀ s, Leads c m s fun _ _ => True

/-- An operation that leaves the service state as it was when it runs through. -/
def Stays (c : Instr) {α : Type} (m : Op α) : Prop := ∀ s, Leads c m s fun _ t => t.ada.service = s.ada.service

variable {c : Instr} {α β : Type}

/-! ### How operations are put together -/

theorem Led.mono {r : EStateM.Result Stop State α} {s : State} {Q R : α → State → Prop} (h : Led c s Q r)
    (k : ∀ a t, Q a t → R a t) : Led c s R r := by
  cases r with
  | ok a t => exact ⟨h.1, k a t h.2⟩
  | error e t => exact h

theorem Led.after {r : EStateM.Result Stop State α} {s t : State} {Q : α → State → Prop} (h : Led c t Q r) (he : Effects c s t) :
    Led c s Q r := by
  cases r with
  | ok a u => exact ⟨he.trans h.1, h.2⟩
  | error e u => exact he.trans h

theorem Leads.mono {m : Op α} {s : State} {Q R : α → State → Prop} (h : Leads c m s Q) (k : ∀ a t, Q a t → R a t) :
    Leads c m s R := Led.mono h k

theorem Leads.any {m : Op α} {s : State} {Q : α → State → Prop} (h : Leads c m s Q) : Leads c m s fun _ _ => True :=
  h.mono fun _ _ _ => trivial

theorem Leads.bind {m : Op α} {f : α → Op β} {s : State} {P : α → State → Prop} {Q : β → State → Prop} (h : Leads c m s P)
    (k : ∀ a t, P a t → Leads c (f a) t Q) : Leads c (m >>= f) s Q := by
  unfold Leads at h ⊢
  cases hm : m s with
  | ok a t =>
    rw [hm] at h
    rw [Op.bind_ok hm]
    exact Led.after (k a t h.2) h.1
  | error e t =>
    rw [hm] at h
    rw [Op.bind_error hm]
    exact h

theorem Leads.pure {a : α} {s : State} {Q : α → State → Prop} (h : Q a s) : Leads c (Pure.pure a : Op α) s Q := ⟨.refl, h⟩

theorem Leads.get {f : State → Op β} {s : State} {Q : β → State → Prop} (h : Leads c (f s) s Q) :
    Leads c ((MonadState.get : Op State) >>= f) s Q := h

theorem Leads.set {s t : State} (h : Effects c s t) : Leads c (MonadStateOf.set t : Op PUnit) s fun _ _ => True := ⟨h, trivial⟩

theorem Leads.setBind {f : PUnit → Op β} {s t : State} {Q : β → State → Prop} (h : Effects c s t) (k : Leads c (f ⟨⟩) t Q) :
    Leads c ((MonadStateOf.set t : Op PUnit) >>= f) s Q := Led.after k h

theorem Leads.updBind {g : State → State} {f : PUnit → Op β} {s : State} {Q : β → State → Prop} (h : Effects c s (g s))
    (k : Leads c (f ⟨⟩) (g s) Q) : Leads c ((modify g : Op PUnit) >>= f) s Q := Led.after k h

theorem Acts.bind {m : Op α} {f : α → Op β} (h : Acts c m) (k : ∀ a, Acts c (f a)) : Acts c (m >>= f) := fun s =>
  (h s).bind fun a t _ => k a t

theorem Acts.pure (a : α) : Acts c (Pure.pure a : Op α) := fun _ => Leads.pure trivial

theorem Acts.get {f : State → Op β} (h : ∀ s, Leads c (f s) s fun _ _ => True) : Acts c ((MonadState.get : Op State) >>= f) :=
  fun s => h s

theorem Acts.upd {f : State → State} (h : ∀ s, Effects c s (f s)) : Acts c (modify f : Op PUnit) := fun s => ⟨h s, trivial⟩

theorem Stays.acts {m : Op α} (h : Stays c m) : Acts c m := fun s => (h s).any

theorem Stays.bind {m : Op α} {f : α → Op β} (h : Stays c m) (k : ∀ a, Stays c (f a)) : Stays c (m >>= f) := fun s =>
  (h s).bind fun a t ht => (k a t).mono fun _ _ hu => hu.trans ht

theorem Stays.pure (a : α) : Stays c (Pure.pure a : Op α) := fun _ => Leads.pure rfl

theorem Acts.settled {m : Op Unit} (h : Acts c m) (s : State) : Effects c s (settle m s) := by
  have hs : Led c s _ (m s) := h s
  unfold settle
  cases hm : m s with
  | ok a t => rw [hm] at hs; exact hs.1
  | error e t => rw [hm] at hs; exact hs

theorem Acts.attempt {m : Op Unit} (h : Acts c m) : Acts c (attempt m) := fun s => ⟨h.settled s, trivial⟩

/-! ### Checked reads (R171 to R173) -/

theorem State.damageAt_heal (s : State) (w v : MemWord) : (s.heal w).damageAt v = if v = w then none else s.damageAt v := by
  unfold State.damageAt State.heal
  dsimp only
  induction s.damage with
  | nil => simp
  | cons x l ih =>
    rw [List.filter_cons]
    by_cases hw : x.word = w
    · rw [if_neg (by simp [hw]), ih, List.find?_cons]
      by_cases hv : v = w
      · simp [hv]
      · rw [if_neg hv, if_neg hv, decide_eq_false (by rw [hw]; exact fun h => hv h.symm)]
    · rw [if_pos (by simp [hw]), List.find?_cons, List.find?_cons]
      by_cases hv : x.word = v
      · rw [decide_eq_true hv, if_neg (by rw [← hv]; exact hw)]
      · rw [decide_eq_false hv]; exact ih

/-- The read of a word: no error, an error corrected, or what its loss does, found with that damage. -/
theorem checkOr_leads {w : MemWord} {lose : Damage → Op Unit} {s : State} {Q : Unit → State → Prop}
    (hsound : s.damageAt w = none → Q () s) (hcorrected : Q () ((s.heal w).softEvent (wordSoftEvent s w)))
    (hlost : ∀ d, s.damageAt w = some d → d ≠ .correctable → Led c s Q (lose d (s.heal w))) : Leads c (checkOr w lose) s Q := by
  cases hd : s.damageAt w with
  | none => simp only [Leads, checkOr, hd]; exact ⟨.refl, hsound hd⟩
  | some d =>
    by_cases hc : d = .correctable
    · simp only [Leads, checkOr, hd, hc, if_true]
      exact ⟨(Effect.heal s w).one.tail (.soft ..), hcorrected⟩
    · simp only [Leads, checkOr, hd, if_neg hc]
      exact hlost d hd hc

theorem stays_checkFatal {w : MemWord} (hw : fatalWord w = true) : Stays c (checkOr w fun _ => loseFatal w) := fun s =>
  checkOr_leads (fun _ => rfl) (by simp) fun d hd hc => (Effect.lost s w d hw hd hc).one

theorem stays_loseRecord (i : Nat) : Stays c (loseRecord i) := fun s => by
  unfold loseRecord
  refine .get (.setBind (Effects.slotBad s i) ?_)
  split
  · refine ((stays_checkFatal rfl).bind fun _ => (stays_checkFatal rfl).bind fun _ u => ?_) _ |>.mono fun _ t ht =>
      ht.trans (slotBad_service s i)
    exact ⟨Effects.leaveChain u i, by simp⟩
  · exact .pure (slotBad_service s i)

theorem stays_check (w : MemWord) : Stays c (check w) := fun s => by
  cases w with
  | grantRec i =>
    refine checkOr_leads (fun _ => rfl) (by simp) fun d _ _ => ?_
    exact Led.after (Leads.mono (stays_loseRecord i (s.heal _)) fun _ t ht => ht.trans (by simp)) (Effect.heal s (.grantRec i)).one
  | bankEntry b k i =>
    exact checkOr_leads (fun _ => rfl) (by simp) fun d _ _ =>
      ⟨(Effect.heal s _).one.trans (Effects.damageEntry ..), by simp [State.damageEntry]⟩
  | codeDir b code =>
    refine checkOr_leads (fun _ => rfl) (by simp) fun d _ _ => ⟨(Effect.heal s _).one.trans (Effects.loseDirectory ..), ?_⟩
    unfold State.loseDirectory State.forgetCode
    dsimp only
    split
    · simp
    · split
      · simp [State.damageEntry]
      · simp
  | _ => exact stays_checkFatal rfl s

theorem stays_checkAll (ws : List MemWord) : Stays c (checkAll ws) := by
  induction ws with
  | nil => exact .pure _
  | cons w ws ih => exact (stays_check w).bind fun _ => ih

theorem stays_checkActive (k i) : Stays c (checkActive k i) := fun s => stays_check _ s

theorem stays_readSlot (i : Nat) : Stays c (readSlot i) :=
  (stays_check _).bind fun _ => (stays_check _).bind fun _ _ => Leads.get (Leads.pure rfl)

theorem stays_readSlots (l : List Nat) : Stays c (readSlots l) := by
  induction l with
  | nil => exact .pure _
  | cons i l ih => exact (stays_readSlot i).bind fun _ => ih

/-! ### Release, pressure, recall, removal -/

theorem acts_release (i : Nat) : Acts c (release i) := by
  unfold release
  refine (stays_readSlot i).acts.bind fun g => ?_
  split
  · refine .get fun s => ((stays_checkAll _).acts.bind fun _ => .get fun t => ?_) s
    exact .setBind (Effects.releaseFrom ..) (.pure trivial)
  · exact .pure _

theorem acts_drainLinger (p : Nat) {other : Nat → Op Unit} (h : ∀ q, Acts c (other q)) (l : List Nat) :
    Acts c (drainLinger p other l) := by
  induction l with
  | nil => exact .pure _
  | cons i l ih =>
    unfold drainLinger
    refine (acts_release i).bind fun r => ?_
    cases r with
    | none => exact ih
    | some r =>
      dsimp only
      split
      · refine (stays_checkActive _ _).acts.bind fun _ => .get fun s => ?_
        split
        · split
          · exact ih s
          · exact ((h _).bind fun _ => ih) s
        · exact ih s
      · exact ih

theorem acts_pressureCheck (n : Nat) : ∀ p leave, Acts c (pressureCheck n p leave) := by
  induction n with
  | zero => exact fun _ _ => .pure _
  | succ n ih =>
    intro p leave
    unfold pressureCheck
    refine .get fun s => ?_
    split
    · exact .pure trivial
    · refine ((stays_check _).acts.bind fun _ => (stays_checkActive _ _).acts.bind fun _ => .get fun t => ?_) s
      split
      · split
        · have other : ∀ q, Acts c (do pressureCheck n q false; modify (·.startRun q)) := fun q =>
            (ih q false).bind fun _ => .upd fun u => Effects.startRun u q
          exact .setBind (Effects.enterPressure ..) (((acts_drainLinger p other _).bind fun _ =>
            (Acts.upd fun u => (Effect.linger u p []).one).bind fun _ => .upd fun u => Effects.entryService u p) _)
        · exact .pure trivial
      · split
        · exact .set ((Effects.enterPressure ..).trans (Effects.pressureNotice ..))
        · exact .pure trivial

theorem acts_pressure (p leave) : Acts c (pressure p leave) := acts_pressureCheck _ _ _

theorem acts_startRun (p : Nat) : Acts c (modify (·.startRun p) : Op Unit) := .upd fun s => Effects.startRun s p

theorem acts_hfFellElsewhere (p f) : Acts c (hfFellElsewhere p f) := by
  unfold hfFellElsewhere
  refine (stays_checkActive _ _).acts.bind fun _ => .get fun s => ?_
  split
  · split
    · exact .pure trivial
    · exact ((acts_pressure _ _).bind fun _ => acts_startRun _) s
  · exact .pure trivial

theorem acts_afterRelease (r) : Acts c (afterRelease r) := by
  unfold afterRelease
  refine (acts_pressure _ _).bind fun _ => (acts_startRun _).bind fun _ => ?_
  split
  · exact acts_hfFellElsewhere _ _
  · exact .pure _

/-- What follows a release that may not have been made. -/
theorem acts_afterMaybe (r : Option Released) : Acts c (match r with | some r => afterRelease r | none => pure ()) := by
  cases r
  · exact .pure _
  · exact acts_afterRelease _

theorem acts_afterRecall (p f) : Acts c (afterRecall p f) := by
  unfold afterRecall
  refine (acts_hfFellElsewhere _ _).bind fun _ => .get fun s => ?_
  split
  · exact .set (Effects.startRun ..)
  · exact .pure trivial

theorem acts_recallGrant (i r) {note : Recalled → State → State} (h : ∀ x s, Effects c s (note x s)) :
    Acts c (recallGrant i r note) := by
  have held : ∀ g : Slot, Acts c (do
      let s ← get
      checkAll ([.featLive g.feature] ++ if s.inChain i then [.clientEnt g.ownerIdx] else [])
      let s ← get
      set (note .recalled (s.recallHeld i r))
      if s.unitsCounted g && decide (0 < (s.featLive g.feature).hf) then afterRecall g.pool g.feature else pure ()) := by
    intro g
    refine .get fun s => ((stays_checkAll _).acts.bind fun _ => .get fun t => ?_) s
    refine .setBind ((Effects.recallHeld ..).trans (h _ _)) ?_
    split
    · exact acts_afterRecall _ _ _
    · exact .pure trivial
  unfold recallGrant
  refine (stays_readSlot i).acts.bind fun g => ?_
  split
  · exact held g
  · exact held g
  · refine (acts_release i).bind fun x => ?_
    cases x
    · exact .pure _
    · exact (Acts.upd (h _)).bind fun _ => acts_afterRelease _
  all_goals exact .pure _

theorem acts_removeWaiter (i r o b) : Acts c (removeWaiter i r o b) := by
  unfold removeWaiter
  refine (stays_check _).acts.bind fun _ => .get fun s => ((stays_checkAll _).acts.bind fun _ => .get fun t => .set ?_) s
  split
  · exact (Effects.dropWaiter ..).trans (Effects.startRun ..)
  · exact Effects.dropWaiter ..

theorem acts_removeAll (r) (l : List Nat) : Acts c (removeAll r l) := by
  induction l with
  | nil => exact .pure _
  | cons i l ih => exact (acts_removeWaiter _ _ _ _).bind fun _ => ih

/-! ### The claim sequence -/

theorem acts_claimEnqueue {x : ClaimCtx} {pe ci} {s : State} (hs : s.ada.service.attends = true) :
    Leads c (claimEnqueue x pe ci) s fun _ _ => True := by
  unfold claimEnqueue
  refine (stays_checkAll _ s).bind fun _ t ht => .get ?_
  dsimp only
  split
  · exact .set (Effects.denyClaim ..)
  split
  · exact .set ((Effects.denyClaim ..).trans (Effects.capacityEvent ..))
  split
  · exact .set (Effects.denyClaim ..)
  · next wi hfree =>
    have hplace := Effect.place (c := c) t wi (x.waiter pe ci t) (freeWaiter_some hfree).1 rfl (by rw [ht]; exact hs)
    exact .set ((hplace.one.tail (.heal ..)).trans (Effects.replyTo ..))

theorem acts_claimWaitOrDeny {x : ClaimCtx} {pe ci} {s : State} (hs : s.ada.service.attends = true) (r) :
    Leads c (claimWaitOrDeny x pe ci r) s fun _ _ => True := by
  unfold claimWaitOrDeny
  split
  · exact acts_claimEnqueue hs
  · exact Acts.upd (fun s => Effects.denyClaim ..) s

theorem acts_claimGrant (x pe ci) : Acts c (claimGrant x pe ci) := by
  unfold claimGrant
  refine .get fun s => ?_
  split
  · exact .set (((Effects.denyClaim ..).trans (Effects.exhausted _)).trans (Effects.capacityEvent ..))
  · refine ((stays_checkAll _).acts.bind fun _ => .get fun t => ?_) s
    exact .setBind ((((Effects.createGrant ..).tail (.heal ..)).trans (Effects.replyTo ..)).trans (Effects.stats _ _))
      (acts_pressure _ _ _)

theorem acts_claimAdmit {x : ClaimCtx} {pe ci} {s : State} (hs : s.ada.service.attends = true) :
    Leads c (claimAdmit x pe ci) s fun _ _ => True := by
  unfold claimAdmit
  refine (stays_checkAll _ s).bind fun _ t ht => .get ?_
  rw [← ht] at hs
  split
  · exact acts_claimWaitOrDeny hs _
  split
  · exact acts_claimWaitOrDeny hs _
  split
  · exact acts_claimWaitOrDeny hs _
  · exact acts_claimGrant _ _ _ _

theorem acts_claimEntitled {x : ClaimCtx} {ci} {s : State} (hs : s.ada.service.attends = true) :
    Leads c (claimEntitled x ci) s fun _ _ => True := by
  unfold claimEntitled
  refine .get ?_
  split
  · exact .set (Effects.denyClaim ..)
  split
  · exact .set ((Effects.denyClaim ..).tail (.soft ..))
  split
  · exact .set (Effects.denyClaim ..)
  split
  · exact .set (Effects.denyClaim ..)
  · exact acts_claimAdmit hs

theorem acts_claimPaced {x : ClaimCtx} {ci} {s : State} (hs : s.ada.service.attends = true) :
    Leads c (claimPaced x ci) s fun _ _ => True := by
  unfold claimPaced
  refine .get ?_
  split
  · exact .set ((Effects.replyTo ..).trans (Effects.stats _ _))
  split
  · exact .set ((Effects.replyTo ..).trans (Effects.stats _ _))
  · exact acts_claimEntitled hs

theorem acts_claimReuse {x : ClaimCtx} {ci chain} {s : State} (hs : s.ada.service.attends = true) :
    Leads c (claimReuse x ci chain) s fun _ _ => True := by
  unfold claimReuse
  refine (stays_check _ s).bind fun _ t ht => .get ?_
  rw [← ht] at hs
  split
  · exact .set (Effects.reuse ..)
  · exact acts_claimPaced hs

theorem acts_claimRelease (x i r) : Acts c (claimRelease x i r) := by
  unfold claimRelease
  exact (acts_release i).bind fun r => (Acts.upd fun s => Effects.denyClaim ..).bind fun _ => acts_afterMaybe r

theorem acts_claimDuplicate (x i) : Acts c (claimDuplicate x i) := by
  unfold claimDuplicate
  refine .get fun s => ((stays_check _).acts.bind fun _ => (stays_checkActive _ _).acts.bind fun _ => .get fun t => ?_) s
  split
  · split
    · exact .set (Effects.reuse ..)
    · exact acts_claimRelease _ _ _ t
  · exact acts_claimRelease _ _ _ t
  all_goals exact .set (Effects.replyTo ..)

theorem acts_claimWaiting (x wi) : Acts c (claimWaiting x wi) := by
  unfold claimWaiting
  exact (stays_check _).acts.bind fun _ => .get fun s =>
    ((stays_checkAll _).acts.bind fun _ => .get fun t => .set (Effects.replyTo ..)) s

theorem acts_claimTag {x : ClaimCtx} {ci} {s : State} (hs : s.ada.service.attends = true) :
    Leads c (claimTag x ci) s fun _ _ => True := by
  unfold claimTag
  refine .get ((stays_readSlots _ s).bind fun _ t ht => .get ?_)
  rw [← ht] at hs
  split
  · exact acts_claimWaiting _ _ t
  · dsimp only
    split
    · exact acts_claimDuplicate _ _ t
    · exact acts_claimReuse hs

theorem acts_claimClient {x : ClaimCtx} {s : State} (hs : s.ada.service.attends = true) :
    Leads c (claimClient x) s fun _ _ => True := by
  unfold claimClient
  refine (stays_check _ s).bind fun _ t ht => .get ?_
  rw [← ht] at hs
  split
  · next ci _ =>
    refine (stays_check _ t).bind fun _ u hu => ?_
    have hu' : (u.noteClaim ci x).ada.service.attends = true := by
      simpa [State.noteClaim, State.idleToTail, hu, apply_ite] using hs
    exact .updBind (Effects.noteClaim ..) (acts_claimTag hu')
  · split
    · next ci _ =>
      refine .setBind (((Effects.newClient ..).tail (.heal ..)).trans (Effects.noteClaim ..)) (acts_claimTag ?_)
      simpa using hs
    · exact .set ((Effects.denyClaim ..).trans (Effects.capacityEvent ..))

theorem acts_handBack (s : State) (d : Cand) : Leads c (MonadStateOf.set (s.handBack d) : Op PUnit) s fun _ _ => True :=
  .set (Effect.handBack ..).one

theorem acts_claimServe {d : Cand} {s : State} (hs : s.ada.service.attends = true) :
    Leads c (claimServe d) s fun _ _ => True := by
  unfold claimServe
  refine (stays_checkActive _ _ s).bind fun _ t ht => .get ?_
  rw [← ht] at hs
  split
  · exact acts_handBack t d
  refine (stays_check _ t).bind fun _ t ht => .get ?_
  rw [← ht] at hs
  split
  · exact acts_handBack t d
  refine (stays_checkActive _ _ t).bind fun _ t ht => .get ?_
  rw [← ht] at hs
  split
  · exact acts_handBack t d
  refine (stays_checkActive _ _ t).bind fun _ t ht => (stays_checkActive _ _ t).bind fun _ u hu => .get ?_
  rw [← ht, ← hu] at hs
  split
  · exact acts_handBack u d
  · exact acts_claimClient hs

/-! ### The other requests of a client -/

theorem acts_contact (d) : Acts c (contact d) := by
  unfold contact
  refine .get fun s => ?_
  split
  · exact .pure trivial
  · exact ((stays_checkAll _).acts.bind fun _ => .upd fun s => Effects.noteContact ..) s

theorem acts_renewServe (d) : Acts c (renewServe d) := by
  unfold renewServe
  dsimp only
  split
  · exact (acts_contact d).bind fun _ => .upd fun s => Effects.work ..
  · exact .upd fun s => (Effect.handBack ..).one

theorem acts_renewOne (h id) : Acts c (renewOne h id) := by
  unfold renewOne
  split
  · refine (stays_readSlot _).acts.bind fun g => .get fun s => ?_
    dsimp only
    split
    · exact .pure trivial
    split
    · exact ((acts_release _).bind fun _ => .pure _) s
    · refine ((stays_check _).acts.bind fun _ => (stays_checkActive _ _).acts.bind fun _ => .get fun t => ?_) s
      split
      · exact ((acts_release _).bind fun _ => .pure _) t
      · split
        · exact .setBind (Effect.slot ..).one (.pure trivial)
        · exact .setBind (Effect.slot ..).one (.pure trivial)
        all_goals exact .pure trivial
  · exact .pure _

theorem acts_renewStep (w h l) : Acts c (renewStep w h l) := by
  unfold renewStep
  exact (acts_renewOne _ _).bind fun r => (Acts.upd fun s => Effects.renewNote ..).bind fun _ => acts_afterMaybe r.2

theorem acts_yieldOne (h id) : Acts c (yieldOne h id) := by
  have given : ∀ (g : Slot), Acts c (do
      let s ← get
      checkAll (s.yieldWords g)
      modify (·.churnUpdate (handleSlot h))
      let s ← get
      if s.lingers (handleSlot h) then
        set (s.enterLinger (handleSlot h))
        return (YieldStatus.lingering, (none : Option Released))
      else
        let r ← release (handleSlot h)
        return (YieldStatus.released, r)) := by
    intro g
    refine .get fun s => ((stays_checkAll _).acts.bind fun _ => (Acts.upd fun s => (Effect.client ..).one).bind fun _ =>
      .get fun t => ?_) s
    split
    · exact .setBind (Effects.enterLinger ..) (.pure trivial)
    · exact ((acts_release _).bind fun _ => .pure _) t
  unfold yieldOne
  refine (stays_readSlot _).acts.bind fun g => .get fun s => ?_
  dsimp only
  split
  · exact .pure trivial
  · split
    · exact given g s
    · exact given g s
    · exact ((acts_release _).bind fun _ => .pure _) s
    all_goals exact .pure trivial

theorem acts_yieldServe (d) : Acts c (yieldServe d) := by
  unfold yieldServe
  dsimp only
  split
  · exact (acts_contact d).bind fun _ => (acts_yieldOne _ _).bind fun r => (Acts.upd fun s => Effects.replyTo ..).bind fun _ =>
      acts_afterMaybe r.2
  · exact .upd fun s => (Effect.handBack ..).one

theorem acts_queryServe (d) : Acts c (queryServe d) := by
  unfold queryServe
  refine (stays_checkActive _ _).acts.bind fun _ => .get fun s => ?_
  split
  · exact acts_handBack s d
  refine ((stays_check _).acts.bind fun _ => .get fun s => ?_) s
  split
  · exact acts_handBack s d
  refine ((stays_checkActive _ _).acts.bind fun _ => .get fun s => ?_) s
  split
  · exact acts_handBack s d
  refine ((stays_checkActive _ _).acts.bind fun _ => (stays_checkActive _ _).acts.bind fun _ => .get fun s => ?_) s
  split
  · exact acts_handBack s d
  · exact ((stays_checkAll _).acts.bind fun _ => .get fun s => .set (Effects.replyTo ..)) s

theorem acts_withdrawServe (d) : Acts c (withdrawServe d) := by
  unfold withdrawServe
  refine (acts_contact d).bind fun _ => .get fun s => ?_
  split
  · exact .set (Effects.replyTo ..)
  split
  · exact .set (Effects.replyTo ..)
  · exact acts_removeWaiter _ _ _ _ s

/-! ### The pool service and the sweeper -/

theorem acts_examineHead (p k) : Acts c (examineHead p k) := by
  unfold examineHead
  refine (stays_check _).acts.bind fun _ => .get fun s => ?_
  split
  · exact .pure trivial
  refine ((stays_check _).acts.bind fun _ => .get fun s => ((stays_checkAll _).acts.bind fun _ => .get fun t => ?_) s) s
  split
  · exact ((acts_removeWaiter _ _ _ _).bind fun _ => .pure _) t
  split
  · split
    · exact .setBind (Effects.headExhausted ..) (.pure trivial)
    · exact ((stays_check _).acts.bind fun _ => (Acts.upd fun s => Effects.grantWaiter ..).bind fun _ =>
        (acts_pressure _ _).bind fun _ => .pure _) t
  · exact .pure trivial

theorem acts_generalHead (p) : Acts c (generalHead p) := (acts_examineHead _ _).bind fun _ => .pure _

theorem acts_serviceRound (p b) : Acts c (serviceRound p b) := by
  unfold serviceRound
  refine (acts_examineHead _ _).bind fun taken => ?_
  split
  · exact .pure _
  · refine .get fun s => ?_
    split
    · exact .setBind (Effects.mapRun ..) (.pure trivial)
    · exact acts_generalHead _ s

theorem acts_finishRun (p) : Acts c (finishRun p) := by
  unfold finishRun
  refine .get fun s => ?_
  have done : Acts c (modify (·.endRun p) : Op Unit) := .upd fun s => Effects.endRun ..
  dsimp only
  split
  · exact ((stays_checkActive _ _).acts.attempt.bind fun _ => (stays_check _).acts.attempt.bind fun _ => done) s
  · exact done s

theorem closeRound_effects {m : Op RoundEnd} (h : Acts c m) (p cause) (s : State) : Effects c s (closeRound p cause (m s)) := by
  have hs : Led c s _ (m s) := h s
  cases hm : m s with
  | error e t => rw [hm] at hs; exact hs.trans ((acts_finishRun p).settled t)
  | ok r t =>
    rw [hm] at hs
    cases r with
    | nothing =>
      unfold closeRound
      dsimp only
      split
      · exact hs.1
      · exact hs.1.trans ((acts_finishRun p).settled t)
    | taken => exact hs.1
    | parted => exact hs.1

theorem acts_grantVisit (i) : Acts c (grantVisit i) := by
  unfold grantVisit
  refine (stays_readSlot i).acts.bind fun g => .get fun s => ?_
  split
  · split
    · exact ((stays_checkActive _ _).acts.bind fun _ => .upd fun s => Effects.makeStale ..) s
    · exact ((acts_release i).bind fun r =>
        (Acts.upd fun s => (Effect.notice ..).one.trans (Effects.stats _ _)).bind fun _ => acts_afterMaybe r) s
    all_goals exact ((acts_release i).bind fun r => acts_afterMaybe r) s
  · exact .pure trivial

theorem acts_waiterVisit (i) : Acts c (waiterVisit i) := by
  unfold waiterVisit
  refine (stays_check _).acts.bind fun _ => .get fun s => ?_
  dsimp only
  split
  · refine ((stays_checkAll _).acts.bind fun _ => .get fun t => ?_) s
    split
    · exact acts_removeWaiter _ _ _ _ t
    · exact .pure trivial
  · exact .pure trivial

theorem acts_poolVisit (p) : Acts c (poolVisit p) :=
  (stays_check _).acts.bind fun _ => (acts_pressure _ _).bind fun _ => acts_startRun p

theorem acts_clientVisit (l i) : Acts c (clientVisit l i) := by
  unfold clientVisit
  refine (stays_checkAll _).acts.bind fun _ => .get fun s => ?_
  split
  · exact ((stays_checkActive _ _).acts.bind fun _ => .upd fun s => (Effect.client ..).one) s
  · exact .pure trivial

/-! ### Administration commands -/

theorem acts_answer (x r b) : Acts c (answer x r b) := .upd fun _ => Effects.adminReply ..

theorem acts_readStatusRun (x) : Acts c (readStatusRun x) := by
  unfold readStatusRun
  split
  · exact acts_answer _ _ _
  · exact .get fun s => .set ((Effects.iteWrite (Effects.stats _ _)).trans (Effects.adminReply ..))

theorem acts_readEntries (b k n) : ∀ i, Acts c (readEntries b k n i) := by
  induction n with
  | zero => exact fun _ => .pure _
  | succ n ih => exact fun i => (stays_check _).acts.bind fun _ => ih _

theorem acts_readEntryRun (x) : Acts c (readEntryRun x) := by
  unfold readEntryRun
  split
  · exact acts_answer _ _ _
  split
  · exact acts_answer _ _ _
  split
  · exact acts_answer _ _ _
  split
  · exact acts_answer _ _ _
  · exact (acts_readEntries _ _ _ _).bind fun _ => .get fun s => .set (Effects.adminReply ..)

theorem acts_readOne (n w r x) : Acts c (readOne n w r x) := by
  unfold readOne
  split
  · exact acts_answer _ _ _
  split
  · exact acts_answer _ _ _
  · exact (stays_checkAll _).acts.bind fun _ => .get fun s => .set (Effects.adminReply ..)

theorem acts_readClientRun (x) : Acts c (readClientRun x) := by
  unfold readClientRun
  split
  · exact acts_answer _ _ _
  · refine .get fun s => ?_
    split
    · exact .set (Effects.adminReply ..)
    · exact ((stays_checkAll _).acts.bind fun _ => .get fun s => .set (Effects.adminReply ..)) s

theorem acts_setTimeRun (x) : Acts c (setTimeRun x) :=
  .upd fun s => (Effect.swp s { s.swp with dtOffset := x.u32 0, dtValid := true } (.inr rfl)).one.trans (Effects.adminReply ..)

theorem acts_setWithholdRun (x) : Acts c (setWithholdRun x) := by
  unfold setWithholdRun
  dsimp only
  split
  · exact acts_answer _ _ _
  split
  · exact acts_answer _ _ _
  split
  · exact acts_answer _ _ _
  · exact (stays_check _).acts.bind fun _ => .get fun s => .setBind (Effect.poolLive ..).one
      (((acts_pressure _ _).bind fun _ => .upd fun s => (Effects.iteWrite (Effects.startRun ..)).trans (Effects.adminReply ..)) _)

theorem acts_revokeHandleRun (x) : Acts c (revokeHandleRun x) := by
  unfold revokeHandleRun
  dsimp only
  split
  · exact acts_answer _ _ _
  · refine (stays_readSlot _).acts.bind fun g => ?_
    split
    · exact acts_answer _ _ _
    · exact (acts_recallGrant _ _ fun _ _ => .refl).bind fun _ => .upd fun s => Effects.adminReply ..

theorem acts_clearCaptureRun (x) : Acts c (clearCaptureRun x) := by
  unfold clearCaptureRun
  refine .get fun s => ?_
  split
  · exact .set ((Effect.captures s .zero s.fnu.hard).one.trans (Effects.adminReply ..))
  split
  · exact .set ((Effect.captures s s.fnu.soft .zero).one.trans (Effects.adminReply ..))
  · exact .set (Effects.adminReply ..)

theorem acts_writeBootRecordRun (x) : Acts c (writeBootRecordRun x) := by
  unfold writeBootRecordRun
  refine .get fun s => ?_
  split
  · exact .set (Effects.adminReply ..)
  split
  · exact .set ((Effects.ada s { s.ada with flash := .writing x.body } rfl rfl).trans (Effects.adminReply ..))
  · exact .set (Effects.adminReply ..)

/-! ### The banks -/

/-- What is read from the words of an entry may be stored (R107 to R109, R183). -/
theorem readEntryWords_stored {k : TableKind} {ws : List W32} {e : Entry} (h : readEntryWords k ws = some e) :
    e.Stored ∧ e.kind = k := by
  cases k with
  | feature =>
    obtain ⟨f, hf, rfl⟩ := Option.map_eq_some_iff.1 h
    refine ⟨?_, rfl⟩
    unfold readFeatureEntry at hf
    split at hf
    · exact .inl (Option.some.inj hf).symm
    · next hcode =>
      dsimp only at hf
      split at hf
      · next hr =>
        cases hf
        exact .inr ⟨hcode, hr.1⟩
      · cases hf
  | pool =>
    obtain ⟨f, hf, rfl⟩ := Option.map_eq_some_iff.1 h
    refine ⟨?_, rfl⟩
    unfold readPoolEntry at hf
    split at hf
    · exact .inl (Option.some.inj hf).symm
    · dsimp only at hf
      split at hf
      · next hr =>
        cases hf
        exact .inr ⟨rfl, hr.1⟩
      · cases hf
  | site =>
    obtain ⟨f, hf, rfl⟩ := Option.map_eq_some_iff.1 h
    refine ⟨?_, rfl⟩
    unfold readSiteEntry at hf
    dsimp only at hf
    split at hf
    · exact .inl (Option.some.inj hf).symm
    · split at hf
      · next hr =>
        cases hf
        exact .inr ⟨rfl, hr.2.1, rfl⟩
      · cases hf
  | global =>
    obtain ⟨f, hf, rfl⟩ := Option.map_eq_some_iff.1 h
    refine ⟨?_, rfl⟩
    unfold readGlobalEntry at hf
    dsimp only at hf
    split at hf
    · next hr =>
      cases hf
      exact hr.1
    · cases hf

/-- The entries of a WRITE ENTRY that have passed may be stored. -/
def Storable (k : TableKind) (l : List (Nat × Entry)) : Prop := ∀ x ∈ l, x.2.Stored ∧ x.2.kind = k

theorem acts_checkCarried (k x earlier) (s : State) :
    Leads c (checkCarried k x earlier) s fun r _ => ∀ e, r = .ok e → e.Stored ∧ e.kind = k := by
  unfold checkCarried
  split
  · exact .pure nofun
  split
  · exact .pure nofun
  split
  · exact .pure nofun
  · next e he =>
    have duplicate : ∀ u : State, Leads c (do
        let s ← get
        if (s.standbyBank.writeAll k earlier).duplicate x.index e.featureCode then return Except.error Result.duplicateCode
        else
          check (.bankEntry s.standby k x.index)
          let s ← get
          if s.standbyBank.damaged k x.index then return Except.error Result.refusedState else return Except.ok e) u
        fun r _ => ∀ e, r = .ok e → e.Stored ∧ e.kind = k := by
      intro u
      refine .get ?_
      split
      · exact .pure nofun
      · refine (stays_check _ u).bind fun _ v _ => .get ?_
        split
        · exact .pure nofun
        · refine .pure fun e' he' => ?_
          cases he'
          exact readEntryWords_stored he
    refine .get ?_
    dsimp only
    split
    · exact (stays_check _ s).bind fun _ t _ => duplicate t
    · exact duplicate s

theorem acts_checkAllCarried (k l) : ∀ done, Storable k done → ∀ s : State,
    Leads c (checkAllCarried k l done) s fun r _ => ∀ l', r = .ok l' → Storable k l' := by
  induction l with
  | nil =>
    intro done hdone s
    exact .pure fun l' hl' => by cases hl'; exact hdone
  | cons x l ih =>
    intro done hdone s
    unfold checkAllCarried
    refine (acts_checkCarried k x done s).bind fun r t hr => ?_
    cases r with
    | error r => exact .pure nofun
    | ok e =>
      refine ih _ (fun y hy => ?_) t
      rcases List.mem_append.1 hy with hy | hy
      · exact hdone y hy
      · rw [List.mem_singleton.1 hy]
        exact hr e rfl

theorem acts_writeCarried (k) (l : List (Nat × Entry)) (hl : Storable k l) : Acts c (writeCarried k l) := by
  induction l with
  | nil => exact .pure _
  | cons x l ih =>
    obtain ⟨i, e⟩ := x
    obtain ⟨hstored, hkind⟩ := hl (i, e) List.mem_cons_self
    have written : Acts c (do modify (·.writeStandby k i e); writeCarried k l) :=
      (Acts.upd fun s => hkind ▸ (Effect.writeStandby s i e hstored).one).bind fun _ => ih fun y hy => hl y (List.mem_cons_of_mem _ hy)
    unfold writeCarried
    dsimp only
    split
    · exact (stays_checkActive _ _).acts.bind fun _ => written
    · exact written

theorem acts_writeEntryRun (x) : Acts c (writeEntryRun x) := by
  unfold writeEntryRun
  refine .get fun s => ?_
  split
  · exact acts_answer _ _ _ s
  split
  · exact acts_answer _ _ _ s
  split
  · exact acts_answer _ _ _ s
  · unfold writeEntries
    refine (acts_checkAllCarried _ _ [] (fun _ h => by cases h) s).bind fun r t hr => ?_
    cases r with
    | error r => exact acts_answer _ _ _ t
    | ok l => exact ((acts_writeCarried _ l (hr l rfl)).bind fun _ => acts_answer _ _ _) t

theorem acts_copyBankRun (x) : Acts c (copyBankRun x) := by
  unfold copyBankRun
  refine .get fun s => ?_
  split
  · exact .set (Effects.takeSlot ..)
  · exact .set (Effects.adminReply ..)

theorem acts_copyVisit (k i) : Acts c (copyVisit k i) := by
  unfold copyVisit
  exact (stays_checkActive _ _).acts.bind fun _ => .get fun s =>
    ((stays_check _).acts.bind fun _ => .upd fun s => (Effect.copyEntry ..).one) s

theorem acts_advanceEpochs (l) : Acts c (advanceEpochs l) := by
  induction l with
  | nil => exact .pure _
  | cons i l ih =>
    exact ((stays_check _).acts.bind fun _ => Acts.upd fun s => (Effect.featLive ..).one).attempt.bind fun _ => ih

theorem acts_flip : Acts c flip :=
  (Acts.upd fun s => (Effect.flipPointer s).one).bind fun _ => .get fun s =>
    ((acts_advanceEpochs _).bind fun _ => .upd fun s => Effects.startAllRuns s) s

theorem acts_swapBankRun (x) : Acts c (swapBankRun x) := by
  unfold swapBankRun
  refine .get fun s => ?_
  split
  · exact .set (Effects.adminReply ..)
  split
  · exact .set (Effects.adminReply ..)
  · exact .setBind (Effects.takeSlot ..) (acts_flip _)

/-! ### The long operations -/

theorem noteRecall_effects (r) (s : State) : Effects c s (s.noteRecall r) := Effects.mapCounts ..

theorem acts_reconcileGrant (i) : Acts c (reconcileGrant i) := by
  unfold reconcileGrant
  refine (stays_readSlot i).acts.bind fun g => ?_
  have stale : Acts c (do
      check (.featLive g.feature)
      let s ← get
      if s.epochCurrent g.feature g.epoch then pure () else recallGrant i .tableChanged State.noteRecall) := by
    refine (stays_check _).acts.bind fun _ => .get fun s => ?_
    split
    · exact .pure trivial
    · exact acts_recallGrant _ _ noteRecall_effects s
  split
  · exact stale
  · exact stale
  · exact stale
  all_goals exact .pure _

theorem acts_noteRemoved : Acts c (modify State.noteRemoved : Op Unit) := .upd fun _ => Effects.mapCounts ..

theorem acts_reconcileWaiter (i) : Acts c (reconcileWaiter i) := by
  unfold reconcileWaiter
  refine (stays_check _).acts.bind fun _ => .get fun s => ?_
  dsimp only
  split
  · refine ((stays_checkAll _).acts.bind fun _ => .get fun t => ?_) s
    split
    · exact ((acts_removeWaiter _ _ _ _).bind fun _ => acts_noteRemoved) t
    · exact .pure trivial
  · exact .pure trivial

theorem acts_reconcilePool (p) : Acts c (reconcilePool p) := (acts_pressure _ _).bind fun _ => acts_startRun p

theorem acts_auditRun (x) : Acts c (auditRun x) := by
  unfold auditRun
  refine .get fun s => ?_
  split
  · exact .set (Effects.adminReply ..)
  split
  · exact .set (Effects.adminReply ..)
  split
  · exact .set (Effects.adminReply ..)
  split
  · exact .set (Effects.adminReply ..)
  · exact .set (Effects.takeSlot ..)

theorem auditStep_effects (s : State) (a) : Effects c s (s.auditStep a) := by
  have hs : Led c s _ (readSlot a.cursor s) := stays_readSlot a.cursor s
  unfold State.auditStep
  cases hm : readSlot a.cursor s with
  | ok g t => rw [hm] at hs; exact hs.1.trans (Effects.op ..)
  | error e t => rw [hm] at hs; exact hs.trans (Effects.op ..)

theorem acts_scanRevokeRun (x) : Acts c (scanRevokeRun x) := by
  unfold scanRevokeRun
  refine .get fun s => ?_
  split
  · exact .set (Effects.adminReply ..)
  split
  · exact .set (Effects.adminReply ..)
  split
  · exact .set (Effects.adminReply ..)
  · exact .set (Effects.takeSlot ..)

theorem acts_scanGrant (t i) : Acts c (scanGrant t i) := by
  unfold scanGrant
  refine (stays_readSlot i).acts.bind fun g => ?_
  split
  · exact acts_recallGrant _ _ noteRecall_effects
  · exact .pure _

theorem acts_scanWaiter (t i) : Acts c (scanWaiter t i) := by
  unfold scanWaiter
  refine (stays_check _).acts.bind fun _ => .get fun s => ?_
  dsimp only
  split
  · exact ((acts_removeWaiter _ _ _ _).bind fun _ => acts_noteRemoved) s
  · exact .pure trivial

theorem acts_countRebuildRun (x) : Acts c (countRebuildRun x) := by
  unfold countRebuildRun
  refine .get fun s => ?_
  split
  · exact .set (Effects.adminReply ..)
  split
  · exact .set (Effects.adminReply ..)
  · exact .set (Effects.takeSlot ..)

theorem acts_rebuildLive (i g) : Acts c (rebuildLive i g) := by
  unfold rebuildLive
  refine (stays_checkAll _).acts.bind fun _ => .get fun s => ?_
  split
  · exact .set (Effects.mapRebuild ..)
  · exact ((stays_check _).acts.bind fun _ => .get fun t => .setBind (Effects.rebuildOrphan ..) (acts_afterRelease _ _)) s

theorem acts_rebuildVisit (i) : Acts c (rebuildVisit i) := by
  unfold rebuildVisit
  refine (stays_readSlot i).acts.bind fun g => ?_
  split
  · exact acts_rebuildLive _ _
  · exact acts_rebuildLive _ _
  · exact acts_rebuildLive _ _
  · exact acts_rebuildLive _ _
  · exact .upd fun s => Effects.rebuildFree ..
  · exact .upd fun s => Effects.mapRebuild ..

theorem acts_servePools (l) : Acts c (servePools l) := by
  induction l with
  | nil => exact .pure _
  | cons p l ih => exact (acts_pressure _ _).bind fun _ => (acts_startRun p).bind fun _ => ih

theorem acts_rebuildFinish (r) : Acts c (rebuildFinish r) := by
  unfold rebuildFinish
  exact .get fun s => ((stays_checkAll _).acts.bind fun _ => (Acts.upd fun s => Effects.rebuildDone ..).bind fun _ =>
    acts_servePools _) s

theorem acts_serviceResetRun (x) : Acts c (serviceResetRun x) := by
  unfold serviceResetRun
  refine .get fun s => ?_
  split
  · exact .set (Effects.adminReply ..)
  · refine .set (Relation.ReflTransGen.trans ?_ (Effects.takeSlot ..))
    split
    · exact .refl
    · exact Effects.abortOp s

end Sys2Proof.Machine

/-!
PROOFS. What a command writes: but for power-on, a command leaves the state it finds, or one that a chain of its writes reaches from the
state with its struck words.
-/
namespace Sys2Proof.Machine

variable {c : Instr}

/-! ### Taking datagrams and visits -/

theorem attends_of_servedIn {k : CexKind} {v : Service} (h : k.servedIn v = true) : v.attends = true := by
  cases v
  case on => rfl
  case drain => rfl
  all_goals cases k <;> cases h

theorem takeClient_effects {k serve} (h : ∀ d s, s.ada.service.attends = true → Leads c (serve d) s fun _ _ => True)
    (s : State) : Effects c s (takeClient k serve s) := by
  unfold takeClient
  split
  · next d rest hintake hwork =>
    split
    · have htaken : Effects c s { s with exu.intake := rest } :=
        (Effect.exu s ⟨rest, s.exu.work⟩ (.inl (by rw [hintake]; exact Nat.le_succ _))).one
      dsimp only
      split
      · exact htaken.tail (.handBack ..)
      · next hserved =>
        split
        · have hattends : s.ada.service.attends = true := by
            simp only [Bool.or_eq_true, Bool.not_eq_true', not_or, Bool.not_eq_false] at hserved
            exact attends_of_servedIn hserved.2
          refine htaken.trans ?_
          have hled : Led c _ _ (serve d { s with exu.intake := rest }) := h d _ hattends
          unfold settle
          cases hm : serve d { s with exu.intake := rest } with
          | ok a t => rw [hm] at hled; exact hled.1
          | error e t => rw [hm] at hled; exact hled
        · exact htaken.trans (Effects.denyMalformed ..)
    · exact .refl
  · exact .refl

theorem takeAdmin_effects {code run} (h : ∀ x s, s.ada.service.serving = true → Leads c (run x) s fun _ _ => True) (s : State) :
    Effects c s (takeAdmin code run s) := by
  unfold takeAdmin
  split
  · exact .refl
  · next d rest hintake =>
    split
    · exact .refl
    · next station _ =>
      split
      · next haccepted =>
        have hserving : s.ada.service.serving = true := by
          simp only [Bool.and_eq_true] at haccepted
          exact haccepted.1.1
        have htaken : Effects c s (State.noteNeighbour station d { s with ada.intake := rest }) :=
          (Effect.ada s { s.ada with intake := rest } rfl (.inl (by rw [hintake]; exact Nat.le_succ _))).one.tail (.neighbour ..)
        dsimp only
        split
        · refine htaken.trans ?_
          have hled : Led c _ _ (run ⟨code, d.issuer station, adminBody d.payload⟩
            (State.noteNeighbour station d { s with ada.intake := rest })) := h _ _ hserving
          split
          · next a t hm => rw [hm] at hled; exact hled.1
          · next e t hm => rw [hm] at hled; exact hled.trans (Effects.adminReply ..)
        · exact htaken.trans (Effects.adminReply ..)
      · exact .refl

theorem takeAdmin_acts {code run} (h : ∀ x, Acts c (run x)) (s : State) : Effects c s (takeAdmin code run s) :=
  takeAdmin_effects (fun x s _ => h x s) s

theorem takeClient_acts {k serve} (h : ∀ d, Acts c (serve d)) (s : State) : Effects c s (takeClient k serve s) :=
  takeClient_effects (fun d s _ => h d s) s

theorem Swp.setPass_mt (w : Swp) (id : PassId) (p : Pass) : (w.setPass id p).mt = w.mt := by cases id <;> rfl

theorem passVisit_effects {id act} (h : ∀ l i, Acts c (act l i)) (s : State) : Effects c s (passVisit id act s) := by
  unfold passVisit
  split
  · exact .refl
  · exact ((h _ _).settled s).tail (.swp _ _ (.inr (Swp.setPass_mt ..)))

theorem reconcileVisit_effects {ph act} (h : ∀ i, Acts c (act i)) (s : State) : Effects c s (reconcileVisit ph act s) := by
  unfold reconcileVisit
  split
  · split
    · exact ((h _).settled s).trans (Effects.phaseOn _)
    · exact .refl
  · exact .refl

theorem scanVisit_effects {ph act} (h : ∀ t i, Acts c (act t i)) (s : State) : Effects c s (scanVisit ph act s) := by
  unfold scanVisit
  split
  · split
    · exact ((h _ _).settled s).trans (Effects.phaseOn _)
    · exact .refl
  · exact .refl

/-! ### Changes of service state (R159, R168, R169) -/

theorem Effects.enterService {s : State} {new : Service} (hm : c.movesService = true)
    (h : new.attends = true ∨ s.ada.service.serving = false) : Effects c s (s.enterService new) :=
  (Effect.serve s new hm h).one.tail (.notice ..)

theorem acts_setServiceRun (hm : c.movesService = true) (x) : Acts c (setServiceRun x) := by
  have enters : ∀ (s : State) (new : Service), new.attends = true →
      Leads c (do set (s.enterService new); answer x .done [] : Op Unit) s fun _ _ => True :=
    fun s new hn => .setBind (Effects.enterService hm (.inl hn)) (acts_answer _ _ _ _)
  have drains : Acts c enterDrain :=
    .get fun s => ((acts_removeAll _ _).bind fun _ => .upd fun _ => Effects.enterService (new := .drain) hm (.inl rfl)) s
  unfold setServiceRun
  refine .get fun s => ?_
  split
  · exact acts_answer _ _ _ s
  split
  · exact acts_answer _ _ _ s
  split
  · split
    · exact acts_answer _ _ _ s
    · exact enters s .on rfl
  split
  · split
    · exact (drains.bind fun _ => acts_answer _ _ _) s
    all_goals exact acts_answer _ _ _ s
  split
  · split
    · exact acts_answer _ _ _ s
    · split
      · exact enters s .off rfl
      · exact acts_answer _ _ _ s
    all_goals exact acts_answer _ _ _ s
  · exact acts_answer _ _ _ s

theorem bootRead_effects {s : State} (hm : c.movesService = true) (hs : s.ada.service = .starting) (b) :
    Effects c s (s.bootRead b) := by
  have hserving : s.ada.service.serving = false := by rw [hs]; rfl
  unfold State.bootRead
  split
  · have haddrs := (Effect.addrs (c := c) s (some (bootAddrs b))).one
    have hread := haddrs.trans (Effects.ada _ { s.ada with bootCopy := b, bootReading := false } rfl rfl)
    exact hread.trans (Effects.enterService (new := .on) hm (.inl rfl))
  · exact (Effects.ada s { s.ada with bootReading := false } rfl rfl).tail (.serve _ .passOnly hm (.inr hserving))

theorem resetDone_effects (s : State) (hm : c.movesService = true) : Effects c s s.resetDone := by
  refine (((Effect.clearRecords s).one.trans (b := s.clearRecords) (c := s.clearRecords.restartPasses) ?_).trans ?_).trans (Effects.completeOp ..)
  · unfold State.restartPasses
    split
    · have hmt : ({ s.swp with grantPass.cursor := 0, waiterPass.cursor := 0, clientPass.cursor := 0 } : Swp).mt = s.swp.mt := rfl
      exact (Effect.swp s.clearRecords _ (.inr hmt)).one
    · exact .refl
  · unfold State.serviceOn
    split
    · exact .refl
    · exact Effects.enterService (new := .on) hm (.inl rfl)

/-! ### The ports -/

/-- A port's link, pin, mark or line is written, its frames standing. -/
theorem portLevels_effects {s : State} {p : Port} {ps : PortState} (hf : ps.forward = (s.port p).forward)
    (ho : ps.originate = (s.port p).originate) : Effects c s (s.setPort p ps) :=
  (Effect.port s p ps (.inl (by rw [hf])) (by rw [ho])).one

theorem forwardTo_effects (s : State) (q fr) : Effects c s (s.forwardTo q fr) := by
  unfold State.forwardTo
  dsimp only
  split
  · next h =>
    simp only [Bool.and_eq_true, decide_eq_true_eq] at h
    exact (Effect.port s q { s.port q with forward := (s.port q).forward ++ [fr] } (.inr (by rw [List.length_append]; exact h.2)) le_rfl).one
  · exact .refl

theorem arriveAdmin_effects (s : State) (u p fr) : Effects c s (s.arriveAdmin u p fr) := by
  unfold State.arriveAdmin
  split
  · split
    · next h => exact (Effect.ada s { s.ada with intake := s.ada.intake ++ [u.candidate p fr] } rfl (.inr (by rw [List.length_append]; exact h))).one
    · exact Effects.stats ..
  · exact Effects.stats ..

theorem arriveIntercept_effects (s : State) (u p fr) : Effects c s (s.arriveIntercept u p fr) := by
  unfold State.arriveIntercept
  split
  · split
    · next h => exact (Effect.exu s ⟨s.exu.intake ++ [u.candidate p fr], s.exu.work⟩ (.inr (by rw [List.length_append]; exact h))).one
    · unfold State.overflow
      split
      · exact (Effects.stats s _).trans (forwardTo_effects _ .s fr)
      · exact .refl
  · exact Effects.stats ..

theorem arrive_effects (s : State) (p fr) : Effects c s (s.arrive p fr) := by
  unfold State.arrive
  split
  · split
    · exact arriveAdmin_effects ..
    · exact arriveIntercept_effects ..
    · exact forwardTo_effects ..
  · exact forwardTo_effects ..

/-- A port that begins a frame takes it from the head of one of its two sources (R153). -/
theorem PortState.next_shrinks (b : Bool) (ps : PortState) :
    (ps.next b).forward.length ≤ ps.forward.length ∧ (ps.next b).originate.length ≤ ps.originate.length := by
  unfold PortState.next
  split
  · exact ⟨le_rfl, le_rfl⟩
  · next hf ho => simp [hf, ho]
  · next hf ho => simp [hf, ho]
  · next hf ho => split <;> simp [hf, ho]

/-! ### Every command -/

/-- The commands that RESET_N low holds off. -/
theorem awake_effects {s : State} {f : State → State} {hits : List Hit} (h : Effects c (s.strike hits) (f s)) {t : State}
    (ht : (Host.Outcome.next (awake s f) : Out) = .next t) : t = s ∨ Effects c (s.strike hits) t := by
  injection ht with ht
  subst ht
  unfold awake
  split
  · exact .inl rfl
  · exact .inr h

theorem noticeHandoff_effects (s : State) {t : State} (h : execNoticeHandoff s = .next t) : t = s ∨ Effects c s t := by
  refine awake_effects (hits := []) ?_ h
  change Effects c s _
  split
  · exact .refl
  · next n rest hn =>
    split
    · exact (Effect.handoff s n rest hn).one.tail (.originate ..)
    · exact .refl

theorem adminCandidateRefused_effects (s : State) {t : State} (h : execAdminCandidateRefused s = .next t) :
    t = s ∨ Effects c s t := by
  refine awake_effects (hits := []) ?_ h
  change Effects c s _
  split
  · exact .refl
  · next d rest hintake =>
    split
    · have htaken : Effects c s { s with ada.intake := rest } :=
        (Effect.ada s { s.ada with intake := rest } rfl (.inl (by rw [hintake]; exact Nat.le_succ _))).one
      dsimp only
      split
      · exact htaken.tail (.soft ..)
      · split
        · exact htaken.trans (Effects.stats _ _)
        · split
          · exact .refl
          · exact (htaken.tail (.neighbour ..)).trans (Effects.adminSend ..)
    · exact .refl

theorem renewHandle_effects (s : State) (hits) {t : State} (h : execRenewHandle hits s = .next t) :
    t = s ∨ Effects c (s.strike hits) t := by
  refine awake_effects (hits := hits) ?_ h
  dsimp only
  split
  · next w _ =>
    split
    · next h rest _ =>
      have hled : Led c _ _ (renewStep w h rest (s.strike hits)) := acts_renewStep w h rest _
      split
      · next a u hm => rw [hm] at hled; exact hled.1
      · next e u hm => rw [hm] at hled; exact hled.trans (Effects.work ..)
    · exact .refl
  · exact .refl

theorem poolServiceRound_effects (s : State) (r hits) {t : State} (h : execPoolServiceRound r hits s = .next t) :
    t = s ∨ Effects c (s.strike hits) t := by
  refine awake_effects (hits := hits) ?_ h
  dsimp only
  split
  · exact .refl
  · split
    · exact (acts_finishRun _).settled _
    · split
      · exact closeRound_effects (acts_serviceRound _ _) _ _ _
      · exact (Effects.mapRun ..).trans (closeRound_effects (acts_generalHead _) _ _ _)

/-- A step of a long operation, made while the slot holds it. -/
theorem visit_effects {s u : State} {p : Prop} [Decidable p] (h : Effects c s u) : Effects c s (if p then u else s) :=
  Effects.iteWrite h

theorem exec_effects {s t : State} (hc : c.isPowerOn = false) (h : exec c s = .next t) :
    t = s ∨ Effects c (s.strike c.hits) t := by
  cases c with
  | resetN => cases hc
  | resetNLow => cases hc
  | bootReadCompletion read =>
    refine awake_effects (hits := []) ?_ h
    change Effects _ s _
    split
    · next hs => exact bootRead_effects rfl hs.1 _
    · exact .refl
  | linkUp p =>
    refine awake_effects (hits := []) (Effects.iteWrite ?_) h
    exact portLevels_effects (s := s) rfl rfl
  | linkDown p cause =>
    refine awake_effects (hits := []) ?_ h
    cases cause
    · exact portLevels_effects (s := s) rfl rfl
    · exact portLevels_effects (s := s) rfl rfl
  | mtAdvance => exact awake_effects (hits := []) (Effect.swp s _ (.inl rfl)).one h
  | frameArrival p fr => exact awake_effects (hits := []) (Effects.iteWrite (arrive_effects s p fr)) h
  | portReady p =>
    refine awake_effects (hits := []) (Effects.iteWrite ?_) h
    exact (Effect.port s p _ (.inl (PortState.next_shrinks ..).1) (PortState.next_shrinks ..).2).one
  | claim hits => exact awake_effects (takeClient_effects (fun _ _ hs => acts_claimServe hs) _) h
  | renew hits => exact awake_effects (takeClient_acts acts_renewServe _) h
  | renewHandle hits => exact renewHandle_effects s hits h
  | yieldGrant hits => exact awake_effects (takeClient_acts acts_yieldServe _) h
  | query hits => exact awake_effects (takeClient_acts acts_queryServe _) h
  | withdraw hits => exact awake_effects (takeClient_acts acts_withdrawServe _) h
  | poolServiceRound r hits => exact poolServiceRound_effects s r hits h
  | grantPassVisit hits => exact awake_effects (passVisit_effects (fun _ => acts_grantVisit) _) h
  | waiterPassVisit hits => exact awake_effects (passVisit_effects (fun _ => acts_waiterVisit) _) h
  | poolPassVisit hits => exact awake_effects (passVisit_effects (fun _ => acts_poolVisit) _) h
  | clientPassVisit hits => exact awake_effects (passVisit_effects acts_clientVisit _) h
  | noticeHandoff => exact noticeHandoff_effects s h
  | readStatus => exact awake_effects (hits := []) (takeAdmin_acts acts_readStatusRun s) h
  | readEntry hits => exact awake_effects (takeAdmin_acts acts_readEntryRun _) h
  | readPool hits => exact awake_effects (takeAdmin_acts (acts_readOne _ _ _) _) h
  | readFeatureLive hits => exact awake_effects (takeAdmin_acts (acts_readOne _ _ _) _) h
  | readGrant hits => exact awake_effects (takeAdmin_acts (acts_readOne _ _ _) _) h
  | readWaiter hits => exact awake_effects (takeAdmin_acts (acts_readOne _ _ _) _) h
  | readClient hits => exact awake_effects (takeAdmin_acts acts_readClientRun _) h
  | writeEntry hits => exact awake_effects (takeAdmin_acts acts_writeEntryRun _) h
  | setTime => exact awake_effects (hits := []) (takeAdmin_acts acts_setTimeRun s) h
  | setWithhold hits => exact awake_effects (takeAdmin_acts acts_setWithholdRun _) h
  | setService hits => exact awake_effects (takeAdmin_acts (acts_setServiceRun rfl) _) h
  | revokeHandle hits => exact awake_effects (takeAdmin_acts acts_revokeHandleRun _) h
  | clearCapture => exact awake_effects (hits := []) (takeAdmin_acts acts_clearCaptureRun s) h
  | writeBootRecord => exact awake_effects (hits := []) (takeAdmin_acts acts_writeBootRecordRun s) h
  | flashWriteCompletion b =>
    refine awake_effects (hits := []) ?_ h
    change Effects _ s _
    split
    · exact Effects.ada s _ rfl rfl
    · exact .refl
  | copyBank => exact awake_effects (hits := []) (takeAdmin_acts acts_copyBankRun s) h
  | copyBankVisit hits =>
    refine awake_effects (hits := hits) ?_ h
    dsimp only
    split
    · exact Effects.iteWrite (((acts_copyVisit _ _).settled _).trans (Effects.op _ _))
    · exact .refl
  | copyBankCompletion => exact awake_effects (hits := []) (Effects.iteWrite (Effects.copyDone s)) h
  | swapBank hits => exact awake_effects (takeAdmin_acts acts_swapBankRun _) h
  | reconcileGrantVisit hits => exact awake_effects (reconcileVisit_effects acts_reconcileGrant _) h
  | reconcileWaiterVisit hits => exact awake_effects (reconcileVisit_effects acts_reconcileWaiter _) h
  | reconcilePoolVisit hits => exact awake_effects (reconcileVisit_effects acts_reconcilePool _) h
  | reconcileCompletion =>
    refine awake_effects (hits := []) ?_ h
    change Effects _ s _
    split
    · exact Effects.iteWrite (Effects.completeOp ..)
    · exact .refl
  | audit => exact awake_effects (hits := []) (takeAdmin_acts acts_auditRun s) h
  | auditVisit hits =>
    refine awake_effects (hits := hits) ?_ h
    dsimp only
    split
    · split
      · exact .refl
      · exact auditStep_effects ..
    · exact .refl
  | auditCompletion =>
    refine awake_effects (hits := []) ?_ h
    change Effects _ s _
    split
    · exact Effects.iteWrite (Effects.completeOp ..)
    · exact .refl
  | scanRevoke => exact awake_effects (hits := []) (takeAdmin_acts acts_scanRevokeRun s) h
  | scanRevokeGrantVisit hits => exact awake_effects (scanVisit_effects acts_scanGrant _) h
  | scanRevokeWaiterVisit hits => exact awake_effects (scanVisit_effects acts_scanWaiter _) h
  | scanRevokeCompletion =>
    refine awake_effects (hits := []) ?_ h
    change Effects _ s _
    split
    · exact Effects.iteWrite (Effects.completeOp ..)
    · exact .refl
  | countRebuild => exact awake_effects (hits := []) (takeAdmin_acts acts_countRebuildRun s) h
  | countRebuildVisit hits =>
    refine awake_effects (hits := hits) ?_ h
    dsimp only
    split
    · exact Effects.iteWrite ((acts_rebuildVisit _).settled _)
    · exact .refl
  | countRebuildCompletion hits =>
    refine awake_effects (hits := hits) ?_ h
    dsimp only
    split
    · exact Effects.iteWrite ((acts_rebuildFinish _).settled _)
    · exact .refl
  | serviceReset => exact awake_effects (hits := []) (takeAdmin_acts acts_serviceResetRun s) h
  | serviceResetCompletion => exact awake_effects (hits := []) (Effects.iteWrite (resetDone_effects s rfl)) h
  | modulePresenceChange p present =>
    injection h with h
    subst h
    exact .inr (portLevels_effects (s := s) rfl rfl)
  | cexDatagramOfOtherKind =>
    exact awake_effects (hits := []) (takeClient_acts (fun _ => .upd fun _ => Effects.denyMalformed ..) s) h
  | adminCandidateRefused => exact adminCandidateRefused_effects s h

/-! ### Properties that hold after every step -/

/-- A property that power-on establishes, and that the taking of a command, the striking of words and every single write keep, is kept
by every step. -/
theorem step_keeps {P : State → Prop} (hreset : ∀ low s, P (State.powerOn low s))
    (hpending : ∀ s rest, P s → P { s with pending := rest }) (hstrike : ∀ s hits, P s → P (s.strike hits))
    (heffect : ∀ c s t, Effect c s t → P s → P t) {s t : State} (hs : P s) (h : step s = .next t) : P t := by
  unfold step at h
  split at h
  · injection h with h
    exact h ▸ hs
  · next c rest _ =>
    by_cases hc : c.isPowerOn = true
    · cases c with
      | resetN => injection h with h; exact h ▸ hreset ..
      | resetNLow => injection h with h; exact h ▸ hreset ..
      | _ => cases hc
    · rcases exec_effects (Bool.eq_false_iff.2 hc) h with rfl | he
      · exact hpending _ _ hs
      · exact he.keeps (heffect c) (hstrike _ _ (hpending _ _ hs))

end Sys2Proof.Machine

/-!
PROOFS. Invariants that each single write keeps: MT (R93), the sizes of the queues (R148, R149, R152, R177), the canonical form of the
sparse stores.
-/
namespace Sys2Proof.Machine

variable {s t : State} {c : Instr}

/-! ### The loss of a word (R171 to R173) -/

@[simp] theorem State.zeroWord_pending (w : MemWord) : (s.zeroWord w).pending = s.pending := by cases w <;> rfl
@[simp] theorem State.zeroWord_resetLow (w : MemWord) : (s.zeroWord w).resetLow = s.resetLow := by cases w <;> rfl
@[simp] theorem State.zeroWord_damage (w : MemWord) : (s.zeroWord w).damage = s.damage := by cases w <;> rfl
@[simp] theorem State.zeroWord_lnk (w : MemWord) : (s.zeroWord w).lnk = s.lnk := by cases w <;> rfl
@[simp] theorem State.zeroWord_exu (w : MemWord) : (s.zeroWord w).exu = s.exu := by cases w <;> rfl
@[simp] theorem State.zeroWord_tbs (w : MemWord) : (s.zeroWord w).tbs = s.tbs := by cases w <;> rfl
@[simp] theorem State.zeroWord_swp (w : MemWord) : (s.zeroWord w).swp = s.swp := by cases w <;> rfl
@[simp] theorem State.zeroWord_ada (w : MemWord) : (s.zeroWord w).ada = s.ada := by cases w <;> rfl
@[simp] theorem State.zeroWord_fnu (w : MemWord) : (s.zeroWord w).fnu = s.fnu := by cases w <;> rfl

/-- The device in FAULTED, its wait store and client table cleared and its passes stopped (points 3 to 5 of R173). -/
def State.faultedCleared (s : State) : State :=
  { s.enterService .faulted with
    wts := .clear
    clt := .clear
    exu := { s.exu with work := none }
    swp := { s.swp with grantPass.rounds := [], waiterPass.rounds := [], clientPass.rounds := [] }
    damage := s.damage.filter fun h => !wordClearedByFaulted h.word }

/-- Entry to FAULTED out of ON, DRAIN or OFF, the rebuild aborted (point 6 of R173). -/
theorem State.enterFaulted_attending (h : s.ada.service.attends = true) :
    s.enterFaulted = if s.ada.op.isRebuild then s.faultedCleared.abortOp else s.faultedCleared := by
  have hstates : s.ada.service = .on ∨ s.ada.service = .drain ∨ s.ada.service = .off := by
    cases hs : s.ada.service <;> simp_all [Service.attends]
  unfold State.enterFaulted
  rw [if_pos hstates]
  have hcleared : State.faultedCleared s = { s.enterService .faulted with
      wts := .clear, clt := .clear, exu.work := none, swp.grantPass.rounds := [], swp.waiterPass.rounds := []
      swp.clientPass.rounds := [], damage := (s.enterService .faulted).damage.filter fun h => !wordClearedByFaulted h.word } := by
    simp [State.faultedCleared]
  simp only [← hcleared]
  simp [State.faultedCleared]

theorem State.enterFaulted_keeps {P : State → Prop} (hclear : s.ada.service.attends = true → P s.faultedCleared)
    (habort : ∀ u, P u → P u.abortOp) (hs : P s) : P s.enterFaulted := by
  by_cases h : s.ada.service.attends = true
  · rw [State.enterFaulted_attending h]
    split
    · exact habort _ (hclear h)
    · exact hclear h
  · rw [enterFaulted_stays s (Bool.eq_false_iff.2 h)]
    exact hs

/-! ### MT (R93) -/

theorem Effect.mt (h : Effect c s t) (hc : c ≠ .mtAdvance) : t.swp.mt = s.swp.mt := by
  cases h with
  | swp w hw => exact hw.resolve_left hc
  | forgetCode b code => simp [State.forgetCode]
  | writeStandby i e => simp [State.writeStandby, apply_ite]
  | copyEntry k i => simp [State.copyEntry, apply_ite]
  | lost w d =>
    refine State.enterFaulted_keeps (P := fun u => u.swp.mt = s.swp.mt) (fun _ => ?_) (fun u hu => ?_) ?_
    · simp [State.faultedCleared]
    · simpa using hu
    · simp
  | addrs | captures | handoff | exu | ada | serve | table | runs | idle | clearRecords => rfl
  | _ => simp

/-- Settles O12: MT is written only by `Effect.swp`, which moves it at MT_ADVANCE only. -/
theorem onlyMtAdvanceMovesMT : Obligations.OnlyMtAdvanceMovesMT := by
  intro c s t htime hpower h
  rcases exec_effects hpower h with rfl | he
  · rfl
  · exact he.keeps (P := fun u => u.swp.mt = s.swp.mt) (fun u v h hu => (h.mt htime).trans hu) rfl

/-! ### The queues (R148, R149, R152, R177) -/

theorem State.QueuesBounded.congr (h : s.QueuesBounded) (hl : t.lnk = s.lnk) (hn : t.fnu.notices = s.fnu.notices)
    (he : t.exu.intake = s.exu.intake) (ha : t.ada.intake = s.ada.intake) : t.QueuesBounded := by
  refine ⟨?_, ?_, ?_, ?_, ?_, ?_, ?_⟩
  · rw [hn]; exact h.notices
  · rw [hl]; exact h.originateF
  · rw [hl]; exact h.originateS
  · rw [hl]; exact h.forwardF
  · rw [hl]; exact h.forwardS
  · rw [he]; exact h.exuIntake
  · rw [ha]; exact h.adaIntake

theorem State.appendNotice_bounded (h : s.QueuesBounded) (hroom : s.noticeQueueFull = false) (b) :
    (s.appendNotice b).QueuesBounded := by
  have hlt : s.fnu.notices.length < Config.noticeQueue := by simpa [State.noticeQueueFull] using hroom
  refine ⟨?_, h.originateF, h.originateS, h.forwardF, h.forwardS, h.exuIntake, h.adaIntake⟩
  rw [State.appendNotice, List.length_append]
  exact hlt

theorem State.noticeLost_bounded (h : s.QueuesBounded) (k) : (s.noticeLost k).QueuesBounded := by
  have hgiven : ∀ a, ({ s with fnu.lost := true, fnu.soft := a } : State).QueuesBounded := fun a => h.congr rfl rfl rfl rfl
  unfold State.noticeLost
  dsimp only
  split
  · exact hgiven _
  · split
    · exact hgiven _
    · next hroom => exact State.appendNotice_bounded (hgiven _) (Bool.eq_false_iff.2 hroom) _

theorem State.queueNotice_bounded (h : s.QueuesBounded) (b) : (s.queueNotice b).QueuesBounded := by
  unfold State.queueNotice
  split
  · exact State.noticeLost_bounded h _
  · next hroom => exact State.appendNotice_bounded h (Bool.eq_false_iff.2 hroom) b

theorem State.softEvent_bounded (h : s.QueuesBounded) (e) : (s.softEvent e).QueuesBounded := by
  unfold State.softEvent
  dsimp only
  split
  · exact h.congr rfl rfl rfl rfl
  · refine State.queueNotice_bounded ?_ _
    exact h.congr rfl rfl rfl rfl

theorem State.hardEvent_bounded (h : s.QueuesBounded) (e) : (s.hardEvent e).QueuesBounded := by
  unfold State.hardEvent
  dsimp only
  split
  · exact h.congr rfl rfl rfl rfl
  · refine State.queueNotice_bounded ?_ _
    exact h.congr rfl rfl rfl rfl

theorem State.QueuesBounded.port (h : s.QueuesBounded) (p : Port) :
    (s.port p).originate.length ≤ Config.originateQueue ∧ (s.port p).forward.length ≤ Config.forwardPath := by
  cases p
  · exact ⟨h.originateF, h.forwardF⟩
  · exact ⟨h.originateS, h.forwardS⟩

theorem State.setPort_bounded (h : s.QueuesBounded) (p : Port) {ps : PortState}
    (ho : ps.originate.length ≤ Config.originateQueue) (hf : ps.forward.length ≤ Config.forwardPath) :
    (s.setPort p ps).QueuesBounded := by
  cases p
  · exact ⟨h.notices, ho, h.originateS, hf, h.forwardS, h.exuIntake, h.adaIntake⟩
  · exact ⟨h.notices, h.originateF, ho, h.forwardF, hf, h.exuIntake, h.adaIntake⟩

theorem State.originate_bounded (h : s.QueuesBounded) (p n a b) : (s.originate p n a b).QueuesBounded := by
  have hident : ({ s with lnk.ident := s.lnk.ident + 1 } : State).QueuesBounded :=
    ⟨h.notices, h.originateF, h.originateS, h.forwardF, h.forwardS, h.exuIntake, h.adaIntake⟩
  have hdropped : (State.countDropped { s with lnk.ident := s.lnk.ident + 1 }).QueuesBounded := hident.congr rfl rfl rfl rfl
  unfold State.originate
  dsimp only
  split
  · next hroom => exact State.setPort_bounded hident p (by rw [List.length_append]; exact hroom) (hident.port p).2
  · cases n
    · exact hdropped
    · exact State.noticeLost_bounded hdropped _

theorem State.handBack_bounded (h : s.QueuesBounded) (d) : (s.handBack d).QueuesBounded := by
  unfold State.handBack
  dsimp only
  split
  · next hroom =>
    refine ⟨h.notices, h.originateF, h.originateS, h.forwardF, ?_, h.exuIntake, h.adaIntake⟩
    rw [List.length_append]
    exact hroom
  · exact h.congr rfl rfl rfl rfl

theorem State.abortOp_bounded (h : s.QueuesBounded) : s.abortOp.QueuesBounded :=
  (State.originate_bounded h ..).congr (t := s.abortOp) rfl rfl rfl rfl

theorem State.lost_bounded (h : s.QueuesBounded) (w e) : (((s.heal w).zeroWord w).hardEvent e).enterFaulted.QueuesBounded := by
  have hzero : ((s.heal w).zeroWord w).QueuesBounded := h.congr (by simp) (by simp) (by simp) (by simp)
  refine State.enterFaulted_keeps (fun _ => ?_) (fun u => State.abortOp_bounded) (State.hardEvent_bounded hzero e)
  have hfaulted : ((((s.heal w).zeroWord w).hardEvent e).enterService .faulted).QueuesBounded := by
    refine State.queueNotice_bounded ?_ _
    exact (State.hardEvent_bounded hzero e).congr rfl rfl rfl rfl
  exact hfaulted.congr rfl rfl (by simp [State.faultedCleared]) rfl

theorem Effect.queuesBounded (he : Effect c s t) (h : s.QueuesBounded) : t.QueuesBounded := by
  cases he with
  | port p ps hf ho =>
    exact State.setPort_bounded h p (ho.trans (h.port p).1) (hf.elim (fun hf => hf.trans (h.port p).2) id)
  | originate => exact State.originate_bounded h ..
  | handBack => exact State.handBack_bounded h _
  | addrs => exact ⟨h.notices, h.originateF, h.originateS, h.forwardF, h.forwardS, h.exuIntake, h.adaIntake⟩
  | neighbour => exact ⟨h.notices, h.originateF, h.originateS, h.forwardF, h.forwardS, h.exuIntake, h.adaIntake⟩
  | notice => exact State.queueNotice_bounded h _
  | soft => exact State.softEvent_bounded h _
  | hard => exact State.hardEvent_bounded h _
  | handoff n rest hn =>
    have hlen : rest.length ≤ Config.noticeQueue := (Nat.le_succ _).trans (by simpa [hn] using h.notices)
    exact ⟨hlen, h.originateF, h.originateS, h.forwardF, h.forwardS, h.exuIntake, h.adaIntake⟩
  | exu x hx =>
    exact ⟨h.notices, h.originateF, h.originateS, h.forwardF, h.forwardS, hx.elim (·.trans h.exuIntake) id, h.adaIntake⟩
  | ada a hs ha =>
    exact ⟨h.notices, h.originateF, h.originateS, h.forwardF, h.forwardS, h.exuIntake, ha.elim (·.trans h.adaIntake) id⟩
  | lost w d => exact State.lost_bounded h w _
  | captures | serve | swp | table | runs | idle | clearRecords => exact h.congr rfl rfl rfl rfl
  | forgetCode => refine h.congr ?_ ?_ ?_ ?_ <;> simp [State.forgetCode]
  | writeStandby => refine h.congr ?_ ?_ ?_ ?_ <;> simp [State.writeStandby, apply_ite]
  | copyEntry => refine h.congr ?_ ?_ ?_ ?_ <;> simp [State.copyEntry, apply_ite]
  | _ => exact h.congr (by simp) (by simp) (by simp) (by simp)

theorem State.powerOn_bounded (low : Bool) (s : State) : (State.powerOn low s).QueuesBounded :=
  ⟨Nat.zero_le _, Nat.zero_le _, Nat.zero_le _, Nat.zero_le _, Nat.zero_le _, Nat.zero_le _, Nat.zero_le _⟩

/-- Settles O55: a frame, notice or datagram joins its queue only where there is room, and every other write leaves the queues. -/
theorem queuesStayBounded : Obligations.QueuesStayBounded := fun _ _ hs h =>
  step_keeps State.powerOn_bounded (fun _ _ hs => hs.congr rfl rfl rfl rfl) (fun _ _ hs => hs.congr rfl rfl rfl rfl)
    (fun _ _ _ he => he.queuesBounded) hs h

/-! ### The canonical form of the sparse stores -/

theorem Bank.Canonical.store {b : Bank} (h : b.Canonical) (i : Nat) (e : Entry) : (b.store i e).Canonical := by
  cases e with
  | feature e => exact { h with features := Tab.wf_put _ _ i e h.features }
  | pool e => exact { h with pools := Tab.wf_put _ _ i e h.pools }
  | site e => exact { h with sites := Tab.wf_put _ _ i e h.sites }
  | global e => exact { h with }

theorem Bank.Canonical.mark {b : Bank} (h : b.Canonical) (k : TableKind) (i : Nat) (d : Bool) : (b.mark k i d).Canonical := by
  cases k with
  | feature => exact { h with damagedFeatures := Tab.wf_put _ _ i d h.damagedFeatures }
  | pool => exact { h with damagedPools := Tab.wf_put _ _ i d h.damagedPools }
  | site => exact { h with damagedSites := Tab.wf_put _ _ i d h.damagedSites }
  | global => exact { h with }

theorem Bank.Canonical.redirect {b : Bank} (h : b.Canonical) (i : Nat) (code : W32) : (b.redirect i code).Canonical := by
  have hkept := Tab.wf_filter none (fun kv => decide (kv.2 ≠ some i)) b.directory h.directory
  unfold Bank.redirect
  dsimp only
  split
  · exact { h with directory := hkept }
  · exact { h with directory := Tab.wf_put _ _ code.toNat (some i) hkept }

theorem Bank.Canonical.write {b : Bank} (h : b.Canonical) (k : TableKind) (i : Nat) (e : Entry) : (b.write k i e).Canonical := by
  have hmarked := (h.store i e).mark k i false
  have hsummed : ∀ sum, ({ (b.store i e).mark k i false with sum := sum } : Bank).Canonical := fun _ => { hmarked with }
  unfold Bank.write
  dsimp only
  split
  · exact (hsummed _).redirect i e.featureCode
  · exact hsummed _

theorem State.Canonical.bank (h : s.Canonical) (b : BankId) : (s.bank b).Canonical := by
  cases b
  · exact h.bank0
  · exact h.bank1

theorem State.Canonical.setBank (h : s.Canonical) (b : BankId) {x : Bank} (hx : x.Canonical) : (s.setBank b x).Canonical := by
  cases b
  · exact { h with bank0 := hx }
  · exact { h with bank1 := hx }

theorem State.Canonical.setDiffers (h : s.Canonical) (i d) : (s.setDiffers i d).Canonical :=
  { h with differs := Tab.wf_put _ _ i d h.differs }

theorem State.Canonical.writeStandby (h : s.Canonical) (k i e) : (s.writeStandby k i e).Canonical := by
  have hwritten := h.setBank s.standby ((h.bank s.standby).write k i e)
  unfold State.writeStandby
  dsimp only
  split
  · exact hwritten.setDiffers ..
  · exact hwritten

theorem State.Canonical.copyEntry (h : s.Canonical) (k i) : (s.copyEntry k i).Canonical := by
  have hcopied : (s.setBank s.standby (if s.activeBank.damaged k i then s.standbyBank.mark k i true
      else s.standbyBank.write k i (s.activeBank.entry k i))).Canonical := by
    refine h.setBank _ ?_
    split
    · exact (h.bank s.standby).mark k i true
    · exact (h.bank s.standby).write k i _
  unfold State.copyEntry
  dsimp only
  split
  · exact hcopied.setDiffers ..
  · exact hcopied

theorem State.Canonical.copySums (h : s.Canonical) :
    ({ s.setBank s.standby { s.standbyBank with sum := s.activeBank.sum, directory := s.activeBank.directory } with
        tbs.differs := [] } : State).Canonical := by
  have hsums : (s.setBank s.standby { s.standbyBank with sum := s.activeBank.sum, directory := s.activeBank.directory }).Canonical :=
    h.setBank _ { (h.bank s.standby) with directory := (h.bank s.tbs.active).directory }
  exact { hsums with differs := Tab.wf_nil _ }

/-- What the canonical form reads of a state. -/
theorem State.Canonical.congr (h : s.Canonical) (htbs : t.tbs = s.tbs) (hadm : t.adm = s.adm) (hgrt : t.grt = s.grt)
    (hwts : t.wts = s.wts) (hclt : t.clt = s.clt) (hlnk : t.lnk.neighbours = s.lnk.neighbours) : t.Canonical := by
  refine ⟨?_, ?_, ?_, ?_, ?_, ?_, ?_, ?_, ?_, ?_, ?_⟩
  · rw [htbs]; exact h.bank0
  · rw [htbs]; exact h.bank1
  · rw [htbs]; exact h.differs
  · rw [hadm]; exact h.poolLive
  · rw [hadm]; exact h.featLive
  · rw [hgrt]; exact h.slots
  · rw [hgrt]; exact h.linger
  · rw [hwts]; exact h.waiters
  · rw [hwts]; exact h.queues
  · rw [hclt]; exact h.clients
  · rw [hlnk]; exact h.neighbours

theorem State.originate_neighbours (p n a b) : (s.originate p n a b).lnk.neighbours = s.lnk.neighbours := by
  unfold State.originate
  dsimp only
  split
  · cases p <;> rfl
  · cases n
    · rfl
    · simp [State.countDropped]

theorem State.abortOp_neighbours (s : State) : s.abortOp.lnk.neighbours = s.lnk.neighbours := State.originate_neighbours ..

theorem State.Canonical.zeroWord (h : s.Canonical) (w : MemWord) : (s.zeroWord w).Canonical := by
  cases w with
  | waiterRec i => exact { h with waiters := Tab.wf_put _ _ i Waiter.zero h.waiters }
  | queueStore p => exact { h with queues := Tab.wf_put _ _ p Queues.none h.queues }
  | clientEnt i => exact { h with clients := Tab.wf_put _ _ i Client.zero h.clients }
  | grantLink i => exact { h with slots := Tab.wf_put _ _ i _ h.slots }
  | poolLive p => exact { h with poolLive := Tab.wf_put _ _ p PoolLive.zero h.poolLive }
  | featLive i => exact { h with featLive := Tab.wf_put _ _ i FeatLive.zero h.featLive }
  | _ => exact { h with }

theorem State.Canonical.faultedCleared (h : s.Canonical) : s.faultedCleared.Canonical := by
  have hfaulted : (s.enterService .faulted).Canonical := h.congr (by simp) (by simp) (by simp) (by simp) (by simp) (by simp)
  exact { hfaulted with waiters := Tab.wf_nil _, queues := Tab.wf_nil _, clients := Tab.wf_nil _ }

/-- What a placing of a waiter leaves of the stores but its own and the client table. -/
theorem State.placeWaiter_canonical (h : s.Canonical) (i w) : (s.placeWaiter i w).Canonical := by
  obtain ⟨hwaiters, hqueues, hclients⟩ := placeWaiter_forms i w h.waiters h.queues h.clients
  exact { h with waiters := hwaiters, queues := hqueues, clients := hclients }

theorem State.Canonical.noteNeighbour (h : s.Canonical) (n : Nat) (d : Cand) : (s.noteNeighbour n d).Canonical :=
  { h with neighbours := Tab.wf_put none s.lnk.neighbours n (some (⟨d.srcMac, d.vlan⟩ : Neighbour)) h.neighbours }

theorem Effect.canonical (he : Effect c s t) (h : s.Canonical) : t.Canonical := by
  cases he with
  | port p ps => exact h.congr (by simp) (by simp) (by simp) (by simp) (by simp) (by cases p <;> rfl)
  | originate => exact h.congr (by simp) (by simp) (by simp) (by simp) (by simp) (State.originate_neighbours ..)
  | handBack d =>
    refine h.congr (by simp) (by simp) (by simp) (by simp) (by simp) ?_
    unfold State.handBack
    dsimp only
    split <;> rfl
  | neighbour n d => exact h.noteNeighbour n d
  | notice | soft | hard | heal => exact h.congr (by simp) (by simp) (by simp) (by simp) (by simp) (by simp)
  | slot i g => exact { h with slots := Tab.wf_put _ _ i g h.slots }
  | linger p l => exact { h with linger := Tab.wf_put _ _ p l h.linger }
  | poolLive p l => exact { h with poolLive := Tab.wf_put _ _ p l h.poolLive }
  | featLive i l => exact { h with featLive := Tab.wf_put _ _ i l h.featLive }
  | client i x => exact { h with clients := Tab.wf_put _ _ i x h.clients }
  | unqueue i => exact { h with waiters := unqueue_wform h.waiters i, queues := unqueue_qform h.queues i }
  | place i w => exact State.placeWaiter_canonical h i w
  | bankLost b k i => exact h.setBank b (((h.bank b).store i _).mark k i true)
  | forgetCode b code => exact h.setBank b { (h.bank b) with directory := Tab.wf_erase _ _ code.toNat (h.bank b).directory }
  | writeStandby i e => exact h.writeStandby ..
  | copyEntry k i => exact h.copyEntry k i
  | copySums => exact h.copySums
  | flipPointer => exact { h with }
  | lost w d =>
    have hzero : (((s.heal w).zeroWord w).hardEvent (wordFatalEvent w)).Canonical :=
      (State.Canonical.zeroWord (s := s.heal w) { h with } w).congr (by simp) (by simp) (by simp) (by simp) (by simp) (by simp)
    exact State.enterFaulted_keeps (fun _ => hzero.faultedCleared)
      (fun u hu => hu.congr (by simp) (by simp) (by simp) (by simp) (by simp) (State.abortOp_neighbours u)) hzero
  | clearRecords =>
    exact { h with
      slots := Tab.wf_nil _, linger := Tab.wf_nil _, waiters := Tab.wf_nil _, queues := Tab.wf_nil _, clients := Tab.wf_nil _
      poolLive := Tab.wf_nil _, featLive := Tab.wf_nil _ }
  | addrs | captures | handoff | exu | ada | serve | swp | table | runs | idle => exact { h with }

theorem Bank.powerOn_canonical : Bank.powerOn.Canonical := ⟨rfl, rfl, rfl, rfl, rfl, rfl, rfl⟩

theorem State.powerOn_canonical (low : Bool) (s : State) : (State.powerOn low s).Canonical :=
  ⟨Bank.powerOn_canonical, Bank.powerOn_canonical, rfl, rfl, rfl, rfl, rfl, rfl, rfl, rfl, rfl⟩

/-- Settles O56: every single write puts, erases or filters entries of a store, or clears it. -/
theorem storesStayCanonical : Obligations.StoresStayCanonical := fun _ _ hs h =>
  step_keeps State.powerOn_canonical (fun _ _ hs => { hs with }) (fun _ _ hs => { hs with }) (fun _ _ _ he => he.canonical) hs h

end Sys2Proof.Machine

/-!
PROOFS. The wait store stays sound (R46, R49, R173).
-/
namespace Sys2Proof.Machine

variable {s t : State} {c : Instr}

/-! ### The wait store (R46, R49, R173) -/

theorem State.WaitStoreSound.cleared_of_not_attends (h : s.WaitStoreSound) (ha : s.ada.service.attends = false) : s.wts = .clear := by
  obtain ⟨hon, hdrain, hoff⟩ := (attends_iff _).1 ha
  exact h.cleared hon hdrain hoff

/-- Where the service state attends, the store need not be clear. -/
theorem State.WaitStoreSound.of_attends (hq : s.QueuesSound) (hf : Tab.wf Queues.none s.wts.queues = true)
    (ha : s.ada.service.attends = true) : s.WaitStoreSound := by
  refine ⟨hq, hf, fun hon hdrain hoff => ?_⟩
  rw [(attends_iff _).2 ⟨hon, hdrain, hoff⟩] at ha
  cases ha

theorem unqueue_clear (h : s.wts = .clear) (i : Nat) : (s.unqueue i).wts = .clear := by
  have hw : s.waiter i = Waiter.zero := by rw [State.waiter, h]; rfl
  have hq : ∀ p k, s.queue p k = [] := fun p k => by rw [State.queue, State.queues, h]; cases k <;> rfl
  have hz : ({ Waiter.zero with inUse := false } : Waiter) = Waiter.zero := rfl
  unfold State.unqueue
  dsimp only
  rw [hw, hq, hz]
  have hput : ∀ p k, (s.setQueue p k ([].erase i)).wts = .clear := by
    intro p k
    rw [State.setQueue, State.queues, h]
    cases k <;> rfl
  have hset : ∀ u : State, u.wts = .clear → (u.setWaiter i Waiter.zero).wts = .clear := by
    intro u hu
    rw [State.setWaiter, hu]
    rfl
  rw [hset _ (hput _ _)]
  rfl

/-- A waiter that is not in use stands in no queue, so nothing is taken out of one. -/
theorem unqueue_unused (h : s.WaitStoreSound) {i : Nat} (hu : (s.waiter i).inUse = false) : (s.unqueue i).WaitStoreSound := by
  have hin : ∀ {p k wi}, wi ∈ (s.unqueue i).queue p k → wi ∈ s.queue p k := by
    intro p k wi hwi
    rw [unqueue_queue] at hwi
    split at hwi
    · exact List.mem_of_mem_erase hwi
    · exact hwi
  refine ⟨⟨fun p k wi hwi => ?_, fun p k => ?_⟩, unqueue_qform h.form i, fun hon hdrain hoff => ?_⟩
  · obtain ⟨huse, hat⟩ := h.queues.member p k wi (hin hwi)
    have hne : wi ≠ i := fun e => by rw [e, hu] at huse; cases huse
    rw [unqueue_waiter, if_neg hne]
    exact ⟨huse, hat⟩
  · rw [unqueue_queue]
    split
    · exact (h.queues.once p k).erase i
    · exact h.queues.once p k
  · exact unqueue_clear (h.cleared (by simpa using hon) (by simpa using hdrain) (by simpa using hoff)) i

theorem State.WaitStoreSound.unqueue (h : s.WaitStoreSound) (i : Nat) : (s.unqueue i).WaitStoreSound := by
  by_cases hu : (s.waiter i).inUse = true
  · exact unqueue_wait h hu
  · exact unqueue_unused h (Bool.eq_false_iff.2 hu)

/-- A waiter placed in a record that was not in use joins one queue, where it did not stand. -/
theorem State.WaitStoreSound.placeWaiter (h : s.WaitStoreSound) {i : Nat} {w : Waiter} (hfree : (s.waiter i).inUse = false)
    (hused : w.inUse = true) (ha : s.ada.service.attends = true) : (s.placeWaiter i w).WaitStoreSound := by
  have hout : ∀ p k, i ∉ s.queue p k := fun p k hi => by
    rw [(h.queues.member p k i hi).1] at hfree
    cases hfree
  have hform : Tab.wf Queues.none (s.placeWaiter i w).wts.queues = true := by
    have hput : ∃ v, (s.placeWaiter i w).wts.queues = Tab.put Queues.none s.wts.queues w.pool v := by
      unfold State.placeWaiter State.leaveIdle
      dsimp only
      cases w.cls <;> exact ⟨_, rfl⟩
    obtain ⟨v, hv⟩ := hput
    rw [hv]
    exact Tab.wf_put _ _ _ _ h.form
  refine .of_attends ⟨fun p k wi hwi => ?_, fun p k => ?_⟩ hform (by simpa using ha)
  · rw [placeWaiter_waiter]
    split
    · next heq =>
      rw [placeWaiter_queue, heq] at hwi
      split at hwi
      · next hat => exact ⟨hused, hat.1.symm, hat.2.symm⟩
      · exact absurd hwi (hout p k)
    · next hne =>
      refine h.queues.member p k wi ?_
      rw [placeWaiter_queue] at hwi
      split at hwi
      · exact (List.mem_append.1 hwi).resolve_right (fun hi => hne (List.mem_singleton.1 hi))
      · exact hwi
  · rw [placeWaiter_queue]
    split
    · exact (h.queues.once p k).append (List.nodup_singleton i) (List.disjoint_singleton.2 (hout p k))
    · exact h.queues.once p k

/-- The word zeroed at a loss leaves a cleared store clear. -/
theorem State.zeroWord_wts_clear (h : s.wts = .clear) (w : MemWord) : (s.zeroWord w).wts = .clear := by
  cases w with
  | waiterRec i => rw [State.zeroWord, State.setWaiter, h]; rfl
  | queueStore p => rw [State.zeroWord, h]; rfl
  | _ => exact h

theorem State.WaitStoreSound.lost (h : s.WaitStoreSound) (w : MemWord) (e : Event) :
    (((s.heal w).zeroWord w).hardEvent e).enterFaulted.WaitStoreSound := by
  have hservice : (((s.heal w).zeroWord w).hardEvent e).ada.service = s.ada.service := by simp
  by_cases ha : s.ada.service.attends = true
  · exact waitSound_clear (enterFaulted_clears _ (hservice ▸ ha)).2.1
  · have hclear := h.cleared_of_not_attends (Bool.eq_false_iff.2 ha)
    rw [enterFaulted_stays _ (by rw [hservice]; exact Bool.eq_false_iff.2 ha)]
    refine waitSound_clear ?_
    rw [State.hardEvent_wts]
    exact State.zeroWord_wts_clear (s := s.heal w) hclear w

theorem Service.not_serving_not_attends {x : Service} (h : x.serving = false) : x.attends = false := by
  cases x <;> simp_all [Service.serving, Service.attends]

theorem Effect.waitStoreSound (he : Effect c s t) (h : s.WaitStoreSound) : t.WaitStoreSound := by
  cases he with
  | serve new hc hstands =>
    rcases hstands with hattends | hnot
    · exact .of_attends ⟨h.queues.member, h.queues.once⟩ h.form hattends
    · exact waitSound_clear (h.cleared_of_not_attends (Service.not_serving_not_attends hnot))
  | unqueue i => exact h.unqueue i
  | place i w hfree hused ha => exact h.placeWaiter hfree hused ha
  | lost w d => exact h.lost w _
  | clearRecords => exact waitSound_clear rfl
  | ada a hs => exact h.of rfl hs
  | originate => exact h.of (by simp) (State.originate_service ..)
  | forgetCode => exact h.of (by simp [State.forgetCode]) (by simp [State.forgetCode])
  | writeStandby => exact h.of (by simp [State.writeStandby, apply_ite]) (by simp [State.writeStandby, apply_ite])
  | copyEntry => exact h.of (by simp [State.copyEntry, apply_ite]) (by simp [State.copyEntry, apply_ite])
  | addrs | captures | handoff | exu | swp | table | runs | idle => exact h.of rfl rfl
  | _ => exact h.of (by simp) (by simp)

/-- Settles O57: a waiter is queued only from a record not in use and while the state attends; it leaves its queue with its record. -/
theorem waitStoreStaysSound : Obligations.WaitStoreStaysSound := fun _ _ hs h =>
  step_keeps (fun _ _ => waitSound_clear rfl) (fun _ _ hs => hs.of rfl rfl) (fun _ _ hs => hs.of rfl rfl)
    (fun _ _ _ he => he.waitStoreSound) hs h

end Sys2Proof.Machine

/-!
PROOFS. The rules of the banks: what storing, marking and writing an entry leave of each entry, mark and code; and that the entries stay
in their ranges (R107 to R109, R111).
-/
namespace Sys2Proof.Machine

variable {s t : State} {c : Instr} {b : Bank}

/-! ### Entries and marks of a bank -/

/-- Entry `j` of kind `k` is the one an operation at entry `i` of kind `k'` is about; there is one global entry. -/
abbrev SameEntry (k' : TableKind) (i : Nat) (k : TableKind) (j : Nat) : Prop := k = k' ∧ (k = .global ∨ j = i)

@[simp] theorem Entry.kind_zero (k : TableKind) : (Entry.zero k).kind = k := by cases k <;> rfl

theorem Entry.kind_entry (b : Bank) (k : TableKind) (i : Nat) : (b.entry k i).kind = k := by cases k <;> rfl

theorem Bank.entry_store (b : Bank) (i : Nat) (e : Entry) (k : TableKind) (j : Nat) :
    (b.store i e).entry k j = if SameEntry e.kind i k j then e else b.entry k j := by
  cases e <;> cases k <;> simp [Bank.store, Bank.entry, Entry.kind, Tab.get_put, apply_ite Entry.feature, apply_ite Entry.pool, apply_ite Entry.site, SameEntry]

@[simp] theorem Bank.damaged_store (b : Bank) (i : Nat) (e : Entry) (k : TableKind) (j : Nat) :
    (b.store i e).damaged k j = b.damaged k j := by
  cases e <;> cases k <;> rfl

@[simp] theorem Bank.entry_mark (b : Bank) (k' : TableKind) (i : Nat) (d : Bool) (k : TableKind) (j : Nat) :
    (b.mark k' i d).entry k j = b.entry k j := by
  cases k' <;> cases k <;> rfl

theorem Bank.damaged_mark (b : Bank) (k' : TableKind) (i : Nat) (d : Bool) (k : TableKind) (j : Nat) :
    (b.mark k' i d).damaged k j = if SameEntry k' i k j then d else b.damaged k j := by
  cases k' <;> cases k <;> simp [Bank.mark, Bank.damaged, Tab.get_put, SameEntry]

@[simp] theorem Bank.entry_redirect (b : Bank) (i : Nat) (code : W32) (k : TableKind) (j : Nat) :
    (b.redirect i code).entry k j = b.entry k j := by
  cases k <;> rfl

@[simp] theorem Bank.damaged_redirect (b : Bank) (i : Nat) (code : W32) (k : TableKind) (j : Nat) :
    (b.redirect i code).damaged k j = b.damaged k j := by
  cases k <;> rfl

theorem Bank.entry_sum (b : Bank) (x : W32) (k : TableKind) (j : Nat) : ({ b with sum := x } : Bank).entry k j = b.entry k j := by
  cases k <;> rfl

theorem Bank.damaged_sum (b : Bank) (x : W32) (k : TableKind) (j : Nat) :
    ({ b with sum := x } : Bank).damaged k j = b.damaged k j := by
  cases k <;> rfl

theorem Bank.entry_write (b : Bank) {k' : TableKind} (i : Nat) {e : Entry} (hk : e.kind = k') (k : TableKind) (j : Nat) :
    (b.write k' i e).entry k j = if SameEntry k' i k j then e else b.entry k j := by
  unfold Bank.write
  dsimp only
  split <;> simp [Bank.entry_sum, Bank.entry_store, hk]

theorem Bank.damaged_write (b : Bank) (k' : TableKind) (i : Nat) (e : Entry) (k : TableKind) (j : Nat) :
    (b.write k' i e).damaged k j = if SameEntry k' i k j then false else b.damaged k j := by
  unfold Bank.write
  dsimp only
  split <;> simp [Bank.damaged_sum, Bank.damaged_mark]

theorem Bank.entry_directory (b : Bank) (d : Tab (Option Nat)) (k : TableKind) (j : Nat) :
    ({ b with directory := d } : Bank).entry k j = b.entry k j := by
  cases k <;> rfl

theorem Bank.damaged_directory (b : Bank) (d : Tab (Option Nat)) (k : TableKind) (j : Nat) :
    ({ b with directory := d } : Bank).damaged k j = b.damaged k j := by
  cases k <;> rfl

/-! ### The banks of a state -/

@[simp] theorem State.bank_setBank_self (s : State) (id : BankId) (b : Bank) : (s.setBank id b).bank id = b := by cases id <;> rfl

theorem State.bank_setBank_ne (s : State) {id other : BankId} (h : other ≠ id) (b : Bank) :
    (s.setBank id b).bank other = s.bank other := by
  cases id <;> cases other <;> simp_all [State.setBank, State.bank]

@[simp] theorem State.setBank_active (s : State) (id : BankId) (b : Bank) : (s.setBank id b).tbs.active = s.tbs.active := by
  cases id <;> rfl

@[simp] theorem State.setBank_differs (s : State) (id : BankId) (b : Bank) : (s.setBank id b).tbs.differs = s.tbs.differs := by
  cases id <;> rfl

/-! ### The entries stay in their ranges (R107 to R109, R111) -/

/-- The entries of a bank, its marks only set further. -/
theorem Bank.EntriesStored.of_entries {b' : Bank} (h : b.EntriesStored) (he : ∀ k i, b'.entry k i = b.entry k i)
    (hd : ∀ k i, b'.damaged k i = false → b.damaged k i = false) : b'.EntriesStored := by
  intro k i hs
  rw [he]
  exact h k i (hd k i hs)

theorem Bank.EntriesStored.mark (h : b.EntriesStored) (k : TableKind) (i : Nat) : (b.mark k i true).EntriesStored := by
  refine h.of_entries (fun _ _ => Bank.entry_mark ..) fun k' j hd => ?_
  rw [Bank.damaged_mark] at hd
  split at hd
  · cases hd
  · exact hd

theorem Bank.EntriesStored.write (h : b.EntriesStored) (i : Nat) {e : Entry} (he : e.Stored) : (b.write e.kind i e).EntriesStored := by
  intro k j hd
  rw [Bank.damaged_write] at hd
  rw [Bank.entry_write b i rfl]
  split
  · exact he
  · next hat =>
    rw [if_neg hat] at hd
    exact h k j hd

/-- A lost entry: its words are 0, and its mark stands (R171). -/
theorem Bank.EntriesStored.lost (h : b.EntriesStored) (k : TableKind) (i : Nat) :
    ((b.store i (Entry.zero k)).mark k i true).EntriesStored := by
  intro k' j hd
  rw [Bank.damaged_mark, Bank.damaged_store] at hd
  rw [Bank.entry_mark, Bank.entry_store, Entry.kind_zero]
  split
  · next hat => simp [if_pos hat] at hd
  · next hat =>
    rw [if_neg hat] at hd
    exact h k' j hd

theorem State.BanksInRange.bank (h : s.BanksInRange) (id : BankId) : (s.bank id).EntriesStored := by
  cases id
  · exact h.bank0
  · exact h.bank1

theorem State.BanksInRange.congr (h : s.BanksInRange) (ht : t.tbs = s.tbs) : t.BanksInRange := ⟨ht ▸ h.bank0, ht ▸ h.bank1⟩

theorem State.BanksInRange.setBank (h : s.BanksInRange) (id : BankId) (hb : b.EntriesStored) : (s.setBank id b).BanksInRange := by
  cases id
  · exact ⟨hb, h.bank1⟩
  · exact ⟨h.bank0, hb⟩

theorem State.BanksInRange.setDiffers (h : s.BanksInRange) (i : Nat) (d : Bool) : (s.setDiffers i d).BanksInRange := ⟨h.bank0, h.bank1⟩

theorem State.BanksInRange.writeStandby (h : s.BanksInRange) (i : Nat) {e : Entry} (he : e.Stored) :
    (s.writeStandby e.kind i e).BanksInRange := by
  have hwritten := h.setBank s.standby ((h.bank s.standby).write i he)
  unfold State.writeStandby
  dsimp only
  split
  · exact hwritten.setDiffers ..
  · exact hwritten

theorem State.BanksInRange.copyEntry (h : s.BanksInRange) (k : TableKind) (i : Nat) : (s.copyEntry k i).BanksInRange := by
  have hcopied : (s.setBank s.standby (if s.activeBank.damaged k i then s.standbyBank.mark k i true
      else s.standbyBank.write k i (s.activeBank.entry k i))).BanksInRange := by
    refine h.setBank _ ?_
    split
    · exact (h.bank s.standby).mark k i
    · next hd =>
      have hactive := (h.bank s.tbs.active) k i (Bool.eq_false_iff.2 hd)
      have hwritten := (h.bank s.standby).write i hactive
      rwa [Entry.kind_entry] at hwritten
  unfold State.copyEntry
  dsimp only
  split
  · exact hcopied.setDiffers ..
  · exact hcopied

theorem State.BanksInRange.copySums (h : s.BanksInRange) :
    ({ s.setBank s.standby { s.standbyBank with sum := s.activeBank.sum, directory := s.activeBank.directory } with
        tbs.differs := [] } : State).BanksInRange := by
  have hsums := h.setBank s.standby (b := { s.standbyBank with sum := s.activeBank.sum, directory := s.activeBank.directory })
    ((h.bank s.standby).of_entries (fun k _ => by cases k <;> rfl) (fun k _ hd => by cases k <;> exact hd))
  exact ⟨hsums.bank0, hsums.bank1⟩

theorem State.BanksInRange.lost (h : s.BanksInRange) (w : MemWord) (e : Event) :
    (((s.heal w).zeroWord w).hardEvent e).enterFaulted.BanksInRange := by
  have hzero : (((s.heal w).zeroWord w).hardEvent e).BanksInRange := h.congr (by simp)
  exact State.enterFaulted_keeps (fun _ => hzero.congr (by simp [State.faultedCleared])) (fun u hu => hu.congr (by simp)) hzero

theorem Effect.banksInRange (he : Effect c s t) (h : s.BanksInRange) : t.BanksInRange := by
  cases he with
  | bankLost id k i => exact h.setBank id ((h.bank id).lost k i)
  | forgetCode id code =>
    exact h.setBank id ((h.bank id).of_entries (fun _ _ => Bank.entry_directory ..) (fun k _ hd => by rwa [Bank.damaged_directory] at hd))
  | writeStandby i e he => exact h.writeStandby i he
  | copyEntry k i => exact h.copyEntry k i
  | copySums => exact h.copySums
  | flipPointer => exact ⟨h.bank0, h.bank1⟩
  | lost w d => exact h.lost w _
  | addrs | captures | handoff | exu | ada | serve | swp | table | runs | idle | clearRecords => exact h.congr rfl
  | _ => exact h.congr (by simp)

theorem Bank.powerOn_entriesStored : Bank.powerOn.EntriesStored := by
  intro k i _
  cases k with
  | feature => exact .inl rfl
  | pool => exact .inl rfl
  | site => exact .inl rfl
  | global => show GlobalEntry.inRange _ = true; decide

/-- Settles O58: an entry written is one a bank may store, a copied one is an undamaged one of the other bank, and a lost one is marked. -/
theorem bankEntriesStayInRange : Obligations.BankEntriesStayInRange := fun _ _ hs h =>
  step_keeps (fun _ _ => ⟨Bank.powerOn_entriesStored, Bank.powerOn_entriesStored⟩) (fun _ _ hs => hs.congr rfl)
    (fun _ _ hs => hs.congr rfl) (fun _ _ _ he => he.banksInRange) hs h

end Sys2Proof.Machine

/-!
PROOFS. The changes of service state: a device that does not serve only forwards (R144), and the service state moves along the edges of
sections 10.3 and 11.2 only.
-/
namespace Sys2Proof.Machine

variable {s t u v : State} {c : Instr}

theorem awake_keeps {P : State → Prop} {f : State → State} (hs : P s) (hf : P (f s)) : P (awake s f) := by
  unfold awake
  split
  · exact hs
  · exact hf

/-! ### A device that does not serve (R144) -/

/-- What the invariant reads of a state. -/
theorem State.OnlyForwards.congr (h : s.OnlyForwards) (ho : t.ada.op = s.ada.op) (he : t.exu = s.exu) (hi : t.ada.intake = s.ada.intake)
    (hst : t.ada.stats = s.ada.stats) (hn : t.fnu.notices = s.fnu.notices)
    (hl : ∀ p, (t.port p).originate = (s.port p).originate) (hw : t.swp = s.swp) (hr : t.adm.runs = s.adm.runs) : t.OnlyForwards where
  op := ho.trans h.op
  exu := he.trans h.exu
  intake := hi.trans h.intake
  stats := hst.trans h.stats
  notices := hn.trans h.notices
  originateF := (hl .f).trans h.originateF
  originateS := (hl .s).trans h.originateS
  rounds := hw ▸ h.rounds
  runs := hr.trans h.runs

theorem State.OnlyForwards.strike (h : s.OnlyForwards) (hits : List Hit) : (s.strike hits).OnlyForwards := { h with }

theorem State.OnlyForwards.port_originate (h : s.OnlyForwards) (p : Port) : (s.port p).originate = [] := by
  cases p
  · exact h.originateF
  · exact h.originateS

theorem State.OnlyForwards.setPort (h : s.OnlyForwards) (p : Port) {ps : PortState} (ho : ps.originate = []) :
    (s.setPort p ps).OnlyForwards := by
  cases p
  · exact { h with originateF := ho }
  · exact { h with originateS := ho }

theorem State.OnlyForwards.takeClient (h : s.OnlyForwards) (k : CexKind) (serve : Cand → Op Unit) : takeClient k serve s = s := by
  unfold Machine.takeClient
  rw [h.exu]

theorem State.OnlyForwards.takeAdmin (h : s.OnlyForwards) (code : AdminCode) (run : AdmCtx → Op Unit) : takeAdmin code run s = s := by
  unfold Machine.takeAdmin
  rw [h.intake]

theorem State.OnlyForwards.passVisit (h : s.OnlyForwards) (id : PassId) (act : W32 → Nat → Op Unit) : passVisit id act s = s := by
  unfold Machine.passVisit
  rw [h.rounds id]

theorem State.OnlyForwards.reconcileVisit (h : s.OnlyForwards) (ph : Phase) (act : Nat → Op Unit) : reconcileVisit ph act s = s := by
  unfold Machine.reconcileVisit
  rw [h.op]

theorem State.OnlyForwards.scanVisit (h : s.OnlyForwards) (ph : Phase) (act : Target → Nat → Op Unit) : scanVisit ph act s = s := by
  unfold Machine.scanVisit
  rw [h.op]

theorem State.OnlyForwards.runOf (h : s.OnlyForwards) (p : Nat) : s.runOf p = none := by
  unfold State.runOf
  rw [h.runs]
  rfl

/-- A frame that arrives at a device that does not serve joins a forward path or is discarded. -/
theorem State.OnlyForwards.arrive (h : s.OnlyForwards) (hs : s.ada.service.serving = false) (p : Port) (fr : Frame) :
    (s.arrive p fr).OnlyForwards := by
  unfold State.arrive
  rw [hs, if_neg Bool.false_ne_true]
  unfold State.forwardTo
  dsimp only
  split
  · exact h.setPort _ (h.port_originate _)
  · exact h

theorem PortState.next_originate {ps : PortState} (h : ps.originate = []) (a : Bool) : (ps.next a).originate = [] := by
  unfold PortState.next
  rw [h]
  split <;> simp_all

theorem Service.not_serving_no_pass {x : Service} (h : x.serving = false) (id : PassId) : id.runsIn x = false := by
  cases x <;> simp_all [Service.serving, PassId.runsIn]

theorem Swp.beginRound_stopped {x : Service} (h : x.serving = false) (id : PassId) (w : Swp) : w.beginRound id x = w := by
  unfold Swp.beginRound
  rw [Service.not_serving_no_pass h id]
  rfl

theorem State.OnlyForwards.bootRead (h : s.OnlyForwards) (b : List Byte) :
    (s.bootRead b).ada.service.serving = false → (s.bootRead b).OnlyForwards := by
  unfold State.bootRead
  split
  · intro hs
    simp [State.enterService, Service.serving] at hs
  · intro _
    exact { h with }

/-- No command makes a device that does not serve do more than forward. -/
theorem exec_onlyForwards (h : s.OnlyForwards) (hs : s.ada.service.serving = false) (hc : c.isPowerOn = false)
    (ht : exec c s = .next t) : t.StartupSilent := by
  have hstruck : ∀ hits, (s.strike hits).OnlyForwards := h.strike
  have stays : ∀ {hits : List Hit} {f : State → State}, f s = s.strike hits → exec c s = .next (awake s f) → t.StartupSilent := by
    intro hits f hf he _
    rw [he] at ht
    injection ht with ht
    exact ht ▸ awake_keeps h (hf ▸ hstruck hits)
  have client : ∀ {hits : List Hit} {k serve}, exec c s = .next (awake s fun u => takeClient k serve (u.strike hits)) →
      t.StartupSilent := fun {hits _ _} he => stays ((hstruck hits).takeClient _ _) he
  have admin : ∀ {hits : List Hit} {code run}, exec c s = .next (awake s fun u => takeAdmin code run (u.strike hits)) →
      t.StartupSilent := fun {hits _ _} he => stays ((hstruck hits).takeAdmin _ _) he
  cases c with
  | resetN | resetNLow => cases hc
  | bootReadCompletion read =>
    injection ht with ht
    subst ht
    refine awake_keeps (fun _ => h) ?_
    split
    · exact h.bootRead _
    · exact fun _ => h
  | linkUp p =>
    injection ht with ht
    subst ht
    refine fun _ => awake_keeps h ?_
    split
    · exact h.setPort p (h.port_originate p)
    · exact h
  | linkDown p cause =>
    injection ht with ht
    subst ht
    refine fun _ => awake_keeps h ?_
    cases cause
    · exact h.setPort p (h.port_originate p)
    · exact h.setPort p (h.port_originate p)
  | modulePresenceChange p present =>
    injection ht with ht
    subst ht
    exact fun _ => h.setPort p (h.port_originate p)
  | mtAdvance =>
    injection ht with ht
    subst ht
    refine fun _ => awake_keeps h ?_
    simp only [Swp.beginRound_stopped hs]
    exact { h with rounds := fun id => (by cases id <;> rfl : (State.swp _).pass id = s.swp.pass id) ▸ h.rounds id }
  | frameArrival p fr =>
    injection ht with ht
    subst ht
    refine fun _ => awake_keeps h ?_
    split
    · exact h.arrive hs p fr
    · exact h
  | portReady p =>
    injection ht with ht
    subst ht
    refine fun _ => awake_keeps h ?_
    split
    · exact h.setPort p (PortState.next_originate (h.port_originate p) _)
    · exact h
  | flashWriteCompletion b =>
    injection ht with ht
    subst ht
    refine fun _ => awake_keeps h ?_
    split
    · exact { h with }
    · exact h
  | claim hits | renew hits | yieldGrant hits | query hits | withdraw hits => exact client (hits := hits) rfl
  | cexDatagramOfOtherKind => exact client (hits := []) rfl
  | renewHandle hits => exact stays (hits := hits) (by dsimp only; rw [(hstruck hits).exu]) rfl
  | poolServiceRound r hits => exact stays (hits := hits) (by dsimp only; rw [(hstruck hits).runOf]) rfl
  | grantPassVisit hits | waiterPassVisit hits | poolPassVisit hits | clientPassVisit hits =>
    exact stays ((hstruck hits).passVisit _ _) rfl
  | noticeHandoff => exact stays (hits := []) (by rw [h.notices]; rfl) rfl
  | adminCandidateRefused => exact stays (hits := []) (by rw [h.intake]; rfl) rfl
  | readEntry hits | readPool hits | readFeatureLive hits | readGrant hits | readWaiter hits | readClient hits | writeEntry hits
  | setWithhold hits | setService hits | revokeHandle hits | swapBank hits => exact admin (hits := hits) rfl
  | readStatus | setTime | clearCapture | writeBootRecord | copyBank | audit | scanRevoke | countRebuild | serviceReset =>
    exact admin (hits := []) rfl
  | reconcileGrantVisit hits | reconcileWaiterVisit hits | reconcilePoolVisit hits =>
    exact stays ((hstruck hits).reconcileVisit _ _) rfl
  | scanRevokeGrantVisit hits | scanRevokeWaiterVisit hits => exact stays ((hstruck hits).scanVisit _ _) rfl
  | copyBankVisit hits | auditVisit hits | countRebuildVisit hits | countRebuildCompletion hits =>
    exact stays (hits := hits) (by dsimp only; rw [(hstruck hits).op]) rfl
  | copyBankCompletion | reconcileCompletion | auditCompletion | scanRevokeCompletion | serviceResetCompletion =>
    exact stays (hits := []) (by rw [h.op]; rfl) rfl

/-- A device that serves goes on serving. -/
theorem Effect.serving (he : Effect c s t) (h : s.ada.service.serving = true) : t.ada.service.serving = true := by
  have same : t.ada.service = s.ada.service → t.ada.service.serving = true := fun e => e ▸ h
  cases he with
  | serve new hm hstands =>
    rcases hstands with hattends | hnot
    · cases new <;> simp_all [Service.attends, Service.serving]
    · rw [h] at hnot
      cases hnot
  | ada a hs => exact same hs
  | originate => exact same (State.originate_service ..)
  | lost w d =>
    refine State.enterFaulted_keeps (P := fun u => u.ada.service.serving = true) (fun _ => ?_) (fun u hu => ?_) ?_
    · simp [State.faultedCleared, State.enterService, Service.serving]
    · simpa [State.abortOp] using hu
    · simpa using h
  | forgetCode => exact same (by simp [State.forgetCode])
  | writeStandby => exact same (by simp [State.writeStandby, apply_ite])
  | copyEntry => exact same (by simp [State.copyEntry, apply_ite])
  | addrs | captures | handoff | exu | swp | table | runs | idle | clearRecords => exact same rfl
  | _ => exact same (by simp)

theorem State.powerOn_silent (low : Bool) (s : State) : (State.powerOn low s).StartupSilent := fun _ =>
  ⟨rfl, rfl, rfl, rfl, rfl, rfl, rfl, fun id => by cases id <;> rfl, rfl⟩

/-- Settles O59: a command does nothing but forward at a device that does not serve, and no command but power-on stops a device that
does. -/
theorem startupStaysSilent : Obligations.StartupStaysSilent := by
  intro s t hs h
  unfold step at h
  split at h
  · injection h with h
    exact h ▸ hs
  · next c rest _ =>
    by_cases hc : c.isPowerOn = true
    · cases c with
      | resetN => injection h with h; exact h ▸ State.powerOn_silent _ _
      | resetNLow => injection h with h; exact h ▸ State.powerOn_silent _ _
      | _ => cases hc
    · by_cases hserving : s.ada.service.serving = true
      · have hafter : t.ada.service.serving = true := by
          rcases exec_effects (Bool.eq_false_iff.2 hc) h with rfl | he
          · exact hserving
          · exact he.keeps (P := fun u => u.ada.service.serving = true) (fun _ _ he => he.serving) hserving
        intro hnot
        rw [hafter] at hnot
        cases hnot
      · have hnot := Bool.eq_false_iff.2 hserving
        have hforwards : ({ s with pending := rest } : State).OnlyForwards := { hs hnot with }
        exact exec_onlyForwards hforwards hnot (Bool.eq_false_iff.2 hc) h

/-! ### The loss of a word that takes the device to FAULTED (R173) -/

theorem State.damageAt_filter (s : State) (keep : MemWord → Bool) {w : MemWord} {d : Damage}
    (h : ({ s with damage := s.damage.filter fun x => keep x.word } : State).damageAt w = some d) : s.damageAt w = some d := by
  obtain ⟨x, hx, rfl⟩ := Option.map_eq_some_iff.1 h
  rw [List.find?_filter] at hx
  refine Option.map_eq_some_iff.2 ⟨x, ?_, rfl⟩
  have hkeep : keep w = true := by
    have hp := List.find?_some hx
    simp only [decide_eq_true_eq] at hp
    exact hp.2 ▸ hp.1
  rw [← hx]
  congr 1
  funext y
  by_cases hy : y.word = w
  · simp [hy, hkeep]
  · simp [hy]

/-- From `u` a chain of writes of a command that moves no service state leads to `v`: the state is as it was, or a word struck at `u` was
found lost; and no word is damaged that was not. -/
structure State.FaultsByLoss (u v : State) : Prop where
  service : v.ada.service = u.ada.service ∨ (u.ada.service.attends = true ∧ v.ada.service = .faulted ∧ u.HoldsLoss)
  damage : ∀ w d, v.damageAt w = some d → u.damageAt w = some d

theorem State.FaultsByLoss.refl (u : State) : u.FaultsByLoss u := ⟨.inl rfl, fun _ _ h => h⟩

/-- A write that leaves the service state and damages no word. -/
theorem State.FaultsByLoss.next (h : u.FaultsByLoss s) (hs : t.ada.service = s.ada.service)
    (hd : ∀ w d, t.damageAt w = some d → s.damageAt w = some d) : u.FaultsByLoss t :=
  ⟨hs ▸ h.service, fun w d ht => h.damage w d (hd w d ht)⟩

theorem State.FaultsByLoss.same (h : u.FaultsByLoss s) (hs : t.ada.service = s.ada.service) (hd : t.damage = s.damage) :
    u.FaultsByLoss t := h.next hs fun w d ht => by rwa [State.damageAt, hd] at ht

theorem State.damageAt_of_heal {w x : MemWord} {d : Damage} (h : (s.heal x).damageAt w = some d) : s.damageAt w = some d := by
  rw [State.damageAt_heal] at h
  split at h
  · cases h
  · exact h

theorem State.FaultsByLoss.lost (h : u.FaultsByLoss s) {w : MemWord} {d : Damage} (hf : fatalWord w = true)
    (hd : s.damageAt w = some d) (hne : d ≠ .correctable) (e : Event) :
    u.FaultsByLoss (((s.heal w).zeroWord w).hardEvent e).enterFaulted := by
  have hholds : u.HoldsLoss := ⟨w, d, hf, h.damage w d hd, hne⟩
  have hzero : u.FaultsByLoss (((s.heal w).zeroWord w).hardEvent e) :=
    (h.next (t := s.heal w) rfl fun _ _ => State.damageAt_of_heal).same (by simp) (by simp)
  refine State.enterFaulted_keeps (fun ha => ⟨.inr ⟨?_, by simp [State.faultedCleared, State.enterService], hholds⟩, fun x dx hx => ?_⟩)
    (fun v hv => hv.same (by simp [State.abortOp]) (by simp)) hzero
  · rcases hzero.service with hsame | ⟨hattends, _⟩
    · exact hsame ▸ ha
    · exact hattends
  · exact hzero.damage x dx (State.damageAt_filter _ (fun w => !wordClearedByFaulted w) hx)

theorem Effect.faultsByLoss (he : Effect c s t) (hc : c.movesService = false) (h : u.FaultsByLoss s) : u.FaultsByLoss t := by
  cases he with
  | serve new hm => rw [hc] at hm; cases hm
  | lost w d hf hd hne => exact h.lost hf hd hne _
  | heal w => exact h.next (by simp) fun _ _ => State.damageAt_of_heal
  | clearRecords => exact h.next rfl fun _ _ hx => State.damageAt_filter s (fun w => !wordClearedByReset w) hx
  | ada a hs => exact h.same hs rfl
  | originate => exact h.same (State.originate_service ..) (by simp)
  | forgetCode => exact h.same (by simp [State.forgetCode]) (by simp [State.forgetCode])
  | writeStandby => exact h.same (by simp [State.writeStandby, apply_ite]) (by simp [State.writeStandby, apply_ite])
  | copyEntry => exact h.same (by simp [State.copyEntry, apply_ite]) (by simp [State.copyEntry, apply_ite])
  | addrs | captures | handoff | exu | swp | table | runs | idle => exact h.same rfl rfl
  | _ => exact h.same (by simp) (by simp)

theorem Effects.faultsByLoss (he : Effects c u v) (hc : c.movesService = false) : u.FaultsByLoss v :=
  he.keeps (P := u.FaultsByLoss) (fun _ _ hs => hs.faultsByLoss hc) (.refl u)

/-! ### The commands that move the service state (R159, R168, R169) -/

/-- What a SET SERVICE may leave of the service state. -/
def State.ServiceSet (s t : State) : Prop :=
  t.ada.service = s.ada.service ∨ (s.ada.service.serving = true ∧ s.ada.service ≠ .faulted ∧ t.ada.service = .on) ∨
    (s.ada.service = .on ∧ t.ada.service = .drain) ∨ (s.ada.service = .drain ∧ t.ada.service = .off) ∨
    (s.ada.service.attends = true ∧ t.ada.service = .faulted ∧ s.HoldsLoss)

theorem enterService_service (s : State) (new : Service) : (s.enterService new).ada.service = new := by
  simp [State.enterService]

/-- The removals of an entry to DRAIN may find a word lost; through them, the state is DRAIN. -/
theorem settle_enterDrain (x r b) (hs : s.ada.service = .on) : s.ServiceSet (settle (do enterDrain; answer x r b) s) := by
  have hled : Leads .readStatus (removeAll .draining s.allWaiters) s fun _ _ => True := acts_removeAll _ _ s
  have hrun : (do enterDrain; answer x r b : Op Unit) s =
      (removeAll .draining s.allWaiters >>= fun _ => (do modify (·.enterService .drain); answer x r b)) s := by
    simp only [enterDrain, bind_assoc]
    rfl
  unfold settle
  rw [hrun]
  unfold Leads at hled
  cases hm : removeAll .draining s.allWaiters s with
  | ok a u =>
    rw [Op.bind_ok hm]
    refine .inr (.inr (.inl ⟨hs, ?_⟩))
    exact (State.adminReply_service ..).trans (enterService_service ..)
  | error e u =>
    rw [Op.bind_error hm]
    rw [hm] at hled
    rcases (Effects.faultsByLoss (c := .readStatus) hled rfl).service with hsame | hlost
    · exact .inl hsame
    · exact .inr (.inr (.inr (.inr hlost)))

theorem settle_setServiceRun (x : AdmCtx) (hs : s.ada.service.serving = true) : s.ServiceSet (settle (setServiceRun x) s) := by
  have answered : ∀ (u : State) r b, s.ServiceSet u → s.ServiceSet (settle (answer x r b) u) := fun u r b hu => by
    change s.ServiceSet (u.adminReply x r b)
    unfold State.ServiceSet
    rw [State.adminReply_service]
    exact hu
  have refused : ∀ r b, s.ServiceSet (settle (answer x r b) s) := fun r b => answered s r b (.inl rfl)
  change s.ServiceSet (settle (if _ then _ else _) s)
  split
  · exact refused ..
  next hfaulted =>
  split
  · exact refused ..
  split
  · split
    · exact refused ..
    · exact answered (s.enterService .on) _ _ (.inr (.inl ⟨hs, hfaulted, enterService_service ..⟩))
  split
  · split
    · next hon => exact settle_enterDrain x _ _ hon
    all_goals exact refused ..
  split
  · split
    · exact refused ..
    · next hdrain =>
      split
      · exact answered (s.enterService .off) _ _ (.inr (.inr (.inr (.inl ⟨hdrain, enterService_service ..⟩))))
      · exact refused ..
    all_goals exact refused ..
  · exact refused ..

/-- What a taken command leaves, of what its reply does not change: `P` holds where nothing was taken, and after the run. -/
theorem takeAdmin_settled {P : State → Prop} {code run} (hs : P s) (htaken : ∀ rest n d, P (State.noteNeighbour n d { s with ada.intake := rest }))
    (hrun : ∀ x rest n d, s.ada.service.serving = true → P (settle (run x) (State.noteNeighbour n d { s with ada.intake := rest })))
    (hreply : ∀ u x r b, P u → P (u.adminReply x r b)) : P (takeAdmin code run s) := by
  unfold takeAdmin
  split
  · exact hs
  · next d rest hintake =>
    split
    · exact hs
    · next n hstation =>
      split
      · next hready =>
        have hserving : s.ada.service.serving = true := by
          simp only [Bool.and_eq_true] at hready
          exact hready.1.1
        dsimp only
        split
        · have hdone := hrun ⟨code, d.issuer n, adminBody d.payload⟩ rest n d hserving
          unfold settle at hdone
          split
          · next a t hm => rwa [hm] at hdone
          · next e t hm => rw [hm] at hdone; exact hreply _ _ _ _ hdone
        · exact hreply _ _ _ _ (htaken rest n d)
      · exact hs

theorem setService_moves (s : State) : s.ServiceSet (takeAdmin .setService setServiceRun s) :=
  takeAdmin_settled (.inl rfl) (fun _ _ _ => .inl rfl)
    (fun x rest n d hserving => settle_setServiceRun (s := State.noteNeighbour n d { s with ada.intake := rest }) x hserving)
    (fun u x r b hu => by
      unfold State.ServiceSet
      rw [State.adminReply_service]
      exact hu)

theorem serviceMove_of_loss (hattends : s.ada.service.attends = true) (hloss : (s.strike c.hits).HoldsLoss) :
    serviceMove c s .faulted := by
  unfold serviceMove
  cases hs : s.ada.service with
  | on | drain | off => exact hloss
  | starting | passOnly | faulted => rw [hs] at hattends; cases hattends

theorem serviceMove_setService (hits : List Hit) (h : (s.strike hits).ServiceSet t) (hmoved : t.ada.service ≠ s.ada.service) :
    serviceMove (.setService hits) s t.ada.service := by
  rcases h with hsame | ⟨hserving, hnot, hon⟩ | ⟨hfrom, hto⟩ | ⟨hfrom, hto⟩ | ⟨hattends, hto, hloss⟩
  · exact absurd hsame hmoved
  · have hserving : s.ada.service.serving = true := hserving
    have hnot : s.ada.service ≠ .faulted := hnot
    rw [hon] at hmoved ⊢
    unfold serviceMove
    cases hs : s.ada.service with
    | on => exact absurd hs.symm hmoved
    | drain => exact .inl ⟨hits, rfl⟩
    | off => exact .inl ⟨hits, rfl⟩
    | faulted => exact absurd hs hnot
    | starting | passOnly => rw [hs] at hserving; cases hserving
  · have hfrom : s.ada.service = .on := hfrom
    unfold serviceMove
    rw [hfrom, hto]
    exact ⟨hits, rfl⟩
  · have hfrom : s.ada.service = .drain := hfrom
    unfold serviceMove
    rw [hfrom, hto]
    exact ⟨hits, rfl⟩
  · rw [hto]
    exact serviceMove_of_loss (c := .setService hits) hattends hloss

theorem State.bootRead_service (s : State) (b : List Byte) :
    (s.bootRead b).ada.service = .on ∨ (s.bootRead b).ada.service = .passOnly := by
  unfold State.bootRead
  split
  · exact .inl (enterService_service ..)
  · exact .inr rfl

theorem State.resetDone_service (s : State) : s.resetDone.ada.service = .on := by
  have hon : ∀ u : State, u.serviceOn.ada.service = .on := fun u => by
    unfold State.serviceOn
    split
    · next h => exact h
    · exact enterService_service ..
  exact (State.longReply_service ..).trans (hon _)

/-- Settles O60: only three commands write the service state themselves, each along its edges; any other that changes it read a lost
word of a fatal memory. -/
theorem serviceStateMovesByItsCommands : Obligations.ServiceStateMovesByItsCommands := by
  intro c s t hsilent hpower h hmoved
  by_cases hc : c.movesService = true
  · cases c with
    | bootReadCompletion read =>
      injection h with h
      subst h
      refine awake_keeps (P := fun u => u.ada.service ≠ s.ada.service → serviceMove (.bootReadCompletion read) s u.ada.service)
        (fun hmoved => absurd rfl hmoved) ?_ hmoved
      split
      · next hstarting =>
        intro _
        unfold serviceMove
        rw [hstarting.1]
        rcases s.bootRead_service (read.getD (List.replicate Config.bootBytes 0xFF)) with hon | hpass
        · rw [hon]; exact ⟨read, rfl⟩
        · rw [hpass]; exact ⟨read, rfl⟩
      · exact fun hmoved => absurd rfl hmoved
    | setService hits =>
      injection h with h
      subst h
      exact awake_keeps (P := fun u => u.ada.service ≠ s.ada.service → serviceMove (.setService hits) s u.ada.service)
        (fun hmoved => absurd rfl hmoved) (serviceMove_setService hits (setService_moves _)) hmoved
    | serviceResetCompletion =>
      injection h with h
      subst h
      refine awake_keeps (P := fun u => u.ada.service ≠ s.ada.service → serviceMove .serviceResetCompletion s u.ada.service)
        (fun hmoved => absurd rfl hmoved) ?_ hmoved
      split
      · next hreset =>
        intro hmoved
        have hserving : s.ada.service.serving = true := by
          by_contra hnot
          rw [(hsilent (Bool.eq_false_iff.2 hnot)).op] at hreset
          cases hreset
        rw [State.resetDone_service] at hmoved ⊢
        unfold serviceMove
        cases hs : s.ada.service with
        | on => exact absurd hs.symm hmoved
        | drain => exact .inr rfl
        | off => exact .inr rfl
        | faulted => rfl
        | starting | passOnly => rw [hs] at hserving; cases hserving
      · exact fun hmoved => absurd rfl hmoved
    | _ => cases hc
  · rcases exec_effects hpower h with rfl | he
    · exact absurd rfl hmoved
    · rcases (he.faultsByLoss (Bool.eq_false_iff.2 hc)).service with hsame | ⟨hattends, hfaulted, hloss⟩
      · exact absurd hsame hmoved
      · rw [hfaulted]
        exact serviceMove_of_loss hattends hloss

end Sys2Proof.Machine

/-!
PROOFS. The grant table, and with the wait store the client table, stay sound (R29, R31, R45, R68, R70, R164).
-/
namespace Sys2Proof.Machine

variable {s t : State} {c : Instr}

/-! ### The token balance under one write of the grant table (R1, R3, R45) -/

/-- The balance, when slot `i` alone changes and each pool's count moves by what the slot adds. -/
theorem State.TokensBalanced.of_change (h : s.TokensBalanced) {i : Nat} (hi : i < Config.slots)
    (hne : ∀ j, j ≠ i → t.slot j = s.slot j)
    (hused : ∀ p k, (t.poolLive p).used k + (s.slot i).tokens p k = (s.poolLive p).used k + (t.slot i).tokens p k) : t.TokensBalanced := by
  intro p k
  have hchange := State.tokensBelow_change hne Config.slots p k
  rw [if_pos hi, if_pos hi] at hchange
  have hbefore := h p k
  have hmoved := hused p k
  rw [State.tokenSum_eq] at hbefore ⊢
  omega

theorem State.TokensBalanced.createGrant (h : s.TokensBalanced) {i : Nat} (hi : i < Config.slots) (hfree : (s.slot i).state = .free)
    (n : NewGrant) : (s.createGrant i n).TokensBalanced := by
  have hdead : (s.slot i).state.live = false := by rw [hfree]; rfl
  refine h.of_change hi (fun j hj => by rw [State.createGrant_slot, if_neg hj]) fun p k => ?_
  rw [Slot.tokens_dead hdead, State.createGrant_slot, if_pos rfl, State.createGrant_poolLive]
  by_cases hp : p = n.pool
  · subst hp
    rw [if_pos rfl, PoolLive.used_setUsed]
    by_cases hk : k = n.cls
    · subst hk
      simp [Slot.tokens, NewGrant.slot, GState.live]
    · simp [Slot.tokens, NewGrant.slot, hk, Ne.symm hk]
  · simp [Slot.tokens, NewGrant.slot, hp, Ne.symm hp]

/-- A live grant's cost is part of what its pool's balance counts. -/
theorem State.TokensBalanced.cost_le (h : s.TokensBalanced) {i : Nat} (hi : i < Config.slots) (hl : (s.slot i).state.live = true) :
    (s.slot i).cost ≤ (s.poolLive (s.slot i).pool).used (s.slot i).cls := by
  have hterm : (s.slot i).tokens (s.slot i).pool (s.slot i).cls = (s.slot i).cost := by simp [Slot.tokens, hl]
  rw [h, ← hterm]
  exact List.single_le_sum (fun _ _ => Nat.zero_le _) _ (List.mem_map.2 ⟨i, List.mem_range.2 hi, rfl⟩)

theorem State.TokensBalanced.releaseSlot (h : s.TokensBalanced) {i : Nat} (hi : i < Config.slots) (hl : (s.slot i).state.live = true) :
    (s.releaseSlot i).TokensBalanced := by
  have hle := h.cost_le hi hl
  have hslot := s.slot_releaseFrom true i
  refine h.of_change hi (fun j hj => (hslot j).trans (if_neg hj)) fun p k => ?_
  change ((s.releaseFrom true i).poolLive p).used k + _ = _ + ((s.releaseFrom true i).slot i).tokens p k
  rw [hslot, if_pos rfl, Slot.tokens_dead (g := (s.slot i).freed) rfl, State.poolLive_releaseFrom]
  by_cases hp : p = (s.slot i).pool
  · subst hp
    rw [if_pos rfl, PoolLive.used_setUsed]
    by_cases hk : k = (s.slot i).cls
    · subst hk
      rw [if_pos rfl]
      simp only [Slot.tokens, hl, and_self, if_true]
      omega
    · simp [Slot.tokens, hk, Ne.symm hk]
  · simp [Slot.tokens, hp, Ne.symm hp]

@[simp] theorem State.recallHeld_pools (s : State) (i : Nat) (r : Reason) : (s.recallHeld i r).adm.pools = s.adm.pools := by
  have hslot : (s.recallSlot i r).adm.pools = s.adm.pools := by
    unfold State.recallSlot
    dsimp only
    split <;> simp
  unfold State.recallHeld
  dsimp only
  split
  · simpa using hslot
  · exact hslot

theorem State.TokensBalanced.recallHeld (h : s.TokensBalanced) {i : Nat} (hh : (s.slot i).state = .held ∨ (s.slot i).state = .stale)
    (r : Reason) : (s.recallHeld i r).TokensBalanced := by
  have hframe := recallHeld_grants hh r
  intro p k
  rw [State.poolLive_congr (s.recallHeld_pools i r), h p k, State.tokenSum_eq, State.tokenSum_eq]
  exact sumBelow_congr fun j _ => ((hframe.slots j).2.2.2 p k).symm

/-! ### Every command keeps what is upheld -/

namespace Uphold

variable {both : Bool}

theorem powerOn_upheld (low : Bool) (s : State) : Upheld both (State.powerOn low s) := by
  have hgrants : (State.powerOn low s).GrantsSound := clear_grants rfl rfl rfl
  have hdead : ∀ i, ((State.powerOn low s).slot i).state.live = false := fun _ => rfl
  exact .of hgrants fun _ => ⟨hgrants, waitSound_clear rfl, clientsSound_clear rfl rfl (.inr hdead) (fun _ => hdead) (.inr rfl)⟩

theorem bootRead_upheld (hs : Upheld both s) (hstarting : s.ada.service = .starting)
    (hr : both = true → s.ada.op.isRebuild = false) (b : List Byte) : Upheld both (s.bootRead b) := by
  have hsame : GrantsSame s (s.bootRead b) := by
    unfold State.bootRead
    split
    · exact ⟨by simp, by simp, by simp⟩
    · exact ⟨rfl, rfl, rfl⟩
  exact .of (hs.grants.frame hsame.frame) fun hb => bootRead_tables (hs.tables hb) hstarting (hr hb) b

/-- A command's operation behind the gate of RESET_N, the words struck. -/
theorem struck {hits : List Hit} {f : State → State} (hs : Upheld both s)
    (h : Upheld both (s.strike hits) → Upheld both (f (s.strike hits))) :
    Holds both (.next (awake s fun u => f (u.strike hits))) :=
  holds_awake hs fun hs => h (hs.frame (strike_frame s hits))

theorem Ends.settled {m : Op Unit} (h : Ends both m s fun _ t => Upheld both t) : Upheld both (settle m s) := by
  unfold Ends at h
  unfold settle
  cases hm : m s with
  | ok a t => rwa [hm] at h
  | error e t => rwa [hm] at h

theorem copyAdvance_isRebuild (k : TableKind) (i : Nat) : (copyAdvance k i).isRebuild = false := by
  unfold copyAdvance
  split
  · rfl
  · cases k <;> rfl

theorem softEvent_frame (s : State) (e : Event) : TablesFrame s (s.softEvent e) :=
  frame_same (by simp) (by simp) (by simp) (by simp) (by simp) (by simp)

theorem denyMalformed_frame (s : State) (d : Cand) : TablesFrame s (s.denyMalformed d) :=
  ((replyTo_frame s ..).trans (softEvent_frame ..)).trans count_frame

theorem adminCandidateRefused_holds (hs : Upheld both s) : Holds both (execAdminCandidateRefused s) := by
  refine holds_awake hs fun hs => ?_
  split
  · exact hs
  · next d rest _ =>
    split
    · have htaken : TablesFrame s { s with ada.intake := rest } := frame_same rfl rfl rfl rfl rfl rfl
      dsimp only
      split
      · exact (hs.frame htaken).frame (softEvent_frame ..)
      · next n _ =>
        split
        · exact (hs.frame htaken).frame (countDropped_frame _)
        · split
          · exact hs
          · have hnoted : TablesFrame s (State.noteNeighbour n d { s with ada.intake := rest }) := frame_same rfl rfl rfl rfl rfl rfl
            exact (hs.frame hnoted).frame (originate_frame ..)
    · exact hs

theorem exec_holds (hs : Upheld both s) (hr : both = true → s.ada.service = .starting → s.ada.op.isRebuild = false) :
    Holds both (exec c s) := by
  have admin : ∀ {code run hits}, (∀ x, Keeps both (run x)) →
      Holds both (.next (awake s fun u => takeAdmin code run (u.strike hits))) := fun {_ _ _} h => struck hs (takeAdmin_sound h)
  have plain : ∀ {code run}, (∀ x, Keeps both (run x)) → Holds both (.next (awake s fun u => takeAdmin code run u)) :=
    fun {_ _} h => holds_awake hs (takeAdmin_sound h)
  have port : ∀ p ps, Upheld both (s.setPort p ps) := fun p ps => hs.frame (setPort_frame ..)
  cases c with
  | resetN => exact holds_next (powerOn_upheld ..)
  | resetNLow => exact holds_next (powerOn_upheld ..)
  | bootReadCompletion read =>
    refine holds_awake hs fun hs => ?_
    split
    · next hstarting => exact bootRead_upheld hs hstarting.1 (fun hb => hr hb hstarting.1) _
    · exact hs
  | linkUp p =>
    refine holds_awake hs fun hs => ?_
    split
    · exact port ..
    · exact hs
  | linkDown p cause => exact holds_awake hs fun _ => by cases cause <;> exact port ..
  | modulePresenceChange p present => exact holds_next (port ..)
  | mtAdvance => exact holds_awake hs fun hs => hs.frame (frame_same rfl rfl rfl rfl rfl rfl)
  | frameArrival p fr =>
    refine holds_awake hs fun hs => ?_
    split
    · exact hs.frame (arrive_frame ..)
    · exact hs
  | portReady p =>
    refine holds_awake hs fun hs => ?_
    split
    · exact port ..
    · exact hs
  | noticeHandoff =>
    refine holds_awake hs fun hs => ?_
    split
    · exact hs
    · split
      · next n rest _ _ =>
        have hhanded : TablesFrame s { s with fnu.notices := rest, fnu.lost := false } := frame_same rfl rfl rfl rfl rfl rfl
        exact (hs.frame hhanded).frame (originate_frame ..)
      · exact hs
  | adminCandidateRefused => exact adminCandidateRefused_holds hs
  | flashWriteCompletion b =>
    refine holds_awake hs fun hs => ?_
    split
    · exact hs.frame (frame_same rfl rfl rfl rfl rfl rfl)
    · exact hs
  | claim hits => exact struck hs (takeClient_ends fun d s hs ha => claimServe_ends hs ha d)
  | renew hits => exact struck hs (takeClient_sound renewServe_keeps)
  | renewHandle hits => exact renewHandle_holds hs hits
  | yieldGrant hits => exact struck hs (takeClient_sound yieldServe_keeps)
  | query hits => exact struck hs (takeClient_sound queryServe_keeps)
  | withdraw hits => exact struck hs (takeClient_sound withdrawServe_keeps)
  | cexDatagramOfOtherKind => exact holds_awake hs (takeClient_sound fun d => .frame fun s => denyMalformed_frame s d)
  | poolServiceRound r hits => exact poolServiceRound_holds hs r hits
  | grantPassVisit hits => exact struck hs (passVisit_sound fun _ => grantVisit_keeps)
  | waiterPassVisit hits => exact struck hs (passVisit_sound fun _ => waiterVisit_keeps)
  | poolPassVisit hits => exact struck hs (passVisit_sound fun _ => poolVisit_keeps)
  | clientPassVisit hits => exact struck hs (passVisit_sound clientVisit_keeps)
  | readStatus => exact plain readStatusRun_keeps
  | readEntry hits => exact admin readEntryRun_keeps
  | readPool hits => exact admin (readOne_keeps _ _ _)
  | readFeatureLive hits => exact admin (readOne_keeps _ _ _)
  | readGrant hits => exact admin (readOne_keeps _ _ _)
  | readWaiter hits => exact admin (readOne_keeps _ _ _)
  | readClient hits => exact admin readClientRun_keeps
  | writeEntry hits => exact admin writeEntryRun_keeps
  | setTime => exact plain setTimeRun_keeps
  | setWithhold hits => exact admin setWithholdRun_keeps
  | setService hits => exact struck hs (takeAdmin_ends fun x s hs hv => setServiceRun_ends x hs hv)
  | revokeHandle hits => exact admin revokeHandleRun_keeps
  | clearCapture => exact plain clearCaptureRun_keeps
  | writeBootRecord => exact plain writeBootRecordRun_keeps
  | copyBank => exact plain copyBankRun_keeps
  | copyBankVisit hits =>
    refine struck (f := fun u => match u.ada.op with
      | .copy k c => if c < k.size then { settle (copyVisit k c) u with ada.op := copyAdvance k c } else u
      | _ => u) hs fun hs => ?_
    dsimp only
    split
    · split
      · exact ((copyVisit_keeps _ _).settled hs).frame (setOp_frame _ _ (copyAdvance_isRebuild ..))
      · exact hs
    · exact hs
  | copyBankCompletion =>
    refine holds_awake hs fun hs => ?_
    split
    · exact hs.frame (copyDone_frame _)
    · exact hs
  | swapBank hits => exact admin swapBankRun_keeps
  | reconcileGrantVisit hits => exact struck hs (reconcileVisit_sound reconcileGrant_keeps)
  | reconcileWaiterVisit hits => exact struck hs (reconcileVisit_sound reconcileWaiter_keeps)
  | reconcilePoolVisit hits => exact struck hs (reconcileVisit_sound reconcilePool_keeps)
  | reconcileCompletion =>
    refine holds_awake hs fun hs => ?_
    split
    · split
      · exact hs.frame (completeOp_frame ..)
      · exact hs
    · exact hs
  | audit => exact plain auditRun_keeps
  | auditVisit hits =>
    refine struck (f := fun u => match u.ada.op with
      | .audit a => if a.over then u else u.auditStep a
      | _ => u) hs fun hs => ?_
    split
    · split
      · exact hs
      · exact auditStep_sound hs _
    · exact hs
  | auditCompletion =>
    refine holds_awake hs fun hs => ?_
    split
    · split
      · exact hs.frame (completeOp_frame ..)
      · exact hs
    · exact hs
  | scanRevoke => exact plain scanRevokeRun_keeps
  | scanRevokeGrantVisit hits => exact struck hs (scanVisit_sound scanGrant_keeps)
  | scanRevokeWaiterVisit hits => exact struck hs (scanVisit_sound scanWaiter_keeps)
  | scanRevokeCompletion =>
    refine holds_awake hs fun hs => ?_
    split
    · split
      · exact hs.frame (completeOp_frame ..)
      · exact hs
    · exact hs
  | countRebuild => exact plain countRebuildRun_keeps
  | countRebuildVisit hits =>
    refine struck (f := fun u => match u.ada.op with
      | .rebuild r => if r.cursor < Config.slots then settle (rebuildVisit r.cursor) u else u
      | _ => u) hs fun hs => ?_
    split
    · next r ho =>
      split
      · next hi => exact (rebuildVisit_keeps hs (fun r' hr' => by rw [ho] at hr'; cases hr'; rfl) hi).settled
      · exact hs
    · exact hs
  | countRebuildCompletion hits =>
    refine struck (f := fun u => match u.ada.op with
      | .rebuild r => if Config.slots ≤ r.cursor then settle (rebuildFinish r) u else u
      | _ => u) hs fun hs => ?_
    split
    · next r ho =>
      split
      · next hdone => exact (rebuildFinish_ends hs ho hdone).settled
      · exact hs
    · exact hs
  | serviceReset => exact plain serviceResetRun_keeps
  | serviceResetCompletion =>
    refine holds_awake hs fun hs => ?_
    split
    · exact resetDone_sound s
    · exact hs

theorem step_upheld (hs : Upheld both s) (hr : both = true → s.ada.service = .starting → s.ada.op.isRebuild = false)
    (h : step s = .next t) : Upheld both t := by
  unfold step at h
  split at h
  · injection h with h
    exact h ▸ hs
  · next c rest _ =>
    have hpending : TablesFrame s { s with pending := rest } := frame_same rfl rfl rfl rfl rfl rfl
    exact exec_holds (hs.frame hpending) hr t h

end Uphold

/-- Settles O36: the three writes move a pool's count by the cost of their slot; every operation of every command keeps the tables
sound, whether it runs through or ends at a lost word. -/
theorem grantsKeepTokenBalance : Obligations.GrantsKeepTokenBalance := by
  refine ⟨fun s i hi hb => ⟨fun n hf => hb.createGrant hi hf n, fun hl => hb.releaseSlot hi hl, fun r hh => hb.recallHeld hh r⟩,
    fun s t hg h => ?_, fun s t hg hw hsilent hc h => ?_⟩
  · exact Uphold.step_upheld (both := false) hg nofun h
  · have hidle : s.ada.service = .starting → s.ada.op.isRebuild = false := fun hs => by
      rw [(hsilent (by rw [hs]; rfl)).op]
      rfl
    exact TablesSound.clients (Uphold.step_upheld (both := true) ⟨hg, hw, hc⟩ (fun _ => hidle) h)

end Sys2Proof.Machine

/-!
PROOFS. The statements of the first tier: the step, power-on and reset, the links, SET TIME, FAULT_N; and the frames that hold for every
command: what an accepted administration command does.
-/
namespace Sys2Proof.Machine

variable {s t : State} {c : Instr} {d : Cand} {rest : List Cand} {st : Nat}

/-! ### Accepted administration commands -/

/-- An accepted command that runs through leaves what its run leaves. -/
theorem exec_admin {code : AdminCode} {run : AdmCtx → Op Unit} (hc : exec c s = .next (awake s fun u => takeAdmin code run u))
    (h : s.AdminHead code d rest st) (hrun : run (adminCtx code d st) (s.adminTaken d rest st) = .ok () t) : exec c s = .next t := by
  rw [hc, awake_high h.quiet.high, takeAdmin_head h, hrun]


/-! ### The first tier -/

/-- Settles O1. -/
theorem stepRunsFrontCommandOrIdles : Obligations.StepRunsFrontCommandOrIdles := by
  refine ⟨fun c rest s h => ?_, fun s h => ?_⟩
  · rw [step, h]
  · rw [step, h]

theorem freeFifoFull_eq_range : freeFifoFull = List.range Config.slots := by
  rw [freeFifoFull, List.range_eq_range']

/-- Settles O2: every component of the reset state, as it is written. -/
theorem powerOnStateHoldsResetValues : Obligations.PowerOnStateHoldsResetValues := by
  refine ⟨rfl, rfl, rfl, rfl, rfl, rfl, rfl, rfl, rfl, ?passes, rfl, rfl, rfl, rfl, fun _ => rfl, fun _ => rfl, fun _ => rfl, ?codes,
    ?sound, rfl, ?pools, fun _ => rfl, fun _ => ⟨rfl, rfl, rfl⟩, freeFifoFull_eq_range, rfl, rfl, rfl, fun _ => ⟨rfl, rfl⟩, rfl, rfl,
    fun _ => ⟨rfl, rfl⟩, rfl, rfl, rfl, rfl, rfl, rfl, ?ports, rfl, fun _ => rfl, rfl, rfl⟩
  case passes => intro id; cases id <;> rfl
  case codes => intro code; exact ite_self _
  case sound => intro k i; cases k <;> rfl
  case pools => exact fun p => ⟨rfl, rfl, fun c => by cases c <;> rfl⟩
  case ports => intro p; cases p <;> exact ⟨rfl, rfl, rfl, rfl⟩

/-- Settles O3: the two edges of RESET_N set the state whatever it was; behind the gate of RESET_N no other command reads it. -/
theorem resetNHoldsAndPowersOn : Obligations.ResetNHoldsAndPowersOn := by
  refine ⟨fun s => ⟨rfl, rfl⟩, fun c s hlow hpower hpins => ?_⟩
  have gated : ∀ f : State → State, (.next (awake s f) : Out) = .next s := fun f => by rw [awake_low hlow]
  cases c with
  | resetN | resetNLow => cases hpower
  | modulePresenceChange p b => exact absurd rfl (hpins p b)
  | _ => exact gated _

/-- Settles O6. -/
theorem linkEventsMoveOneportState : Obligations.LinkEventsMoveOneportState := by
  intro s p
  refine ⟨fun hhigh hmodule => ?_, fun hhigh hnone => ?_, fun hhigh => ?_, fun hhigh => ?_, ?_, ?_⟩
  · exact congrArg Host.Outcome.next ((awake_high hhigh _).trans (if_pos hmodule))
  · exact congrArg Host.Outcome.next ((awake_high hhigh _).trans (if_neg (by rw [hnone]; exact Bool.false_ne_true)))
  · exact congrArg Host.Outcome.next (awake_high hhigh _)
  · exact congrArg Host.Outcome.next (awake_high hhigh _)
  · change Host.Outcome.next (s.setPort p { s.port p with module := true, up := (s.port p).up && true }) = _
    rw [Bool.and_true]
  · change Host.Outcome.next (s.setPort p { s.port p with module := false, up := (s.port p).up && false }) = _
    rw [Bool.and_false]

/-- Settles O13: the reply leaves MT and the offset. -/
theorem setTimeWritesOffset : Obligations.SetTimeWritesOffset := by
  intro s d rest st h
  refine ⟨exec_admin (code := .setTime) (run := setTimeRun) rfl h rfl, ?_⟩
  rw [State.dt, State.adminReply_swp]
  rfl

/-- Settles O22. -/
theorem faultNFollowsItsConditions : Obligations.FaultNFollowsItsConditions := by
  intro s
  simp [State.faultN, or_assoc]

/-- Settles O54: the reset state is the power-on state of itself. -/
theorem powerOnMeetsInvariants : Obligations.PowerOnMeetsInvariants := by
  have htables : TablesSound State.reset := Uphold.powerOn_upheld (both := true) false State.reset
  exact ⟨State.powerOn_bounded false State.reset, State.powerOn_canonical false State.reset, htables.wait,
    ⟨Bank.powerOn_entriesStored, Bank.powerOn_entriesStored⟩, State.powerOn_silent false State.reset,
    htables.grants.balance rfl, htables.grants, htables.clients⟩

end Sys2Proof.Machine

/-!
PROOFS. The boot record, the ports, composed frames, the passes' rounds, and the checks of administration datagrams.
-/
namespace Sys2Proof.Machine

variable {s t : State} {c : Instr} {d : Cand} {rest : List Cand} {st : Nat}

/-! ### The boot record (R169, R170, R184) -/

/-- The 16-bit words of a byte string are its big-endian fields at the even offsets. -/
theorem words16_eq_map : ∀ b : List Byte, words16 b = (List.range ((b.length + 1) / 2)).map fun i => (be16 b (2 * i)).toNat
  | [] => rfl
  | [_] => by simp [words16, be16, byteAt]
  | x :: y :: b => by
    have hlen : ((x :: y :: b).length + 1) / 2 = (b.length + 1) / 2 + 1 := by simp; omega
    rw [words16, words16_eq_map b, hlen, List.range_succ_eq_map, List.map_cons, List.map_map]
    rfl

/-- Settles O4. -/
theorem bootRecordValidByItsWords : Obligations.BootRecordValidByItsWords := by
  intro b
  have hsum : ∀ l : List Nat, l.foldl (· + ·) 0 = l.sum := fun l => List.sum_eq_foldl.symm
  by_cases hlen : b.length = 54
  · have hwords : words16 b = (List.range 27).map fun i => (be16 b (2 * i)).toNat := by rw [words16_eq_map, hlen]
    rw [← hwords, ← hsum]
    simp [bootValid, Config.bootBytes, hlen, and_assoc]
  · simp [bootValid, Config.bootBytes, hlen]

theorem FlashWrite.code_eq_one {f : FlashWrite} : f.code = 1 ↔ ∃ r, f = .writing r := by
  cases f <;> simp [FlashWrite.code]

/-- Settles O5. -/
theorem bootReadAndBootRecordWrite : Obligations.BootReadAndBootRecordWrite := by
  refine ⟨fun s read b hhigh hstarting hreading hb => ?_, fun s d rest st h => ⟨fun hwriting => ?_, fun hnot hbad => ?_, fun hnot hgood => ?_⟩,
    fun s record readBack hhigh hwriting => ?_⟩
  · have hread : exec (.bootReadCompletion read) s = .next (s.bootRead b) := by
      refine congrArg Host.Outcome.next ((awake_high hhigh _).trans ((if_pos ⟨hstarting, hreading⟩).trans ?_))
      rw [hb]
      rfl
    refine ⟨fun hvalid => ?_, fun hinvalid => ⟨?_, ?_⟩⟩
    · rw [hread, State.bootRead, if_pos hvalid]
      rw [State.enterService, hstarting]
    · rw [hread, State.bootRead, if_neg (by rw [hinvalid]; exact Bool.false_ne_true)]
    · simp [State.faultN, hhigh]
  · refine exec_admin (run := writeBootRecordRun) rfl h ?_
    exact congrArg (fun m : Op Unit => m (s.adminTaken d rest st)) (if_pos (FlashWrite.code_eq_one.2 hwriting))
  · have hcode : ¬ s.ada.flash.code = 1 := fun hc => by
      obtain ⟨r, hr⟩ := FlashWrite.code_eq_one.1 hc
      exact hnot r hr
    refine exec_admin (run := writeBootRecordRun) rfl h ?_
    refine congrArg (fun m : Op Unit => m (s.adminTaken d rest st)) ((if_neg hcode).trans (if_neg ?_))
    exact (Bool.eq_false_iff.1 hbad)
  · have hcode : ¬ s.ada.flash.code = 1 := fun hc => by
      obtain ⟨r, hr⟩ := FlashWrite.code_eq_one.1 hc
      exact hnot r hr
    refine exec_admin (run := writeBootRecordRun) rfl h ?_
    exact congrArg (fun m : Op Unit => m (s.adminTaken d rest st)) ((if_neg hcode).trans (if_pos hgood))
  · refine congrArg Host.Outcome.next ((awake_high hhigh _).trans ?_)
    dsimp only
    rw [hwriting]

/-! ### The ports (R142 to R149, R153) -/

theorem exec_portReady (hhigh : s.resetLow = false) (p : Port) :
    exec (.portReady p) s = .next (if (s.port p).up then s.setPort p ((s.port p).next s.ada.service.serving) else s) :=
  congrArg Host.Outcome.next (awake_high hhigh _)

section
variable {ps : PortState} {a : Bool}

theorem PortState.next_none (hf : ps.forward = []) (ho : ps.originate = []) : ps.next a = { ps with line := none } := by
  rw [PortState.next]
  split <;> simp_all

theorem PortState.next_forward {fr : Frame} {rest : List Frame} (hf : ps.forward = fr :: rest)
    (hturn : ps.originate = [] ∧ a = true ∨ ps.originate ≠ [] ∧ ps.mark = .originate) :
    ps.next a = { ps with forward := rest, line := some fr, mark := .forward } := by
  rw [PortState.next]
  split <;> simp_all

theorem PortState.next_originated {o : OutFrame} {rest : List OutFrame} (ho : ps.originate = o :: rest)
    (hturn : ps.forward = [] ∨ ps.mark = .forward) :
    ps.next a = { ps with originate := rest, line := some o.frame, mark := .originate } := by
  rw [PortState.next]
  split <;> simp_all

/-- Where the device does not arbitrate, the mark stands. -/
theorem PortState.next_passed {fr : Frame} {rest : List Frame} (hf : ps.forward = fr :: rest) (ho : ps.originate = []) :
    ps.next false = { ps with forward := rest, line := some fr } := by
  rw [PortState.next]
  split <;> simp_all

end

/-- Settles O7. -/
theorem portReadyServesByMark : Obligations.PortReadyServesByMark := by
  intro s p hhigh
  refine ⟨fun hdown => ?_, fun hup hserving => ⟨fun hf ho => ?_, fun fr rest hf hturn => ?_, fun o rest ho hturn => ?_⟩,
    fun hup hserving ho => ⟨fun hf => ?_, fun fr rest hf => ?_⟩⟩
  · rw [exec_portReady hhigh, hdown, if_neg Bool.false_ne_true]
  all_goals rw [exec_portReady hhigh, if_pos hup, hserving]
  · rw [PortState.next_none hf ho]
  · rw [PortState.next_forward hf]
    by_cases ho : (s.port p).originate = []
    · exact .inl ⟨ho, rfl⟩
    · exact .inr ⟨ho, hturn.resolve_left ho⟩
  · rw [PortState.next_originated ho hturn]
  · rw [PortState.next_none hf ho]
  · rw [PortState.next_passed hf ho]

theorem exec_frameArrival (hhigh : s.resetLow = false) (p : Port) (fr : Frame) :
    exec (.frameArrival p fr) s = .next (if (s.port p).up && frameReceived fr then s.arrive p fr else s) :=
  congrArg Host.Outcome.next (awake_high hhigh _)

theorem frameReceived_iff (fr : Frame) : frameReceived fr = true ↔ fr.fcs = fcsOf fr.bytes ∧ fr.bytes.length + 4 ≤ 9216 := by
  simp [frameReceived, Config.maxFrame]

/-- Settles O8. -/
theorem arrivingFrameGoesByItsClass : Obligations.ArrivingFrameGoesByItsClass := by
  intro s p fr hhigh
  refine ⟨fun hlost => ?_, fun hup hfcs hlen => ?_⟩
  · rw [exec_frameArrival hhigh, if_neg]
    rw [Bool.and_eq_true, frameReceived_iff]
    rintro ⟨hup, hfcs, hlen⟩
    rcases hlost with hdown | hbad | hlong
    · rw [hdown] at hup; cases hup
    · exact hbad hfcs
    · omega
  have harrives : exec (.frameArrival p fr) s = .next (s.arrive p fr) := by
    rw [exec_frameArrival hhigh, if_pos (by rw [Bool.and_eq_true, frameReceived_iff]; exact ⟨hup, hfcs, hlen⟩)]
  rw [harrives]
  refine ⟨fun hpass => ?_, fun u hserving hclass hbad => ?_, fun u hserving hclass hgood => ?_, fun u hserving hclass hgood => ?_⟩
  · rcases hpass with hnot | hclass
    · rw [State.arrive, hnot, if_neg Bool.false_ne_true]
    · rw [State.arrive, hclass]
      exact congrArg Host.Outcome.next (ite_self _)
  · rcases hclass with hclass | hclass
    · rw [State.arrive, if_pos hserving, hclass]
      dsimp only
      rw [State.arriveIntercept, hbad, if_neg Bool.false_ne_true]
    · rw [State.arrive, if_pos hserving, hclass]
      dsimp only
      rw [State.arriveAdmin, hbad, if_neg Bool.false_ne_true]
  · rw [State.arrive, if_pos hserving, hclass]
    dsimp only
    rw [State.arriveIntercept, if_pos hgood]
    by_cases hroom : s.exu.intake.length < 64
    · rw [if_pos hroom, if_pos hroom]
    · rw [if_neg hroom, if_neg hroom, State.overflow, State.forwardTo]
      by_cases hpath : s.lnk.portS.up = true ∧ s.lnk.portS.forward.length < 2048
      · have hopen : (s.lnk.portS.up && decide (s.lnk.portS.forward.length < Config.forwardPath)) = true := by
          simpa [Config.forwardPath] using hpath
        rw [if_pos hpath, if_pos hopen]
        exact congrArg Host.Outcome.next (if_pos hopen)
      · have hshut : ¬ (s.lnk.portS.up && decide (s.lnk.portS.forward.length < Config.forwardPath)) = true := by
          simpa [Config.forwardPath] using hpath
        rw [if_neg hpath, if_neg hshut]
  · rw [State.arrive, if_pos hserving, hclass]
    dsimp only
    rw [State.arriveAdmin, if_pos hgood]

/-! ### Composed frames (R150 to R152, R178) -/

/-- A frame without a notice changes only the ports' output. -/
theorem originate_output (s : State) (p : Port) (a : Addressing) (b : List Byte) : SameButOutput s (s.originate p none a b) where
  pending := by simp
  resetLow := by simp
  damage := by simp
  exu := by simp
  tbs := by simp
  adm := by simp
  grt := by simp
  wts := by simp
  clt := by simp
  swp := by simp
  fnu := State.originate_fnu ..
  ada := by
    unfold State.originate
    dsimp only
    split
    · cases p <;> rfl
    · rfl
  lnk := by
    unfold State.originate
    dsimp only
    split
    · cases p <;> rfl
    · rfl

/-- Settles O10. -/
theorem composedFramesChangeOnlyOutput : Obligations.ComposedFramesChangeOnlyOutput := by
  refine ⟨fun s p n a payload => ⟨fun hroom => ?_, fun hfull => ⟨fun hn => ?_, fun k hn => ?_⟩⟩,
    fun s d m => originate_output .., fun s c id tag m => originate_output .., fun s x r body => originate_output ..⟩
  · unfold State.originate
    dsimp only
    rw [if_pos (by exact hroom)]
    cases p <;> rfl
  · subst hn
    unfold State.originate
    dsimp only
    rw [if_neg (by exact Nat.not_lt.2 hfull)]
  · subst hn
    unfold State.originate
    dsimp only
    rw [if_neg (by exact Nat.not_lt.2 hfull)]

/-! ### The rounds of the passes (R93, R98, R104) -/

@[simp] theorem Swp.pass_setPass_self (w : Swp) (id : PassId) (p : Pass) : (w.setPass id p).pass id = p := by cases id <;> rfl

theorem Swp.pass_setPass_ne (w : Swp) {id other : PassId} (h : other ≠ id) (p : Pass) :
    (w.setPass id p).pass other = w.pass other := by
  cases id <;> cases other <;> simp_all [Swp.setPass, Swp.pass]

/-- A round begins for one pass, and leaves MT and DT. -/
theorem Swp.beginRound_frame (w : Swp) (id : PassId) (x : Service) :
    (w.beginRound id x).mt = w.mt ∧ (w.beginRound id x).dtOffset = w.dtOffset ∧ (w.beginRound id x).dtValid = w.dtValid ∧
      ∀ other, other ≠ id → (w.beginRound id x).pass other = w.pass other := by
  unfold Swp.beginRound
  split
  · refine ⟨by cases id <;> rfl, by cases id <;> rfl, by cases id <;> rfl, fun other h => Swp.pass_setPass_ne _ h _⟩
  · exact ⟨rfl, rfl, rfl, fun _ _ => rfl⟩

theorem Swp.beginRound_pass (w : Swp) (id : PassId) (x : Service) :
    (w.beginRound id x).pass id = { w.pass id with
      rounds := if id.runsIn x = true ∧ id.begins w.mt = true then (w.pass id).rounds ++ [w.mt] else (w.pass id).rounds } := by
  unfold Swp.beginRound
  by_cases h : (id.runsIn x && id.begins w.mt) = true
  · rw [if_pos h, if_pos ((Bool.and_eq_true ..).mp h), Swp.pass_setPass_self]
  · rw [if_neg h, if_neg (fun k => h ((Bool.and_eq_true ..).mpr k))]

/-- The rounds of all four passes begin, each for itself. -/
theorem Swp.beginRounds (w : Swp) (x : Service) :
    let v := (((w.beginRound .grant x).beginRound .waiter x).beginRound .pool x).beginRound .client x
    v.mt = w.mt ∧ v.dtOffset = w.dtOffset ∧ v.dtValid = w.dtValid ∧ ∀ id, v.pass id = (w.beginRound id x).pass id := by
  obtain ⟨hmt1, hdt1, hok1, hne1⟩ := w.beginRound_frame .grant x
  obtain ⟨hmt2, hdt2, hok2, hne2⟩ := (w.beginRound .grant x).beginRound_frame .waiter x
  obtain ⟨hmt3, hdt3, hok3, hne3⟩ := ((w.beginRound .grant x).beginRound .waiter x).beginRound_frame .pool x
  obtain ⟨hmt4, hdt4, hok4, hne4⟩ := (((w.beginRound .grant x).beginRound .waiter x).beginRound .pool x).beginRound_frame .client x
  refine ⟨by rw [hmt4, hmt3, hmt2, hmt1], by rw [hdt4, hdt3, hdt2, hdt1], by rw [hok4, hok3, hok2, hok1], fun id => ?_⟩
  cases id with
  | grant => rw [hne4 .grant nofun, hne3 .grant nofun, hne2 .grant nofun]
  | waiter => rw [hne4 .waiter nofun, hne3 .waiter nofun, Swp.beginRound_pass, Swp.beginRound_pass, hne1 .waiter nofun, hmt1]
  | pool => rw [hne4 .pool nofun, Swp.beginRound_pass, Swp.beginRound_pass, hne2 .pool nofun, hne1 .pool nofun, hmt2, hmt1]
  | client =>
    rw [Swp.beginRound_pass, Swp.beginRound_pass, hne3 .client nofun, hne2 .client nofun, hne1 .client nofun, hmt3, hmt2, hmt1]

theorem PassId.begins_iff (id : PassId) (mt : W32) : id.begins mt = true ↔ (id = .grant → mt.toNat % 2 = 0) := by
  cases id <;> simp [PassId.begins]

theorem passVisit_none (id : PassId) (act : W32 → Nat → Op Unit) (h : (s.swp.pass id).rounds = []) : passVisit id act s = s := by
  rw [passVisit, h]

/-- Settles O11. -/
theorem mtAdvanceOpensRoundsVisitedOnce : Obligations.MtAdvanceOpensRoundsVisitedOnce := by
  have unvisited : ∀ (s : State) (id : PassId) (act : W32 → Nat → Op Unit), s.resetLow = false → (s.swp.pass id).rounds = [] →
      (.next (awake s fun u => passVisit id act (u.strike [])) : Out) = .next s := fun s id act hhigh h => by
    rw [awake_high hhigh, State.strike_nil, passVisit_none id act h]
  refine ⟨fun s hhigh => ?_, fun s hhigh h => unvisited s .grant _ hhigh h, fun s hhigh h => unvisited s .waiter _ hhigh h,
    fun s hhigh h => unvisited s .pool _ hhigh h, fun s hhigh h => unvisited s .client _ hhigh h, fun s id label later h => ?_,
    rfl, rfl, rfl, rfl⟩
  · obtain ⟨hmt, hdt, hok, hpass⟩ := Swp.beginRounds { s.swp with mt := s.swp.mt + 1 } s.ada.service
    refine ⟨_, congrArg Host.Outcome.next (awake_high hhigh _), rfl, hmt, hdt, hok, fun id => ?_⟩
    have hone := (hpass id).trans (Swp.beginRound_pass ..)
    have hsame : ({ s.swp with mt := s.swp.mt + 1 } : Swp).pass id = s.swp.pass id := by cases id <;> rfl
    rw [hsame] at hone
    have hrounds := congrArg Pass.rounds hone
    simp only [PassId.begins_iff] at hrounds
    exact ⟨(congrArg Pass.cursor hone :), hrounds⟩
  · have hself : (s.passOn id).swp.pass id = (s.swp.pass id).advance id.size := Swp.pass_setPass_self ..
    refine ⟨fun hmore => ?_, fun hlast => ?_, fun other hother => Swp.pass_setPass_ne _ hother _⟩
    · rw [hself, Pass.advance, h]
      dsimp only
      rw [if_pos hmore, ← h]
    · rw [hself, Pass.advance, h]
      dsimp only
      rw [if_neg (Nat.not_lt.2 hlast)]

/-! ### The checks of administration datagrams (R155) -/

theorem exec_adminCandidateRefused (hhigh : s.resetLow = false) (hserving : s.ada.service.serving = true)
    (hhead : s.ada.intake = d :: rest) :
    exec .adminCandidateRefused s = .next
      (match s.stationOf d with
        | none => State.softEvent ⟨0x02, d.srcPort.toNat, 0, d.srcIp⟩ { s with ada.intake := rest }
        | some n =>
          if !adminHeaderGood d.payload then State.countDropped { s with ada.intake := rest }
          else
            match adminCode d.payload with
            | some _ => s
            | none => (s.adminTaken d rest n).adminSend (d.issuer n) (byteAt d.payload 4).toNat .badValue []) := by
  refine congrArg Host.Outcome.next ((awake_high hhigh _).trans ?_)
  rw [hhead]
  dsimp only
  rw [if_pos hserving]
  rfl

/-- A command whose body length is not its own is answered BAD_VALUE, whatever its run (R155 check 3). -/
theorem takeAdmin_badLength {k : AdminCode} (run : AdmCtx → Op Unit) (hserving : s.ada.service.serving = true)
    (hhead : s.ada.intake = d :: rest) (hstation : s.stationOf d = some st) (hheader : adminHeaderGood d.payload = true)
    (hcode : adminCode d.payload = some k) (hlength : adminLengthGood k d.payload = false) :
    takeAdmin k run s = (s.adminTaken d rest st).adminReply (adminCtx k d st) .badValue [] := by
  simp [takeAdmin, hhead, hstation, hserving, hheader, hcode, hlength]
  rfl

/-- Settles O14. -/
theorem adminDatagramsAreCheckedFirst : Obligations.AdminDatagramsAreCheckedFirst := by
  refine ⟨fun s d rest hhigh hserving hhead => ?_, fun c k s d rest st hkind hhigh hserving hhead hstation hheader hcode hlength => ?_⟩
  · have hexec := exec_adminCandidateRefused hhigh hserving hhead
    refine ⟨fun hnone => ?_, fun st hsome hbad => ?_, fun st hsome hgood hcode => ?_⟩
    · rw [hexec, hnone]
    · rw [hexec, hsome]
      dsimp only
      rw [hbad]
      rfl
    · rw [hexec, hsome]
      dsimp only
      rw [hgood, hcode]
      rfl
  · have hrefused : ∀ run, (.next (awake s fun u => takeAdmin k run (u.strike c.hits)) : Out) =
        .next (((s.strike c.hits).adminTaken d rest st).adminReply (adminCtx k d st) .badValue []) := fun run => by
      rw [awake_high hhigh]
      exact congrArg Host.Outcome.next
        (takeAdmin_badLength (s := s.strike c.hits) run hserving hhead hstation hheader hcode hlength)
    cases c <;> cases hkind
    all_goals exact hrefused _

end Sys2Proof.Machine

/-!
PROOFS. A frame the device composes reads back: its fields, and the ones'-complement checksums, which depend on the sum of the covered words
only (R145, R147, R150).
-/
namespace Sys2Proof.Machine

/-! ### Fields and their bytes -/

theorem extract_bytes16 (w : W16) : w.extractLsb' 8 8 ++ w.extractLsb' 0 8 = w :=
  (BitVec.extractLsb'_append_extractLsb'_eq_extractLsb' rfl).trans BitVec.extractLsb'_eq_self

theorem extract_bytes32 (w : W32) :
    (w.extractLsb' 24 8 ++ w.extractLsb' 16 8 : W16) ++ (w.extractLsb' 8 8 ++ w.extractLsb' 0 8 : W16) = w := by
  have hhigh : (w.extractLsb' 24 8 ++ w.extractLsb' 16 8 : W16) = w.extractLsb' 16 16 :=
    BitVec.extractLsb'_append_extractLsb'_eq_extractLsb' rfl
  have hlow : (w.extractLsb' 8 8 ++ w.extractLsb' 0 8 : W16) = w.extractLsb' 0 16 :=
    BitVec.extractLsb'_append_extractLsb'_eq_extractLsb' rfl
  rw [hhigh, hlow]
  exact (BitVec.extractLsb'_append_extractLsb'_eq_extractLsb' rfl).trans BitVec.extractLsb'_eq_self

theorem extract_bytes48 (w : W48) :
    ((w.extractLsb' 40 8 ++ w.extractLsb' 32 8 : W16) ++ (w.extractLsb' 24 8 ++ w.extractLsb' 16 8 : W16) : W32) ++
      (w.extractLsb' 8 8 ++ w.extractLsb' 0 8 : W16) = w := by
  have hfirst : (w.extractLsb' 40 8 ++ w.extractLsb' 32 8 : W16) = w.extractLsb' 32 16 :=
    BitVec.extractLsb'_append_extractLsb'_eq_extractLsb' rfl
  have hsecond : (w.extractLsb' 24 8 ++ w.extractLsb' 16 8 : W16) = w.extractLsb' 16 16 :=
    BitVec.extractLsb'_append_extractLsb'_eq_extractLsb' rfl
  have hthird : (w.extractLsb' 8 8 ++ w.extractLsb' 0 8 : W16) = w.extractLsb' 0 16 :=
    BitVec.extractLsb'_append_extractLsb'_eq_extractLsb' rfl
  have hhigh : (w.extractLsb' 32 16 ++ w.extractLsb' 16 16 : W32) = w.extractLsb' 16 32 :=
    BitVec.extractLsb'_append_extractLsb'_eq_extractLsb' rfl
  rw [hfirst, hsecond, hthird, hhigh]
  exact (BitVec.extractLsb'_append_extractLsb'_eq_extractLsb' rfl).trans BitVec.extractLsb'_eq_self

theorem extract_nat16 {n : Nat} (h : n < 65536) :
    ((BitVec.ofNat 16 n).extractLsb' 8 8 ++ (BitVec.ofNat 16 n).extractLsb' 0 8 : W16).toNat = n := by
  rw [extract_bytes16, BitVec.toNat_ofNat]
  exact Nat.mod_eq_of_lt h

/-! ### The ones'-complement sum (R147) -/

/-- The ones'-complement sum of words that add up to `n`. -/
def onesOf (n : Nat) : Nat := if n = 0 then 0 else (n - 1) % 65535 + 1

theorem onesOf_le (n : Nat) : onesOf n ≤ 65535 := by
  unfold onesOf
  split <;> omega

theorem onesAdd_onesOf {n w : Nat} (h : w < 65536) : onesAdd (onesOf n) w = onesOf (n + w) := by
  unfold onesAdd onesOf
  split_ifs <;> omega

theorem foldl_onesAdd {l : List Nat} (h : ∀ w ∈ l, w < 65536) : ∀ n, l.foldl onesAdd (onesOf n) = onesOf (n + l.sum) := by
  induction l with
  | nil => exact fun n => rfl
  | cons w l ih =>
    intro n
    rw [List.foldl_cons, onesAdd_onesOf (h w List.mem_cons_self), ih fun v hv => h v (List.mem_cons_of_mem _ hv), List.sum_cons,
      Nat.add_assoc]

theorem onesSum_eq (b : List Byte) : onesSum b = onesOf (words16 b).sum := by
  have hwords : ∀ w ∈ words16 b, w < 65536 := by
    rw [words16_eq_map]
    intro w hw
    obtain ⟨i, -, rfl⟩ := List.mem_map.1 hw
    exact BitVec.isLt _
  have hfold := foldl_onesAdd hwords 0
  rwa [Nat.zero_add] at hfold

/-- The words of a string and of one behind it, the first of an even length. -/
theorem words16_append : ∀ (a b : List Byte), a.length % 2 = 0 → words16 (a ++ b) = words16 a ++ words16 b
  | [], _, _ => rfl
  | [_], _, h => absurd h (by simp)
  | x :: y :: a, b, h => by
    have heven : a.length % 2 = 0 := by simp only [List.length_cons] at h; omega
    simp only [List.cons_append, words16]
    rw [words16_append a b heven]

theorem words16_bytes16 (w : W16) (l : List Byte) : words16 (bytes16 w ++ l) = w.toNat :: words16 l :=
  congrArg (fun v : W16 => v.toNat :: words16 l) (extract_bytes16 w)

/-- The sum of the words around a 16-bit field. -/
theorem sum_words16_field (a b : List Byte) (h : a.length % 2 = 0) (w : W16) :
    (words16 (a ++ bytes16 w ++ b)).sum = (words16 a).sum + w.toNat + (words16 b).sum := by
  rw [List.append_assoc, words16_append a _ h, words16_bytes16, List.sum_append, List.sum_cons, Nat.add_assoc]

theorem checksum_toNat (b : List Byte) : (checksum b).toNat = 65535 - onesSum b := by
  rw [checksum, BitVec.toNat_ofNat]
  exact Nat.mod_eq_of_lt (by omega)

/-- The complement fills the sum up to 0xFFFF; so does 0xFFFF in place of a complement of 0. -/
theorem onesOf_complement (n : Nat) : onesOf (n + (65535 - onesOf n)) = 65535 := by
  unfold onesOf
  split_ifs <;> omega

theorem onesOf_full {n : Nat} (h : onesOf n = 65535) : onesOf (n + 65535) = 65535 := by
  unfold onesOf at h ⊢
  split_ifs at h ⊢ <;> omega

/-- The sum of a string around its checksum field, the field computed over the string with the field 0. -/
theorem onesSum_checksum (a b : List Byte) (h : a.length % 2 = 0) :
    onesSum (a ++ bytes16 (checksum (a ++ bytes16 0 ++ b)) ++ b) = 65535 := by
  have hzero := sum_words16_field a b h 0
  rw [onesSum_eq, sum_words16_field a b h, checksum_toNat, onesSum_eq, hzero, Nat.add_right_comm]
  exact onesOf_complement _

/-- The same for the checksum of a UDP datagram, a computed 0 sent as 0xFFFF (R150). -/
theorem onesSum_checksum_nonzero (a b : List Byte) (h : a.length % 2 = 0) {c : W16} (hc : c = checksum (a ++ bytes16 0 ++ b)) :
    onesSum (a ++ bytes16 (if c = 0 then 0xFFFF else c) ++ b) = 65535 := by
  have hzero := sum_words16_field a b h 0
  split
  · next hnone =>
    have hfull : onesOf ((words16 a).sum + (words16 b).sum) = 65535 := by
      have hn := checksum_toNat (a ++ bytes16 0 ++ b)
      rw [← hc, hnone, onesSum_eq, hzero] at hn
      have hle := onesOf_le ((words16 a).sum + (words16 b).sum)
      change 0 = 65535 - onesOf ((words16 a).sum + 0 + (words16 b).sum) at hn
      rw [Nat.add_zero] at hn
      omega
    rw [onesSum_eq, sum_words16_field a b h]
    change onesOf ((words16 a).sum + 65535 + (words16 b).sum) = 65535
    rw [Nat.add_right_comm]
    exact onesOf_full hfull
  · rw [hc]
    exact onesSum_checksum a b h

/-! ### Reading a composed frame (R145, R150) -/

section
variable (a : Addressing) (ident : W16) (payload : List Byte) (hs us : W16)

/-- The IPv4 packet of a composed frame, its checksum fields given, with the bytes behind it. -/
def packetBytes (pad : List Byte) : List Byte := ipHeader a (28 + payload.length) ident hs ++ (udpBytes a us payload ++ pad)

theorem ipHeader_length (n : Nat) : (ipHeader a n ident hs).length = 20 := rfl

theorem udpBytes_length : (udpBytes a us payload).length = 8 + payload.length := by
  simp [udpBytes, bytes16, nat16]
  omega

theorem ipv4Of_composed (p : List Byte) :
    ipv4Of (bytes48 a.dstMac ++ (bytes48 a.srcMac ++ (vlanBytes a.vlan ++ ([0x08, 0x00] ++ p)))) = some (a.vlan, p) := by
  have hipv4 : (0x08#8 ++ 0x00#8 : W16) = 0x0800#16 := by decide
  have htag : (0x81#8 ++ 0x00#8 : W16) = 0x8100#16 := by decide
  have hnot : ¬ (0x81#8 ++ 0x00#8 : W16) = 0x0800#16 := by decide
  unfold ipv4Of
  cases hv : a.vlan with
  | none =>
    rw [if_neg (by simp [bytes48, vlanBytes]), if_pos (by exact hipv4)]
    rfl
  | some v =>
    rw [if_neg (by simp [bytes48, vlanBytes]), if_neg (by exact hnot),
      if_pos (by exact ⟨htag, by simp [bytes48, vlanBytes, bytes16], hipv4⟩)]
    exact congrArg (fun x => some (some x, p)) (extract_bytes16 v)

/-- A frame around such a packet, whatever its checksum fields, parses as its addresses and bytes. -/
theorem parseUdp_packet (h : payload.length ≤ 65507) (pad : List Byte) :
    parseUdp (bytes48 a.dstMac ++ (bytes48 a.srcMac ++ (vlanBytes a.vlan ++ ([0x08, 0x00] ++ packetBytes a ident payload hs us pad)))) =
      some { dstMac := a.dstMac, srcMac := a.srcMac, vlan := a.vlan, header := ipHeader a (28 + payload.length) ident hs,
             udp := udpBytes a us payload } := by
  have hfirst : byteAt (packetBytes a ident payload hs us pad) 0 = 0x45#8 := rfl
  have hprotocol : byteAt (packetBytes a ident payload hs us pad) 9 = 17#8 := rfl
  have hwhole : (be16 (packetBytes a ident payload hs us pad) 6).toNat % 16384 = 0 := by
    change (0x00#8 ++ 0x00#8 : W16).toNat % 16384 = 0
    decide
  have htotal : (be16 (packetBytes a ident payload hs us pad) 2).toNat = 28 + payload.length := extract_nat16 (by omega)
  have hlen : (be16 (udpBytes a us payload) 4).toNat = 8 + payload.length := extract_nat16 (by omega)
  have hdrop : (packetBytes a ident payload hs us pad).drop 20 = udpBytes a us payload ++ pad :=
    List.drop_left' (ipHeader_length ..)
  have htake : (packetBytes a ident payload hs us pad).take 20 = ipHeader a (28 + payload.length) ident hs :=
    List.take_left' (ipHeader_length ..)
  have hudp : ((packetBytes a ident payload hs us pad).drop 20).take (28 + payload.length - 20) = udpBytes a us payload := by
    rw [hdrop]
    exact List.take_left' (by rw [udpBytes_length]; omega)
  have hlong : 28 + payload.length ≤ (packetBytes a ident payload hs us pad).length := by
    rw [packetBytes, List.length_append, List.length_append, udpBytes_length, ipHeader_length]
    omega
  have hdst : be48 (bytes48 a.dstMac ++ (bytes48 a.srcMac ++ (vlanBytes a.vlan ++ ([0x08, 0x00] ++
      packetBytes a ident payload hs us pad)))) 0 = a.dstMac := extract_bytes48 _
  have hsrc : be48 (bytes48 a.dstMac ++ (bytes48 a.srcMac ++ (vlanBytes a.vlan ++ ([0x08, 0x00] ++
      packetBytes a ident payload hs us pad)))) 6 = a.srcMac := extract_bytes48 _
  have hversion : (0x45#8).toNat / 16 = 4 := rfl
  have hhead : 4 * ((0x45#8).toNat % 16) = 20 := rfl
  rw [parseUdp, ipv4Of_composed]
  dsimp only
  rw [hfirst, htotal, hhead, hudp, hlen, hversion, if_pos ⟨rfl, le_rfl, by omega, hlong, hwhole, hprotocol, by omega⟩, htake, hdst, hsrc]

theorem composeBytes_eq : ∃ pad, composeBytes a ident payload =
    bytes48 a.dstMac ++ (bytes48 a.srcMac ++ (vlanBytes a.vlan ++ ([0x08, 0x00] ++
      packetBytes a ident payload (checksum (ipHeader a (28 + payload.length) ident 0)) (udpChecksum a payload) pad))) := by
  unfold composeBytes packetBytes
  simp only [List.append_assoc]
  exact ⟨_, rfl⟩

/-- The bytes of the header around its checksum field. -/
theorem ipHeader_around (n : Nat) : ipHeader a n ident hs =
    ([0x45, 0x00] ++ nat16 n ++ bytes16 ident ++ [0, 0, 64, 17]) ++ bytes16 hs ++ (bytes32 a.srcIp ++ bytes32 a.dstIp) := by
  rw [ipHeader, List.append_assoc _ (bytes32 a.srcIp)]

/-- The bytes the UDP checksum covers, around its field. -/
theorem udpCovered_around : bytes32 a.srcIp ++ bytes32 a.dstIp ++ [0, 17] ++ nat16 (8 + payload.length) ++ udpBytes a us payload =
    (bytes32 a.srcIp ++ bytes32 a.dstIp ++ [0, 17] ++ nat16 (8 + payload.length) ++
      (bytes16 a.srcPort ++ bytes16 a.dstPort ++ nat16 (8 + payload.length))) ++ bytes16 us ++ payload := by
  simp only [udpBytes, List.append_assoc]

theorem onesSum_ipHeader (n : Nat) : onesSum (ipHeader a n ident (checksum (ipHeader a n ident 0))) = 65535 := by
  rw [ipHeader_around a ident (checksum _), ipHeader_around a ident 0]
  exact onesSum_checksum _ _ (by simp [nat16, bytes16])

theorem onesSum_udp : onesSum (bytes32 a.srcIp ++ bytes32 a.dstIp ++ [0, 17] ++ nat16 (8 + payload.length) ++
    udpBytes a (udpChecksum a payload) payload) = 65535 := by
  rw [udpCovered_around]
  exact onesSum_checksum_nonzero _ _ (by simp [nat16, bytes16, bytes32]) (congrArg checksum (udpCovered_around a payload 0))

end

/-- Settles O9: the fields stand at their offsets, and each checksum field completes the sum of the words around it. -/
theorem composedFrameReadsBack : Obligations.ComposedFrameReadsBack := by
  intro a ident payload h
  obtain ⟨pad, hbytes⟩ := composeBytes_eq a ident payload
  refine ⟨_, (congrArg parseUdp hbytes).trans (parseUdp_packet a ident payload _ _ h pad), ?_, rfl, rfl, rfl, extract_bytes32 _,
    extract_bytes32 _, extract_bytes16 _, extract_bytes16 _, rfl⟩
  have hsrc : be32 (ipHeader a (28 + payload.length) ident (checksum (ipHeader a (28 + payload.length) ident 0))) 12 = a.srcIp :=
    extract_bytes32 _
  have hdst : be32 (ipHeader a (28 + payload.length) ident (checksum (ipHeader a (28 + payload.length) ident 0))) 16 = a.dstIp :=
    extract_bytes32 _
  rw [Udp.checksumsGood, Udp.srcIp, Udp.dstIp, hsrc, hdst, udpBytes_length, onesSum_ipHeader, onesSum_udp]
  exact Bool.or_true _

end Sys2Proof.Machine

/-!
PROOFS. The read commands, SET WITHHOLD, SET SERVICE, REVOKE HANDLE, the captures and the notices.
-/
namespace Sys2Proof.Machine

variable {s t : State} {c : Instr} {d : Cand} {rest : List Cand} {st : Nat}

/-! ### How a run decides -/

theorem Op.ite_pos {α : Type} {p : Prop} [Decidable p] (h : p) (m n : Op α) (s : State) : (if p then m else n) s = m s := by
  rw [if_pos h]

theorem Op.ite_neg {α : Type} {p : Prop} [Decidable p] (h : ¬ p) (m n : Op α) (s : State) : (if p then m else n) s = n s := by
  rw [if_neg h]

/-- An accepted command whose run reads its words from the state it finds. -/
theorem exec_admin_at {code : AdminCode} {run : AdmCtx → Op Unit} {f : State → State} (hc : exec c s = .next (awake s f))
    (hf : f s = takeAdmin code run s) (h : s.AdminHead code d rest st)
    (hrun : run (adminCtx code d st) (s.adminTaken d rest st) = .ok () t) : exec c s = .next t := by
  rw [hc, awake_high h.quiet.high, hf, takeAdmin_head h, hrun]

theorem State.AdminHead.sound {code : AdminCode} (h : s.AdminHead code d rest st) : (s.adminTaken d rest st).damage = [] :=
  h.quiet.sound

theorem toNat_ne_zero {n : Nat} {w : BitVec n} (h : w ≠ 0#n) : w.toNat ≠ 0 := fun h0 => h (BitVec.eq_of_toNat_eq h0)

theorem toNat_of_eq {n : Nat} {w v : BitVec n} (h : w = v) : w.toNat = v.toNat := congrArg BitVec.toNat h

/-! ### The record reads (R157, R182) -/

section
variable {size : Nat} {words : Nat → List MemWord} {report : State → Nat → List Byte} {x : AdmCtx}

theorem readOne_spare (h : be16 x.body 2 ≠ 0) : readOne size words report x t = .ok () (t.adminReply x .badValue []) :=
  Op.ite_pos (toNat_ne_zero h) _ _ t

theorem readOne_index (h : be16 x.body 2 = 0) (hi : size ≤ (be16 x.body 0).toNat) :
    readOne size words report x t = .ok () (t.adminReply x .badIndex []) :=
  (Op.ite_neg (fun hn => hn (toNat_of_eq h)) _ _ t).trans (Op.ite_pos hi _ _ t)

theorem readOne_report (hd : t.damage = []) (h : be16 x.body 2 = 0) (hi : (be16 x.body 0).toNat < size) :
    readOne size words report x t = .ok () (t.adminReply x .done (report t (be16 x.body 0).toNat)) := by
  refine (Op.ite_neg (fun hn => hn (toNat_of_eq h)) _ _ t).trans ((Op.ite_neg (Nat.not_le.2 hi) _ _ t).trans ?_)
  rw [checkAll_bind_clean hd]
  rfl

end

theorem poolBytes_adminTaken (i : Nat) : (s.adminTaken d rest st).poolBytes i = s.poolBytes i := rfl
theorem grantBytes_adminTaken (i : Nat) : (s.adminTaken d rest st).grantBytes i = s.grantBytes i := rfl
theorem waiterBytes_adminTaken (i : Nat) : (s.adminTaken d rest st).waiterBytes i = s.waiterBytes i := rfl

/-- A read of one record, at each outcome of its two tests. -/
theorem exec_readOne {code : AdminCode} {size : Nat} {words : Nat → List MemWord} {report : State → Nat → List Byte}
    {f : State → State} (hc : exec c s = .next (awake s f)) (hf : f s = takeAdmin code (readOne size words report) s)
    (h : s.AdminHead code d rest st) {i : Nat} {spare : W16} (hi : (be16 (adminBody d.payload) 0).toNat = i)
    (hspare : be16 (adminBody d.payload) 2 = spare) {b : List Byte} (hb : report (s.adminTaken d rest st) i = b) :
    (spare ≠ 0 → exec c s = .next ((s.adminTaken d rest st).adminReply (adminCtx code d st) .badValue [])) ∧
    (spare = 0 → size ≤ i → exec c s = .next ((s.adminTaken d rest st).adminReply (adminCtx code d st) .badIndex [])) ∧
    (spare = 0 → i < size → exec c s = .next ((s.adminTaken d rest st).adminReply (adminCtx code d st) .done b)) := by
  subst hi hspare hb
  exact ⟨fun hbad => exec_admin_at hc hf h (readOne_spare hbad), fun hgood hout => exec_admin_at hc hf h (readOne_index hgood hout),
    fun hgood hin => exec_admin_at hc hf h (readOne_report h.quiet.sound hgood hin)⟩

/-- Settles O15. -/
theorem recordReadsReportAsItStands : Obligations.RecordReadsReportAsItStands := by
  refine ⟨fun s d rest st i spare hi hspare => ⟨fun h => ?_, fun h => ?_, fun h => ?_, fun h => ?_⟩, fun s d rest st id h hid => ?_⟩
  · exact exec_readOne (f := fun u => takeAdmin .readPool (readOne Config.pools u.poolWords State.poolBytes) (u.strike []))
      rfl rfl h hi hspare (poolBytes_adminTaken i)
  · exact exec_readOne (f := fun u => takeAdmin .readFeatureLive
      (readOne Config.features (fun i => [.featLive i]) (fun s i => (s.featLive i).bytes)) (u.strike [])) rfl rfl h hi hspare rfl
  · exact exec_readOne (f := fun u => takeAdmin .readGrant
      (readOne Config.slots (fun i => [.grantLink i, .grantRec i]) State.grantBytes) (u.strike [])) rfl rfl h hi hspare (grantBytes_adminTaken i)
  · exact exec_readOne (f := fun u => takeAdmin .readWaiter
      (readOne Config.waiters (fun i => [.waiterRec i, .queueStore (u.waiter i).pool]) State.waiterBytes) (u.strike []))
      rfl rfl h hi hspare (waiterBytes_adminTaken i)
  · have run {u} := exec_admin (c := .readClient []) (run := readClientRun) (t := u) rfl h
    have found : (s.adminTaken d rest st).findClient ((adminCtx .readClient d st).u32 0) = s.findClient id := hid ▸ rfl
    refine ⟨fun h0 => run (Op.ite_pos (hid.trans h0) _ _ _), fun h0 hnone => run ?_, fun i h0 hsome => run ?_⟩
    · refine (Op.ite_neg (fun h1 => h0 (hid.symm.trans h1)) _ _ _).trans ?_
      rw [Op.get_bind, found, hnone]
      rfl
    · refine (Op.ite_neg (fun h1 => h0 (hid.symm.trans h1)) _ _ _).trans ?_
      rw [Op.get_bind, found, hsome]
      dsimp only
      rw [checkAll_bind_clean h.sound]
      rfl

/-! ### READ STATUS and READ ENTRY (R157, R160) -/

theorem readEntries_clean (hd : t.damage = []) (b : BankId) (k : TableKind) (n : Nat) : ∀ i, readEntries b k n i t = .ok () t := by
  induction n with
  | zero => exact fun _ => rfl
  | succ n ih =>
    intro i
    rw [readEntries, check_bind_clean hd, ih]

theorem bankOf_none {n : Nat} (h : 1 < n) : bankOf n = none := by
  match n, h with
  | n + 2, _ => rfl

/-- Settles O16. -/
theorem statusAndEntryReadsReport : Obligations.StatusAndEntryReadsReport := by
  refine ⟨fun s d rest st h => ⟨fun h0 => ?_, fun h1 => ?_, fun hbad => ?_⟩,
    fun s d rest st k first count h hk hfirst hcount hspare5 hspare6 => ?_, fun s d rest st h hbad => ?_⟩
  · have hflag : (adminCtx .readStatus d st).u8 0 = 0 := toNat_of_eq h0
    refine exec_admin (run := readStatusRun) rfl h ((Op.ite_neg (by omega) _ _ _).trans ?_)
    rw [Op.get_bind]
    dsimp only
    rw [if_neg (by omega)]
    rfl
  · have hflag : (adminCtx .readStatus d st).u8 0 = 1 := toNat_of_eq h1
    refine exec_admin (run := readStatusRun) rfl h ((Op.ite_neg (by omega) _ _ _).trans ?_)
    rw [Op.get_bind]
    dsimp only
    rw [if_pos hflag]
    rfl
  · exact exec_admin (run := readStatusRun) rfl h (Op.ite_pos hbad _ _ _)
  · have run {u} := exec_admin (c := .readEntry []) (run := readEntryRun) (t := u) rfl h
    have hcode : TableKind.ofCode ((adminCtx .readEntry d st).u8 1) = some k := hk
    have hs5 : (adminCtx .readEntry d st).u8 5 = 0 := toNat_of_eq hspare5
    have hs6 : (adminCtx .readEntry d st).u16 6 = 0 := toNat_of_eq hspare6
    have hc : (adminCtx .readEntry d st).u8 4 = count := hcount
    have hf : (adminCtx .readEntry d st).u16 2 = first := hfirst
    refine ⟨fun hn => run ?_, fun b h1 h16 hb => ⟨fun hfit => run ?_, fun hover => run ?_⟩, fun h1 h16 hb => run ?_⟩
    · rw [readEntryRun, hcode]
      refine Op.ite_pos ?_ _ _ _
      omega
    all_goals
      rw [readEntryRun, hcode]
      refine (Op.ite_neg (by omega) _ _ _).trans ?_
    · have hbank : bankOf ((adminCtx .readEntry d st).u8 0) = some b := hb
      rw [hbank]
      refine (Op.ite_neg (by omega) _ _ _).trans ?_
      rw [readEntryReport, Op.bind_ok (readEntries_clean h.sound _ _ _ _), Op.get_bind, hc, hf]
      rfl
    · have hbank : bankOf ((adminCtx .readEntry d st).u8 0) = some b := hb
      rw [hbank]
      exact Op.ite_pos (by omega) _ _ _
    · have hbank : bankOf ((adminCtx .readEntry d st).u8 0) = none := bankOf_none hb
      rw [hbank]
      rfl
  · refine exec_admin (run := readEntryRun) rfl h ?_
    rw [readEntryRun]
    cases hk : TableKind.ofCode ((adminCtx .readEntry d st).u8 1) with
    | none => rfl
    | some k =>
      refine Op.ite_pos ?_ _ _ _
      rcases hbad with hnone | h5 | h6
      · have hcode : TableKind.ofCode ((adminCtx .readEntry d st).u8 1) = none := hnone
        rw [hk] at hcode
        cases hcode
      · exact .inl (toNat_ne_zero h5)
      · exact .inr (.inl (toNat_ne_zero h6))

end Sys2Proof.Machine

/-!
PROOFS. SET WITHHOLD, SET SERVICE and the entry to DRAIN, REVOKE HANDLE, the captures and the notices, and the client datagrams that are
handed back or malformed.
-/
namespace Sys2Proof.Machine

variable {s t : State} {c : Instr} {d : Cand} {rest : List Cand} {st : Nat}

/-! ### SET WITHHOLD (R90, R158) -/

theorem setWithholdRun_checked {x : AdmCtx} (hspare : x.u16 2 = 0) (hp : x.u16 0 < Config.pools) (hw : (x.u32 4).toNat ≤ Config.maxTokens)
    (hd : t.damage = []) {u : State}
    (hcheck : pressure (x.u16 0) false (t.setPoolLive (x.u16 0) { t.poolLive (x.u16 0) with w := (x.u32 4).toNat }) = .ok () u) :
    setWithholdRun x t = .ok ()
      ((if (x.u32 4).toNat < (t.poolLive (x.u16 0)).w then u.startRun (x.u16 0) else u).adminReply x .done []) := by
  refine (Op.ite_neg (by omega) _ _ t).trans ((Op.ite_neg (Nat.not_le.2 hp) _ _ t).trans ((Op.ite_neg (Nat.not_lt.2 hw) _ _ t).trans ?_))
  rw [check_bind_clean hd, Op.get_bind, Op.set_bind, Op.bind_ok hcheck]
  rfl

/-- A cause of a pool whose run stands before a round changes nothing. -/
theorem startRun_of_waiting {p : Nat} (h : s.ada.op.isRebuild = false) (hr : ∃ r ∈ s.adm.runs, r.pool = p)
    (hstage : ∀ r ∈ s.adm.runs, r.pool = p → r.stage = .priority) : s.startRun p = s := by
  rw [State.startRun_again h hr]
  refine State.mapRun_self fun r hm hp => ?_
  have := hstage r hm hp
  cases r
  simp_all [RunStage.caused]

/-- Points 3 and 4 of an entry to CONSTRAINED with no run of the pool in progress: a run starts, and owes the notice (R82). -/
theorem State.entryService_new {p : Nat} (hr : s.ada.op.isRebuild = false) (hn : ∀ r ∈ s.adm.runs, r.pool ≠ p) :
    s.entryService p = { s with adm.runs := s.adm.runs ++ [⟨p, [(s.poolLive p).entryTime], .priority⟩] } := by
  have hmap : ∀ f : Run → Run, s.adm.runs.map (fun r => if r.pool = p then f r else r) = s.adm.runs := fun f => by
    refine (List.map_congr_left fun r hm => ?_).trans (List.map_id _)
    simp [hn r hm]
  rw [State.entryService, if_neg (by rw [hr]; exact Bool.false_ne_true), State.startRun_new hr hn, State.mapRun]
  simp [hmap]

/-- An entry to CONSTRAINED with nothing to release and no run of the pool in progress starts a run that owes its notice (R82). -/
theorem checked_enters_idle {p : Nat} {leave : Bool} (he : s.PressureEnters p) (hl : s.lingerList p = []) (hr : s.ada.op.isRebuild = false)
    (hn : ∀ r ∈ s.adm.runs, r.pool ≠ p) :
    s.checked p leave = { (s.setPoolLive p { s.poolLive p with pressure := .constrained, entryTime := s.swp.mt }).setLinger p [] with
      adm.runs := s.adm.runs ++ [⟨p, [s.swp.mt], .priority⟩] } := by
  rw [State.checked_enters he, State.lingerReleased, hl, List.foldl_nil, State.entryService_new (by simpa using hr) (by exact hn)]
  have htime : (((s.setPoolLive p { s.poolLive p with pressure := .constrained, entryTime := s.swp.mt }).setLinger p []).poolLive p).entryTime
      = s.swp.mt := by
    exact congrArg PoolLive.entryTime ((State.poolLive_setPoolLive (s := s) p p _).trans (if_pos rfl))
  rw [htime]
  rfl

/-- Settles O17. -/
theorem setWithholdWritesW : Obligations.SetWithholdWritesW := by
  intro s d rest st p w h hp hw hspare
  have run {u} := exec_admin (c := .setWithhold []) (run := setWithholdRun) (t := u) rfl h
  have hs : (adminCtx .setWithhold d st).u16 2 = 0 := toNat_of_eq hspare
  have hpool : (adminCtx .setWithhold d st).u16 0 = p := hp
  have hwith : ((adminCtx .setWithhold d st).u32 4).toNat = w := hw
  refine ⟨fun hout => run ?_, fun hin hbig => run ?_, fun hin hok => ?_⟩
  · exact (Op.ite_neg (by omega) _ _ _).trans (Op.ite_pos (hpool.symm ▸ hout) _ _ _)
  · refine (Op.ite_neg (by omega) _ _ _).trans ((Op.ite_neg ?_ _ _ _).trans (Op.ite_pos ?_ _ _ _))
    · rw [hpool]
      exact Nat.not_le.2 hin
    · rw [hwith]
      exact hbig
  · intro t
    have hd : t.damage = [] := h.sound
    have decided : ∀ u, pressure p false t = .ok () u → exec (.setWithhold []) s = .next
        (State.adminReply (adminCtx .setWithhold d st) .done [] (if w < (s.poolLive p).w then u.startRun p else u)) := by
      intro u hu
      have hrun := setWithholdRun_checked (x := adminCtx .setWithhold d st) (t := s.adminTaken d rest st) (u := u) hs
        (by rw [hpool]; exact hin) (by rw [hwith]; exact hok) h.sound
      rw [hpool, hwith] at hrun
      exact run (hrun hu)
    have settled : t.PressureSettles p → pressure p false t = .ok () (t.checked p false) := fun hsettles => pressure_settles hd hsettles
    refine ⟨fun hstands => decided _ (pressure_stands hd hstands), fun hsettles => ?_, fun henters hlinger hrebuild hruns => ?_⟩
    · exact decided _ (settled hsettles)
    · have hsettles : t.PressureSettles p := fun _ => by
        rw [hlinger]
        exact ⟨List.nodup_nil, nofun⟩
      have hentered := checked_enters_idle (leave := false) henters hlinger (show t.ada.op.isRebuild = false from hrebuild) hruns
      have hagain : (t.checked p false).startRun p = t.checked p false := by
        rw [hentered]
        refine startRun_of_waiting hrebuild ⟨_, List.mem_append_right _ (List.mem_singleton_self _), rfl⟩ fun r hr hp => ?_
        rcases List.mem_append.1 hr with hold | hnew
        · exact absurd hp (hruns r hold)
        · rw [List.mem_singleton.1 hnew]
      rw [decided _ (settled hsettles), hagain, ite_self, hentered]
      rfl

/-! ### The removals of an entry to DRAIN (R55) -/

theorem removeAll_clean (r : Reason) (l : List Nat) : ∀ s : State, s.damage = [] →
    removeAll r l s = .ok () (l.foldl (fun t i => t.dropWaiter i r none) s) := by
  induction l with
  | nil => exact fun _ _ => rfl
  | cons i l ih =>
    intro s hd
    rw [removeAll, Op.bind_ok (removeWaiter_clean hd i r none false)]
    exact ih _ (by simpa using hd)

@[simp] theorem State.dropWaiter_wts (s : State) (i : Nat) (r : Reason) (o : Option Cand) : (s.dropWaiter i r o).wts = (s.unqueue i).wts := by
  cases o <;> simp [State.dropWaiter]

@[simp] theorem State.dropWaiter_denied (s : State) (i : Nat) (r : Reason) (o : Option Cand) :
    (s.dropWaiter i r o).ada.stats.denied = s.ada.stats.denied + 1 := by
  have sent : ∀ (u : State) p a b, (u.originate p none a b).ada.stats.denied = u.ada.stats.denied := fun u p a b => by
    rw [(originate_output u p a b).ada]
  have hleft : ((s.unqueue i).dropWaiterCount (s.waiter i).clientIdx).ada.stats.denied = s.ada.stats.denied := by simp
  cases o
  · exact congrArg (· + 1) ((sent ..).trans hleft)
  · exact congrArg (· + 1) ((sent ..).trans hleft)

@[simp] theorem State.dropWaiterCount_slots (s : State) (i : Nat) : (s.dropWaiterCount i).grt.slots = s.grt.slots := by
  have hidle : ∀ u : State, (u.idleIfQuiet i).grt.slots = u.grt.slots := fun u => by
    unfold State.idleIfQuiet
    split <;> rfl
  rw [State.dropWaiterCount, hidle]
  unfold State.lowerWaiterCount
  dsimp only
  split
  · simp [State.countUnderflow, State.setSuspect]
  · rfl

@[simp] theorem State.dropWaiter_slots (s : State) (i : Nat) (r : Reason) (o : Option Cand) :
    (s.dropWaiter i r o).grt.slots = s.grt.slots := by
  cases o <;> simp [State.dropWaiter]

/-- The removals of a list of waiters: what they leave of each queue, of the counts, and of the rest. -/
structure State.WaitersDropped (s : State) (l : List Nat) (t : State) : Prop where
  queue : ∀ p k, ∀ i ∈ t.queue p k, i ∈ s.queue p k ∧ i ∉ l
  count : ∀ k, t.wts.count k = s.wts.count k - l.countP fun i => (s.waiter i).cls == k
  denied : t.ada.stats.denied = s.ada.stats.denied + BitVec.ofNat 32 l.length
  slots : t.grt.slots = s.grt.slots
  adm : t.adm = s.adm
  tbs : t.tbs = s.tbs

/-- A removal leaves every waiter its pool and class. -/
theorem dropWaiter_place (s : State) (i j : Nat) (r : Reason) (o : Option Cand) :
    ((s.dropWaiter i r o).waiter j).pool = (s.waiter j).pool ∧ ((s.dropWaiter i r o).waiter j).cls = (s.waiter j).cls := by
  rw [State.waiter_congr (t := s.dropWaiter i r o) (s := s.unqueue i) (by rw [State.dropWaiter_wts]), unqueue_waiter]
  split
  · next h => rw [h]; exact ⟨rfl, rfl⟩
  · exact ⟨rfl, rfl⟩

theorem dropWaiter_queue (s : State) (i : Nat) (r : Reason) (o : Option Cand) (p : Nat) (k : Cls) :
    (s.dropWaiter i r o).queue p k =
      if p = (s.waiter i).pool ∧ k = (s.waiter i).cls then (s.queue p k).erase i else s.queue p k := by
  rw [← unqueue_queue, State.queue, State.queue, State.queues_congr (t := s.dropWaiter i r o) (s := s.unqueue i) (by rw [State.dropWaiter_wts])]

theorem dropWaiters_dropped (r : Reason) (l : List Nat) : ∀ s : State, (∀ p k, (s.queue p k).Nodup) →
    (∀ p k, ∀ i ∈ s.queue p k, (s.waiter i).pool = p ∧ (s.waiter i).cls = k) →
    s.WaitersDropped l (l.foldl (fun t i => t.dropWaiter i r none) s) := by
  induction l with
  | nil => exact fun s _ _ => ⟨fun p k i hi => ⟨hi, nofun⟩, fun k => rfl, (BitVec.add_zero _).symm, rfl, rfl, rfl⟩
  | cons i l ih =>
    intro s hnodup hplace
    have hsub : ∀ p k, ∀ j ∈ (s.dropWaiter i r none).queue p k, j ∈ s.queue p k ∧ j ≠ i := by
      intro p k j hj
      rw [dropWaiter_queue] at hj
      split at hj
      · exact ((hnodup p k).mem_erase_iff.1 hj).symm
      · next hnot => exact ⟨hj, fun h => hnot ⟨(hplace p k i (h ▸ hj)).1.symm, (hplace p k i (h ▸ hj)).2.symm⟩⟩
    obtain ⟨hqueue, hcount, hdenied, hslots, hadm, htbs⟩ := ih (s.dropWaiter i r none)
      (fun p k => by
        rw [dropWaiter_queue]
        split
        · exact (hnodup p k).erase i
        · exact hnodup p k)
      (fun p k j hj => by
        obtain ⟨hpool, hcls⟩ := dropWaiter_place s i j r none
        rw [hpool, hcls]
        exact hplace p k j (hsub p k j hj).1)
    refine ⟨fun p k j hj => ?_, fun k => ?_, ?_, by rw [List.foldl_cons, hslots, State.dropWaiter_slots],
      by rw [List.foldl_cons, hadm, State.dropWaiter_adm], by rw [List.foldl_cons, htbs, State.dropWaiter_tbs]⟩
    · obtain ⟨hin, hnot⟩ := hqueue p k j hj
      obtain ⟨hold, hne⟩ := hsub p k j hin
      exact ⟨hold, fun hmem => (List.mem_cons.1 hmem).elim hne hnot⟩
    · have hsame : (fun j => ((s.dropWaiter i r none).waiter j).cls == k) = fun j => (s.waiter j).cls == k := by
        funext j
        rw [(dropWaiter_place s i j r none).2]
      rw [List.foldl_cons, hcount, hsame, State.dropWaiter_wts, unqueue_count, List.countP_cons]
      by_cases hk : k = (s.waiter i).cls
      · rw [if_pos hk, if_pos (by rw [hk]; exact beq_self_eq_true _)]
        omega
      · rw [if_neg hk, if_neg (by simpa using Ne.symm hk)]
        rfl
    · rw [List.foldl_cons, hdenied, State.dropWaiter_denied, List.length_cons, BitVec.add_assoc, BitVec.ofNat_add,
        BitVec.add_comm (BitVec.ofNat 32 l.length)]
      rfl

/-- Every waiter a queue lists is among all waiters. -/
theorem mem_allWaiters {p : Nat} {k : Cls} {i : Nat} (hi : i ∈ s.queue p k) : i ∈ s.allWaiters := by
  have hmem : (p, s.queues p) ∈ s.wts.queues := by
    refine Tab.mem_of_get Queues.none s.wts.queues fun hnone => ?_
    have hempty : s.queue p k = [] := by
      rw [State.queue, State.queues, hnone]
      cases k <;> rfl
    rw [hempty] at hi
    cases hi
  refine List.mem_flatMap.2 ⟨_, hmem, ?_⟩
  cases k with
  | priority => exact List.mem_append_left _ hi
  | general => exact List.mem_append_right _ hi

/-- The waiters of a class among all waiters are those its queues list. -/
theorem countP_allWaiters (hq : s.QueuesSound) (hform : Tab.wf Queues.none s.wts.queues = true) (k : Cls) :
    (s.allWaiters.countP fun i => (s.waiter i).cls == k) = (s.wts.queues.flatMap fun kv => kv.2.of k).length := by
  have hlisted : ∀ kv ∈ s.wts.queues, ∀ k', ∀ i ∈ kv.2.of k', (s.waiter i).cls = k' := by
    intro kv hkv k' i hi
    refine (hq.member kv.1 k' i ?_).2.2
    rwa [State.queue, State.queues, Tab.get_of_mem _ _ hform hkv]
  unfold State.allWaiters
  revert hlisted
  generalize s.wts.queues = l
  intro hlisted
  induction l with
  | nil => rfl
  | cons kv l ih =>
    have hhead : ∀ k', (kv.2.of k').countP (fun i => (s.waiter i).cls == k) = if k' = k then (kv.2.of k').length else 0 := by
      intro k'
      split
      · next h =>
        rw [List.countP_eq_length]
        intro i hi
        rw [hlisted kv List.mem_cons_self k' i hi, h]
        exact beq_self_eq_true _
      · next h =>
        rw [List.countP_eq_zero]
        intro i hi
        rw [hlisted kv List.mem_cons_self k' i hi]
        simpa using h
    have hprio : kv.2.priority.countP (fun i => (s.waiter i).cls == k) = if .priority = k then kv.2.priority.length else 0 := hhead .priority
    have hgen : kv.2.general.countP (fun i => (s.waiter i).cls == k) = if .general = k then kv.2.general.length else 0 := hhead .general
    rw [List.flatMap_cons, List.flatMap_cons, List.countP_append, List.countP_append, List.length_append,
      ih fun kv' hkv' => hlisted kv' (List.mem_cons_of_mem _ hkv'), hprio, hgen]
    cases k <;> simp [Queues.of]

/-! ### SET SERVICE (R156, R159) -/

theorem LongOp.isReset_iff {o : LongOp} : o.isReset = true ↔ o = .reset := by
  cases o <;> simp [LongOp.isReset]

theorem enterDrain_clean (hd : t.damage = []) (x : AdmCtx) (r : Result) (b : List Byte) :
    (do enterDrain; answer x r b : Op Unit) t = .ok ()
      (((t.allWaiters.foldl (fun t i => t.dropWaiter i .draining none) t).enterService .drain).adminReply x r b) := by
  have hrun : enterDrain t = .ok () ((t.allWaiters.foldl (fun t i => t.dropWaiter i .draining none) t).enterService .drain) := by
    rw [enterDrain, Op.get_bind, Op.bind_ok (removeAll_clean .draining t.allWaiters t hd)]
    rfl
  exact Op.bind_ok hrun

section
variable {x : AdmCtx} (hf : t.ada.service ≠ .faulted) (hr : t.ada.op.isReset = false)
include hf hr

theorem setServiceRun_badValue (hn : x.u8 0 = 0 ∨ 3 < x.u8 0) : setServiceRun x t = .ok () (t.adminReply x .badValue []) := by
  rw [setServiceRun, Op.get_bind, if_neg hf, if_neg (by simp [hr]), if_neg (by omega), if_neg (by omega), if_neg (by omega)]
  rfl

theorem setServiceRun_on (hn : x.u8 0 = 1) :
    setServiceRun x t = .ok () ((if t.ada.service = .on then t else t.enterService .on).adminReply x .done []) := by
  rw [setServiceRun, Op.get_bind, if_neg hf, if_neg (by simp [hr]), if_pos hn]
  split <;> rfl

theorem setServiceRun_drain (hn : x.u8 0 = 2) :
    setServiceRun x t = (match t.ada.service with
      | .on => do enterDrain; answer x .done []
      | .drain => answer x .done []
      | .starting | .off | .faulted | .passOnly => answer x .refusedState [] : Op Unit) t := by
  rw [setServiceRun, Op.get_bind, if_neg hf, if_neg (by simp [hr]), if_neg (by omega), if_pos hn] <;> rfl

theorem setServiceRun_off (hn : x.u8 0 = 3) :
    setServiceRun x t = (match t.ada.service with
      | .off => answer x .done []
      | .drain =>
        if t.grt.liveTotal = 0 ∧ t.wts.np + t.wts.ng = 0 then do
          set (t.enterService .off)
          answer x .done []
        else answer x .refusedState []
      | .starting | .on | .faulted | .passOnly => answer x .refusedState [] : Op Unit) t := by
  rw [setServiceRun, Op.get_bind, if_neg hf, if_neg (by simp [hr]), if_neg (by omega), if_neg (by omega), if_pos hn] <;> rfl

end

theorem not_isReset {o : LongOp} (h : o ≠ .reset) : o.isReset = false := Bool.eq_false_iff.2 fun hr => h (LongOp.isReset_iff.1 hr)

theorem exec_setService_drain (h : s.AdminHead .setService d rest st) (hn : byteAt (adminBody d.payload) 0 = 2)
    (hon : s.ada.service = .on) (hreset : s.ada.op ≠ .reset) :
    exec (.setService []) s = .next
      (((s.allWaiters.foldl (fun t i => t.dropWaiter i .draining none) (s.adminTaken d rest st)).enterService .drain).adminReply
        (adminCtx .setService d st) .done []) := by
  have hservice : (s.adminTaken d rest st).ada.service = .on := hon
  have htable := setServiceRun_drain (x := adminCtx .setService d st) (t := s.adminTaken d rest st) (by rw [hservice]; nofun)
    (not_isReset hreset) (toNat_of_eq hn)
  refine exec_admin (run := setServiceRun) rfl h (htable.trans ?_)
  rw [hservice]
  exact enterDrain_clean h.sound _ _ _

/-- Settles O18. -/
theorem setServiceFollowsTable : Obligations.SetServiceFollowsTable := by
  refine ⟨fun s d rest st n h hn => ⟨fun hfaulted => ?_, fun hfaulted hreset => ?_, fun hfaulted hreset => ?_⟩,
    fun s d rest st h hn hon hreset hsound hcanonical => ?_, fun s d rest st => exec_setService_drain⟩
  · exact exec_admin (run := setServiceRun) rfl h (Op.ite_pos hfaulted _ _ _)
  · exact exec_admin (run := setServiceRun) rfl h ((Op.ite_neg hfaulted _ _ _).trans (Op.ite_pos (LongOp.isReset_iff.2 hreset) _ _ _))
  · have run {u} := exec_admin (c := .setService []) (run := setServiceRun) (t := u) rfl h
    have hf : (s.adminTaken d rest st).ada.service ≠ .faulted := hfaulted
    have hr : (s.adminTaken d rest st).ada.op.isReset = false := not_isReset hreset
    have hcode : (adminCtx .setService d st).u8 0 = n := hn
    have hserving := h.serving
    refine ⟨fun hbad => ?_, fun hsame => ?_, fun h1 hfrom => ?_, fun h2 hon hnone => ?_, fun h3 hdrain hlive hwait => ?_,
      fun h3 hdrain hbusy => ?_, fun hrefused => ?_⟩
    · exact run (setServiceRun_badValue hf hr (hcode ▸ hbad))
    · cases hs : s.ada.service with
      | on =>
        rw [hs] at hsame
        refine run ((setServiceRun_on hf hr (hcode.trans hsame)).trans ?_)
        rw [if_pos (by exact hs)]
      | drain =>
        rw [hs] at hsame
        refine run ((setServiceRun_drain hf hr (hcode.trans hsame)).trans ?_)
        rw [show (s.adminTaken d rest st).ada.service = .drain from hs]
        rfl
      | off =>
        rw [hs] at hsame
        refine run ((setServiceRun_off hf hr (hcode.trans hsame)).trans ?_)
        rw [show (s.adminTaken d rest st).ada.service = .off from hs]
        rfl
      | faulted => exact absurd hs hfaulted
      | starting | passOnly => rw [hs] at hserving; cases hserving
    · refine run ((setServiceRun_on hf hr (hcode.trans h1)).trans ?_)
      rw [if_neg]
      intro hon
      have hon : s.ada.service = .on := hon
      rcases hfrom with hdrain | hoff
      · rw [hon] at hdrain; cases hdrain
      · rw [hon] at hoff; cases hoff
    · rw [exec_setService_drain h (BitVec.eq_of_toNat_eq (hn.trans h2)) hon hreset, hnone]
      rfl
    · refine run ((setServiceRun_off hf hr (hcode.trans h3)).trans ?_)
      rw [show (s.adminTaken d rest st).ada.service = .drain from hdrain]
      dsimp only
      rw [if_pos ⟨hlive, hwait⟩]
      rfl
    · refine run ((setServiceRun_off hf hr (hcode.trans h3)).trans ?_)
      rw [show (s.adminTaken d rest st).ada.service = .drain from hdrain]
      dsimp only
      rw [if_neg fun hidle => hbusy.elim (fun hl => hl hidle.1) (fun hw => hw hidle.2)]
      rfl
    · rcases hrefused with ⟨h2, hoff⟩ | ⟨h3, hon⟩
      · refine run ((setServiceRun_drain hf hr (hcode.trans h2)).trans ?_)
        rw [show (s.adminTaken d rest st).ada.service = .off from hoff]
        rfl
      · refine run ((setServiceRun_off hf hr (hcode.trans h3)).trans ?_)
        rw [show (s.adminTaken d rest st).ada.service = .on from hon]
        rfl
  · have hdropped := dropWaiters_dropped .draining s.allWaiters (s.adminTaken d rest st) hsound.once
      (fun p k i hi => (hsound.member p k i hi).2)
    have hwts : ∀ u : State, ((u.enterService .drain).adminReply (adminCtx .setService d st) .done []).wts = u.wts := fun u => by
      simp [State.enterService]
    have hcount : ∀ k, (s.allWaiters.foldl (fun t i => t.dropWaiter i .draining none) (s.adminTaken d rest st)).wts.count k =
        s.wts.count k - (s.wts.queues.flatMap fun kv => kv.2.of k).length := fun k =>
      (hdropped.count k).trans (congrArg (s.wts.count k - ·) (countP_allWaiters hsound hcanonical.queues k))
    refine ⟨_, exec_setService_drain h hn hon hreset, ?_, fun p k => ?_, ?_, ?_, ?_, ?_, ?_, ?_⟩
    · exact (State.adminReply_service ..).trans (enterService_service ..)
    · have hsame : ∀ u : State, ((u.enterService .drain).adminReply (adminCtx .setService d st) .done []).queue p k = u.queue p k :=
        fun u => congrArg (Queues.of · k) (State.queues_congr (by rw [hwts]) p)
      rw [hsame]
      refine List.eq_nil_iff_forall_not_mem.2 fun i hi => ?_
      obtain ⟨hin, hnot⟩ := hdropped.queue p k i hi
      exact hnot (mem_allWaiters hin)
    · exact (congrArg Wts.np (hwts _)).trans (hcount .priority)
    · exact (congrArg Wts.ng (hwts _)).trans (hcount .general)
    · have hreply : ∀ u : State, ((u.enterService .drain).adminReply (adminCtx .setService d st) .done []).ada.stats.denied =
          u.ada.stats.denied := fun u => by
        rw [State.adminReply, State.adminSend, (originate_output ..).ada]
        simp [State.enterService]
      exact (hreply _).trans hdropped.denied
    · exact (by simp [State.enterService] : _ = (State.grt _).slots).trans hdropped.slots
    · exact (by simp [State.enterService] : _ = State.adm _).trans hdropped.adm
    · exact (by simp [State.enterService] : _ = State.tbs _).trans hdropped.tbs

end Sys2Proof.Machine

/-!
PROOFS. REVOKE HANDLE, the captures and the notices, and the client datagrams that are handed back or malformed.
-/
namespace Sys2Proof.Machine

variable {s t : State} {c : Instr} {d : Cand} {rest : List Cand} {st : Nat}

/-! ### REVOKE HANDLE (R28, R158) -/

theorem revokeHandleRun_foreign {x : AdmCtx} (h : handleOurs (x.u32 0) = false) :
    revokeHandleRun x t = .ok () (t.adminReply x .badValue []) := Op.ite_pos (by simp [h]) _ _ t

section
variable {x : AdmCtx} (hours : handleOurs (x.u32 0) = true) (hd : t.damage = [])
include hours hd

theorem revokeHandleRun_unknown (hbad : (t.slot (handleSlot (x.u32 0))).generation ≠ handleGeneration (x.u32 0) ∨
    (t.slot (handleSlot (x.u32 0))).state = .free ∨ (t.slot (handleSlot (x.u32 0))).state = .bad) :
    revokeHandleRun x t = .ok () (t.adminReply x .badIndex []) := by
  refine (Op.ite_neg (by simp [hours]) _ _ t).trans ?_
  rw [readSlot_bind_clean hd]
  exact Op.ite_pos hbad _ _ t

/-- A grant of the handle is recalled, and its old and new states answered. -/
theorem revokeHandleRun_recalls (hgen : (t.slot (handleSlot (x.u32 0))).generation = handleGeneration (x.u32 0))
    (hfree : (t.slot (handleSlot (x.u32 0))).state ≠ .free) (hsound : (t.slot (handleSlot (x.u32 0))).state ≠ .bad) {u : State}
    (hrecall : recallGrant (handleSlot (x.u32 0)) .revoked (fun _ s => s) t = .ok () u) :
    revokeHandleRun x t = .ok () (u.adminReply x .done
      (nat8 (t.slot (handleSlot (x.u32 0))).state.code ++ nat8 (u.slot (handleSlot (x.u32 0))).state.code)) := by
  refine (Op.ite_neg (by simp [hours]) _ _ t).trans ?_
  rw [readSlot_bind_clean hd]
  refine (Op.ite_neg (fun h => h.elim (fun h => h hgen) fun h => h.elim hfree hsound) _ _ t).trans ?_
  rw [Op.bind_ok hrecall]
  rfl

end

theorem State.startRun_slot (s : State) (p i : Nat) : (s.startRun p).slot i = s.slot i := State.slot_congr (by simp) i

theorem State.releaseSlot_slot_state (s : State) (i : Nat) : ((s.releaseSlot i).slot i).state = .free := by
  have h := s.slot_releaseFrom true i i
  rw [if_pos rfl] at h
  exact congrArg Slot.state h

/-! ### The slots that checks and runs leave (R43, R82) -/

theorem State.releases_slot {i : Nat} (l : List Nat) (hi : i ∉ l) : ∀ s : State, (l.foldl (fun t j => t.releaseSlot j) s).slot i = s.slot i := by
  induction l with
  | nil => exact fun _ => rfl
  | cons j l ih =>
    intro s
    rw [List.foldl_cons, ih (fun h => hi (List.mem_cons_of_mem _ h))]
    exact (s.slot_releaseFrom true j i).trans (if_neg fun h : i = j => hi (h ▸ List.mem_cons_self))

theorem State.entryService_slot (s : State) (p i : Nat) : (s.entryService p).slot i = s.slot i := State.slot_congr (by simp) i

/-- A check that goes no further than its pool leaves every slot that does not linger. -/
theorem State.checked_slot {p : Nat} {leave : Bool} (h : s.PressureSettles p) {i : Nat} (hi : (s.slot i).state ≠ .linger) :
    (s.checked p leave).slot i = s.slot i := by
  by_cases he : s.PressureEnters p
  · have hnot : i ∉ s.lingerList p := fun hm => hi ((h he).2 i hm).1
    rw [State.checked_enters he, State.entryService_slot, State.lingerReleased]
    exact (State.slot_congr rfl i).trans ((State.releases_slot _ hnot _).trans (State.slot_congr rfl i))
  · by_cases hl : leave = true ∧ s.PressureLeaves p
    · obtain ⟨rfl, hleaves⟩ := hl
      rw [State.checked_leaves hleaves]
      exact State.slot_congr (by simp) i
    · rw [State.checked_stands he hl]

theorem State.releaseRuns_slot (s : State) (r : Released) (i : Nat) : (s.releaseRuns r).slot i = s.slot i := by
  unfold State.releaseRuns
  split
  · split
    · rw [State.startRun_slot, State.startRun_slot]
    · rw [State.startRun_slot]
  · rw [State.startRun_slot]

theorem State.releaseChecked_slot {r : Released} (h : s.ReleaseSettles r) {i : Nat} (hi : (s.slot i).state ≠ .linger) :
    (s.releaseChecked r).slot i = s.slot i := by
  have hfirst : ((s.checked r.pool true).startRun r.pool).slot i = s.slot i := by rw [State.startRun_slot, State.checked_slot h.1 hi]
  unfold State.releaseChecked
  split
  · next q hq =>
    split
    · next hother =>
      rw [State.startRun_slot, State.checked_slot (h.2 q hother.1 hq hother.2) (by rw [hfirst]; exact hi), hfirst]
    · exact hfirst
  · exact hfirst

theorem State.recallRuns_slot (s u : State) (i j : Nat) : (s.recallRuns i u).slot j = u.slot j := by
  unfold State.recallRuns
  split
  · split
    · rw [State.startRun_slot]
    · rfl
  · rfl

theorem State.recallChecked_slot {i : Nat} (h : s.RecallSettles i t) {j : Nat} (hj : (t.slot j).state ≠ .linger) :
    (s.recallChecked i t).slot j = t.slot j := by
  unfold State.recallChecked
  split
  · next q hq =>
    split
    · next hlowers =>
      rw [State.startRun_slot]
      split
      · rfl
      · next hne =>
        have hlowers : s.recallLowers i := by simpa [State.recallLowers] using hlowers
        exact State.checked_slot ((h hlowers q hq).resolve_left hne) hj
    · rfl
  · rfl

theorem State.recallSlot_slot (s : State) (i j : Nat) (r : Reason) :
    (s.recallSlot i r).slot j = if j = i then { s.slot i with state := .recalled, reason := some r } else s.slot j := by
  unfold State.recallSlot
  dsimp only
  rw [State.slot_setSlot]
  split
  · rfl
  · split
    · exact State.slot_congr (by simp [State.returnUnits_grt]) j
    · rfl

theorem State.recallHeld_slot (s : State) (i j : Nat) (r : Reason) : (s.recallHeld i r).slot j = (s.recallSlot i r).slot j := by
  unfold State.recallHeld
  dsimp only
  split
  · exact State.slot_congr (by simp) j
  · rfl

/-- The slot a recall takes is RECALLED (R41). -/
theorem State.recallHeld_slot_state (s : State) (i : Nat) (r : Reason) : ((s.recallHeld i r).slot i).state = .recalled := by
  rw [State.recallHeld_slot, State.recallSlot_slot, if_pos rfl]

theorem recallRuns_adminTaken (i : Nat) : (s.adminTaken d rest st).recallRuns i t = s.recallRuns i t := rfl

theorem recallChecked_adminTaken (i : Nat) : (s.adminTaken d rest st).recallChecked i t = s.recallChecked i t := rfl

/-- A live slot is none of the two that a handle cannot name. -/
theorem handle_names {g : GState} (h : g.live = true) : g ≠ .free ∧ g ≠ .bad := by
  cases g <;> simp [GState.live] at h ⊢

/-- The reply to a REVOKE HANDLE that recalls or releases a grant carries the slot's state before and after (R158). -/
theorem exec_revokeHandle (h : s.AdminHead .revokeHandle d rest st) {i : Nat} (hours : handleOurs (be32 (adminBody d.payload) 0) = true)
    (hi : handleSlot (be32 (adminBody d.payload) 0) = i)
    (hgen : (s.slot i).generation = handleGeneration (be32 (adminBody d.payload) 0)) (hlive : (s.slot i).state.live = true) {u : State}
    (hrecall : recallGrant i .revoked (fun _ s => s) (s.adminTaken d rest st) = .ok () u) {after : GState}
    (hafter : (u.slot i).state = after) :
    exec (.revokeHandle []) s = .next
      (u.adminReply (adminCtx .revokeHandle d st) .done (nat8 (s.slot i).state.code ++ nat8 after.code)) := by
  subst hi hafter
  exact exec_admin (run := revokeHandleRun) rfl h
    (revokeHandleRun_recalls (x := adminCtx .revokeHandle d st) (t := s.adminTaken d rest st) hours h.sound hgen
      (handle_names hlive).1 (handle_names hlive).2 hrecall)

/-- Settles O19: the recall laws of each slot state, and the slot that the checks and runs after them leave. -/
theorem revokeHandleRecalls : Obligations.RevokeHandleRecalls := by
  intro s d rest st h hhead hh
  subst hh
  have run {u} := exec_admin (c := .revokeHandle []) (run := revokeHandleRun) (t := u) rfl hhead
  have hd := hhead.sound
  refine ⟨fun hours => run (revokeHandleRun_foreign (x := adminCtx .revokeHandle d st) hours),
    fun hours hbad => run (revokeHandleRun_unknown (x := adminCtx .revokeHandle d st) hours hd hbad), fun hours hgen => ?_⟩
  have reply {u after} := exec_revokeHandle hhead hours rfl hgen (u := u) (after := after)
  generalize handleSlot (be32 (adminBody d.payload) 0) = i at hgen reply ⊢
  have hrecalled := (s.adminTaken d rest st).recallHeld_slot_state i .revoked
  have hfree := (s.adminTaken d rest st).releaseSlot_slot_state i
  refine ⟨fun hrec => ?_, fun hheld hstands => ?_, fun hheld hsettles => ?_, fun hlinger hstands => ?_, fun hlinger hsettles => ?_⟩
  · have := reply (by rw [hrec]; rfl) (recallGrant_other hd .revoked _ (Or.inl hrec)) hrec
    rwa [hrec] at this
  · rw [← recallRuns_adminTaken (d := d) (rest := rest) (st := st)]
    refine reply (by rcases hheld with h | h <;> rw [h] <;> rfl)
      (recallGrant_held hd .revoked (fun _ s => s) hheld ((State.recallHeld_damage ..).trans hd) (State.recallHeld_tbs ..) hstands) (after := .recalled) ?_
    rw [State.recallRuns_slot, hrecalled]
  · rw [← recallChecked_adminTaken (d := d) (rest := rest) (st := st)]
    refine reply (by rcases hheld with h | h <;> rw [h] <;> rfl)
      (recallGrant_held_settles hd .revoked (fun _ s => s) hheld ((State.recallHeld_damage ..).trans hd) (State.recallHeld_tbs ..) hsettles) (after := .recalled) ?_
    rw [State.recallChecked_slot (s := s.adminTaken d rest st) hsettles (by rw [hrecalled]; nofun), hrecalled]
  · have := reply (by rw [hlinger]; rfl)
      (recallGrant_linger hd .revoked (fun _ s => s) hlinger ((State.releaseSlot_damage ..).trans hd) hstands) (after := .free)
      (by rw [State.releaseRuns_slot]; exact hfree)
    rwa [hlinger] at this
  · have := reply (by rw [hlinger]; rfl)
      (recallGrant_linger_settles hd .revoked (fun _ s => s) hlinger ((State.releaseSlot_damage ..).trans hd) hsettles) (after := .free)
      ((congrArg Slot.state (State.releaseChecked_slot hsettles (by rw [hfree]; nofun))).trans hfree)
    rwa [hlinger] at this


/-! ### Captures and notices (R175 to R178) -/

theorem State.softEvent_locked (h : s.fnu.soft.locked = true) (e : Event) : s.softEvent e = { s with fnu.soft.second := true } := by
  simp [State.softEvent, h, Capture.give]

theorem State.hardEvent_locked (h : s.fnu.hard.locked = true) (e : Event) : s.hardEvent e = { s with fnu.hard.second := true } := by
  simp [State.hardEvent, h, Capture.give]

theorem State.softEvent_unlocked (h : s.fnu.soft.locked = false) (e : Event) :
    s.softEvent e = State.queueNotice (.softEvent ⟨true, s.fnu.soft.second, e.code, e.index, e.pool, e.client, s.swp.mt⟩)
      { s with fnu.soft := ⟨true, s.fnu.soft.second, e.code, e.index, e.pool, e.client, s.swp.mt⟩ } := by
  simp [State.softEvent, h, Capture.give]

theorem State.hardEvent_unlocked (h : s.fnu.hard.locked = false) (e : Event) :
    s.hardEvent e = State.queueNotice (.hardEvent ⟨true, s.fnu.hard.second, e.code, e.index, e.pool, e.client, s.swp.mt⟩)
      { s with fnu.hard := ⟨true, s.fnu.hard.second, e.code, e.index, e.pool, e.client, s.swp.mt⟩ } := by
  simp [State.hardEvent, h, Capture.give]

/-- Settles O20: the four equations of a capture given an event, and CLEAR CAPTURE by its selector byte. -/
theorem capturesLockAndClear : Obligations.CapturesLockAndClear := by
  refine ⟨fun s e => ⟨fun h => State.softEvent_unlocked h e, fun h => State.softEvent_locked h e, fun h => State.hardEvent_unlocked h e,
    fun h => State.hardEvent_locked h e⟩, fun s d rest st h => ?_⟩
  have run {u} := exec_admin (c := .clearCapture) (run := clearCaptureRun) (t := u) rfl h
  have other {n : Nat} {w : Byte} (hw : byteAt (adminBody d.payload) 0 ≠ w) (hn : w.toNat = n) : (adminCtx .clearCapture d st).u8 0 ≠ n :=
    fun he => hw (BitVec.eq_of_toNat_eq (he.trans hn.symm))
  refine ⟨fun h1 => run (Op.ite_pos (toNat_of_eq h1) _ _ _), fun h2 => run ?_, fun h1 h2 => run ?_⟩
  · exact (Op.ite_neg (other (w := 1) (by rw [h2]; decide) rfl) _ _ _).trans (Op.ite_pos (toNat_of_eq h2) _ _ _)
  · exact (Op.ite_neg (other h1 rfl) _ _ _).trans (Op.ite_neg (other h2 rfl) _ _ _)

theorem State.noticeQueueFull_iff : s.noticeQueueFull = true ↔ 32 ≤ s.fnu.notices.length := decide_eq_true_iff

/-- Settles O21: a notice at a queue with room and at a full one, and the handoff of the head by station 0's line. -/
theorem noticesQueueAndLeave : Obligations.NoticesQueueAndLeave := by
  refine ⟨fun s b => ⟨fun h => ?_, fun h hlocked => ?_, fun h hopen => ?_⟩, fun s n rest hhigh hserving hn => ?_⟩
  · rw [State.queueNotice, if_neg (by rw [State.noticeQueueFull_iff]; omega)]
    rfl
  · rw [State.queueNotice, if_pos (State.noticeQueueFull_iff.2 h), State.noticeLost, if_pos hlocked]
    simp [Capture.give, hlocked]
  · rw [State.queueNotice, if_pos (State.noticeQueueFull_iff.2 h), State.noticeLost, if_neg (by simp [hopen]),
      if_pos (State.noticeQueueFull_iff.2 (by exact h))]
    simp [Capture.give, hopen]
  · have hexec : exec .noticeHandoff s = .next (if s.ada.service.serving && s.noticeLineFree then
        State.originate (s.station 0).port (some n.body.kind) s.noticeAddressing (noticeDatagram n s.fnu.lost)
          { s with fnu.notices := rest, fnu.lost := false } else s) := by
      refine congrArg Host.Outcome.next ((awake_high hhigh _).trans ?_)
      simp only [hn]
    refine ⟨fun hheld => hexec.trans ?_, fun hfree => hexec.trans ?_⟩
    · rw [if_neg]
      simpa [State.noticeLineFree, hserving, Option.isSome_iff_ne_none] using hheld
    · rw [if_pos]
      simpa [State.noticeLineFree, hserving, Option.isSome_iff_ne_none] using hfree

/-! ### Client datagrams handed back or malformed (R125 to R127, R139) -/

theorem exec_client {k : CexKind} (h : c.clientKind = some k) (hhigh : s.resetLow = false) :
    ∃ serve, exec c s = .next (takeClient k serve (s.strike c.hits)) := by
  cases c <;> cases h
  all_goals exact ⟨_, congrArg Host.Outcome.next (awake_high hhigh _)⟩

section
variable {k : CexKind} {serve : Cand → Op Unit} (hserving : s.ada.service.serving = true) (hd : s.exu.intake = d :: rest)
  (hw : s.exu.work = none) (hkind : cexKind d.payload = k)
include hserving hd hw hkind

theorem takeClient_handBack (h : s.ada.op = .reset ∨ k.servedIn s.ada.service = false) :
    takeClient k serve s = (s.clientTaken rest).handBack d := by
  have hback : (s.ada.op.isReset || !k.servedIn s.ada.service) = true := by
    rcases h with h | h <;> simp [h, LongOp.isReset]
  simp [takeClient, State.clientTaken, hd, hw, hserving, hkind, hback]

theorem takeClient_malformed (hop : s.ada.op ≠ .reset) (hserved : k.servedIn s.ada.service = true) (hbad : cexWellFormed d.payload = false) :
    takeClient k serve s = (s.clientTaken rest).denyMalformed d := by
  simp [takeClient, State.clientTaken, hd, hw, hserving, hkind, not_isReset hop, hserved, hbad]

/-- A kind whose service is the refusal is malformed whatever its fields (R127). -/
theorem takeClient_other (hop : s.ada.op ≠ .reset) (hserved : k.servedIn s.ada.service = true) :
    takeClient k (fun d => modify (·.denyMalformed d)) s = (s.clientTaken rest).denyMalformed d := by
  cases hform : cexWellFormed d.payload with
  | false => exact takeClient_malformed hserving hd hw hkind hop hserved hform
  | true => simp [takeClient, State.clientTaken, hd, hw, hserving, hkind, not_isReset hop, hserved, hform, settle]

end

/-- Settles O23: the three ends of `takeClient` before a request is served. -/
theorem clientDatagramsForwardedOrMalformed : Obligations.ClientDatagramsForwardedOrMalformed := by
  refine ⟨⟨fun c k s d rest hc hhigh hserving hd hw hkind hback => ?_, fun s d => ⟨fun h => if_pos h, fun h => if_neg (Nat.not_lt.2 h)⟩⟩,
    fun c k s d rest hc hhigh hserving hd hw hkind hop hserved hbad => ?_, fun s d rest hhigh hon hd hw hkind hop => ?_⟩
  · obtain ⟨serve, he⟩ := exec_client hc hhigh
    exact he.trans (congrArg _ (takeClient_handBack (s := s.strike c.hits) hserving hd hw hkind hback))
  · obtain ⟨serve, he⟩ := exec_client hc hhigh
    exact he.trans (congrArg _ (takeClient_malformed (s := s.strike c.hits) hserving hd hw hkind hop hserved hbad))
  · have hserving : s.ada.service.serving = true := by rcases hon with h | h <;> rw [h] <;> rfl
    have hserved : CexKind.servedIn .other s.ada.service = true := by rcases hon with h | h <;> rw [h] <;> rfl
    refine congrArg Host.Outcome.next ((awake_high hhigh _).trans ?_)
    exact takeClient_other hserving hd hw hkind hop hserved

end Sys2Proof.Machine

/-!
PROOFS. The claim sequence: a claim outside the tables, a repeated claim, the reuse of a lingering grant, the deferrals and the entitlement
denials, and the ends of steps 12 to 14.
-/
namespace Sys2Proof.Machine

variable {s t : State} {d : Cand} {rest : List Cand} {x : ClaimCtx} {ci i : Nat} {pe : PoolEntry}

/-! ### Steps 2 and 3 (R13) -/

section
variable (hd : t.damage = [])
include hd

theorem claimServe_noSite (h : t.siteEntry (readClaim d.payload).site = none) : claimServe d t = .ok () (t.handBack d) := by
  rw [claimServe, checkActive_bind_clean hd, Op.get_bind]
  simp only [h]
  rfl

theorem claimServe_noCode {site : SiteEntry} (hsite : t.siteEntry (readClaim d.payload).site = some site)
    (h : t.activeBank.lookup (readClaim d.payload).code = none) : claimServe d t = .ok () (t.handBack d) := by
  rw [claimServe, checkActive_bind_clean hd, Op.get_bind]
  simp only [hsite]
  rw [check_bind_clean hd, Op.get_bind]
  simp only [h]
  rfl

theorem claimServe_noFeature {site : SiteEntry} {fi : Nat} (hsite : t.siteEntry (readClaim d.payload).site = some site)
    (hcode : t.activeBank.lookup (readClaim d.payload).code = some fi) (h : t.featureEntry fi = none) :
    claimServe d t = .ok () (t.handBack d) := by
  rw [claimServe, checkActive_bind_clean hd, Op.get_bind]
  simp only [hsite]
  rw [check_bind_clean hd, Op.get_bind]
  simp only [hcode]
  rw [checkActive_bind_clean hd, Op.get_bind]
  simp only [h]
  rfl

theorem claimServe_loaded {site : SiteEntry} {fi : Nat} {fe : FeatureEntry} (hsite : t.siteEntry (readClaim d.payload).site = some site)
    (hcode : t.activeBank.lookup (readClaim d.payload).code = some fi) (hfe : t.featureEntry fi = some fe) :
    claimServe d t = (if t.activeBank.damaged .pool fe.pool || t.activeBank.damagedGlobal then set (t.handBack d)
      else claimClient ⟨d, readClaim d.payload, site, fi, fe⟩ : Op Unit) t := by
  rw [claimServe, checkActive_bind_clean hd, Op.get_bind]
  simp only [hsite]
  rw [check_bind_clean hd, Op.get_bind]
  simp only [hcode]
  rw [checkActive_bind_clean hd, Op.get_bind]
  simp only [hfe]
  rw [checkActive_bind_clean hd, checkActive_bind_clean hd, Op.get_bind]

theorem claimClient_full (hclient : t.findClient x.q.client = none) (hnew : t.newClientIndex = none) :
    claimClient x t = .ok () ((t.denyClaim x.d .tryLater 0).capacityEvent .clientTable .general 0 x.q.client 0x0D) := by
  rw [claimClient, check_bind_clean hd, Op.get_bind]
  simp only [hclient, hnew]
  rfl

theorem claimClient_found (hclient : t.findClient x.q.client = some ci) : claimClient x t = claimTag x ci (t.noteClaim ci x) := by
  rw [claimClient, check_bind_clean hd, Op.get_bind]
  simp only [hclient]
  rw [check_bind_clean hd, Op.modify_bind]

theorem claimClient_new (hclient : t.findClient x.q.client = none) (hnew : t.newClientIndex = some ci) :
    claimClient x t = claimTag x ci ((t.newClient ci x.q.client).noteClaim ci x) := by
  rw [claimClient, check_bind_clean hd, Op.get_bind]
  simp only [hclient, hnew]
  rw [State.heal_clean (by exact hd), Op.set_bind]

end

theorem exec_served {k : CexKind} {c : Instr} {serve : Cand → Op Unit} (hc : exec c s = .next (awake s fun u => takeClient k serve u))
    (h : s.ServedHead k d rest) (hrun : settle (serve d) (s.clientTaken rest) = t) : exec c s = .next t := by
  rw [hc, awake_high h.head.quiet.high, takeClient_served h, hrun]

theorem settle_congr {m n : Op Unit} {u v : State} (h : m u = n v) : settle m u = settle n v := by rw [settle, settle, h]

/-- Settles O24: the four ends of steps 2 and 3 that hand the datagram back, and step 4 at a full client table. -/
theorem claimOutsideTablesOrClientTableFull : Obligations.ClaimOutsideTablesOrClientTableFull := by
  refine ⟨fun s d rest h hout => ?_, fun s d rest q site fi fe h hq hsite hcode hfe hpool hglobal hclient hnew => ?_⟩
  · refine exec_served (c := .claim []) rfl h (settle_ok ?_)
    have hd : (s.clientTaken rest).damage = [] := h.head.quiet.sound
    cases hsite : s.siteEntry (readClaim d.payload).site with
    | none => exact claimServe_noSite hd hsite
    | some site =>
      cases hcode : s.activeBank.lookup (readClaim d.payload).code with
      | none => exact claimServe_noCode hd hsite hcode
      | some fi =>
        cases hfe : s.featureEntry fi with
        | none => exact claimServe_noFeature hd hsite hcode hfe
        | some fe =>
          have hdamaged : (s.activeBank.damaged .pool fe.pool || s.activeBank.damagedGlobal) = true := by
            simpa [hsite, hcode, hfe] using hout
          rw [claimServe_loaded hd hsite hcode hfe]
          exact Op.ite_pos hdamaged _ _ _
  · subst hq
    refine exec_served (c := .claim []) rfl h (settle_ok ?_)
    have hd : (s.clientTaken rest).damage = [] := h.head.quiet.sound
    have hsound : ¬ (s.activeBank.damaged .pool fe.pool || s.activeBank.damagedGlobal) = true := by simp [hpool, hglobal]
    rw [claimServe_loaded hd hsite hcode hfe]
    exact (Op.ite_neg hsound _ _ _).trans (claimClient_full hd hclient hnew)

/-! ### After step 4 -/

theorem State.ClaimHead.sound (h : s.ClaimHead d rest x ci) : s.damage = [] := h.served.head.quiet.sound

/-- The state whose datagram has left the intake, with another client table. -/
def State.takenWith (s : State) (rest : List Cand) (k : Clt) : State := { s.clientTaken rest with clt := k }

/-- Step 4 changes no more than the client table. -/
theorem State.claimStart_eq (s : State) (rest : List Cand) (x : ClaimCtx) (ci : Nat) :
    ∃ k, s.claimStart rest x ci = s.takenWith rest k := by
  refine ⟨(s.claimStart rest x ci).clt, ?_⟩
  unfold State.claimStart State.noteClaim State.idleToTail
  split <;> split <;> rfl

/-- A claim that passes steps 2 to 4 goes on with step 5 on the state they leave. -/
theorem exec_claim (h : s.ClaimHead d rest x ci) (hrun : settle (claimTag x ci) (s.claimStart rest x ci) = t) :
    exec (.claim []) s = .next t := by
  refine exec_served (c := .claim []) rfl h.served ((settle_congr ?_).trans hrun)
  obtain ⟨served, rfl, hq, hsite, hcode, hfe, hpool, hglobal, hclient⟩ := h
  have hd : (s.clientTaken rest).damage = [] := served.head.quiet.sound
  have hsound : ¬ (s.activeBank.damaged .pool x.fe.pool || s.activeBank.damagedGlobal) = true := by simp [hpool, hglobal]
  rw [hq] at hsite hcode
  rw [claimServe_loaded hd hsite hcode hfe]
  refine (Op.ite_neg hsound _ _ _).trans ?_
  rw [← hq]
  obtain hfound | ⟨hnone, hnew⟩ := hclient
  · rw [State.claimStart, if_pos (by rw [hfound]; rfl)]
    exact claimClient_found hd hfound
  · rw [State.claimStart, if_neg (by rw [hnone]; exact Bool.false_ne_true)]
    exact claimClient_new hd hnone hnew

/-! ### Steps 5 and 6 (R15, R33, R34) -/

section
variable (hd : t.damage = [])
include hd

theorem claimTag_waiting {wi : Nat} (h : t.findWaiter ci x.q.tag = some wi) :
    claimTag x ci t = .ok ()
      (t.replyTo x.d (.wait (t.position wi) (t.secondsUntil (t.waiter wi).deadline) (t.waiterCode (t.waiter wi)))) := by
  rw [claimTag, Op.get_bind, Op.bind_ok (readSlots_clean hd _), Op.get_bind]
  simp only [h]
  rw [claimWaiting, check_bind_clean hd, Op.get_bind, checkAll_bind_clean hd, Op.get_bind]
  rfl

theorem claimTag_grant (hw : t.findWaiter ci x.q.tag = none) (h : (t.client ci).chain.find? (fun i => (t.slot i).tag == x.q.tag) = some i) :
    claimTag x ci t = claimDuplicate x i t := by
  rw [claimTag, Op.get_bind, Op.bind_ok (readSlots_clean hd _), Op.get_bind]
  simp only [hw, h]

theorem claimTag_new (hw : t.findWaiter ci x.q.tag = none) (h : ∀ i ∈ (t.client ci).chain, (t.slot i).tag ≠ x.q.tag) :
    claimTag x ci t = claimReuse x ci (t.client ci).chain t := by
  have hnone : (t.client ci).chain.find? (fun i => (t.slot i).tag == x.q.tag) = none := by simpa using h
  rw [claimTag, Op.get_bind, Op.bind_ok (readSlots_clean hd _), Op.get_bind]
  simp only [hw, hnone]

theorem claimReuse_some {l : List Nat} (h : l.find? (fun i => x.reuses t (t.slot i)) = some i) :
    claimReuse x ci l t = .ok () (x.reuse i t) := by
  rw [claimReuse, check_bind_clean hd, Op.get_bind]
  simp only [h]
  rfl

theorem claimReuse_none {l : List Nat} (h : ∀ i ∈ l, x.reuses t (t.slot i) = false) : claimReuse x ci l t = claimPaced x ci t := by
  have hnone : l.find? (fun i => x.reuses t (t.slot i)) = none := by simpa using h
  rw [claimReuse, check_bind_clean hd, Op.get_bind]
  simp only [hnone]

theorem claimDuplicate_held (h : (t.slot i).state = .held ∨ (t.slot i).state = .stale) :
    claimDuplicate x i t = .ok () (t.replyTo x.d (t.grantMsg i (t.loadedCode (t.slot i).feature))) := by
  rw [claimDuplicate, Op.get_bind, check_bind_clean hd, checkActive_bind_clean hd, Op.get_bind]
  rcases h with h | h <;> simp only [h] <;> rfl

theorem claimDuplicate_reuse (h : (t.slot i).state = .linger) (hr : x.reuses t (t.slot i) = true) :
    claimDuplicate x i t = .ok () (x.reuse i t) := by
  rw [claimDuplicate, Op.get_bind, check_bind_clean hd, checkActive_bind_clean hd, Op.get_bind]
  simp only [h, hr]
  rfl

theorem claimDuplicate_release {r : Reason}
    (h : ((t.slot i).state = .linger ∧ x.reuses t (t.slot i) = false ∧ r = .tryLater) ∨
      ((t.slot i).state = .recalled ∧ (t.slot i).reason = some r)) : claimDuplicate x i t = claimRelease x i r t := by
  rw [claimDuplicate, Op.get_bind, check_bind_clean hd, checkActive_bind_clean hd, Op.get_bind]
  rcases h with ⟨hs, hr, rfl⟩ | ⟨hs, hr⟩
  · simp [hs, hr]
  · simp [hs, hr]

/-- A live grant is released before the DENY, and the checks and runs follow it (R33, R43). -/
theorem claimRelease_live (h : (t.slot i).state.live = true) (r : Reason) :
    claimRelease x i r t = afterRelease (t.releasedOf i) ((t.releaseSlot i).denyClaim x.d r x.q.code) := by
  rw [claimRelease, Op.bind_ok (release_live hd h), Op.modify_bind]

end

/-- Settles O25: step 5 at a waiter, at a HELD or STALE grant, and at a grant that is released. -/
theorem repeatedClaimIsSettledAtItsRecord : Obligations.RepeatedClaimIsSettledAtItsRecord := by
  refine ⟨fun s d rest x ci h => ?_, fun s d rest x ci i r h hw hfind hslot => ?_⟩
  · have hclaim {u} := exec_claim (t := u) h
    obtain ⟨k, hk⟩ := s.claimStart_eq rest x ci
    have hd : (s.takenWith rest k).damage = [] := h.sound
    rw [hk] at hclaim ⊢
    obtain rfl := h.datagram
    refine ⟨fun wi hw => hclaim (settle_ok (claimTag_waiting hd hw)), fun i hw hfind hslot => hclaim (settle_ok ?_)⟩
    rw [claimTag_grant hd hw hfind]
    exact claimDuplicate_held hd hslot
  · have hclaim {u} := exec_claim (t := u) h
    obtain ⟨k, hk⟩ := s.claimStart_eq rest x ci
    have hd : (s.takenWith rest k).damage = [] := h.sound
    rw [hk] at hclaim hw hfind ⊢
    obtain rfl := h.datagram
    have hlive : (s.slot i).state.live = true := by rcases hslot with ⟨hs, -⟩ | ⟨hs, -⟩ <;> rw [hs] <;> rfl
    have hrun : claimTag x ci (s.takenWith rest k) =
        afterRelease ((s.takenWith rest k).releasedOf i)
          (((s.takenWith rest k).releaseSlot i).denyClaim x.d r x.q.code) := by
      rw [claimTag_grant hd hw hfind, claimDuplicate_release (r := r) hd hslot, claimRelease_live hd hlive]
    have hreleased : (((s.takenWith rest k).releaseSlot i).denyClaim x.d r x.q.code).damage = [] := by
      simpa [State.denyClaim] using hd
    exact ⟨fun hstands => hclaim (settle_ok (hrun.trans (afterRelease_stands hreleased hstands))),
      fun hsettles => hclaim (settle_ok (hrun.trans (afterRelease_settles hreleased hsettles)))⟩

theorem ClaimCtx.reuse_eq (x : ClaimCtx) (i : Nat) (t : State) :
    x.reuse i t = ((((t.setLinger (t.slot i).pool ((t.lingerList (t.slot i).pool).erase i)).setSlot i
        { t.slot i with
          state := .held, tag := x.q.tag, start := t.swp.mt
          deadline := t.swp.mt + BitVec.ofNat 32 (2 * (t.slot i).renew) }).replyTo x.d
        (.grant (handleOf i (t.slot i).generation) (t.slot i).cost (t.slot i).units (t.slot i).cls (t.slot i).renew
          x.q.code)).countGranted) := by
  have hslot : (t.reuseSlot i x.q.tag).slot i = { t.slot i with
      state := .held, tag := x.q.tag, start := t.swp.mt, deadline := t.swp.mt + BitVec.ofNat 32 (2 * (t.slot i).renew) } := by
    rw [State.reuseSlot, State.slot_setSlot, if_pos rfl]
    rfl
  rw [ClaimCtx.reuse, State.grantMsg, hslot]
  rfl

/-- Settles O26: the grant that step 5 or step 6 finds is reused. -/
theorem matchingClaimReusesLingeringGrant : Obligations.MatchingClaimReusesLingeringGrant := by
  intro s d rest x ci i h hw hfind
  have hclaim {u} := exec_claim (t := u) h
  obtain ⟨k, hk⟩ := s.claimStart_eq rest x ci
  have hd : (s.takenWith rest k).damage = [] := h.sound
  rw [hk] at hclaim hw hfind ⊢
  obtain rfl := h.datagram
  have hreuse : claimTag x ci (s.takenWith rest k) = .ok () (x.reuse i (s.takenWith rest k)) := by
    rcases hfind with ⟨htag, hr⟩ | ⟨hnone, hfirst⟩
    · rw [claimTag_grant hd hw htag]
      refine claimDuplicate_reuse hd ?_ hr
      simp only [ClaimCtx.reuses, Bool.and_eq_true, beq_iff_eq] at hr
      exact hr.1.1.1
    · rw [claimTag_new hd hw hnone]
      exact claimReuse_some hd hfirst
  rw [ClaimCtx.reuse_eq] at hreuse
  exact hclaim (settle_ok hreuse)

/-! ### Steps 7 to 10 (R16 to R19, R74) -/

/-- A claim that passes steps 5 and 6 goes on with step 7. -/
theorem claimTag_paced (hd : t.damage = []) (hw : t.findWaiter ci x.q.tag = none)
    (hgrant : ∀ i ∈ (t.client ci).chain, (t.slot i).tag ≠ x.q.tag) (hreuse : ∀ i ∈ (t.client ci).chain, x.reuses t (t.slot i) = false) :
    claimTag x ci t = claimPaced x ci t := by
  rw [claimTag_new hd hw hgrant, claimReuse_none hd hreuse]

theorem claimPaced_rebuild (h : t.ada.op.isRebuild = true) :
    claimPaced x ci t = .ok () ((t.replyTo x.d (.deferRebuild 1)).countDeferred) := Op.ite_pos h _ _ t

section
variable (hrebuild : t.ada.op.isRebuild = false)
include hrebuild

theorem claimPaced_over (hexempt : x.classSlot.paceExempt = false) (hpace : t.globalEntry.pt < t.paceValue ci) :
    claimPaced x ci t = .ok () ((t.replyTo x.d (.deferPace (t.paceRetry ci))).countDeferred) :=
  (Op.ite_neg (by simp [hrebuild]) _ _ t).trans (Op.ite_pos (by simp [hexempt, hpace]) _ _ t)

theorem claimPaced_within (hpace : x.classSlot.paceExempt = true ∨ t.paceValue ci ≤ t.globalEntry.pt) :
    claimPaced x ci t = claimEntitled x ci t :=
  (Op.ite_neg (by simp [hrebuild]) _ _ t).trans (Op.ite_neg (by
    rcases hpace with h | h
    · simp [h]
    · simp [Nat.not_lt.2 h]) _ _ t)

end

theorem claimEntitled_weightless (h : x.fe.weight = 0) : claimEntitled x ci t = .ok () (t.denyClaim x.d .disabled x.q.code) :=
  Op.ite_pos h _ _ t

section
variable (hweight : x.fe.weight ≠ 0)
include hweight

theorem claimEntitled_noPool (h : t.poolEntry x.fe.pool = none) :
    claimEntitled x ci t = .ok () ((t.denyClaim x.d .disabled x.q.code).softEvent ⟨0x03, x.fi, x.fe.pool, x.q.client⟩) := by
  refine (Op.ite_neg hweight _ _ t).trans ?_
  simp only [h]
  rfl

theorem claimEntitled_refused {r : Reason} (h : t.poolEntry x.fe.pool = some pe) (hr : x.notEntitled t = some r) :
    claimEntitled x ci t = .ok () (t.denyClaim x.d r x.q.code) := by
  refine (Op.ite_neg hweight _ _ t).trans ?_
  simp only [h, hr]
  rfl

theorem claimEntitled_limit (h : t.poolEntry x.fe.pool = some pe) (hr : x.notEntitled t = none)
    (hlimit : t.globalEntry.grantLimit ≤ (t.client ci).grants) :
    claimEntitled x ci t = .ok () (t.denyClaim x.d .clientLimit x.q.code) := by
  refine (Op.ite_neg hweight _ _ t).trans ?_
  simp only [h, hr]
  exact Op.ite_pos hlimit _ _ t

theorem claimEntitled_admits (h : t.poolEntry x.fe.pool = some pe) (hr : x.notEntitled t = none)
    (hlimit : (t.client ci).grants < t.globalEntry.grantLimit) : claimEntitled x ci t = claimAdmit x pe ci t := by
  refine (Op.ite_neg hweight _ _ t).trans ?_
  simp only [h, hr]
  exact Op.ite_neg (Nat.not_le.2 hlimit) _ _ t

end

theorem notEntitled_group (h : x.fe.groupMask.getLsbD x.site.group = false) : x.notEntitled t = some .groupBlocked := by
  simp only [ClaimCtx.notEntitled, h, Bool.not_false, if_true]

section
variable (hgroup : x.fe.groupMask.getLsbD x.site.group = true)
include hgroup

theorem notEntitled_clock (hw : x.fe.windowStart ≠ 0 ∨ x.fe.windowEnd ≠ 0) (h : t.swp.dtValid = false) :
    x.notEntitled t = some .clockUnset := by
  simp only [ClaimCtx.notEntitled, hgroup, Bool.not_true, h, Bool.not_false, and_true]
  rw [if_neg Bool.false_ne_true, if_pos hw]

theorem notEntitled_early (hvalid : t.swp.dtValid = true) (hstart : x.fe.windowStart ≠ 0) (h : t.dt < x.fe.windowStart) :
    x.notEntitled t = some .notYet := by
  simp only [ClaimCtx.notEntitled, hgroup, hvalid, Bool.not_true, Bool.false_eq_true, and_false, if_false]
  rw [if_pos ⟨hstart, h⟩]

theorem notEntitled_late (hvalid : t.swp.dtValid = true) (hstart : x.fe.windowStart = 0 ∨ x.fe.windowStart ≤ t.dt)
    (hend : x.fe.windowEnd ≠ 0) (h : x.fe.windowEnd ≤ t.dt) : x.notEntitled t = some .expired := by
  have hopen : ¬ (x.fe.windowStart ≠ 0 ∧ t.dt < x.fe.windowStart) := fun ⟨h0, hlt⟩ =>
    hstart.elim h0 fun hle => absurd hlt (BitVec.not_lt.2 hle)
  simp only [ClaimCtx.notEntitled, hgroup, hvalid, Bool.not_true, Bool.false_eq_true, and_false, if_false]
  rw [if_neg hopen, if_pos ⟨hend, h⟩]

theorem notEntitled_none
    (h : (x.fe.windowStart = 0 ∧ x.fe.windowEnd = 0) ∨ (t.swp.dtValid = true ∧ x.fe.inWindow t.dt = true)) : x.notEntitled t = none := by
  rcases h with ⟨hs, he⟩ | ⟨hvalid, hin⟩
  · simp [ClaimCtx.notEntitled, hgroup, hs, he]
  · simp only [FeatureEntry.inWindow, Bool.and_eq_true, Bool.or_eq_true, beq_iff_eq, decide_eq_true_eq] at hin
    obtain ⟨hs, he⟩ := hin
    have hopen : ¬ (x.fe.windowStart ≠ 0 ∧ t.dt < x.fe.windowStart) := fun ⟨h0, hlt⟩ =>
      hs.elim h0 fun hle => absurd hlt (BitVec.not_lt.2 hle)
    have hrunning : ¬ (x.fe.windowEnd ≠ 0 ∧ x.fe.windowEnd ≤ t.dt) := fun ⟨h0, hle⟩ =>
      he.elim h0 fun hlt => absurd hle (BitVec.not_le.2 hlt)
    simp only [ClaimCtx.notEntitled, hgroup, hvalid, Bool.not_true, Bool.false_eq_true, and_false, if_false]
    rw [if_neg hopen, if_neg hrunning]

end

/-- Settles O27: steps 7 and 8, then the entitlement checks and the client's limit in their order. -/
theorem claimDeferredOrNotEntitled : Obligations.ClaimDeferredOrNotEntitled := by
  refine ⟨fun s d rest x ci h => ?_, fun s d rest x ci h hrebuild hpace => ?_⟩
  · obtain ⟨hhead, hw, hgrant, hreuse⟩ := h
    have hclaim {u} := exec_claim (t := u) hhead
    obtain ⟨k, hk⟩ := s.claimStart_eq rest x ci
    have hd : (s.takenWith rest k).damage = [] := hhead.sound
    rw [hk] at hclaim hw hgrant hreuse ⊢
    obtain rfl := hhead.datagram
    have hpaced := claimTag_paced hd hw hgrant hreuse
    exact ⟨fun hrebuild => hclaim (settle_ok (hpaced.trans (claimPaced_rebuild hrebuild))),
      fun hrebuild hexempt hover => hclaim (settle_ok (hpaced.trans (claimPaced_over hrebuild hexempt hover)))⟩
  · obtain ⟨hhead, hw, hgrant, hreuse⟩ := h
    have hclaim {u} := exec_claim (t := u) hhead
    obtain ⟨k, hk⟩ := s.claimStart_eq rest x ci
    have hd : (s.takenWith rest k).damage = [] := hhead.sound
    rw [hk] at hclaim hw hgrant hreuse hpace ⊢
    obtain rfl := hhead.datagram
    have hrun {u} (he : claimEntitled x ci (s.takenWith rest k) = .ok () u) : exec (.claim []) s = .next u :=
      hclaim (settle_ok (((claimTag_paced hd hw hgrant hreuse).trans (claimPaced_within hrebuild hpace)).trans he))
    refine ⟨fun hzero => hrun (claimEntitled_weightless hzero), fun hweight hpool => hrun (claimEntitled_noPool hweight hpool),
      fun pe hweight hpool => ⟨fun hgroup => ?_, fun hgroup => ⟨fun hwin hunset => ?_, fun hvalid hstart hlt => ?_,
        fun hvalid hstart hend hle => ?_, fun hwin hlimit => ?_⟩⟩⟩
    · exact hrun (claimEntitled_refused hweight hpool (notEntitled_group hgroup))
    · exact hrun (claimEntitled_refused hweight hpool (notEntitled_clock hgroup hwin hunset))
    · exact hrun (claimEntitled_refused hweight hpool (notEntitled_early hgroup hvalid hstart hlt))
    · exact hrun (claimEntitled_refused hweight hpool (notEntitled_late hgroup hvalid hstart hend hle))
    · exact hrun (claimEntitled_limit hweight hpool (notEntitled_none hgroup hwin) hlimit)

/-! ### Steps 12 to 14 for a claim that is not admitted (R20 to R22, R47 to R50) -/

/-- A claim that passes steps 5 to 10 goes on with step 12. -/
theorem exec_claim_admits (h : s.ClaimReaches d rest x ci) (he : s.ClaimEntitled rest x ci pe)
    (hrun : claimAdmit x pe ci (s.claimStart rest x ci) = .ok () t) : exec (.claim []) s = .next t := by
  obtain ⟨hhead, hw, hgrant, hreuse⟩ := h
  obtain ⟨hrebuild, hpace, hweight, hpool, hgroup, hwindow, hlimit⟩ := he
  have hclaim {u} := exec_claim (t := u) hhead
  obtain ⟨k, hk⟩ := s.claimStart_eq rest x ci
  have hd : (s.takenWith rest k).damage = [] := hhead.sound
  rw [hk] at hclaim hw hgrant hreuse hpace hlimit hrun
  have hadmit := claimEntitled_admits (t := s.takenWith rest k) (ci := ci) hweight hpool (notEntitled_none hgroup hwindow) hlimit
  exact hclaim (settle_ok
    (((claimTag_paced hd hw hgrant hreuse).trans (claimPaced_within (t := s.takenWith rest k) hrebuild hpace)).trans (hadmit.trans hrun)))

section
variable (hd : t.damage = [])
include hd

theorem claimAdmit_queued (h : t.queue x.fe.pool x.classSlot.cls ≠ []) :
    claimAdmit x pe ci t = claimWaitOrDeny x pe ci .queuedAhead t := by
  rw [claimAdmit, checkAll_bind_clean hd]
  exact Op.ite_pos h _ _ t

theorem claimAdmit_capped (hq : t.queue x.fe.pool x.classSlot.cls = []) (h : capPasses x.fe (t.featLive x.fi).hf x.q.units = false) :
    claimAdmit x pe ci t = claimWaitOrDeny x pe ci .capReached t := by
  rw [claimAdmit, checkAll_bind_clean hd]
  exact (Op.ite_neg (not_not.2 hq) _ _ t).trans (Op.ite_pos (by simp [h]) _ _ t)

theorem claimAdmit_poor (hq : t.queue x.fe.pool x.classSlot.cls = []) (hc : capPasses x.fe (t.featLive x.fi).hf x.q.units = true)
    (h : t.availability x.fe.pool x.classSlot.cls < x.cost) : claimAdmit x pe ci t = claimWaitOrDeny x pe ci .noTokens t := by
  rw [claimAdmit, checkAll_bind_clean hd]
  exact (Op.ite_neg (not_not.2 hq) _ _ t).trans ((Op.ite_neg (by simp [hc]) _ _ t).trans (Op.ite_pos h _ _ t))

theorem claimAdmit_fits (hq : t.queue x.fe.pool x.classSlot.cls = []) (hc : capPasses x.fe (t.featLive x.fi).hf x.q.units = true)
    (h : x.cost ≤ t.availability x.fe.pool x.classSlot.cls) : claimAdmit x pe ci t = claimGrant x pe ci t := by
  rw [claimAdmit, checkAll_bind_clean hd]
  exact (Op.ite_neg (not_not.2 hq) _ _ t).trans ((Op.ite_neg (by simp [hc]) _ _ t).trans (Op.ite_neg (Nat.not_lt.2 h) _ _ t))

end

theorem capPasses_iff {e : FeatureEntry} {hf units : Nat} : capPasses e hf units = true ↔ e.cap = 0 ∨ hf + units ≤ e.cap := by
  simp [capPasses]

theorem claimWaitOrDeny_denies (h : x.q.wait = false ∨ x.q.waitLimit = 0 ∨ pe.mw = 0 ∨ x.fe.waiting = false) (r : Reason) :
    claimWaitOrDeny x pe ci r t = .ok () (t.denyClaim x.d r x.q.code) := by
  have hwait : x.withWaiting pe = false := by rcases h with h | h | h | h <;> simp [ClaimCtx.withWaiting, h]
  exact Op.ite_neg (by simp [hwait]) _ _ t

theorem claimWaitOrDeny_enqueues (hw : x.q.wait = true) (hl : 0 < x.q.waitLimit) (hm : 0 < pe.mw) (hf : x.fe.waiting = true) (r : Reason) :
    claimWaitOrDeny x pe ci r t = claimEnqueue x pe ci t := Op.ite_pos (by simp [ClaimCtx.withWaiting, hw, hl, hm, hf]) _ _ t

section
variable (hd : t.damage = [])
include hd

theorem claimEnqueue_full (h : pe.mw ≤ (t.queue x.fe.pool x.classSlot.cls).length) :
    claimEnqueue x pe ci t = .ok () (t.denyClaim x.d .queueFull x.q.code) := by
  rw [claimEnqueue, checkAll_bind_clean hd]
  exact Op.ite_pos h _ _ t

theorem claimEnqueue_refused (hroom : (t.queue x.fe.pool x.classSlot.cls).length < pe.mw) (h : t.storeAdmits x.classSlot.cls = false) :
    claimEnqueue x pe ci t = .ok ()
      ((t.denyClaim x.d .queueFull x.q.code).capacityEvent .waiterStore x.classSlot.cls x.fe.pool x.q.client 0x0E) := by
  rw [claimEnqueue, checkAll_bind_clean hd]
  exact (Op.ite_neg (Nat.not_le.2 hroom) _ _ t).trans (Op.ite_pos (by simp [h]) _ _ t)

end

/-- A deadline `n` seconds ahead is `n` seconds away (R50, R95). -/
theorem secondsUntil_deadlineIn (t : State) {n : Nat} (h : n < 2 ^ 31) : t.secondsUntil (t.swp.mt + BitVec.ofNat 32 n) = n := by
  have hdiff : t.swp.mt + BitVec.ofNat 32 n - t.swp.mt = BitVec.ofNat 32 n := by bv_omega
  have htoNat : (BitVec.ofNat 32 n).toNat = n := by rw [BitVec.toNat_ofNat]; omega
  have htoInt : (BitVec.ofNat 32 n).toInt = n := by rw [BitVec.toInt_eq_toNat_of_lt (by omega), htoNat]
  rw [State.secondsUntil, State.passed, hdiff, htoInt, htoNat]
  split
  · next h0 => exact (by simpa using h0 : n = 0).symm
  · rfl

theorem position_placeWaiter {wi : Nat} {w : Waiter} (h : wi ∉ t.queue w.pool w.cls) :
    (t.placeWaiter wi w).position wi = (t.queue w.pool w.cls).length + 1 := by
  have hw : (t.placeWaiter wi w).waiter wi = w := (placeWaiter_waiter ..).trans (if_pos rfl)
  rw [State.position, hw, placeWaiter_queue, if_pos ⟨rfl, rfl⟩, List.idxOf_append_of_notMem h]
  simp

theorem claimEnqueue_placed (hd : t.damage = []) {wi : Nat} (hroom : (t.queue x.fe.pool x.classSlot.cls).length < pe.mw)
    (h : t.storeAdmits x.classSlot.cls = true) (hfree : t.freeWaiter x.classSlot.cls = some wi)
    (hnot : wi ∉ t.queue x.fe.pool x.classSlot.cls) (hsmall : min x.q.waitLimit pe.mwt < 2 ^ 31) :
    claimEnqueue x pe ci t = .ok () ((t.placeWaiter wi (x.waiter pe ci t)).replyTo x.d
      (.wait ((t.queue x.fe.pool x.classSlot.cls).length + 1) (min x.q.waitLimit pe.mwt) x.q.code)) := by
  have hheal : (t.placeWaiter wi (x.waiter pe ci t)).heal (.waiterRec wi) = t.placeWaiter wi (x.waiter pe ci t) :=
    State.heal_clean (by simp [hd]) _
  have hposition : (t.placeWaiter wi (x.waiter pe ci t)).position wi = (t.queue x.fe.pool x.classSlot.cls).length + 1 :=
    position_placeWaiter (w := x.waiter pe ci t) hnot
  have hwaiter : (t.placeWaiter wi (x.waiter pe ci t)).waiter wi = x.waiter pe ci t := (placeWaiter_waiter ..).trans (if_pos rfl)
  have hseconds : (t.placeWaiter wi (x.waiter pe ci t)).secondsUntil (x.waiter pe ci t).deadline = min x.q.waitLimit pe.mwt := by
    have := secondsUntil_deadlineIn (t.placeWaiter wi (x.waiter pe ci t)) hsmall
    rwa [State.placeWaiter_swp] at this
  rw [claimEnqueue, checkAll_bind_clean hd]
  refine (Op.ite_neg (Nat.not_le.2 hroom) _ _ t).trans ((Op.ite_neg (by simp [h]) _ _ t).trans ?_)
  simp only [hfree, hheal, hposition, hwaiter, hseconds]
  rfl

theorem waitLimit_lt (p : List Byte) : (readClaim p).waitLimit < 2 ^ 16 := (be16 p 20).isLt

/-- Settles O28: a claim without waiting is denied by the step that does not admit it, and one with waiting is enqueued or refused. -/
theorem claimNotAdmittedWaitsOrIsDenied : Obligations.ClaimNotAdmittedWaitsOrIsDenied := by
  refine ⟨fun s d rest x ci pe h he hno => ?_, fun s d rest x ci pe h he hqueues hwait hlimit hmw hfe hblocked => ?_⟩
  · have hrun {u} := exec_claim_admits (t := u) h he
    obtain ⟨k, hk⟩ := s.claimStart_eq rest x ci
    have hd : (s.takenWith rest k).damage = [] := h.head.sound
    rw [hk] at hrun ⊢
    obtain rfl := h.head.datagram
    refine ⟨fun hq => hrun ?_, fun hq => ⟨fun hcap hover => hrun ?_, fun hcap hpoor => hrun ?_⟩⟩
    · rw [claimAdmit_queued hd hq]
      exact claimWaitOrDeny_denies hno _
    · rw [claimAdmit_capped hd hq (by rw [← Bool.not_eq_true, capPasses_iff]; exact fun h => h.elim hcap (Nat.not_le.2 hover))]
      exact claimWaitOrDeny_denies hno _
    · rw [claimAdmit_poor hd hq (capPasses_iff.2 hcap) hpoor]
      exact claimWaitOrDeny_denies hno _
  · have hrun {u} := exec_claim_admits (t := u) h he
    obtain ⟨k, hk⟩ := s.claimStart_eq rest x ci
    have hd : (s.takenWith rest k).damage = [] := h.head.sound
    rw [hk] at hrun ⊢
    obtain rfl := h.head.datagram
    have henqueue : claimAdmit x pe ci (s.takenWith rest k) = claimEnqueue x pe ci (s.takenWith rest k) := by
      have hwaits := claimWaitOrDeny_enqueues (t := s.takenWith rest k) (ci := ci) hwait hlimit hmw hfe
      by_cases hq : s.queue x.fe.pool x.classSlot.cls = []
      · by_cases hcap : capPasses x.fe (s.featLive x.fi).hf x.q.units = true
        · have hpoor : s.availability x.fe.pool x.classSlot.cls < x.cost := by
            rcases hblocked with h | ⟨h0, hlt⟩ | h
            · exact absurd hq h
            · exact absurd (capPasses_iff.1 hcap) fun h => h.elim h0 (Nat.not_le.2 hlt)
            · exact h
          exact (claimAdmit_poor hd hq hcap hpoor).trans (hwaits _)
        · exact (claimAdmit_capped hd hq (Bool.not_eq_true _ ▸ hcap)).trans (hwaits _)
      · exact (claimAdmit_queued hd hq).trans (hwaits _)
    refine ⟨fun hfull => hrun (henqueue.trans (claimEnqueue_full hd hfull)),
      fun hroom hrefused => hrun (henqueue.trans (claimEnqueue_refused hd hroom hrefused)),
      fun wi hroom hadmits hfree => ?_⟩
    have hnot : wi ∉ s.queue x.fe.pool x.classSlot.cls := fun hm => by
      have hused := (hqueues.member _ _ _ hm).1
      rw [(freeWaiter_some hfree).1] at hused
      exact Bool.false_ne_true hused
    have hsmall : min x.q.waitLimit pe.mwt < 2 ^ 31 := by
      have := waitLimit_lt x.d.payload
      rw [← h.head.request] at this
      omega
    exact hrun (henqueue.trans (claimEnqueue_placed hd hroom hadmits hfree hnot hsmall))

/-! ### Step 14 with the tokens (R22, R23, R30), and what a grant writes -/

theorem claimGrant_unslotted (h : t.grt.freeFifo = []) :
    claimGrant x pe ci t = .ok ()
      (State.capacityEvent .grantTable .general x.fe.pool x.q.client 0x0C { t.denyClaim x.d .tryLater x.q.code with grt.exhausted := true }) := by
  rw [claimGrant, Op.get_bind]
  simp only [h]
  rfl

/-- The grant of step 14, its message read from the record it has just written. -/
theorem claimGrant_slotted (hd : t.damage = []) {l : List Nat} (h : t.grt.freeFifo = i :: l) :
    claimGrant x pe ci t = pressure x.fe.pool false
      (((t.createGrant i (x.newGrant pe ci t)).replyTo x.d
        (.grant (handleOf i (t.slot i).generation) x.cost x.q.units x.classSlot.cls pe.ri x.q.code)).countGranted) := by
  have hheal : (t.createGrant i (x.newGrant pe ci t)).heal (.grantRec i) = t.createGrant i (x.newGrant pe ci t) :=
    State.heal_clean (by simp [hd]) _
  have hslot : (t.createGrant i (x.newGrant pe ci t)).slot i = (x.newGrant pe ci t).slot t (t.slot i).generation :=
    (State.createGrant_slot ..).trans (if_pos rfl)
  rw [claimGrant, Op.get_bind]
  simp only [h]
  rw [checkAll_bind_clean hd, Op.get_bind]
  simp only [hheal, State.grantMsg, hslot]
  rfl

/-- Settles O29: step 14 at an empty FIFO, and the grant with its pressure check. -/
theorem fittingClaimIsGranted : Obligations.FittingClaimIsGranted := by
  intro s d rest x ci pe h he hq hcap hfits
  have hrun {u} := exec_claim_admits (t := u) h he
  obtain ⟨k, hk⟩ := s.claimStart_eq rest x ci
  have hd : (s.takenWith rest k).damage = [] := h.head.sound
  rw [hk] at hrun ⊢
  obtain rfl := h.head.datagram
  have hgrant : claimAdmit x pe ci (s.takenWith rest k) = claimGrant x pe ci (s.takenWith rest k) :=
    claimAdmit_fits hd hq (capPasses_iff.2 hcap) hfits
  refine ⟨fun hempty => hrun (hgrant.trans (claimGrant_unslotted hempty)), fun i fifo hfifo => ?_⟩
  have hslotted := hgrant.trans (claimGrant_slotted (x := x) (pe := pe) (ci := ci) hd hfifo)
  have hsound : (((s.takenWith rest k).createGrant i (x.newGrant pe ci (s.takenWith rest k))).replyTo x.d
      (.grant (handleOf i (s.slot i).generation) x.cost x.q.units x.classSlot.cls pe.ri x.q.code)).countGranted.damage = [] := by
    simpa using hd
  exact ⟨fun hstands => hrun (hslotted.trans (pressure_stands hsound hstands)),
    fun hsettles => hrun (hslotted.trans (pressure_settles hsound hsettles))⟩

theorem State.createGrant_featLive (s : State) (i j : Nat) (n : NewGrant) :
    (s.createGrant i n).featLive j =
      if j = n.feature then ⟨(s.featLive n.feature).hf + n.units, (s.featLive n.feature).epoch⟩ else s.featLive j := by
  unfold State.createGrant State.leaveIdle
  show State.featLive (State.setFeatLive n.feature _ _) j = _
  rw [State.featLive_setFeatLive]
  rfl

/-- Settles O30, by the rules of the creation for each store. -/
theorem createdGrantIsCounted : Obligations.CreatedGrantIsCounted := by
  intro s i n
  have hpool := s.createGrant_poolLive i n
  have hused (p : Nat) (c : Cls) : ((s.createGrant i n).poolLive p).used c =
      if p = n.pool ∧ c = n.cls then (s.poolLive n.pool).used n.cls + n.cost else (s.poolLive p).used c := by
    rw [hpool]
    by_cases hp : p = n.pool
    · subst hp
      rw [if_pos rfl, PoolLive.used_setUsed]
      by_cases hc : c = n.cls
      · rw [if_pos hc, if_pos ⟨rfl, hc⟩]
      · rw [if_neg hc, if_neg (fun h => hc h.2)]
    · rw [if_neg hp, if_neg (fun h => hp h.1)]
  have hrest (p : Nat) : ((s.createGrant i n).poolLive p).w = (s.poolLive p).w ∧
      ((s.createGrant i n).poolLive p).pressure = (s.poolLive p).pressure ∧
      ((s.createGrant i n).poolLive p).entryTime = (s.poolLive p).entryTime := by
    rw [hpool]
    by_cases hp : p = n.pool
    · subst hp
      rw [if_pos rfl]
      cases n.cls <;> exact ⟨rfl, rfl, rfl⟩
    · rw [if_neg hp]
      exact ⟨rfl, rfl, rfl⟩
  obtain ⟨hfifo, htotal, hsuspect⟩ := s.createGrant_rest i n
  refine ⟨(State.createGrant_slot ..).trans (if_pos rfl), fun j hj => (State.createGrant_slot ..).trans (if_neg hj),
    (hused ..).trans (if_pos ⟨rfl, rfl⟩), fun p c h => (hused p c).trans (if_neg fun ⟨hp, hc⟩ => h.elim (· hp) (· hc)), hrest,
    (s.createGrant_featLive ..).trans (if_pos rfl), fun j hj => (s.createGrant_featLive ..).trans (if_neg hj), hfifo, htotal, rfl, rfl,
    hsuspect, (createGrant_client ..).trans (if_pos rfl), fun j hj => (createGrant_client ..).trans (if_neg hj), rfl, rfl, ?_⟩
  simp

end Sys2Proof.Machine

/-!
PROOFS. RENEW, YIELD, QUERY and WITHDRAW: a handle or a datagram decided at its record, and what the removal of a waiter writes.
-/
namespace Sys2Proof.Machine

variable {s t : State} {d : Cand} {rest : List Cand} {i : Nat}

/-! ### The slot a handle names (R28) -/

theorem State.ownedSlot_unknown {h client : W32} (hbad : (t.slot (handleSlot h)).generation ≠ handleGeneration h ∨
    (t.slot (handleSlot h)).state = .free ∨ (t.slot (handleSlot h)).state = .bad) : t.ownedSlot h client = (.unknown, false) := if_pos hbad

section
variable {h client : W32} (hgen : (t.slot (handleSlot h)).generation = handleGeneration h) (hlive : (t.slot (handleSlot h)).state.live = true)
include hgen hlive

theorem handle_known : ¬ ((t.slot (handleSlot h)).generation ≠ handleGeneration h ∨
    (t.slot (handleSlot h)).state = .free ∨ (t.slot (handleSlot h)).state = .bad) :=
  fun hn => hn.elim (· hgen) fun hn => hn.elim (handle_names hlive).1 (handle_names hlive).2

theorem State.ownedSlot_notOwner (howner : (t.slot (handleSlot h)).owner ≠ client) : t.ownedSlot h client = (.notOwner, false) :=
  (if_neg (handle_known hgen hlive)).trans (if_pos howner)

theorem State.ownedSlot_owned (howner : (t.slot (handleSlot h)).owner = client) : t.ownedSlot h client = (.ok, true) :=
  (if_neg (handle_known hgen hlive)).trans (if_neg (not_not.2 howner))

end

/-! ### RENEW (R28, R35, R36, R129) -/

theorem State.renewalEnds_iff {g : Slot} : t.renewalEnds g = true ↔ t.RenewalEnds g := by
  unfold State.renewalEnds State.RenewalEnds State.epochCurrent
  cases he : t.featureEntry g.feature with
  | none => simp
  | some e => simp [State.outOfWindow_iff]

section
variable {h client : W32} (hd : t.damage = [])
include hd

theorem renewOne_unowned (hours : handleOurs h = true) {st : RenewStatus} (hst : t.ownedSlot h client = (st, false)) :
    renewOne h client t = .ok (st, none) t := by
  refine (Op.ite_pos hours _ _ t).trans ?_
  rw [readSlot_bind_clean hd, Op.get_bind, hst]
  rfl

section
variable (hours : handleOurs h = true) (hown : t.ownedSlot h client = (.ok, true))
include hours hown

theorem renewOne_recalled (hs : (t.slot (handleSlot h)).state = .recalled) :
    renewOne h client t = .ok (.ended, some (t.releasedOf (handleSlot h))) (t.releaseSlot (handleSlot h)) := by
  refine (Op.ite_pos hours _ _ t).trans ?_
  rw [readSlot_bind_clean hd, Op.get_bind, hown]
  refine (Op.ite_neg (by simp) _ _ t).trans ((Op.ite_pos hs _ _ t).trans ?_)
  rw [Op.bind_ok (release_live hd (by rw [hs]; rfl))]
  rfl

section
variable (hs : (t.slot (handleSlot h)).state ≠ .recalled)
include hs

/-- A grant that is not RECALLED is renewed or ends by the entitlement of its feature (R36). -/
theorem renewOne_ends (hlive : (t.slot (handleSlot h)).state.live = true) (hends : t.RenewalEnds (t.slot (handleSlot h))) :
    renewOne h client t = .ok (.ended, some (t.releasedOf (handleSlot h))) (t.releaseSlot (handleSlot h)) := by
  refine (Op.ite_pos hours _ _ t).trans ?_
  rw [readSlot_bind_clean hd, Op.get_bind, hown]
  refine (Op.ite_neg (by simp) _ _ t).trans ((Op.ite_neg hs _ _ t).trans ?_)
  rw [check_bind_clean hd, checkActive_bind_clean hd, Op.get_bind]
  refine (Op.ite_pos (State.renewalEnds_iff.2 hends) _ _ t).trans ?_
  rw [Op.bind_ok (release_live hd hlive)]
  rfl

theorem renewOne_stands (hstays : ¬ t.RenewalEnds (t.slot (handleSlot h))) :
    renewOne h client t = (match (t.slot (handleSlot h)).state with
      | .held => .ok (.ok, none) (t.renewSlot (handleSlot h))
      | .stale => .ok (.late, none) (t.renewSlot (handleSlot h))
      | .linger | .recalled | .free | .bad => .ok (.lingering, none) t) := by
  refine (Op.ite_pos hours _ _ t).trans ?_
  rw [readSlot_bind_clean hd, Op.get_bind, hown]
  refine (Op.ite_neg (by simp) _ _ t).trans ((Op.ite_neg hs _ _ t).trans ?_)
  rw [check_bind_clean hd, checkActive_bind_clean hd, Op.get_bind]
  refine (Op.ite_neg (fun h => hstays (State.renewalEnds_iff.1 h)) _ _ t).trans ?_
  cases (t.slot (handleSlot h)).state <;> rfl

end
end
end

theorem renewOne_foreign {h client : W32} (hours : handleOurs h = false) : renewOne h client t = .ok (.foreign, none) t :=
  Op.ite_neg (by simp [hours]) _ _ t

/-! ### A RENEW_HANDLE from the decision of its handle -/

section
variable {w : RenewWork} {h : W32} {left : List W32} {st : RenewStatus} {u v : State} (hq : s.Quiet) (hw : s.exu.work = some w)
  (hleft : w.left = h :: left)
include hq hw hleft

theorem exec_renewHandle (hrun : renewStep w h left s = .ok () u) : exec (.renewHandle []) s = .next u := by
  refine congrArg Host.Outcome.next ((awake_high hq.high _).trans ?_)
  have hstruck : s.strike [] = s := rfl
  simp only [hstruck, hw, hleft, hrun]

theorem renewHandle_noted (hone : renewOne h w.client s = .ok (st, none) u) :
    exec (.renewHandle []) s = .next (u.renewNote w left st) := by
  refine exec_renewHandle hq hw hleft ?_
  rw [renewStep, Op.bind_ok hone]
  rfl

theorem renewHandle_released {r : Released} (hone : renewOne h w.client s = .ok (st, some r) u)
    (hafter : afterRelease r (u.renewNote w left st) = .ok () v) : exec (.renewHandle []) s = .next v := by
  refine exec_renewHandle hq hw hleft ?_
  rw [renewStep, Op.bind_ok hone]
  exact hafter

end

/-- Settles O31: a RENEW forwarded or kept, each handle by the state of its slot, and the note of a status. -/
theorem renewDecidesItsHandles : Obligations.RenewDecidesItsHandles := by
  refine ⟨fun s d rest hhead => ⟨fun hnot => ?_, fun hours => ?_⟩, fun s w h rest i g hq hw hleft hi hg => ?_,
    fun s w st => ⟨rfl, fun h rest => rfl⟩⟩
  · exact exec_served (c := .renew []) rfl hhead (settle_ok (Op.ite_neg (by rw [hnot]; exact Bool.false_ne_true) _ _ _))
  · refine exec_served (c := .renew []) rfl hhead (settle_ok ((Op.ite_pos hours _ _ _).trans ?_))
    exact Op.bind_ok (contact_clean (s := s.clientTaken rest) hhead.head.quiet.sound d)
  · subst hi hg
    have hd := hq.sound
    have noted {st u} := renewHandle_noted (st := st) (u := u) hq hw hleft
    refine ⟨fun hforeign => noted (renewOne_foreign hforeign),
      fun hours hbad => noted (renewOne_unowned hd hours (State.ownedSlot_unknown hbad)), fun hours hgen hlive => ⟨fun hother => ?_, fun hmine => ?_⟩⟩
    · exact noted (renewOne_unowned hd hours (State.ownedSlot_notOwner hgen hlive hother))
    · have hown := State.ownedSlot_owned hgen hlive hmine
      have hended (hend : (s.slot (handleSlot h)).state = .recalled ∨ s.RenewalEnds (s.slot (handleSlot h))) :
          renewOne h w.client s = .ok (.ended, some (s.releasedOf (handleSlot h))) (s.releaseSlot (handleSlot h)) := by
        by_cases hrec : (s.slot (handleSlot h)).state = .recalled
        · exact renewOne_recalled hd hours hown hrec
        · exact renewOne_ends hd hours hown hrec hlive (hend.resolve_left hrec)
      have hsound : ((s.releaseSlot (handleSlot h)).renewNote w rest .ended).damage = [] := by simpa using hd
      have hstands (hstays : ¬ s.RenewalEnds (s.slot (handleSlot h))) (hrec : (s.slot (handleSlot h)).state ≠ .recalled) :=
        renewOne_stands hd hours hown hrec hstays
      refine ⟨fun hend hafter => renewHandle_released hq hw hleft (hended hend) (afterRelease_stands hsound hafter),
        fun hend hafter => renewHandle_released hq hw hleft (hended hend) (afterRelease_settles hsound hafter),
        fun hstays => ⟨fun hheld => ?_, fun hstale => ?_, fun hlinger => ?_⟩⟩
      · have hone := hstands hstays (by rw [hheld]; nofun)
        simp only [hheld] at hone
        have hrenewed := noted hone
        simp only [State.renewSlot, State.deadlineIn, ← hheld] at hrenewed
        exact hrenewed
      · have hone := hstands hstays (by rw [hstale]; nofun)
        simp only [hstale] at hone
        exact noted hone
      · have hone := hstands hstays (by rw [hlinger]; nofun)
        simp only [hlinger] at hone
        exact noted hone

/-! ### YIELD (R28, R37, R76, R77, R85, R86) -/

theorem State.lingers_iff : t.lingers i = true ↔ t.LingerHolds i := by
  have hexempt : ∀ e : SiteEntry, ∀ job, (!(e.classFor job).churnExempt) = true ↔ job = 0 ∨ (e.slot job).churnExempt = false := by
    intro e job
    by_cases h0 : job = 0 <;> simp [SiteEntry.classFor, h0, ClassSlot.zero]
  have hclass : t.churnLingers i = true ↔ (t.client (t.slot i).ownerIdx).ch = t.globalEntry.cmax ∧
      ∀ e, t.siteEntry (t.client (t.slot i).ownerIdx).lastSite = some e →
        (t.client (t.slot i).ownerIdx).lastJob = 0 ∨ (e.slot (t.client (t.slot i).ownerIdx).lastJob).churnExempt = false := by
    unfold State.churnLingers
    dsimp only
    cases t.siteEntry (t.client (t.slot i).ownerIdx).lastSite with
    | none => simp
    | some e => simp only [Bool.and_eq_true, beq_iff_eq, hexempt, Option.some.injEq, forall_eq']
  have hfeature : (match t.featureEntry (t.slot i).feature with
      | some e => e.linger && e.pool == (t.slot i).pool
      | none => false) = true ↔ ∃ e, t.featureEntry (t.slot i).feature = some e ∧ e.linger = true ∧ e.pool = (t.slot i).pool := by
    cases t.featureEntry (t.slot i).feature <;> simp
  have hpool : (match t.poolEntry (t.slot i).pool with
      | some e => decide (0 < e.lt)
      | none => false) = true ↔ ∃ e, t.poolEntry (t.slot i).pool = some e ∧ 0 < e.lt := by
    cases t.poolEntry (t.slot i).pool <;> simp
  constructor
  · intro h
    simp only [State.lingers, Bool.and_eq_true, beq_iff_eq, State.epochCurrent] at h
    obtain ⟨⟨⟨⟨⟨hon, hchurn⟩, hepoch⟩, hf⟩, hp⟩, hnormal⟩ := h
    exact ⟨hon, (hclass.1 hchurn).1, (hclass.1 hchurn).2, hepoch, hfeature.1 hf, hpool.1 hp, hnormal⟩
  · rintro ⟨hon, hchurn, hnot, hepoch, hf, hp, hnormal⟩
    simp only [State.lingers, Bool.and_eq_true, beq_iff_eq, State.epochCurrent]
    exact ⟨⟨⟨⟨⟨hon, hclass.2 ⟨hchurn, hnot⟩⟩, hepoch⟩, hfeature.2 hf⟩, hpool.2 hp⟩, hnormal⟩

section
variable {h client : W32} (hd : t.damage = [])
include hd

theorem yieldOne_unowned {st : RenewStatus} (hst : t.ownedSlot h client = (st, false)) :
    yieldOne h client t = .ok (if st = .notOwner then .notOwner else .unknown, none) t := by
  rw [yieldOne, readSlot_bind_clean hd, Op.get_bind, hst]
  rfl

section
variable (hown : t.ownedSlot h client = (.ok, true))
include hown

theorem yieldOne_linger (hs : (t.slot (handleSlot h)).state = .linger) : yieldOne h client t = .ok (.lingering, none) t := by
  rw [yieldOne, readSlot_bind_clean hd, Op.get_bind, hown]
  refine (Op.ite_neg (by simp) _ _ t).trans ?_
  simp only [hs]
  rfl

theorem yieldOne_recalled (hs : (t.slot (handleSlot h)).state = .recalled) :
    yieldOne h client t = .ok (.ended, some (t.releasedOf (handleSlot h))) (t.releaseSlot (handleSlot h)) := by
  rw [yieldOne, readSlot_bind_clean hd, Op.get_bind, hown]
  refine (Op.ite_neg (by simp) _ _ t).trans ?_
  simp only [hs]
  rw [Op.bind_ok (release_live hd (by rw [hs]; rfl))]
  rfl

section
variable (hs : (t.slot (handleSlot h)).state = .held ∨ (t.slot (handleSlot h)).state = .stale)
include hs

/-- The linger decision is read after the churn update (R76, R85). -/
theorem yieldOne_lingers (hl : (t.churnUpdate (handleSlot h)).LingerHolds (handleSlot h)) :
    yieldOne h client t = .ok (.lingering, none) ((t.churnUpdate (handleSlot h)).enterLinger (handleSlot h)) := by
  rw [yieldOne, readSlot_bind_clean hd, Op.get_bind, hown]
  refine (Op.ite_neg (by simp) _ _ t).trans ?_
  rcases hs with hs | hs <;> simp only [hs] <;> rw [checkAll_bind_clean hd, Op.modify_bind, Op.get_bind]
  all_goals exact Op.ite_pos (State.lingers_iff.2 hl) _ _ _

theorem yieldOne_releases (hl : ¬ (t.churnUpdate (handleSlot h)).LingerHolds (handleSlot h)) :
    yieldOne h client t = .ok (.released, some ((t.churnUpdate (handleSlot h)).releasedOf (handleSlot h)))
      ((t.churnUpdate (handleSlot h)).releaseSlot (handleSlot h)) := by
  have hlive : ((t.churnUpdate (handleSlot h)).slot (handleSlot h)).state.live = true := by
    show (t.slot (handleSlot h)).state.live = true
    rcases hs with hs | hs <;> rw [hs] <;> rfl
  have hrelease := release_live (s := t.churnUpdate (handleSlot h)) (by simpa using hd) hlive
  rw [yieldOne, readSlot_bind_clean hd, Op.get_bind, hown]
  refine (Op.ite_neg (by simp) _ _ t).trans ?_
  rcases hs with hs | hs <;> simp only [hs] <;> rw [checkAll_bind_clean hd, Op.modify_bind, Op.get_bind]
  all_goals exact (Op.ite_neg (fun h => hl (State.lingers_iff.1 h)) _ _ _).trans (Op.bind_ok hrelease)

end
end
end

section
variable {h : W32} {u v : State} {st : YieldStatus} (hhead : s.ServedHead .yieldGrant d rest) (hh : be32 d.payload 12 = h)
  (hours : handleOurs h = true)
include hhead hh hours

theorem exec_yield (hrun : (do
      let (st, r) ← yieldOne h (cexClient d.payload)
      modify (·.replyTo d (.yieldReport h st))
      match r with
      | some r => afterRelease r
      | none => pure () : Op Unit) ((s.clientTaken rest).contacted d) = .ok () v) : exec (.yieldGrant []) s = .next v := by
  subst hh
  refine exec_served (c := .yieldGrant []) rfl hhead (settle_ok ((Op.ite_pos hours _ _ _).trans ?_))
  exact (Op.bind_ok (contact_clean (s := s.clientTaken rest) hhead.head.quiet.sound d)).trans hrun

theorem yield_reported (hone : yieldOne h (cexClient d.payload) ((s.clientTaken rest).contacted d) = .ok (st, none) u) :
    exec (.yieldGrant []) s = .next (u.replyTo d (.yieldReport h st)) :=
  exec_yield hhead hh hours (Op.bind_ok hone)

theorem yield_released {r : Released} (hone : yieldOne h (cexClient d.payload) ((s.clientTaken rest).contacted d) = .ok (st, some r) u)
    (hafter : afterRelease r (u.replyTo d (.yieldReport h st)) = .ok () v) : exec (.yieldGrant []) s = .next v :=
  exec_yield hhead hh hours ((Op.bind_ok hone).trans hafter)

end

theorem churnAfter_eq (e : GlobalEntry) (ch hold : Nat) :
    churnAfter e ch hold = if hold < e.mh then min (min ch e.cmax + 1) e.cmax else min ch e.cmax - 1 := by
  unfold churnAfter
  dsimp only
  split
  · split <;> omega
  · rfl

theorem State.contacted_eq (s : State) (rest : List Cand) (d : Cand) : ∃ k, (s.clientTaken rest).contacted d = s.takenWith rest k :=
  ⟨_, State.contacted_same _ d⟩

/-- Settles O32: the decision at each slot state, the churn update before that of a HELD or STALE grant. -/
theorem yieldIsDecidedAtItsSlot : Obligations.YieldIsDecidedAtItsSlot := by
  refine ⟨fun s d rest h i g hhead hh hi hg => ⟨fun hnot => ?_, fun hours => ?_⟩, churnAfter_eq⟩
  · subst hh
    exact exec_served (c := .yieldGrant []) rfl hhead (settle_ok (Op.ite_neg (by rw [hnot]; exact Bool.false_ne_true) _ _ _))
  · subst hi hg
    have reported {u st} := yield_reported (u := u) (st := st) hhead hh hours
    have released {u v st r} := yield_released (u := u) (v := v) (st := st) (r := r) hhead hh hours
    obtain ⟨k, hk⟩ := s.contacted_eq rest d
    rw [hk] at reported released ⊢
    have hd : (s.takenWith rest k).damage = [] := hhead.head.quiet.sound
    dsimp only
    refine ⟨fun hbad => reported (yieldOne_unowned hd (State.ownedSlot_unknown hbad)),
      fun hgen hlive hother => reported (yieldOne_unowned hd (State.ownedSlot_notOwner hgen hlive hother)), fun hgen hmine => ?_⟩
    have own (hlive : (s.slot (handleSlot h)).state.live = true) : (s.takenWith rest k).ownedSlot h (cexClient d.payload) = (.ok, true) :=
      State.ownedSlot_owned (t := s.takenWith rest k) hgen hlive hmine
    refine ⟨fun hlinger => ?_, fun hrec hafter => ?_, fun hrec hafter => ?_, fun hheld => ⟨fun pe hl hpe => ?_, fun hl hafter => ?_, fun hl hafter => ?_⟩⟩
    · exact reported (yieldOne_linger hd (own (by rw [hlinger]; rfl)) hlinger)
    · exact released (yieldOne_recalled hd (own (by rw [hrec]; rfl)) hrec) (afterRelease_stands (by simpa using hd) hafter)
    · exact released (yieldOne_recalled hd (own (by rw [hrec]; rfl)) hrec) (afterRelease_settles (by simpa using hd) hafter)
    · have hlive := own (by rcases hheld with h | h <;> rw [h] <;> rfl)
      have hlingers := reported (yieldOne_lingers hd hlive hheld hl)
      have hlt : (((s.takenWith rest k).churnUpdate (handleSlot h)).poolEntry
          (((s.takenWith rest k).churnUpdate (handleSlot h)).slot (handleSlot h)).pool).map (·.lt) = some pe.lt := congrArg _ hpe
      rw [State.enterLinger] at hlingers
      simp only [hlt, Option.getD_some] at hlingers
      exact hlingers
    · have hlive := own (by rcases hheld with h | h <;> rw [h] <;> rfl)
      exact released (yieldOne_releases hd hlive hheld hl) (afterRelease_stands (by simpa using hd) hafter)
    · have hlive := own (by rcases hheld with h | h <;> rw [h] <;> rfl)
      exact released (yieldOne_releases hd hlive hheld hl) (afterRelease_settles (by simpa using hd) hafter)

/-! ### QUERY (R11, R130) -/

section
variable (hd : t.damage = [])
include hd

theorem queryServe_noSite (h : t.siteEntry (byteAt d.payload 16).toNat = none) : queryServe d t = .ok () (t.handBack d) := by
  rw [queryServe, checkActive_bind_clean hd, Op.get_bind]
  simp only [h]
  rfl

section
variable {e : SiteEntry} (hsite : t.siteEntry (byteAt d.payload 16).toNat = some e)
include hsite

theorem queryServe_noCode (h : t.activeBank.lookup (be32 d.payload 12) = none) : queryServe d t = .ok () (t.handBack d) := by
  rw [queryServe, checkActive_bind_clean hd, Op.get_bind]
  simp only [hsite]
  rw [check_bind_clean hd, Op.get_bind]
  simp only [h]
  rfl

section
variable {fi : Nat} (hcode : t.activeBank.lookup (be32 d.payload 12) = some fi)
include hcode

theorem queryServe_noFeature (h : t.featureEntry fi = none) : queryServe d t = .ok () (t.handBack d) := by
  rw [queryServe, checkActive_bind_clean hd, Op.get_bind]
  simp only [hsite]
  rw [check_bind_clean hd, Op.get_bind]
  simp only [hcode]
  rw [checkActive_bind_clean hd, Op.get_bind]
  simp only [h]
  rfl

theorem queryServe_loaded {fe : FeatureEntry} (hfe : t.featureEntry fi = some fe) :
    queryServe d t = (if t.activeBank.damaged .pool fe.pool || t.activeBank.damagedGlobal then set (t.handBack d)
      else queryReport d (be32 d.payload 12) fi fe (e.classFor (byteAt d.payload 17).toNat).cls : Op Unit) t := by
  rw [queryServe, checkActive_bind_clean hd, Op.get_bind]
  simp only [hsite]
  rw [check_bind_clean hd, Op.get_bind]
  simp only [hcode]
  rw [checkActive_bind_clean hd, Op.get_bind]
  simp only [hfe]
  rw [checkActive_bind_clean hd, checkActive_bind_clean hd, Op.get_bind]

end
end

theorem queryReport_clean (code : W32) (fi : Nat) (fe : FeatureEntry) (c : Cls) :
    queryReport d code fi fe c t = .ok () (t.replyTo d (t.queryMsg code fi fe c)) := by
  rw [queryReport, checkAll_bind_clean hd, Op.get_bind]
  rfl

end

theorem SiteEntry.classFor_cls (e : SiteEntry) (job : Nat) : (e.classFor job).cls = if job = 0 then .general else (e.slot job).cls := by
  unfold SiteEntry.classFor
  split <;> rfl

/-- Settles O33: the four ends that hand the QUERY back, and its report. -/
theorem queryReportsFiguresOrIsForwarded : Obligations.QueryReportsFiguresOrIsForwarded := by
  intro s d rest code site job hhead hcode hsite hjob
  subst hcode hsite hjob
  have hd : (s.clientTaken rest).damage = [] := hhead.head.quiet.sound
  refine ⟨fun hout => ?_, fun e fi fe c hsite hcode hfe hpool hglobal hc => ?_⟩
  · refine exec_served (c := .query []) rfl hhead (settle_ok ?_)
    cases hsite : s.siteEntry (byteAt d.payload 16).toNat with
    | none => exact queryServe_noSite hd hsite
    | some e =>
      cases hcode : s.activeBank.lookup (be32 d.payload 12) with
      | none => exact queryServe_noCode hd hsite hcode
      | some fi =>
        cases hfe : s.featureEntry fi with
        | none => exact queryServe_noFeature hd hsite hcode hfe
        | some fe =>
          have hdamaged : (s.activeBank.damaged .pool fe.pool || s.activeBank.damagedGlobal) = true := by
            simpa [hsite, hcode, hfe] using hout
          rw [queryServe_loaded hd hsite hcode hfe]
          exact Op.ite_pos hdamaged _ _ _
  · refine exec_served (c := .query []) rfl hhead (settle_ok ?_)
    have hsound : ¬ (s.activeBank.damaged .pool fe.pool || s.activeBank.damagedGlobal) = true := by simp [hpool, hglobal]
    rw [queryServe_loaded hd hsite hcode hfe]
    refine (Op.ite_neg hsound _ _ _).trans ((queryReport_clean hd ..).trans ?_)
    rw [SiteEntry.classFor_cls, ← hc]
    rfl

/-! ### WITHDRAW (R51, R131) -/

/-- In a canonical table whose resting record is not sought, the search finds the lowest index whose record is. -/
theorem Tab.search_iff {α : Type} [DecidableEq α] {d : α} {p : α → Bool} (hp : p d = false) (t : Tab α) :
    ∀ {lo : Nat}, Tab.wfFrom d lo t = true → ∀ k, (Tab.search p t).map (·.1) = some k ↔
      p (Tab.get d t k) = true ∧ ∀ j, j < k → p (Tab.get d t j) = false := by
  induction t with
  | nil => intro lo _ k; simp [Tab.search, Tab.get, hp]
  | cons a t ih =>
    obtain ⟨j, w⟩ := a
    intro lo hwf k
    simp only [Tab.wfFrom, Bool.and_eq_true, decide_eq_true_eq] at hwf
    obtain ⟨⟨-, -⟩, hrest⟩ := hwf
    have hbelow : ∀ l, l ≤ j → Tab.get d t l = d := fun l hl => Tab.get_lt d t hrest (Nat.lt_succ_of_le hl)
    have hcons : ∀ l, Tab.get d ((j, w) :: t) l = if j = l then w else Tab.get d t l := fun _ => rfl
    by_cases hw : p w = true
    · have hfound : (Tab.search p ((j, w) :: t)).map (·.1) = some j := by simp [Tab.search, hw]
      rw [hfound, Option.some.injEq]
      constructor
      · rintro rfl
        refine ⟨by rw [hcons, if_pos rfl]; exact hw, fun l hl => ?_⟩
        rw [hcons, if_neg (Nat.ne_of_gt hl), hbelow l (Nat.le_of_lt hl), hp]
      · rintro ⟨hk, hmin⟩
        rcases Nat.lt_trichotomy j k with hlt | heq | hgt
        · have := hmin j hlt
          rw [hcons, if_pos rfl, hw] at this
          cases this
        · exact heq
        · rw [hcons, if_neg (Nat.ne_of_gt hgt), hbelow k (Nat.le_of_lt hgt), hp] at hk
          cases hk
    · have hsame : ∀ l, p (Tab.get d ((j, w) :: t) l) = p (Tab.get d t l) := fun l => by
        rw [hcons]
        split
        · next h => rw [← h, hbelow j (Nat.le_refl j), hp, Bool.eq_false_iff.2 hw]
        · rfl
      have hskip : Tab.search p ((j, w) :: t) = Tab.search p t := by simp [Tab.search, hw]
      simp only [hskip, hsame]
      exact ih hrest k

/-- A change of a record that the search tells apart as before keeps what it finds. -/
theorem Tab.search_put {α : Type} [DecidableEq α] {d : α} {p : α → Bool} (hp : p d = false) {t : Tab α} (hwf : Tab.wf d t = true)
    {i : Nat} {v : α} (hv : p v = p (Tab.get d t i)) : (Tab.search p (Tab.put d t i v)).map (·.1) = (Tab.search p t).map (·.1) := by
  have hsame : ∀ l, p (Tab.get d (Tab.put d t i v) l) = p (Tab.get d t l) := fun l => by
    rw [Tab.get_put]
    split
    · next h => rw [h, hv]
    · rfl
  refine Option.ext fun k => ?_
  rw [Tab.search_iff hp _ (Tab.wf_put d t i v hwf), Tab.search_iff hp _ hwf]
  simp only [hsame]

theorem State.findClient_noteContact (h : Tab.wf Client.zero s.clt.clients = true) (i : Nat) (d : Cand) (id : W32) :
    (s.noteContact i d).findClient id = s.findClient id := by
  have hclients : (s.noteContact i d).clt.clients =
      Tab.put Client.zero s.clt.clients i { s.client i with reply := d.replyAddr, lastActivity := s.swp.mt } := by
    unfold State.noteContact State.idleToTail
    split <;> rfl
  rw [State.findClient, State.findClient, hclients]
  exact Tab.search_put rfl h rfl

theorem State.findClient_contacted (h : Tab.wf Client.zero s.clt.clients = true) (d : Cand) (id : W32) :
    (s.contacted d).findClient id = s.findClient id := by
  unfold State.contacted
  split
  · exact State.findClient_noteContact h _ d id
  · rfl

section
variable (hd : t.damage = [])
include hd

theorem withdrawServe_none (h : (t.contacted d).findClient (cexClient d.payload) = none) :
    withdrawServe d t = .ok () ((t.contacted d).replyTo d (.deny .notWaiting 0)) := by
  rw [withdrawServe, Op.bind_ok (contact_clean hd d), Op.get_bind]
  simp only [h]
  rfl

theorem withdrawServe_found {ci : Nat} (h : (t.contacted d).findClient (cexClient d.payload) = some ci) :
    withdrawServe d t = (match (t.contacted d).findWaiter ci (cexTag d.payload) with
      | none => .ok () ((t.contacted d).replyTo d (.deny .notWaiting 0))
      | some wi => .ok () ((t.contacted d).removed wi .withdrawn (some d))) := by
  have hc : (t.contacted d).damage = [] := by rw [State.contacted_same]; exact hd
  rw [withdrawServe, Op.bind_ok (contact_clean hd d), Op.get_bind]
  simp only [h]
  cases (t.contacted d).findWaiter ci (cexTag d.payload) with
  | none => rfl
  | some wi => exact removeWaiter_serve hc ..

end

/-! ### What the removal of a waiter writes (R50, R52, R68, R70) -/

/-- A frame for Port F that finds room joins the tail of its originate queue (R152). -/
theorem originate_room (h : s.lnk.portF.originate.length < 256) (a : Addressing) (b : List Byte) :
    s.originate .f none a b = { s with
      lnk.ident := s.lnk.ident + 1
      lnk.portF.originate := s.lnk.portF.originate ++ [⟨composeFrame a s.lnk.ident b, none⟩] } := if_pos h

/-- A frame that finds the queue full is dropped and counted (R152). -/
theorem originate_dropped (h : 256 ≤ s.lnk.portF.originate.length) (a : Addressing) (b : List Byte) :
    s.originate .f none a b = { s with lnk.ident := s.lnk.ident + 1, ada.stats.dropped := s.ada.stats.dropped + 1 } :=
  if_neg (Nat.not_lt.2 h)

theorem originate_lnk (s : State) (a : Addressing) (b : List Byte) : (s.originate .f none a b).lnk =
    { s.lnk with portF.originate := (s.originate .f none a b).lnk.portF.originate, ident := s.lnk.ident + 1 } := by
  by_cases h : s.lnk.portF.originate.length < 256
  · rw [originate_room h]
  · rw [originate_dropped (Nat.not_lt.1 h)]

theorem idleIfQuiet_stands {ci : Nat} (h : (s.client ci).isIdle = false) : s.idleIfQuiet ci = s := if_neg (by simp [h])

theorem idleIfQuiet_joins {ci : Nat} (h : (s.client ci).isIdle = true) (hnot : ci ∉ s.clt.idle) :
    (s.idleIfQuiet ci).clt.idle = s.clt.idle ++ [ci] ∧ ((s.idleIfQuiet ci).client ci).lastActivity = s.swp.mt := by
  rw [State.idleIfQuiet, if_pos (by simp [h, hnot])]
  exact ⟨rfl, congrArg Client.lastActivity ((State.client_setClient (s := s) ci ci _).trans (if_pos rfl))⟩

theorem idleIfQuiet_entry (s : State) (ci : Nat) :
    (s.idleIfQuiet ci).client ci = { s.client ci with lastActivity := ((s.idleIfQuiet ci).client ci).lastActivity } := by
  unfold State.idleIfQuiet
  split
  · have hset : ∀ c, (s.setClient ci c).client ci = c := fun c => (State.client_setClient (s := s) ci ci c).trans (if_pos rfl)
    simp only [State.client] at hset ⊢
    rw [hset]
  · rfl

theorem idleIfQuiet_other {ci j : Nat} (h : j ≠ ci) : (s.idleIfQuiet ci).client j = s.client j := by
  unfold State.idleIfQuiet
  split
  · exact (State.client_setClient (s := s) ci j _).trans (if_neg h)
  · rfl

/-- The state whose waiter has left its queue and its client's count, before the DENY. -/
def State.waiterGone (s : State) (i : Nat) : State :=
  ((s.unqueue i).setClient (s.waiter i).clientIdx
    { s.client (s.waiter i).clientIdx with waiters := (s.client (s.waiter i).clientIdx).waiters - 1 }).idleIfQuiet (s.waiter i).clientIdx

theorem dropWaiterCount_gone (h : 0 < (s.client (s.waiter i).clientIdx).waiters) :
    (s.unqueue i).dropWaiterCount (s.waiter i).clientIdx = s.waiterGone i := by
  have hclient : (s.unqueue i).client (s.waiter i).clientIdx = s.client (s.waiter i).clientIdx := congrArg (Tab.get _ · _) (by simp)
  rw [State.dropWaiterCount, State.lowerWaiterCount, hclient, if_neg (by omega)]
  rfl

/-- The entry that the idle list may take, its count lowered. -/
theorem waiterGone_entry (s : State) (i : Nat) : (s.waiterGone i).client (s.waiter i).clientIdx =
    { s.client (s.waiter i).clientIdx with
      waiters := (s.client (s.waiter i).clientIdx).waiters - 1
      lastActivity := ((s.waiterGone i).client (s.waiter i).clientIdx).lastActivity } := by
  have h := idleIfQuiet_entry ((s.unqueue i).setClient (s.waiter i).clientIdx
    { s.client (s.waiter i).clientIdx with waiters := (s.client (s.waiter i).clientIdx).waiters - 1 }) (s.waiter i).clientIdx
  rw [State.client_setClient, if_pos rfl] at h
  exact h

theorem waiterGone_other (s : State) (i : Nat) {j : Nat} (h : j ≠ (s.waiter i).clientIdx) : (s.waiterGone i).client j = s.client j := by
  rw [State.waiterGone, idleIfQuiet_other h, State.client_setClient, if_neg h]
  exact congrArg (Tab.get _ · _) (by simp)

theorem unqueue_setClient_idle (s : State) (i ci : Nat) (c : Client) : ((s.unqueue i).setClient ci c).clt.idle = s.clt.idle :=
  show (s.unqueue i).clt.idle = s.clt.idle from congrArg Clt.idle (s.unqueue_clt i)

theorem waiterGone_joins (hused : (s.client (s.waiter i).clientIdx).inUse = true) (hgrants : (s.client (s.waiter i).clientIdx).grants = 0)
    (hlast : (s.client (s.waiter i).clientIdx).waiters = 1) (hnot : (s.waiter i).clientIdx ∉ s.clt.idle) :
    (s.waiterGone i).clt.idle = s.clt.idle ++ [(s.waiter i).clientIdx] ∧
      ((s.waiterGone i).client (s.waiter i).clientIdx).lastActivity = s.swp.mt := by
  have h := idleIfQuiet_joins (s := (s.unqueue i).setClient (s.waiter i).clientIdx
    { s.client (s.waiter i).clientIdx with waiters := (s.client (s.waiter i).clientIdx).waiters - 1 }) (ci := (s.waiter i).clientIdx)
    (by simp [Client.isIdle, hused, hgrants, hlast]) (by rwa [unqueue_setClient_idle])
  rw [unqueue_setClient_idle] at h
  exact ⟨h.1, h.2.trans (congrArg Swp.mt (s.unqueue_swp i))⟩

theorem waiterGone_stays (hcount : 0 < (s.client (s.waiter i).clientIdx).waiters)
    (h : (s.client (s.waiter i).clientIdx).grants ≠ 0 ∨ (s.client (s.waiter i).clientIdx).waiters ≠ 1) :
    (s.waiterGone i).clt.idle = s.clt.idle ∧
      ((s.waiterGone i).client (s.waiter i).clientIdx).lastActivity = (s.client (s.waiter i).clientIdx).lastActivity := by
  have hbusy : (((s.unqueue i).setClient (s.waiter i).clientIdx
      { s.client (s.waiter i).clientIdx with waiters := (s.client (s.waiter i).clientIdx).waiters - 1 }).client
        (s.waiter i).clientIdx).isIdle = false := by
    rw [State.client_setClient, if_pos rfl]
    rcases h with h | h
    · simp [Client.isIdle, h]
    · have : (s.client (s.waiter i).clientIdx).waiters - 1 ≠ 0 := by omega
      simp [Client.isIdle, this]
  rw [State.waiterGone, idleIfQuiet_stands hbusy, State.client_setClient, if_pos rfl]
  simp [State.setClient]

/-- The addressing of a removal's DENY: its client's reply address, or the source of the WITHDRAW it answers (R52, R131). -/
def State.denyAddressing (s : State) (i : Nat) : Option Cand → Addressing
  | some d =>
    { dstMac := d.srcMac, srcMac := d.dstMac, vlan := d.vlan, srcIp := s.addrs.serviceIp, srcPort := s.addrs.servicePort,
      dstIp := d.srcIp, dstPort := d.srcPort }
  | none =>
    let a := (s.client (s.waiter i).clientIdx).reply
    { dstMac := a.mac, srcMac := s.addrs.partMac, vlan := a.vlan, srcIp := s.addrs.serviceIp, srcPort := s.addrs.servicePort,
      dstIp := a.ip, dstPort := a.udp }

/-- The datagram of a removal's DENY (R50, R52, R131, R136). -/
def State.denyDatagram (s : State) (i : Nat) (r : Reason) : Option Cand → List Byte
  | some d => cexDatagram (cexClient d.payload) (cexTag d.payload) (.deny r (s.waiterCode (s.waiter i)))
  | none => cexDatagram (s.waiter i).client (s.waiter i).tag (.deny r (s.waiterCode (s.waiter i)))

theorem waiterGone_addrs (s : State) (i : Nat) : (s.waiterGone i).addrs = s.addrs := by simp [State.addrs, State.waiterGone, State.setClient]

/-- A removal writes the wait store and its client's entry, sends the DENY, and counts it. -/
theorem dropWaiter_eq (h : 0 < (s.client (s.waiter i).clientIdx).waiters) (r : Reason) (reply : Option Cand) :
    s.dropWaiter i r reply =
      ((s.waiterGone i).originate .f none (s.denyAddressing i reply) (s.denyDatagram i r reply)).countDenied := by
  have haddrs := waiterGone_addrs s i
  unfold State.dropWaiter
  dsimp only
  rw [dropWaiterCount_gone h]
  cases reply with
  | none =>
    have hreply : ((s.waiterGone i).client (s.waiter i).clientIdx).reply = (s.client (s.waiter i).clientIdx).reply := by
      rw [waiterGone_entry]
    simp only [State.tell, hreply, haddrs]
    rfl
  | some d =>
    simp only [State.replyTo, haddrs]
    rfl

section
variable (h : 0 < (s.client (s.waiter i).clientIdx).waiters) (r : Reason) (reply : Option Cand)
include h

theorem dropWaiter_clt : (s.dropWaiter i r reply).clt = (s.waiterGone i).clt := by
  rw [dropWaiter_eq h]
  exact State.originate_clt ..

theorem dropWaiter_grt : (s.dropWaiter i r reply).grt = s.grt := by
  rw [dropWaiter_eq h]
  exact (State.originate_grt ..).trans (by simp [State.waiterGone])

theorem dropWaiter_fnu : (s.dropWaiter i r reply).fnu = s.fnu := by
  rw [dropWaiter_eq h]
  exact (originate_output ..).fnu.trans (by simp [State.waiterGone])

theorem dropWaiter_ada : (s.dropWaiter i r reply).ada =
    { s.ada with stats.denied := s.ada.stats.denied + 1, stats.dropped := (s.dropWaiter i r reply).ada.stats.dropped } := by
  have hgone : (s.waiterGone i).ada = s.ada := by simp [State.waiterGone]
  have hsent := (originate_output (s.waiterGone i) .f (s.denyAddressing i reply) (s.denyDatagram i r reply)).ada
  rw [hgone] at hsent
  rw [dropWaiter_eq h, State.countDenied]
  dsimp only
  rw [hsent]

theorem dropWaiter_lnk : (s.dropWaiter i r reply).lnk =
    { s.lnk with portF.originate := (s.dropWaiter i r reply).lnk.portF.originate, ident := s.lnk.ident + 1 } := by
  have hgone : (s.waiterGone i).lnk = s.lnk := by simp [State.waiterGone]
  have hsent := originate_lnk (s.waiterGone i) (s.denyAddressing i reply) (s.denyDatagram i r reply)
  rw [hgone] at hsent
  rw [dropWaiter_eq h]
  exact hsent

theorem dropWaiter_sent (hroom : s.lnk.portF.originate.length < 256) :
    (s.dropWaiter i r reply).ada.stats.dropped = s.ada.stats.dropped ∧
      (s.dropWaiter i r reply).lnk.portF.originate = s.lnk.portF.originate ++
        [⟨composeFrame (s.denyAddressing i reply) s.lnk.ident (s.denyDatagram i r reply), none⟩] := by
  have hlnk : (s.waiterGone i).lnk = s.lnk := by simp [State.waiterGone]
  have hada : (s.waiterGone i).ada = s.ada := by simp [State.waiterGone]
  rw [dropWaiter_eq h, originate_room (by rw [hlnk]; exact hroom), hlnk]
  exact ⟨congrArg (·.stats.dropped) hada, rfl⟩

theorem dropWaiter_lost (hfull : 256 ≤ s.lnk.portF.originate.length) :
    (s.dropWaiter i r reply).lnk.portF.originate = s.lnk.portF.originate ∧
      (s.dropWaiter i r reply).ada.stats.dropped = s.ada.stats.dropped + 1 := by
  have hlnk : (s.waiterGone i).lnk = s.lnk := by simp [State.waiterGone]
  have hada : (s.waiterGone i).ada = s.ada := by simp [State.waiterGone]
  rw [dropWaiter_eq h, originate_dropped (by rw [hlnk]; exact hfull)]
  exact ⟨congrArg (·.portF.originate) hlnk, congrArg (·.stats.dropped + 1) hada⟩

end

theorem dropWaiter_waiter (s : State) (i j : Nat) (r : Reason) (reply : Option Cand) :
    (s.dropWaiter i r reply).waiter j = if j = i then { s.waiter i with inUse := false } else s.waiter j := by
  rw [← unqueue_waiter]
  exact State.waiter_congr (by rw [State.dropWaiter_wts]) j

theorem dropWaiter_count (s : State) (i : Nat) (r : Reason) (reply : Option Cand) (k : Cls) :
    (s.dropWaiter i r reply).wts.count k = if (s.waiter i).cls = k then s.wts.count k - 1 else s.wts.count k := by
  rw [State.dropWaiter_wts, unqueue_count]
  exact if_congr eq_comm rfl rfl

theorem waiterCode_eq (s : State) (w : Waiter) :
    s.waiterCode w = if w.epoch = (s.featLive w.feature).epoch then s.loadedCode w.feature else 0 := by
  simp [State.waiterCode, State.epochCurrent]

/-- Settles O34: a WITHDRAW by its client and its waiter, and the frame of a removal. -/
theorem withdrawRemovesNamedWaiter : Obligations.WithdrawRemovesNamedWaiter := by
  refine ⟨fun s d rest hcanonical hhead => ?_, fun s i r reply hcount => ?_⟩
  · have hd : (s.clientTaken rest).damage = [] := hhead.head.quiet.sound
    have hfind : ((s.clientTaken rest).contacted d).findClient (cexClient d.payload) = s.findClient (cexClient d.payload) :=
      State.findClient_contacted (s := s.clientTaken rest) hcanonical.clients d _
    obtain ⟨k, hk⟩ := s.contacted_eq rest d
    have hwaiter (ci : Nat) : ((s.clientTaken rest).contacted d).findWaiter ci (cexTag d.payload) = s.findWaiter ci (cexTag d.payload) := by
      rw [hk]
      rfl
    refine ⟨fun hnone => exec_served (c := .withdraw []) rfl hhead (settle_ok ?_),
      fun ci wi hci hwi => exec_served (c := .withdraw []) rfl hhead (settle_ok ?_)⟩
    · rcases hnone with hnone | ⟨ci, hci, hwi⟩
      · exact withdrawServe_none hd (hfind.trans hnone)
      · rw [withdrawServe_found hd (hfind.trans hci), hwaiter, hwi]
    · rw [withdrawServe_found hd (hfind.trans hci), hwaiter, hwi]
  · have hclient (j : Nat) : (s.dropWaiter i r reply).client j = (s.waiterGone i).client j :=
      congrArg (fun k : Clt => Tab.get Client.zero k.clients j) (dropWaiter_clt hcount r reply)
    have hidle : (s.dropWaiter i r reply).clt.idle = (s.waiterGone i).clt.idle := congrArg (·.idle) (dropWaiter_clt hcount r reply)
    dsimp only
    simp only [hclient, hidle]
    refine ⟨(dropWaiter_waiter ..).trans (if_pos rfl), fun j hj => (dropWaiter_waiter ..).trans (if_neg hj),
      (dropWaiter_queue ..).trans (if_pos ⟨rfl, rfl⟩), fun p c h => (dropWaiter_queue ..).trans (if_neg fun ⟨hp, hc⟩ => h.elim (· hp) (· hc)),
      dropWaiter_count s i r reply .priority, dropWaiter_count s i r reply .general, waiterGone_entry s i, fun j hj => waiterGone_other s i hj,
      waiterGone_joins, waiterGone_stays hcount, dropWaiter_ada hcount r reply, dropWaiter_lnk hcount r reply, fun hroom => ?_,
      dropWaiter_lost hcount r reply, dropWaiter_grt hcount r reply, by simp, by simp, by simp, by simp, dropWaiter_fnu hcount r reply,
      by simp, by simp, by simp⟩
    obtain ⟨hdropped, hsent⟩ := dropWaiter_sent hcount r reply hroom
    rw [← waiterCode_eq]
    refine ⟨hdropped, fun hnone => ?_, fun d hsome => ?_⟩
    · subst hnone
      exact hsent
    · subst hsome
      exact hsent

end Sys2Proof.Machine

/-!
PROOFS. What the release and the recall of a grant write: with counters that hold the amounts, with an underflow, out of a chain, and under
a COUNT REBUILD.
-/
namespace Sys2Proof.Machine

variable {s t : State} {i : Nat} {g : Slot}

/-! ### The parts of a release and a recall with counters that hold the amounts (R3, R42) -/

/-- The counters hold what the grant returns to them (R3). -/
def State.Holds (s : State) (g : Slot) : Prop :=
  g.cost ≤ (s.poolLive g.pool).used g.cls ∧ (s.unitsCounted g = true → g.units ≤ (s.featLive g.feature).hf)

theorem returnTokens_held (h : g.cost ≤ (s.poolLive g.pool).used g.cls) :
    s.returnTokens i g = s.setPoolLive g.pool ((s.poolLive g.pool).setUsed g.cls ((s.poolLive g.pool).used g.cls - g.cost)) :=
  if_neg (Nat.not_lt.2 h)

theorem returnUnits_held (h : g.units ≤ (s.featLive g.feature).hf) :
    s.returnUnits i g = s.setFeatLive g.feature { s.featLive g.feature with hf := (s.featLive g.feature).hf - g.units } :=
  if_neg (Nat.not_lt.2 h)

theorem inChain_iff : s.inChain i = true ↔ i ∈ (s.client (s.slot i).ownerIdx).chain := by simp [State.inChain]

theorem leaveChain_unchained (h : i ∉ (s.client (s.slot i).ownerIdx).chain) : s.leaveChain i = s := if_neg (by simpa using h)

theorem leaveChain_fnu (h : i ∈ (s.client (s.slot i).ownerIdx).chain → 0 < (s.client (s.slot i).ownerIdx).grants) :
    (s.leaveChain i).fnu = s.fnu := by
  by_cases hi : i ∈ (s.client (s.slot i).ownerIdx).chain
  · have hset : ∀ c, ((s.setClient (s.slot i).ownerIdx c).client (s.slot i).ownerIdx) = c := fun c =>
      (State.client_setClient ..).trans (if_pos rfl)
    rw [State.leaveChain, if_pos (by simpa using hi), State.dropGrantCount, hset, if_neg (by have := h hi; simpa using Nat.ne_of_gt this)]
    simp
  · rw [leaveChain_unchained hi]

/-- A release that underflows no counter gives no event. -/
theorem releaseSlot_fnu (h : s.Holds (s.slot i))
    (hcount : i ∈ (s.client (s.slot i).ownerIdx).chain → 0 < (s.client (s.slot i).ownerIdx).grants) : (s.releaseSlot i).fnu = s.fnu := by
  have hleave (t : State) (h1 : t.grt.slots = s.grt.slots) (h2 : t.clt = s.clt) : (t.leaveChain i).fnu = t.fnu := by
    refine leaveChain_fnu ?_
    rw [State.slot_congr h1, State.client_congr (congrArg Clt.clients h2)]
    exact hcount
  have hunits : s.unitsCounted (s.slot i) = true → (s.slot i).units ≤
      ((s.returnTokens i (s.slot i)).featLive (s.slot i).feature).hf := by
    rw [State.featLive_congr (State.returnTokens_features ..)]
    exact h.2
  unfold State.releaseSlot State.releaseFrom
  dsimp only
  simp only [if_true, State.freeSlot_fnu, State.rebuildPassed_fnu, apply_ite State.fnu, State.leaveLinger_fnu, ite_self]
  split
  · next hc =>
    rw [returnUnits_held (hunits hc), returnTokens_held h.1, hleave _ (by simp) (by simp)]
    rfl
  · rw [returnTokens_held h.1, hleave _ (by simp) (by simp)]
    rfl

theorem releaseFrom_ada (s : State) (c : Bool) (i : Nat) :
    (s.releaseFrom c i).ada = (s.rebuildPassed i (Rebuild.without (s.slot i) (s.unitsCounted (s.slot i)) i)).ada := by
  have h : ∀ (t : State) (f), t.ada = s.ada → (t.rebuildPassed i f).ada = (s.rebuildPassed i f).ada := by
    intro t f h
    unfold State.rebuildPassed
    rw [h]
    split
    · split
      · rfl
      · exact h
    · exact h
  unfold State.releaseFrom
  dsimp only
  rw [State.freeSlot_ada]
  exact h _ _ (by split <;> split <;> split <;> simp)

/-- With no COUNT REBUILD in the slot a passed slot changes no scan (R165). -/
theorem rebuildPassed_idle (h : s.ada.op.isRebuild = false) (f : Rebuild → Rebuild) : s.rebuildPassed i f = s := by
  unfold State.rebuildPassed
  split
  · next r hr => rw [hr] at h; cases h
  · rfl

theorem rebuildPassed_below {rb : Rebuild} (h : s.ada.op = .rebuild rb) (hi : i < rb.cursor) (f : Rebuild → Rebuild) :
    (s.rebuildPassed i f).ada.op = .rebuild (f rb) := by
  rw [State.rebuildPassed_op, h]
  exact if_pos hi

theorem rebuildPassed_above {rb : Rebuild} (h : s.ada.op = .rebuild rb) (hi : rb.cursor ≤ i) (f : Rebuild → Rebuild) :
    (s.rebuildPassed i f).ada.op = s.ada.op := by
  rw [State.rebuildPassed_op, h]
  exact if_neg (Nat.not_lt.2 hi)

/-! ### The owner's entry after a release (R31, R68, R70) -/

/-- The state whose slot has left its owner's chain and count, the count being above 0, before the entry may join the idle list. -/
def State.unchained (s : State) (i : Nat) : State :=
  (s.setClient (s.slot i).ownerIdx
      { s.client (s.slot i).ownerIdx with chain := (s.client (s.slot i).ownerIdx).chain.erase i }).setClient (s.slot i).ownerIdx
    { s.client (s.slot i).ownerIdx with
      chain := (s.client (s.slot i).ownerIdx).chain.erase i, grants := (s.client (s.slot i).ownerIdx).grants - 1 }

theorem unchained_client (s : State) (i j : Nat) : (s.unchained i).client j = if j = (s.slot i).ownerIdx then
    { s.client (s.slot i).ownerIdx with
      chain := (s.client (s.slot i).ownerIdx).chain.erase i, grants := (s.client (s.slot i).ownerIdx).grants - 1 }
    else s.client j := by
  rw [State.unchained, State.client_setClient]
  split
  · rfl
  · next h => rw [State.client_setClient, if_neg h]

section
variable (hi : i ∈ (s.client (s.slot i).ownerIdx).chain)
include hi

theorem leaveChain_counted (hcount : 0 < (s.client (s.slot i).ownerIdx).grants) :
    s.leaveChain i = (s.unchained i).idleIfQuiet (s.slot i).ownerIdx := by
  have hset : ∀ c, ((s.setClient (s.slot i).ownerIdx c).client (s.slot i).ownerIdx) = c := fun c =>
    (State.client_setClient ..).trans (if_pos rfl)
  rw [State.leaveChain, if_pos (by simpa using hi), State.dropGrantCount, hset, if_neg (by simpa using Nat.ne_of_gt hcount)]
  rfl

theorem leaveChain_underflows (hcount : (s.client (s.slot i).ownerIdx).grants = 0) :
    ((s.leaveChain i).client (s.slot i).ownerIdx).grants = 0 := by
  have hset : ∀ c, ((s.setClient (s.slot i).ownerIdx c).client (s.slot i).ownerIdx) = c := fun c =>
    (State.client_setClient ..).trans (if_pos rfl)
  rw [State.leaveChain, if_pos (by simpa using hi), State.dropGrantCount, hset, if_pos hcount,
    (idleIfQuiet_client _ _ _).2.2.1, State.countUnderflow_client, hset]
  exact hcount

end

theorem releaseSlot_clt (s : State) (i : Nat) : (s.releaseSlot i).clt = (s.leaveChain i).clt := State.releaseFrom_clt s true i

theorem releaseSlot_client (s : State) (i j : Nat) : (s.releaseSlot i).client j = (s.leaveChain i).client j :=
  State.client_congr (congrArg Clt.clients (releaseSlot_clt s i)) j

/-! ### The hard capture (R175) -/

/-- A locked capture with these fields. -/
structure Capture.Reports (k : Capture) (code : Byte) (index pool : Nat) (client : W32) : Prop where
  locked : k.locked = true
  code : k.code = code
  index : k.index = index
  pool : k.pool = pool
  client : k.client = client

/-- A first event is reported, and later events leave the report. -/
theorem Capture.reports_give {k : Capture} (h : k.locked = false) (e : Event) (mt : W32) :
    (k.give e mt).Reports e.code e.index e.pool e.client := by
  rw [Capture.give_unlocked h]
  exact ⟨rfl, rfl, rfl, rfl, rfl⟩

theorem Capture.Reports.give {k : Capture} {code : Byte} {index pool : Nat} {client : W32} (h : k.Reports code index pool client)
    (e : Event) (mt : W32) : (k.give e mt).Reports code index pool client := by
  rw [Capture.give_again h.locked]
  exact ⟨h.locked, h.code, h.index, h.pool, h.client⟩

theorem Capture.locked_give {k : Capture} (e : Event) (mt : W32) : (k.give e mt).locked = true := Capture.give_locked ..

/-- The hard capture once the tokens have been returned. -/
def State.hardAfterTokens (s : State) (i : Nat) : Capture :=
  if (s.poolLive (s.slot i).pool).used (s.slot i).cls < (s.slot i).cost then
    s.fnu.hard.give ⟨0x83, i, (s.slot i).pool, (s.slot i).owner⟩ s.swp.mt else s.fnu.hard

/-- The hard capture once the units have been returned. -/
def State.hardAfterUnits (s : State) (i : Nat) : Capture :=
  if s.unitsCounted (s.slot i) = true ∧ (s.featLive (s.slot i).feature).hf < (s.slot i).units then
    (s.hardAfterTokens i).give ⟨0x83, i, (s.slot i).pool, (s.slot i).owner⟩ s.swp.mt else s.hardAfterTokens i

theorem releaseSlot_hard_eq (s : State) (i : Nat) : (s.releaseSlot i).fnu.hard =
    if s.inChain i = true ∧ (s.client (s.slot i).ownerIdx).grants = 0 then
      (s.hardAfterUnits i).give ⟨0x84, (s.slot i).ownerIdx, 0, (s.client (s.slot i).ownerIdx).id⟩ s.swp.mt
    else s.hardAfterUnits i := State.releaseSlot_hard s i

/-- An event of the tokens or the units stays in the capture of the whole release. -/
theorem releaseSlot_keeps_hard (h : (s.hardAfterUnits i).locked = true) : (s.releaseSlot i).fnu.hard.locked = true := by
  rw [releaseSlot_hard_eq]
  split
  · exact Capture.locked_give ..
  · exact h

theorem releaseSlot_keeps_report {code : Byte} {index pool : Nat} {client : W32} (h : (s.hardAfterUnits i).Reports code index pool client) :
    (s.releaseSlot i).fnu.hard.Reports code index pool client := by
  rw [releaseSlot_hard_eq]
  split
  · exact h.give ..
  · exact h

section
variable (h : (s.poolLive (s.slot i).pool).used (s.slot i).cls < (s.slot i).cost)
include h

theorem tokens_lock : (s.hardAfterUnits i).locked = true := by
  rw [State.hardAfterUnits, State.hardAfterTokens, if_pos h]
  split <;> exact Capture.locked_give ..

theorem tokens_reported (hopen : s.fnu.hard.locked = false) :
    (s.hardAfterUnits i).Reports 0x83 i (s.slot i).pool (s.slot i).owner := by
  have hfirst := Capture.reports_give hopen ⟨0x83, i, (s.slot i).pool, (s.slot i).owner⟩ s.swp.mt
  rw [State.hardAfterUnits, State.hardAfterTokens, if_pos h]
  split
  · exact hfirst.give ..
  · exact hfirst

end

section
variable (hc : s.unitsCounted (s.slot i) = true) (h : (s.featLive (s.slot i).feature).hf < (s.slot i).units)
include hc h

theorem units_lock : (s.hardAfterUnits i).locked = true := by
  rw [State.hardAfterUnits, if_pos ⟨hc, h⟩]
  exact Capture.locked_give ..

theorem units_reported (hopen : s.fnu.hard.locked = false) :
    (s.hardAfterUnits i).Reports 0x83 i (s.slot i).pool (s.slot i).owner := by
  by_cases ht : (s.poolLive (s.slot i).pool).used (s.slot i).cls < (s.slot i).cost
  · exact tokens_reported ht hopen
  · rw [State.hardAfterUnits, State.hardAfterTokens, if_neg ht, if_pos ⟨hc, h⟩]
    exact Capture.reports_give hopen ..

end

theorem hardAfterUnits_held (h : s.Holds (s.slot i)) : s.hardAfterUnits i = s.fnu.hard := by
  have hunits : ¬ (s.unitsCounted (s.slot i) = true ∧ (s.featLive (s.slot i).feature).hf < (s.slot i).units) := fun ⟨hc, hlt⟩ =>
    absurd (h.2 hc) (Nat.not_le.2 hlt)
  rw [State.hardAfterUnits, State.hardAfterTokens, if_neg (Nat.not_lt.2 h.1), if_neg hunits]

theorem releaseSlot_suspect_held (h : s.Holds (s.slot i))
    (hcount : i ∈ (s.client (s.slot i).ownerIdx).chain → 0 < (s.client (s.slot i).ownerIdx).grants) :
    (s.releaseSlot i).grt.suspect = s.grt.suspect := by
  have hchain : (s.inChain i && decide ((s.client (s.slot i).ownerIdx).grants = 0)) = false := by
    by_cases hi : i ∈ (s.client (s.slot i).ownerIdx).chain
    · simp [Nat.ne_of_gt (hcount hi)]
    · simp [State.inChain, hi]
  have hunits : (s.unitsCounted (s.slot i) && decide ((s.featLive (s.slot i).feature).hf < (s.slot i).units)) = false := by
    cases hc : s.unitsCounted (s.slot i) with
    | false => rfl
    | true => simp [h.2 hc]
  rw [State.releaseSlot_suspect, hchain, hunits]
  simp [h.1]

/-! ### The live records and the lists after a release (R3, R42) -/

theorem releaseSlot_used (s : State) (i p : Nat) (c : Cls) : ((s.releaseSlot i).poolLive p).used c =
    if p = (s.slot i).pool ∧ c = (s.slot i).cls then (s.poolLive p).used c - (s.slot i).cost else (s.poolLive p).used c := by
  rw [State.releaseSlot, State.poolLive_releaseFrom]
  by_cases hp : p = (s.slot i).pool
  · rw [if_pos hp, PoolLive.used_setUsed]
    by_cases hc : c = (s.slot i).cls
    · rw [if_pos hc, if_pos ⟨hp, hc⟩, hc]
    · rw [if_neg hc, if_neg (fun h => hc h.2)]
  · rw [if_neg hp, if_neg (fun h => hp h.1)]

theorem PoolLive.setUsed_rest (l : PoolLive) (c : Cls) (n : Nat) :
    (l.setUsed c n).w = l.w ∧ (l.setUsed c n).pressure = l.pressure ∧ (l.setUsed c n).entryTime = l.entryTime := by
  cases c <;> exact ⟨rfl, rfl, rfl⟩

theorem releaseSlot_pool_rest (s : State) (i p : Nat) : ((s.releaseSlot i).poolLive p).w = (s.poolLive p).w ∧
    ((s.releaseSlot i).poolLive p).pressure = (s.poolLive p).pressure ∧
    ((s.releaseSlot i).poolLive p).entryTime = (s.poolLive p).entryTime := by
  rw [State.releaseSlot, State.poolLive_releaseFrom]
  split
  · exact PoolLive.setUsed_rest ..
  · exact ⟨rfl, rfl, rfl⟩

theorem unitsCounted_iff : s.unitsCounted g = true ↔ g.state ≠ .recalled ∧ g.epoch = (s.featLive g.feature).epoch := by
  simp [State.unitsCounted, State.epochCurrent]

theorem unitsCounted_false : s.unitsCounted g = false ↔ g.state = .recalled ∨ g.epoch ≠ (s.featLive g.feature).epoch := by
  rw [← Bool.not_eq_true, unitsCounted_iff]
  tauto

theorem releaseSlot_featLive (s : State) (i f : Nat) : (s.releaseSlot i).featLive f =
    if f = (s.slot i).feature ∧ s.unitsCounted (s.slot i) = true then ⟨(s.featLive f).hf - (s.slot i).units, (s.featLive f).epoch⟩
    else s.featLive f := State.featLive_releaseFrom s true i f

theorem releaseSlot_epoch (s : State) (i f : Nat) : ((s.releaseSlot i).featLive f).epoch = (s.featLive f).epoch := by
  rw [releaseSlot_featLive]
  split <;> rfl

theorem releaseSlot_fifo (s : State) (i : Nat) : (s.releaseSlot i).grt.freeFifo = s.grt.freeFifo ++ [i] :=
  (congrArg Grt.freeFifo (State.releaseFrom_grt s true i) :)

theorem releaseSlot_exhausted (s : State) (i : Nat) : (s.releaseSlot i).grt.exhausted = false :=
  (congrArg Grt.exhausted (State.releaseFrom_grt s true i) :)

theorem releaseSlot_total (s : State) (i : Nat) : (s.releaseSlot i).grt.liveTotal = s.grt.liveTotal - 1 :=
  (congrArg Grt.liveTotal (State.releaseFrom_grt s true i) :)

theorem releaseSlot_linger (s : State) (i p : Nat) : (s.releaseSlot i).lingerList p =
    if (s.slot i).state = .linger ∧ p = (s.slot i).pool then (s.lingerList p).erase i else s.lingerList p :=
  State.lingerList_releaseFrom s true i p

/-- The owner's entry after a release with its count above 0: out of the chain and the count, and in the idle list when it became idle. -/
structure State.OwnerLeft (s : State) (i : Nat) (t : State) : Prop where
  entry : t.client (s.slot i).ownerIdx = { s.client (s.slot i).ownerIdx with
    chain := (s.client (s.slot i).ownerIdx).chain.erase i, grants := (s.client (s.slot i).ownerIdx).grants - 1
    lastActivity := (t.client (s.slot i).ownerIdx).lastActivity }
  others : ∀ j, j ≠ (s.slot i).ownerIdx → t.client j = s.client j
  joins : (s.client (s.slot i).ownerIdx).inUse = true → (s.client (s.slot i).ownerIdx).grants = 1 →
    (s.client (s.slot i).ownerIdx).waiters = 0 → (s.slot i).ownerIdx ∉ s.clt.idle →
    t.clt.idle = s.clt.idle ++ [(s.slot i).ownerIdx] ∧ (t.client (s.slot i).ownerIdx).lastActivity = s.swp.mt
  stays : (s.client (s.slot i).ownerIdx).grants ≠ 1 ∨ (s.client (s.slot i).ownerIdx).waiters ≠ 0 →
    t.clt.idle = s.clt.idle ∧ (t.client (s.slot i).ownerIdx).lastActivity = (s.client (s.slot i).ownerIdx).lastActivity

theorem leaveChain_ownerLeft (hi : i ∈ (s.client (s.slot i).ownerIdx).chain) (hcount : 0 < (s.client (s.slot i).ownerIdx).grants) :
    s.OwnerLeft i (s.leaveChain i) := by
  have hself := (unchained_client s i (s.slot i).ownerIdx).trans (if_pos rfl)
  rw [leaveChain_counted hi hcount]
  refine ⟨(idleIfQuiet_entry ..).trans (by rw [hself]), fun j hj => (idleIfQuiet_other hj).trans ((unchained_client ..).trans (if_neg hj)),
    fun hused hone hnone hnot => idleIfQuiet_joins (s := s.unchained i) ?_ hnot, fun hbusy => ?_⟩
  · rw [hself]
    simp [Client.isIdle, hused, hone, hnone]
  · have hnot : ((s.unchained i).client (s.slot i).ownerIdx).isIdle = false := by
      rw [hself]
      rcases hbusy with h | h
      · have : (s.client (s.slot i).ownerIdx).grants - 1 ≠ 0 := by omega
        simp [Client.isIdle, this]
      · simp [Client.isIdle, h]
    rw [idleIfQuiet_stands hnot, hself]
    exact ⟨rfl, rfl⟩

theorem State.OwnerLeft.congr (h : s.OwnerLeft i t) {u : State} (hu : u.clt = t.clt) : s.OwnerLeft i u := by
  have hclient : ∀ j, u.client j = t.client j := State.client_congr (congrArg Clt.clients hu)
  obtain ⟨entry, others, joins, stays⟩ := h
  refine ⟨?_, ?_, ?_, ?_⟩ <;> simp only [hclient, hu] <;> assumption

/-! ### A recall (R3, R41, R165) -/

theorem recallHeld_unchained (h : i ∉ (s.client (s.slot i).ownerIdx).chain) (r : Reason) : s.recallHeld i r = s.recallSlot i r :=
  if_neg (by simpa [inChain_iff] using h)

theorem recallHeld_chained (h : i ∈ (s.client (s.slot i).ownerIdx).chain) (r : Reason) :
    s.recallHeld i r = (s.recallSlot i r).tell ((s.recallSlot i r).client (s.slot i).ownerIdx) (s.slot i).owner (s.slot i).tag
      (.recall (handleOf i (s.slot i).generation) r) := if_pos (inChain_iff.2 h)

theorem recallSlot_counted (hc : s.unitsCounted (s.slot i) = true) (r : Reason) : s.recallSlot i r =
    ((s.returnUnits i (s.slot i)).rebuildPassed i fun q => { q with unitSums := subAt q.unitSums (s.slot i).feature (s.slot i).units }).setSlot i
      { s.slot i with state := .recalled, reason := some r } := by
  simp only [State.recallSlot, hc, if_true]

theorem recallSlot_uncounted (hc : s.unitsCounted (s.slot i) = false) (r : Reason) :
    s.recallSlot i r = s.setSlot i { s.slot i with state := .recalled, reason := some r } := by
  simp [State.recallSlot, hc]

theorem recallHeld_outside (s : State) (i : Nat) (r : Reason) : (s.recallHeld i r).adm = (s.recallSlot i r).adm ∧
    (s.recallHeld i r).grt = (s.recallSlot i r).grt ∧ (s.recallHeld i r).fnu = (s.recallSlot i r).fnu ∧
    (s.recallHeld i r).ada.op = (s.recallSlot i r).ada.op := by
  by_cases h : i ∈ (s.client (s.slot i).ownerIdx).chain
  · rw [recallHeld_chained h]
    exact ⟨by simp, by simp, (originate_output ..).fnu, State.originate_op ..⟩
  · rw [recallHeld_unchained h]
    exact ⟨rfl, rfl, rfl, rfl⟩

theorem recallHeld_featLive (s : State) (i f : Nat) (r : Reason) : (s.recallHeld i r).featLive f =
    if f = (s.slot i).feature ∧ s.unitsCounted (s.slot i) = true then ⟨(s.featLive f).hf - (s.slot i).units, (s.featLive f).epoch⟩
    else s.featLive f := by
  rw [State.featLive_congr (congrArg Adm.features (recallHeld_outside s i r).1)]
  cases hc : s.unitsCounted (s.slot i) with
  | false =>
    rw [recallSlot_uncounted hc]
    simp
    rfl
  | true =>
    rw [recallSlot_counted hc, State.featLive_congr (t := State.setSlot i _ _) (s := s.returnUnits i (s.slot i)) (by simp),
      State.returnUnits_featLive]
    simp only [and_true]
    split
    · next hf => rw [hf]
    · rfl

theorem recallHeld_grt (s : State) (i : Nat) (r : Reason) : (s.recallHeld i r).grt =
    { s.grt with slots := (s.recallHeld i r).grt.slots, suspect := (s.recallHeld i r).grt.suspect } := by
  rw [(recallHeld_outside s i r).2.1]
  cases hc : s.unitsCounted (s.slot i) with
  | false =>
    rw [recallSlot_uncounted hc]
    rfl
  | true =>
    rw [recallSlot_counted hc]
    simp [State.setSlot, State.returnUnits_grt]

theorem recallHeld_suspect (s : State) (i : Nat) (r : Reason) : (s.recallHeld i r).grt.suspect =
    (s.grt.suspect || (s.unitsCounted (s.slot i) && decide ((s.featLive (s.slot i).feature).hf < (s.slot i).units))) := by
  rw [(recallHeld_outside s i r).2.1]
  cases hc : s.unitsCounted (s.slot i) with
  | false =>
    rw [recallSlot_uncounted hc]
    simp [State.setSlot]
  | true =>
    rw [recallSlot_counted hc]
    simp [State.setSlot, State.returnUnits_grt]

theorem recallHeld_hard (s : State) (i : Nat) (r : Reason) : (s.recallHeld i r).fnu.hard =
    if s.unitsCounted (s.slot i) = true ∧ (s.featLive (s.slot i).feature).hf < (s.slot i).units then
      s.fnu.hard.give ⟨0x83, i, (s.slot i).pool, (s.slot i).owner⟩ s.swp.mt else s.fnu.hard := by
  rw [(recallHeld_outside s i r).2.2.1]
  cases hc : s.unitsCounted (s.slot i) with
  | false =>
    rw [recallSlot_uncounted hc]
    simp
  | true =>
    rw [recallSlot_counted hc]
    simpa using State.returnUnits_hard s i (s.slot i)

theorem recallSlot_fnu (h : s.unitsCounted (s.slot i) = true → (s.slot i).units ≤ (s.featLive (s.slot i).feature).hf) (r : Reason) : (s.recallSlot i r).fnu = s.fnu := by
  cases hc : s.unitsCounted (s.slot i) with
  | false =>
    rw [recallSlot_uncounted hc]
    rfl
  | true =>
    rw [recallSlot_counted hc, returnUnits_held (h hc)]
    simp

theorem recallSlot_ada (hrebuild : s.ada.op.isRebuild = false) (r : Reason) : (s.recallSlot i r).ada = s.ada := by
  cases hc : s.unitsCounted (s.slot i) with
  | false =>
    rw [recallSlot_uncounted hc]
    rfl
  | true =>
    rw [recallSlot_counted hc, rebuildPassed_idle (by simpa using hrebuild)]
    simp

theorem recallHeld_runs (s : State) (i : Nat) (r : Reason) : (s.recallHeld i r).adm.runs = s.adm.runs := by
  rw [(recallHeld_outside s i r).1]
  cases hc : s.unitsCounted (s.slot i) with
  | false =>
    rw [recallSlot_uncounted hc]
    rfl
  | true =>
    rw [recallSlot_counted hc]
    simp

/-- A recall that finds room for its RECALL sends it and writes no counter of the administration (R41, R152). -/
theorem recallHeld_sent (hi : i ∈ (s.client (s.slot i).ownerIdx).chain) (hroom : s.lnk.portF.originate.length < 256) (r : Reason) :
    (s.recallHeld i r).ada = (s.recallSlot i r).ada ∧ (s.recallHeld i r).lnk = { s.lnk with
      ident := s.lnk.ident + 1
      portF.originate := s.lnk.portF.originate ++
        [⟨composeFrame
            { dstMac := (s.client (s.slot i).ownerIdx).reply.mac, srcMac := s.addrs.partMac,
              vlan := (s.client (s.slot i).ownerIdx).reply.vlan, srcIp := s.addrs.serviceIp, srcPort := s.addrs.servicePort,
              dstIp := (s.client (s.slot i).ownerIdx).reply.ip, dstPort := (s.client (s.slot i).ownerIdx).reply.udp }
            s.lnk.ident (cexDatagram (s.slot i).owner (s.slot i).tag (.recall (handleOf i (s.slot i).generation) r)), none⟩] } := by
  have hlnk : (s.recallSlot i r).lnk = s.lnk := by simp
  have haddrs : (s.recallSlot i r).addrs = s.addrs := by simp [State.addrs]
  have hclient : (s.recallSlot i r).client (s.slot i).ownerIdx = s.client (s.slot i).ownerIdx :=
    State.client_congr (by simp) _
  rw [recallHeld_chained hi, State.tell, originate_room (by rw [hlnk]; exact hroom)]
  refine ⟨rfl, ?_⟩
  simp only [hlnk, haddrs, hclient]

theorem get_subAt (t : Tab Nat) (k n j : Nat) : Tab.get 0 (subAt t k n) j = Tab.get 0 t j - if j = k then n else 0 := by
  rw [subAt, Tab.get_put]
  split
  · next h => rw [h]
  · rfl

/-- What a release takes out of the sums of a scan that has passed its slot (R165). -/
theorem Rebuild.without_sums (g : Slot) (units : Bool) (i : Nat) (r : Rebuild) :
    (∀ p, Tab.get 0 (Rebuild.without g units i r).prioritySums p =
      Tab.get 0 r.prioritySums p - if g.cls = .priority ∧ p = g.pool then g.cost else 0) ∧
    (∀ p, Tab.get 0 (Rebuild.without g units i r).generalSums p =
      Tab.get 0 r.generalSums p - if g.cls = .general ∧ p = g.pool then g.cost else 0) ∧
    (∀ f, Tab.get 0 (Rebuild.without g units i r).unitSums f =
      Tab.get 0 r.unitSums f - if f = g.feature ∧ units = true then g.units else 0) := by
  refine ⟨fun p => ?_, fun p => ?_, fun f => ?_⟩
  · by_cases h : g.cls = .priority <;> simp [Rebuild.without, h, get_subAt]
  · by_cases h : g.cls = .general <;> simp [Rebuild.without, h, get_subAt]
  · cases units <;> simp [Rebuild.without, get_subAt]

/-- A release while a COUNT REBUILD runs (R165). -/
theorem releaseSlot_scan {rb : Rebuild} (h : s.ada.op = .rebuild rb) :
    (rb.cursor ≤ i → (s.releaseSlot i).ada.op = s.ada.op) ∧
    (i < rb.cursor → (s.releaseSlot i).ada.op = .rebuild (Rebuild.without (s.slot i) (s.unitsCounted (s.slot i)) i rb)) :=
  ⟨fun hi => (State.releaseFrom_op s true i).trans (rebuildPassed_above h hi _),
    fun hi => (State.releaseFrom_op s true i).trans (rebuildPassed_below h hi _)⟩

/-- Settles O35: the release and the recall with counters that hold the amounts, then with an underflow, out of a chain and under a
COUNT REBUILD. -/
theorem releaseAndRecallMoveCounts : Obligations.ReleaseAndRecallMoveCounts := by
  refine ⟨fun s i g hg hlive hcost hunits hchain hcount hrebuild => ?_, fun s i g r hg hs hunits hrebuild => ?_,
    fun s i g hg hlive => ?_, fun s i g r hg hs => ?_⟩
  · subst hg
    have howner := (leaveChain_ownerLeft hchain hcount).congr (releaseSlot_clt s i)
    have hada : (s.releaseSlot i).ada = s.ada := (releaseFrom_ada s true i).trans (congrArg State.ada (rebuildPassed_idle hrebuild _))
    refine ⟨(State.slot_releaseFrom s true i i).trans (if_pos rfl), fun j hj => (State.slot_releaseFrom s true i j).trans (if_neg hj),
      (releaseSlot_used ..).trans (if_pos ⟨rfl, rfl⟩), fun p c h => (releaseSlot_used ..).trans (if_neg fun ⟨hp, hc⟩ => h.elim (· hp) (· hc)),
      releaseSlot_pool_rest s i, fun hnot hepoch => ?_, fun hnot => ?_, fun j => ⟨releaseSlot_epoch s i j, fun hj => ?_⟩,
      releaseSlot_fifo s i, releaseSlot_exhausted s i, releaseSlot_total s i, releaseSlot_suspect_held ⟨hcost, hunits⟩ fun _ => hcount, ?_,
      fun p hp => (releaseSlot_linger ..).trans (if_neg fun h => hp h.2), howner.entry, howner.others, howner.joins, howner.stays,
      State.releaseFrom_runs s true i, by simp, by simp, by simp, by simp, by simp, hada,
      releaseSlot_fnu ⟨hcost, hunits⟩ fun _ => hcount, by simp, by simp, by simp⟩
    · rw [releaseSlot_featLive, if_pos ⟨rfl, unitsCounted_iff.2 ⟨hnot, hepoch⟩⟩]
    · exact (releaseSlot_featLive ..).trans (if_neg fun h => Bool.false_ne_true ((unitsCounted_false.2 hnot).symm.trans h.2))
    · exact (releaseSlot_featLive ..).trans (if_neg fun h => hj h.1)
    · simpa using releaseSlot_linger s i (s.slot i).pool
  · subst hg
    have hslot (j : Nat) := (s.recallHeld_slot i j r).trans (s.recallSlot_slot i j r)
    have hnot : (s.slot i).state ≠ .recalled := by rcases hs with h | h <;> rw [h] <;> nofun
    have hfnu := (recallHeld_outside s i r).2.2.1.trans (recallSlot_fnu hunits r)
    have hgrt := recallHeld_grt s i r
    have hsuspect : (s.recallHeld i r).grt.suspect = s.grt.suspect := by
      rw [recallHeld_suspect]
      cases hc : s.unitsCounted (s.slot i) with
      | false => simp
      | true => simp [hunits hc]
    refine ⟨(hslot i).trans (if_pos rfl), fun j hj => (hslot j).trans (if_neg hj),
      fun p => State.poolLive_congr (State.recallHeld_pools s i r) p, fun hepoch => ?_, fun hepoch => ?_, fun j hj => ?_,
      by rw [hsuspect] at hgrt; exact hgrt, recallHeld_runs s i r, by simp, by simp, by simp, by simp, by simp, hfnu, by simp, by simp, by simp,
      fun hout => ?_, fun hin hroom => ?_⟩
    · exact (recallHeld_featLive ..).trans (if_pos ⟨rfl, unitsCounted_iff.2 ⟨hnot, hepoch⟩⟩)
    · exact (recallHeld_featLive ..).trans (if_neg fun h => hepoch (unitsCounted_iff.1 h.2).2)
    · exact (recallHeld_featLive ..).trans (if_neg fun h => hj h.1)
    · rw [recallHeld_unchained hout]
      exact ⟨by simp, recallSlot_ada hrebuild r⟩
    · obtain ⟨hada, hlnk⟩ := recallHeld_sent hin hroom r
      exact ⟨hada.trans (recallSlot_ada hrebuild r), hlnk⟩
  · subst hg
    have hreport {k : Capture} {n : Byte} {index p : Nat} {id : W32} (h : k.Reports n index p id) :
        k.code = n ∧ k.index = index ∧ k.pool = p ∧ k.client = id := ⟨h.code, h.index, h.pool, h.client⟩
    refine ⟨fun hshort => ⟨?_, ?_, releaseSlot_keeps_hard (tokens_lock hshort),
        fun hopen => hreport (releaseSlot_keeps_report (tokens_reported hshort hopen))⟩,
      fun hc hshort => ⟨?_, ?_, releaseSlot_keeps_hard (units_lock hc hshort),
        fun hopen => hreport (releaseSlot_keeps_report (units_reported hc hshort hopen))⟩,
      fun hin hzero => ⟨?_, ?_, ?_, fun hopen hwithin => ?_⟩,
      fun hout => ⟨?_, (State.slot_releaseFrom s true i i).trans (if_pos rfl), (releaseSlot_used ..).trans (if_pos ⟨rfl, rfl⟩),
        releaseSlot_fifo s i, fun hwithin => ⟨releaseSlot_fnu hwithin fun h => absurd h hout,
          releaseSlot_suspect_held hwithin fun h => absurd h hout⟩⟩,
      fun rb hrb => ⟨(releaseSlot_scan hrb).1, fun hi => ⟨_, (releaseSlot_scan hrb).2 hi, rfl, rfl, rfl, rfl,
        (Rebuild.without_sums ..).1, (Rebuild.without_sums ..).2.1, (Rebuild.without_sums ..).2.2, fun j => ?_⟩⟩⟩
    · rw [releaseSlot_used, if_pos ⟨rfl, rfl⟩]
      exact Nat.sub_eq_zero_of_le (Nat.le_of_lt hshort)
    · rw [State.releaseSlot_suspect]
      simp [hshort]
    · rw [releaseSlot_featLive, if_pos ⟨rfl, hc⟩]
      exact Nat.sub_eq_zero_of_le (Nat.le_of_lt hshort)
    · rw [State.releaseSlot_suspect]
      simp [hc, hshort]
    · rw [releaseSlot_client]
      exact leaveChain_underflows hin hzero
    · rw [State.releaseSlot_suspect]
      simp [hzero, inChain_iff.2 hin]
    · rw [releaseSlot_hard_eq, if_pos ⟨inChain_iff.2 hin, hzero⟩]
      exact Capture.locked_give ..
    · rw [releaseSlot_hard_eq, if_pos ⟨inChain_iff.2 hin, hzero⟩, hardAfterUnits_held hwithin]
      exact hreport (Capture.reports_give hopen ..)
    · rw [releaseSlot_clt, leaveChain_unchained hout]
    · exact Rebuild.client_without ..
  · subst hg
    refine ⟨fun hc hshort => ⟨?_, ?_, ?_, fun hopen => ?_⟩, fun rb hrb => ⟨fun h => ?_, fun hi hc => ?_⟩⟩
    · rw [recallHeld_featLive, if_pos ⟨rfl, hc⟩]
      exact Nat.sub_eq_zero_of_le (Nat.le_of_lt hshort)
    · rw [recallHeld_suspect]
      simp [hc, hshort]
    · rw [recallHeld_hard, if_pos ⟨hc, hshort⟩]
      exact Capture.locked_give ..
    · rw [recallHeld_hard, if_pos ⟨hc, hshort⟩]
      obtain ⟨-, hcode, hindex, hpool, hclient⟩ := Capture.reports_give hopen ⟨0x83, i, (s.slot i).pool, (s.slot i).owner⟩ s.swp.mt
      exact ⟨hcode, hindex, hpool, hclient⟩
    · rw [(recallHeld_outside s i r).2.2.2]
      cases hc : s.unitsCounted (s.slot i) with
      | false =>
        rw [recallSlot_uncounted hc]
        rfl
      | true =>
        have hi : rb.cursor ≤ i := h.resolve_right (by rw [hc]; nofun)
        have hop : (s.returnUnits i (s.slot i)).ada.op = .rebuild rb := (congrArg Ada.op (by simp)).trans hrb
        rw [recallSlot_counted hc]
        exact (rebuildPassed_above hop hi _).trans (hop.trans hrb.symm)
    · have hop : (s.returnUnits i (s.slot i)).ada.op = .rebuild rb := (congrArg Ada.op (by simp)).trans hrb
      refine ⟨{ rb with unitSums := subAt rb.unitSums (s.slot i).feature (s.slot i).units }, ?_, rfl, fun f => get_subAt ..⟩
      rw [(recallHeld_outside s i r).2.2.2, recallSlot_counted hc]
      exact rebuildPassed_below hop hi _

end Sys2Proof.Machine

/-!
PROOFS. The pool service's rounds, the visits of the grant, waiter, pool and client passes, and the arithmetic and the check of pressure.
-/
namespace Sys2Proof.Machine

variable {s t u : State} {p : Nat} {b : Bool}

/-! ### Rounds (R57 to R62) -/

/-- A round from its start. -/
theorem exec_round (h : s.InRun p .priority) : exec (.poolServiceRound ⟨p, b⟩ []) s = .next (closeRound p false (serviceRound p b s)) := by
  obtain ⟨hq, ⟨r, hrun, hstage⟩, hrebuild⟩ := h
  rw [execPoolServiceRound_quiet hq]
  simp only [hrun, hrebuild, hstage]
  rfl

/-- The rest of a parted round. -/
theorem exec_round_rest {cause : Bool} (h : s.InRun p (.general cause)) :
    exec (.poolServiceRound ⟨p, b⟩ []) s = .next (closeRound p cause (generalHead p (s.atStage p .priority))) := by
  obtain ⟨hq, ⟨r, hrun, hstage⟩, hrebuild⟩ := h
  rw [execPoolServiceRound_quiet hq, ← State.mapRun_stage]
  simp only [hrun, hrebuild, hstage]
  rfl

theorem round_taken (h : s.InRun p .priority) (hround : serviceRound p b s = .ok .taken t) :
    exec (.poolServiceRound ⟨p, b⟩ []) s = .next t := by rw [exec_round h, hround]; rfl

theorem round_parted (h : s.InRun p .priority) (hround : serviceRound p b s = .ok .parted t) :
    exec (.poolServiceRound ⟨p, b⟩ []) s = .next t := by rw [exec_round h, hround]; rfl

/-- A round that takes no waiter ends the run. -/
theorem round_nothing (h : s.InRun p .priority) (hround : serviceRound p b s = .ok .nothing t) (hd : t.damage = []) :
    exec (.poolServiceRound ⟨p, b⟩ []) s = .next (t.endRun p) := by
  rw [exec_round h, hround]
  exact congrArg Host.Outcome.next (finishRun_clean hd)

section
variable (h : s.InRun p .priority) (hb : b = true → s.queue p .priority = [])
include h hb

/-- A round whose PRIORITY head is passed is the examination of the GENERAL head. -/
theorem round_general (hpass : s.RoundPasses p .priority) : serviceRound p b s = generalHead p s :=
  serviceRound_goes (examineHead_passes h.quiet.sound hpass) hb

theorem round_head_taken {c : Cls} (hbefore : c = .general → s.RoundPasses p .priority) (hexam : examineHead p c s = .ok true t) :
    exec (.poolServiceRound ⟨p, b⟩ []) s = .next t := by
  cases c with
  | priority => exact round_taken h (serviceRound_taken hexam)
  | general => exact round_taken h ((round_general h hb (hbefore rfl)).trans (generalHead_of hexam))

theorem round_head_unslotted {c : Cls} {wi : Nat} {rest : List Nat} {e : FeatureEntry} {pe : PoolEntry} (hq : s.queue p c = wi :: rest)
    (hbefore : c = .general → s.RoundPasses p .priority) (hs : s.HeadServable (s.waiter wi) e pe) (hf : s.HeadFits (s.waiter wi) e)
    (hx : s.grt.freeFifo = []) (hafter : c = .general ∨ s.RoundPasses p .general) :
    exec (.poolServiceRound ⟨p, b⟩ []) s = .next ((s.headUnslotted (s.waiter wi)).endRun p) := by
  have hd := h.quiet.sound
  have hexam := examineHead_unslotted hd hq hs hf hx
  have hdamage := (s.headUnslotted_damage (s.waiter wi)).trans hd
  cases c with
  | general => exact round_nothing h ((round_general h hb (hbefore rfl)).trans (generalHead_of hexam)) hdamage
  | priority =>
    have hwhole : b = true → (s.headUnslotted (s.waiter wi)).queue p .priority = [] := fun hb1 =>
      absurd (hq.symm.trans (hb hb1)) (List.cons_ne_nil _ _)
    have hpass := State.headUnslotted_passes (s.waiter wi) (hafter.resolve_left nofun)
    exact round_nothing h ((serviceRound_goes hexam hwhole).trans (generalHead_of (examineHead_passes hdamage hpass))) hdamage

end

/-! ### The rest of a parted round: a state with another stage reads the same (R62) -/

section
variable {cause : Bool} (h : s.InRun p (.general cause))
include h

theorem rest_taken (hexam : examineHead p .general (s.atStage p .priority) = .ok true t) :
    exec (.poolServiceRound ⟨p, b⟩ []) s = .next t := by
  rw [exec_round_rest h, generalHead_of hexam]
  rfl

theorem rest_nothing (hexam : examineHead p .general (s.atStage p .priority) = .ok false t) (hd : t.damage = []) :
    exec (.poolServiceRound ⟨p, b⟩ []) s = .next (if cause then t else t.endRun p) := by
  rw [exec_round_rest h, generalHead_of hexam]
  cases cause with
  | true => rfl
  | false => exact congrArg Host.Outcome.next (finishRun_clean hd)

end

theorem State.HeadServable.atStage {w : Waiter} {e : FeatureEntry} {pe : PoolEntry} (h : s.HeadServable w e pe) (p : Nat) (x : RunStage) :
    (s.atStage p x).HeadServable w e pe := by
  obtain ⟨hepoch, hfeature, hpool, hweight, hdefined, hwindow, hlimit⟩ := h
  exact ⟨hepoch, hfeature, hpool, hweight, hdefined, hwindow, hlimit⟩

theorem State.RoundPasses.atStage {c : Cls} (h : s.RoundPasses p c) (x : RunStage) : (s.atStage p x).RoundPasses p c := by
  obtain hempty | ⟨wi, rest, e, pe, hq, hs, hf⟩ := h
  · exact Or.inl hempty
  · exact Or.inr ⟨wi, rest, e, pe, hq, hs.atStage p x, hf⟩

theorem createGrant_pools (s : State) (i : Nat) (n : NewGrant) : (s.createGrant i n).adm.pools =
    (s.setPoolLive n.pool ((s.poolLive n.pool).setUsed n.cls ((s.poolLive n.pool).used n.cls + n.cost))).adm.pools := rfl

theorem headServed_pools (s : State) (wi i : Nat) (e : FeatureEntry) (pe : PoolEntry) : (s.headServed wi i e pe).adm.pools =
    (s.setPoolLive (s.waiter wi).pool ((s.poolLive (s.waiter wi).pool).setUsed (s.waiter wi).cls
      ((s.poolLive (s.waiter wi).pool).used (s.waiter wi).cls + (s.waiter wi).cost))).adm.pools := by
  have hadm : ((s.unqueue wi).lowerWaiterCount (s.waiter wi).clientIdx).adm = s.adm := by simp
  have hlive : ((s.unqueue wi).lowerWaiterCount (s.waiter wi).clientIdx).poolLive (s.waiter wi).pool = s.poolLive (s.waiter wi).pool :=
    State.poolLive_congr (congrArg Adm.pools hadm) _
  unfold State.headServed
  simp only [State.countGranted, State.tell_adm, createGrant_pools, hlive]
  simp only [State.setPoolLive, hadm]

/-- The pressure check after a head's grant reads no run. -/
theorem headServed_stands {wi i : Nat} {e : FeatureEntry} {pe : PoolEntry} {x : RunStage} (h : (s.headServed wi i e pe).PressureStands p false) :
    ((s.atStage p x).headServed wi i e pe).PressureStands p false := by
  have hservice (v : State) : (v.headServed wi i e pe).ada.service = v.ada.service := by
    unfold State.headServed
    simp only [State.countGranted, State.tell, State.originate_service]
    simp
  have hswp (v : State) : (v.headServed wi i e pe).swp = v.swp := by simp [State.headServed]
  have htbs (v : State) : (v.headServed wi i e pe).tbs = v.tbs := by simp [State.headServed]
  refine (State.pressureStands_congr ?_ ?_ ?_ ?_ p false).2 h
  · rw [hservice, hservice]; rfl
  · rw [headServed_pools, headServed_pools]; rfl
  · rw [htbs, htbs]; rfl
  · rw [hswp, hswp]; rfl

theorem mapRun_caused (s : State) (p : Nat) : (s.mapRun p fun r => { r with stage := r.stage.caused }).adm.runs =
    s.adm.runs.map fun r => if r.pool = p ∧ r.stage ≠ .priority then { r with stage := .general true } else r := by
  refine List.map_congr_left fun r _ => ?_
  obtain ⟨pool, owed, stage⟩ := r
  by_cases hp : pool = p
  · cases stage <;> simp [hp, RunStage.caused]
  · simp [hp]

/-- Settles O37: the rounds by their examinations, the rest of a parted round on the state whose stage is back before a round, and the
causes of runs. -/
theorem serviceRoundServesHeads : Obligations.ServiceRoundServesHeads := by
  refine ⟨fun s p b h _ hb => ⟨fun hp hg => ?_, fun c wi rest w hq hw hbefore => ?_⟩, fun s p wi rest w h _ hq hw => ?_,
    fun s u p cause b h _ hu => ⟨fun hg => ?_, fun wi rest w hq hw => ?_⟩, fun s p b hq => ⟨fun hnone => ?_, fun hsome hrebuild => ?_⟩,
    fun s p => ⟨fun hrebuild => State.startRun_rebuild hrebuild p, fun hrebuild hnone => State.startRun_new hrebuild hnone,
      fun hrebuild hsome => ?_⟩⟩
  · exact round_nothing h ((round_general h hb hp).trans (generalHead_of (examineHead_passes h.quiet.sound hg))) h.quiet.sound
  · subst hw
    exact ⟨fun r hr => round_head_taken h hb hbefore (examineHead_refused h.quiet.sound hq hr),
      fun e pe i fifo hs hf hx hpress => round_head_taken h hb hbefore (examineHead_served h.quiet.sound hq hs hf hx hpress),
      fun e pe hs hf hx hafter => round_head_unslotted h hb hq hbefore hs hf hx hafter⟩
  · subst hw
    have hd := h.quiet.sound
    have hhead : s.queue p .priority ≠ [] := by rw [hq]; exact List.cons_ne_nil _ _
    refine ⟨fun r hr => round_taken h (serviceRound_taken (examineHead_refused hd hq hr)), fun e pe hs => ⟨fun hf => ?_, fun hf hx => ?_,
      fun i fifo hf hx hpress => round_taken h (serviceRound_taken (examineHead_served hd hq hs hf hx hpress))⟩⟩
    · exact round_parted h (serviceRound_parts (examineHead_blocked hd hq hs hf) hhead)
    · exact round_parted h (serviceRound_parts (examineHead_unslotted hd hq hs hf hx) (by rwa [State.headUnslotted_queue]))
  · subst hu
    have hd : (s.atStage p .priority).damage = [] := h.quiet.sound
    exact rest_nothing h (examineHead_passes hd (hg.atStage _)) hd
  · subst hu hw
    have hd : (s.atStage p .priority).damage = [] := h.quiet.sound
    refine ⟨fun r hr => rest_taken h (examineHead_refused hd hq hr), fun e pe i fifo hs hf hx hpress => ?_, fun e pe hs hf hx => ?_⟩
    · exact rest_taken h (examineHead_served hd hq (hs.atStage ..) hf hx (headServed_stands hpress))
    · exact rest_nothing h (examineHead_unslotted hd hq (hs.atStage ..) hf hx)
        ((State.headUnslotted_damage ..).trans hd)
  · rw [execPoolServiceRound_quiet hq, State.runOf_none hnone]
  · obtain ⟨r, hm, hp⟩ := hsome
    have hfound : ∃ r, s.runOf p = some r := Option.isSome_iff_exists.1 (by simpa [State.runOf] using ⟨r, hm, hp⟩)
    obtain ⟨r, hr⟩ := hfound
    rw [execPoolServiceRound_quiet hq, hr]
    simp only [hrebuild, if_true]
    rw [finishRun_clean hq.sound]
  · rw [State.startRun_again hrebuild hsome]
    exact ⟨rfl, mapRun_caused s p⟩

/-! ### The grant pass past a deadline (R39, R43, R99) -/

section
variable {i : Nat} (hd : s.damage = []) (hpassed : s.passed (s.slot i).deadline = true)
include hd hpassed

theorem grantVisit_stale (h : (s.slot i).state = .stale) : grantVisit i s = afterRelease (s.releasedOf i)
    (State.countReclaimed (State.queueNotice
      (.grantReclaimed (handleOf i (s.slot i).generation) (s.slot i).owner (s.slot i).pool (s.slot i).feature) (s.releaseSlot i))) := by
  have hlive : ((s.slot i).state.live && s.passed (s.slot i).deadline) = true := by rw [h, hpassed]; rfl
  rw [grantVisit, readSlot_bind_clean hd, Op.get_bind, if_pos hlive]
  simp only [h]
  rw [Op.bind_ok (release_live hd (by rw [h]; rfl)), Op.modify_bind]

theorem grantVisit_ended (h : (s.slot i).state = .linger ∨ (s.slot i).state = .recalled) :
    grantVisit i s = afterRelease (s.releasedOf i) (s.releaseSlot i) := by
  have hlive : (s.slot i).state.live = true := by rcases h with h | h <;> rw [h] <;> rfl
  rw [grantVisit, readSlot_bind_clean hd, Op.get_bind, if_pos (by rw [hlive, hpassed]; rfl)]
  rcases h with h | h <;> simp only [h] <;> rw [Op.bind_ok (release_live hd hlive)]

end

/-- Settles O39: the visit releases the grant, and the checks and runs of R43 follow. -/
theorem passedGrantIsReleased : Obligations.PassedGrantIsReleased := by
  rintro s label later i g hquiet hround rfl rfl hdeadline
  have hpassed := State.passed_iff.2 hdeadline
  have hd := hquiet.sound
  have hvisit := exec_grantPassVisit_of_round hquiet.high hround
  have visited {v : State} (h : grantVisit s.swp.grantPass.cursor s = .ok () v) : exec (.grantPassVisit []) s = .next (v.passOn .grant) := by
    rw [hvisit, settle_ok h]
  refine ⟨fun hstale => ⟨fun hafter => ?_, fun hafter => ?_⟩, fun hended => ⟨fun hafter => ?_, fun hafter => ?_⟩⟩
  · exact visited ((grantVisit_stale hd hpassed hstale).trans (afterRelease_stands (by simpa [State.countReclaimed] using hd) hafter))
  · exact visited ((grantVisit_stale hd hpassed hstale).trans (afterRelease_settles (by simpa [State.countReclaimed] using hd) hafter))
  · exact visited ((grantVisit_ended hd hpassed hended).trans (afterRelease_stands (by simpa using hd) hafter))
  · exact visited ((grantVisit_ended hd hpassed hended).trans (afterRelease_settles (by simpa using hd) hafter))

/-! ### The waiter, pool and client passes (R53, R73, R83, R100 to R102) -/

theorem State.waiterRefusal_of_refused {w : Waiter} {r : Reason} (h : s.WaiterRefused w r) : s.waiterRefusal w = some r := by
  unfold State.waiterRefusal State.epochCurrent
  rcases h with ⟨hpassed, rfl⟩ | ⟨hahead, h⟩
  · rw [if_pos (State.passed_iff.2 hpassed)]
  · rw [if_neg fun h => absurd (State.passed_iff.1 h) (not_le.2 hahead)]
    rcases h with ⟨he, rfl⟩ | ⟨he, e, hf, h⟩
    · simp [he]
    · rw [if_neg (by simp [he]), hf]
      rcases h with ⟨hp, rfl⟩ | ⟨hp, h⟩
      · simp [hp]
      · simp only [ne_eq, hp, not_true, if_false, Option.isNone_iff_eq_none]
        rcases h with ⟨hd, rfl⟩ | ⟨hw, hd, ho, rfl⟩
        · rw [if_pos hd]
        · rw [if_neg (by simp [hw, hd]), if_pos ((s.outOfWindow_iff e).2 ho)]

theorem State.refused_of_waiterRefusal {w : Waiter} {r : Reason} (h : s.waiterRefusal w = some r) : s.WaiterRefused w r := by
  unfold State.waiterRefusal State.epochCurrent at h
  split at h
  · next hpassed =>
    cases h
    exact Or.inl ⟨State.passed_iff.1 hpassed, rfl⟩
  · next hpassed =>
    refine Or.inr ⟨not_le.1 fun hle => hpassed (State.passed_iff.2 hle), ?_⟩
    split at h
    · next he =>
      cases h
      exact Or.inl ⟨by simpa using he, rfl⟩
    · next he =>
      refine Or.inr ⟨by simpa using he, ?_⟩
      split at h
      · cases h
      · next e hf =>
        refine ⟨e, hf, ?_⟩
        split at h
        · next hp =>
          cases h
          exact Or.inl ⟨hp, rfl⟩
        · next hp =>
          refine Or.inr ⟨not_not.1 hp, ?_⟩
          simp only [Option.isNone_iff_eq_none] at h
          split at h
          · next hdisabled =>
            cases h
            exact Or.inl ⟨hdisabled, rfl⟩
          · next hdisabled =>
            obtain ⟨hweight, hpool⟩ := not_or.1 hdisabled
            split at h
            · next ho =>
              cases h
              exact Or.inr ⟨hweight, hpool, (s.outOfWindow_iff e).1 ho, rfl⟩
            · cases h

section
variable {i : Nat} (hd : s.damage = [])
include hd

theorem waiterVisit_unused (h : (s.waiter i).inUse = false) : waiterVisit i s = .ok () s := by
  rw [waiterVisit, check_bind_clean hd, Op.get_bind]
  exact Op.ite_neg (by simp [h]) _ _ s

theorem waiterVisit_used (h : (s.waiter i).inUse = true) :
    waiterVisit i s = .ok () (match s.waiterRefusal (s.waiter i) with
      | some r => s.removed i r none
      | none => s) := by
  rw [waiterVisit, check_bind_clean hd, Op.get_bind]
  refine (Op.ite_pos h _ _ s).trans ?_
  rw [checkAll_bind_clean hd, Op.get_bind]
  cases s.waiterRefusal (s.waiter i) with
  | some r => exact removeWaiter_serve hd i r none
  | none => rfl

theorem poolVisit_after {p : Nat} (h : pressure p true s = .ok () t) : poolVisit p s = .ok () (t.startRun p) := by
  rw [poolVisit, check_bind_clean hd, Op.bind_ok h]
  rfl

theorem clientVisit_unused {label : W32} (h : (s.client i).inUse = false) : clientVisit label i s = .ok () s := by
  rw [clientVisit, checkAll_bind_clean hd, Op.get_bind]
  exact Op.ite_neg (by simp [h]) _ _ s

theorem clientVisit_used {label : W32} (h : (s.client i).inUse = true) :
    clientVisit label i s = .ok () (s.setClient i ((s.client i).pace s.globalEntry label.toNat)) := by
  rw [clientVisit, checkAll_bind_clean hd, Op.get_bind]
  refine (Op.ite_pos h _ _ s).trans ?_
  rw [checkActive_bind_clean hd]
  rfl

end

/-- The pace counter's rise and fall at a visit for second `sec` (R73). -/
theorem Client.pace_eq (e : GlobalEntry) (sec : Nat) (c : Client) (rise fall : Nat)
    (hrise : rise = if sec % e.bi = 0 then (if c.activity = true then min (min c.rp e.pmax + 1) e.pmax else min c.rp e.pmax) else c.rp)
    (hfall : fall = if sec % e.di = 0 then min rise e.pmax - 1 else rise) :
    c.pace e sec = { c with rp := fall, activity := if sec % e.bi = 0 then false else c.activity } := by
  have hstep : (if c.activity = true ∧ min c.rp e.pmax ≠ e.pmax then min c.rp e.pmax + 1 else min c.rp e.pmax) =
      if c.activity = true then min (min c.rp e.pmax + 1) e.pmax else min c.rp e.pmax := by
    by_cases ha : c.activity = true
    · by_cases hmax : min c.rp e.pmax = e.pmax
      · rw [if_neg fun h => h.2 hmax, if_pos ha]
        omega
      · rw [if_pos ⟨ha, hmax⟩, if_pos ha]
        omega
    · rw [if_neg fun h => ha h.1, if_neg ha]
  subst hfall hrise
  unfold Client.pace
  by_cases hb : sec % e.bi = 0 <;> by_cases hdi : sec % e.di = 0 <;> simp only [hb, hdi, if_true, if_false, hstep]

/-- The notice of a pool become NORMAL carries the figures of the pool as they stood (R83, R84). -/
theorem poolNotice_normal (s : State) (p : Nat) :
    (s.setPoolLive p { s.poolLive p with pressure := .normal, entryTime := s.swp.mt }).pressureNotice p .normal s.swp.mt =
      State.queueNotice (.poolPressure p .normal s.swp.mt (s.freeMeasure p) (s.ce p) (s.poolLive p).up (s.poolLive p).ug (s.poolLive p).w)
        (s.setPoolLive p { s.poolLive p with pressure := .normal, entryTime := s.swp.mt }) := by
  have hlive : (s.setPoolLive p { s.poolLive p with pressure := .normal, entryTime := s.swp.mt }).poolLive p =
      { s.poolLive p with pressure := .normal, entryTime := s.swp.mt } := (State.poolLive_setPoolLive ..).trans (if_pos rfl)
  have hce : (s.setPoolLive p { s.poolLive p with pressure := .normal, entryTime := s.swp.mt }).ce p = s.ce p := by
    unfold State.ce
    rw [hlive]
    rfl
  simp only [State.pressureNotice, State.freeMeasure, hlive, hce]

theorem exec_pass {id : PassId} {act : W32 → Nat → Op Unit} {c : Instr} {label : W32} {later : List W32} {v : State}
    (hc : exec c s = .next (awake s fun u => passVisit id act u)) (hq : s.Quiet) (hround : (s.swp.pass id).rounds = label :: later)
    (hact : act label (s.swp.pass id).cursor s = .ok () v) : exec c s = .next (v.passOn id) := by
  rw [hc, awake_high hq.high, passVisit_of_round hround, settle_ok hact]

/-- Settles O40: each pass by its visit, the pace update with its rise and fall. -/
theorem waiterPoolAndClientPassesAct : Obligations.WaiterPoolAndClientPassesAct := by
  refine ⟨fun s label later i hq hround hi => ⟨fun r hused hr => ?_, fun hstands => ?_⟩, fun s label later hq hround => ⟨fun h => ?_, fun h => ?_, fun h => ?_⟩,
    fun s label later i n c e hq hround hi hn hc he => ⟨fun hunused => ?_, fun hused rise fall hrise hfall => ?_⟩⟩
  · subst hi
    refine exec_pass (id := .waiter) (c := .waiterPassVisit []) rfl hq hround ((waiterVisit_used hq.sound hused).trans ?_)
    rw [State.waiterRefusal_of_refused hr]
  · subst hi
    refine exec_pass (id := .waiter) (c := .waiterPassVisit []) rfl hq hround ?_
    show waiterVisit s.swp.waiterPass.cursor s = _
    cases hused : (s.waiter s.swp.waiterPass.cursor).inUse with
    | false => exact waiterVisit_unused hq.sound hused
    | true =>
      have hnone : s.waiterRefusal (s.waiter s.swp.waiterPass.cursor) = none := by
        refine Option.eq_none_iff_forall_ne_some.2 fun r hr => ?_
        rcases hstands with hunused | hnot
        · rw [hused] at hunused
          cases hunused
        · exact hnot r (State.refused_of_waiterRefusal hr)
      rw [waiterVisit_used hq.sound hused, hnone]
  · exact exec_pass (id := .pool) (c := .poolPassVisit []) rfl hq hround (poolVisit_after hq.sound (pressure_stands hq.sound h))
  · exact exec_pass (id := .pool) (c := .poolPassVisit []) rfl hq hround (poolVisit_after hq.sound (pressure_settles hq.sound h))
  · have hsettles : s.PressureSettles s.swp.poolPass.cursor := fun he => absurd (h.2.1.symm.trans he.2.1) nofun
    rw [← poolNotice_normal, ← State.checked_leaves h]
    exact exec_pass (id := .pool) (c := .poolPassVisit []) rfl hq hround (poolVisit_after hq.sound (pressure_settles hq.sound hsettles))
  · subst hi hc
    exact exec_pass (id := .client) (c := .clientPassVisit []) rfl hq hround (clientVisit_unused hq.sound hunused)
  · subst hi hc hn he
    refine exec_pass (id := .client) (c := .clientPassVisit []) rfl hq hround ((clientVisit_used hq.sound hused).trans ?_)
    rw [Client.pace_eq s.globalEntry label.toNat _ rise fall hrise hfall]

/-! ### Cost, capacity and availability (R4 to R6, R9) -/

theorem costOf_eq_iff (u w k : Nat) : costOf u w = k ↔ u * w ≤ 16 * k ∧ 16 * k < u * w + 16 := by
  unfold costOf
  omega

theorem costOf_range {u w : Nat} (hu : 1 ≤ u) (hmax : u ≤ 255) (hw : 1 ≤ w) (hwmax : w ≤ 4095) : 1 ≤ costOf u w ∧ costOf u w ≤ 65265 := by
  have hlow : 1 ≤ u * w := Nat.mul_pos hu hw
  have hhigh : u * w ≤ 255 * 4095 := Nat.mul_le_mul hmax hwmax
  unfold costOf
  omega

/-- Settles O41: the rounding by `omega`, the saturated differences by the entry read, and the fit by the two availabilities. -/
theorem costAndAvailabilityAreExact : Obligations.CostAndAvailabilityAreExact := by
  refine ⟨costOf_eq_iff, fun u w hu hmax hw hwmax => costOf_range hu hmax hw hwmax, fun s p hnone => ⟨?_, fun c => ?_⟩,
    fun s p pe hpe => ⟨?_, ?_, ?_⟩, fun s p k c hk hfits => ?_⟩
  · simp [State.ce, hnone]
  · simp [State.availability, hnone]
  · simp only [State.ce, hpe]
    omega
  · simp only [State.availability, hpe]
    omega
  · simp only [State.availability, hpe]
    omega
  · cases hpe : s.poolEntry p with
    | none =>
      simp only [State.availability, hpe] at hfits
      omega
    | some pe =>
      cases c <;> simp only [State.availability, hpe] at hfits <;> omega

/-! ### Entry to CONSTRAINED (R82, R84) -/

/-- The releases of a list of lingering grants of a pool, one after another. -/
structure State.GrantsDrained (s : State) (p : Nat) (l : List Nat) (t : State) : Prop where
  freed : ∀ i ∈ l, t.slot i = { s.slot i with state := .free, reason := none, generation := (s.slot i).generation + 1 }
  slots : ∀ i, i ∉ l → t.slot i = s.slot i
  used : ∀ c, (t.poolLive p).used c = (s.poolLive p).used c - (l.map fun i => if (s.slot i).cls = c then (s.slot i).cost else 0).sum
  rest : (t.poolLive p).w = (s.poolLive p).w ∧ (t.poolLive p).pressure = (s.poolLive p).pressure ∧
    (t.poolLive p).entryTime = (s.poolLive p).entryTime
  pools : ∀ q, q ≠ p → t.poolLive q = s.poolLive q
  units : ∀ f, t.featLive f = ⟨(s.featLive f).hf - (l.map fun i =>
    if (s.slot i).feature = f ∧ (s.slot i).epoch = (s.featLive f).epoch then (s.slot i).units else 0).sum, (s.featLive f).epoch⟩
  lingers : ∀ q, q ≠ p → t.lingerList q = s.lingerList q
  fifo : t.grt.freeFifo = s.grt.freeFifo ++ l
  runs : t.adm.runs = s.adm.runs
  wts : t.wts = s.wts
  tbs : t.tbs = s.tbs
  swp : t.swp = s.swp

theorem releases_drained {p : Nat} (l : List Nat) : ∀ s : State, l.Nodup → (∀ i ∈ l, (s.slot i).state = .linger ∧ (s.slot i).pool = p) →
    s.GrantsDrained p l (l.foldl (fun t i => t.releaseSlot i) s) := by
  induction l with
  | nil =>
    exact fun s _ _ => ⟨nofun, fun _ _ => rfl, fun _ => rfl, ⟨rfl, rfl, rfl⟩, fun _ _ => rfl, fun _ => rfl, fun _ _ => rfl,
      (List.append_nil _).symm, rfl, rfl, rfl, rfl⟩
  | cons i l ih =>
    intro s hn hl
    obtain ⟨hi, hnodup⟩ := List.nodup_cons.1 hn
    obtain ⟨hlinger, hpool⟩ := hl i List.mem_cons_self
    have hne (j : Nat) (hj : j ∈ l) : j ≠ i := fun h => hi (h ▸ hj)
    have hother (j : Nat) (h : j ≠ i) : (s.releaseSlot i).slot j = s.slot j := (State.slot_releaseFrom s true i j).trans (if_neg h)
    have hself : (s.releaseSlot i).slot i = { s.slot i with state := .free, reason := none, generation := (s.slot i).generation + 1 } :=
      (State.slot_releaseFrom s true i i).trans (if_pos rfl)
    have hsame (f : Slot → Nat) : l.map (fun j => f ((s.releaseSlot i).slot j)) = l.map fun j => f (s.slot j) :=
      List.map_congr_left fun j hj => by rw [hother j (hne j hj)]
    obtain ⟨freed, slots, used, rest, pools, units, lingers, fifo, runs, wts, tbs, swp⟩ :=
      ih (s.releaseSlot i) hnodup fun j hj => by rw [hother j (hne j hj)]; exact hl j (List.mem_cons_of_mem _ hj)
    refine ⟨fun j hj => ?_, fun j hj => ?_, fun c => ?_, ?_, fun q hq => ?_, fun f => ?_, fun q hq => ?_, ?_, ?_, ?_, ?_, ?_⟩
    · rcases List.mem_cons.1 hj with rfl | hj
      · exact (slots j hi).trans hself
      · exact (freed j hj).trans (by rw [hother j (hne j hj)])
    · exact (slots j fun h => hj (List.mem_cons_of_mem _ h)).trans (hother j fun h => hj (h ▸ List.mem_cons_self))
    · rw [List.foldl_cons, used, releaseSlot_used, hsame fun g => if g.cls = c then g.cost else 0, List.map_cons, List.sum_cons, ← Nat.sub_sub]
      congr 1
      by_cases hc : (s.slot i).cls = c
      · rw [if_pos ⟨hpool.symm, hc.symm⟩, if_pos hc]
      · rw [if_neg fun h => hc h.2.symm, if_neg hc, Nat.sub_zero]
    · obtain ⟨hw, hpressure, htime⟩ := releaseSlot_pool_rest s i p
      exact ⟨rest.1.trans hw, rest.2.1.trans hpressure, rest.2.2.trans htime⟩
    · refine (pools q hq).trans ?_
      rw [State.releaseSlot, State.poolLive_releaseFrom, if_neg (by rw [hpool]; exact hq)]
    · rw [List.foldl_cons, units, releaseSlot_epoch,
        hsame fun g => if g.feature = f ∧ g.epoch = (s.featLive f).epoch then g.units else 0, List.map_cons, List.sum_cons, ← Nat.sub_sub]
      congr 2
      rw [releaseSlot_featLive]
      by_cases hf : (s.slot i).feature = f ∧ (s.slot i).epoch = (s.featLive f).epoch
      · obtain ⟨rfl, hepoch⟩ := hf
        rw [if_pos ⟨rfl, unitsCounted_iff.2 ⟨by rw [hlinger]; nofun, hepoch⟩⟩, if_pos ⟨rfl, hepoch⟩]
      · rw [if_neg hf, Nat.sub_zero, if_neg]
        rintro ⟨rfl, hcounted⟩
        exact hf ⟨rfl, (unitsCounted_iff.1 hcounted).2⟩
    · exact (lingers q hq).trans ((releaseSlot_linger ..).trans (if_neg fun h => hq (h.2.trans hpool)))
    · rw [List.foldl_cons, fifo, releaseSlot_fifo, List.append_assoc]
      rfl
    · exact runs.trans (State.releaseFrom_runs ..)
    · exact wts.trans (State.releaseSlot_wts ..)
    · exact tbs.trans (State.releaseSlot_tbs ..)
    · exact swp.trans (State.releaseSlot_swp ..)

theorem State.entryService_rebuild (h : s.ada.op.isRebuild = true) : s.entryService p = s.pressureNotice p .constrained (s.poolLive p).entryTime :=
  if_pos h

/-- With a run of the pool in progress the entry's notice is owed by it, and a parted round remembers the cause (R57, R82). -/
theorem State.entryService_again (h : s.ada.op.isRebuild = false) (hr : ∃ r ∈ s.adm.runs, r.pool = p) :
    s.entryService p = { s with adm.runs := s.adm.runs.map fun r =>
      if r.pool = p then ⟨p, r.owed ++ [(s.poolLive p).entryTime], if r.stage = .priority then .priority else .general true⟩ else r } := by
  rw [State.entryService, if_neg (by simp [h]), State.startRun_again h hr]
  unfold State.mapRun
  dsimp only
  congr 2
  rw [List.map_map]
  refine List.map_congr_left fun r _ => ?_
  obtain ⟨pool, owed, stage⟩ := r
  by_cases hp : pool = p
  · cases stage <;> simp [hp, RunStage.caused]
  · simp [hp]

/-- The pool's record and the releases of an entry to CONSTRAINED, its check going no further than the pool (R82). -/
theorem lingerReleased_drained (he : s.PressureEnters p) (h : s.PressureSettles p) :
    (s.setPoolLive p { s.poolLive p with pressure := .constrained, entryTime := s.swp.mt }).GrantsDrained p (s.lingerList p)
      ((s.lingerList p).foldl (fun u i => u.releaseSlot i)
        (s.setPoolLive p { s.poolLive p with pressure := .constrained, entryTime := s.swp.mt })) :=
  releases_drained _ _ (h he).1 fun i hi => ⟨((h he).2 i hi).1, ((h he).2 i hi).2.1⟩

theorem lingerReleased_pool (he : s.PressureEnters p) (h : s.PressureSettles p) :
    (s.lingerReleased p).poolLive p = { s.poolLive p with
      pressure := .constrained, entryTime := s.swp.mt, up := ((s.lingerReleased p).poolLive p).up
      ug := ((s.lingerReleased p).poolLive p).ug } := by
  obtain ⟨hw, hpressure, htime⟩ := (lingerReleased_drained he h).rest
  rw [State.poolLive_setPoolLive, if_pos rfl] at hw hpressure htime
  have hsame : (s.lingerReleased p).poolLive p = ((s.lingerList p).foldl (fun u i => u.releaseSlot i)
      (s.setPoolLive p { s.poolLive p with pressure := .constrained, entryTime := s.swp.mt })).poolLive p := rfl
  rw [hsame]
  generalize State.poolLive (List.foldl _ _ _) p = l at hw hpressure htime ⊢
  cases l
  simp_all

/-- The notices a run owes carry the figures of its end (R82 point 4, R84). -/
theorem pressureNotices_figures (s : State) (p : Nat) (owed : List W32) : ∀ u : State, u.adm.pools = s.adm.pools → u.tbs = s.tbs →
    owed.foldl (fun u t => u.pressureNotice p .constrained t) u = owed.foldl (fun u t => u.queueNotice
      (.poolPressure p .constrained t (s.freeMeasure p) (s.ce p) (s.poolLive p).up (s.poolLive p).ug (s.poolLive p).w)) u := by
  induction owed with
  | nil => exact fun _ _ _ => rfl
  | cons t owed ih =>
    intro u hpools htbs
    have hlive : u.poolLive p = s.poolLive p := State.poolLive_congr hpools p
    have hce : u.ce p = s.ce p := by simp only [State.ce, State.poolEntry, State.activeBank_congr htbs, hlive]
    have hnotice : u.pressureNotice p .constrained t = u.queueNotice
        (.poolPressure p .constrained t (s.freeMeasure p) (s.ce p) (s.poolLive p).up (s.poolLive p).ug (s.poolLive p).w) := by
      simp only [State.pressureNotice, State.freeMeasure, hlive, hce]
    rw [List.foldl_cons, List.foldl_cons, hnotice]
    exact ih _ (by simpa using hpools) (by simpa using htbs)

theorem lingerList_setLinger (s : State) (p q : Nat) (l : List Nat) : (s.setLinger p l).lingerList q = if q = p then l else s.lingerList q :=
  Tab.get_put ..

theorem lingerList_setLinger_self (s : State) (p : Nat) (l : List Nat) : (s.setLinger p l).lingerList p = l :=
  (lingerList_setLinger ..).trans (if_pos rfl)

theorem lingerList_setLinger_ne (s : State) {p q : Nat} (l : List Nat) (h : q ≠ p) : (s.setLinger p l).lingerList q = s.lingerList q :=
  (lingerList_setLinger ..).trans (if_neg h)

/-- A release leaves the operation in the slot what it is (R161). -/
theorem releaseSlot_isRebuild (s : State) (i : Nat) : (s.releaseSlot i).ada.op.isRebuild = s.ada.op.isRebuild := by
  rw [State.releaseSlot, State.releaseFrom_op, State.rebuildPassed_op]
  split
  · next r hr =>
    rw [hr]
    split <;> rfl
  · rfl

theorem releases_isRebuild (l : List Nat) : ∀ s : State,
    (l.foldl (fun u i => u.releaseSlot i) s).ada.op.isRebuild = s.ada.op.isRebuild := by
  induction l with
  | nil => exact fun _ => rfl
  | cons i l ih => exact fun s => (ih _).trans (releaseSlot_isRebuild s i)

/-- Settles O43: the check by `State.checked`, the releases of the linger list as a whole, and the notices of a run's end. -/
theorem pressureEntersAndLeaves : Obligations.PressureEntersAndLeaves := by
  refine ⟨fun s p leave hq => ⟨fun hf => pressure_stands hq.sound (Or.inl hf), fun he hsettles => ?_, fun hleaves hleave => ?_⟩,
    fun s p a b owed x hruns ha hb => ?_⟩
  · have hpool := lingerReleased_pool he hsettles
    have hdrained := lingerReleased_drained he hsettles
    have hcheck := pressure_settles hq.sound (leave := leave) hsettles
    rw [State.checked_enters he] at hcheck
    have htime : ((s.lingerReleased p).poolLive p).entryTime = s.swp.mt := by rw [hpool]
    have hop : (s.lingerReleased p).ada.op.isRebuild = s.ada.op.isRebuild := releases_isRebuild (s.lingerList p) _
    have hruns : (s.lingerReleased p).adm.runs = s.adm.runs := hdrained.runs
    have hused (c : Cls) : ((s.setPoolLive p { s.poolLive p with pressure := .constrained, entryTime := s.swp.mt }).poolLive p).used c =
        (s.poolLive p).used c := by
      rw [State.poolLive_setPoolLive, if_pos rfl]
      cases c <;> rfl
    refine ⟨fun hrebuild => ?_, fun hrebuild hnone => ?_, fun hrebuild hsome => ?_, hpool, fun c => (hdrained.used c).trans ?_,
      fun q hqp => (hdrained.pools q hqp).trans ((State.poolLive_setPoolLive ..).trans (if_neg hqp)), hdrained.units,
      lingerList_setLinger_self _ p [], fun q hqp => (lingerList_setLinger_ne _ [] hqp).trans (hdrained.lingers q hqp),
      hdrained.freed, hdrained.slots, hdrained.fifo, hruns, hdrained.wts, hdrained.tbs, hdrained.swp⟩
    · rw [State.entryService_rebuild (hop.trans hrebuild), htime] at hcheck
      exact hcheck
    · rw [State.entryService_new (hop.trans hrebuild) (by rw [hruns]; exact hnone), htime, hruns] at hcheck
      exact hcheck
    · rw [State.entryService_again (hop.trans hrebuild) (by rw [hruns]; exact hsome), htime, hruns] at hcheck
      exact hcheck
    · rw [hused]
      rfl
  · have hsettles : s.PressureSettles p := fun he => absurd (hleaves.2.1.symm.trans he.2.1) nofun
    rw [hleave, ← poolNotice_normal, ← State.checked_leaves hleaves]
    exact pressure_settles hq.sound hsettles
  · have hkept : s.adm.runs.filter (fun r => !(r.pool == p)) = a ++ b := by
      have hleft (l : List Run) (h : ∀ r ∈ l, r.pool ≠ p) : l.filter (fun r => !(r.pool == p)) = l :=
        List.filter_eq_self.2 fun r hr => by simp [h r hr]
      rw [hruns, List.filter_append, List.filter_cons_of_neg (by simp), hleft a ha, hleft b hb]
    have howed : (s.adm.runs.filter (fun r => r.pool == p)).flatMap (·.owed) = owed := by
      have hgone (l : List Run) (h : ∀ r ∈ l, r.pool ≠ p) : l.filter (fun r => r.pool == p) = [] :=
        List.filter_eq_nil_iff.2 fun r hr => by simp [h r hr]
      rw [hruns, List.filter_append, List.filter_cons_of_pos (by simp), hgone a ha, hgone b hb]
      simp
    rw [State.endRun, howed, hkept]
    exact pressureNotices_figures s p owed _ rfl rfl

end Sys2Proof.Machine

/-! PROOFS. A bank entry read back from its words (section 12.3). -/
namespace Sys2Proof.Machine

/-! ### Fields of a word -/

theorem natBits_eq (w : W32) (low width : Nat) : natBits w low width = w.toNat / 2 ^ low % 2 ^ width := by
  rw [natBits, BitVec.extractLsb'_toNat, Nat.shiftRight_eq_div_pow]

theorem toNat_append_add {v w : Nat} (a : BitVec v) (b : BitVec w) : (a ++ b).toNat = a.toNat * 2 ^ w + b.toNat := by
  rw [BitVec.toNat_append, ← Nat.shiftLeft_add_eq_or_of_lt b.isLt, Nat.shiftLeft_eq]

/-- The number in the upper half of a word. -/
theorem natBits_upper (n : Nat) (b : W16) (h : n < 65536) : natBits (BitVec.ofNat 16 n ++ b) 16 16 = n := by
  have hb := b.isLt
  rw [natBits_eq, toNat_append_add, BitVec.toNat_ofNat]
  omega

/-- The lower half of a word. -/
theorem natBits_lower (a b : W16) : natBits (a ++ b) 0 16 = b.toNat := by
  have hb := b.isLt
  rw [natBits_eq, toNat_append_add]
  omega

theorem natBits_lower_number (a : W16) (n : Nat) (h : n < 65536) : natBits (a ++ BitVec.ofNat 16 n) 0 16 = n := by
  rw [natBits_lower, BitVec.toNat_ofNat]
  exact Nat.mod_eq_of_lt h

theorem extract_lower (a b : W16) : (a ++ b : W32).extractLsb' 0 16 = b :=
  BitVec.eq_of_toNat_eq (natBits_lower a b)

/-- A number kept in a whole word. -/
theorem toNat_word (n : Nat) (h : n < 4294967296) : (BitVec.ofNat 32 n).toNat = n := by
  rw [BitVec.toNat_ofNat]
  exact Nat.mod_eq_of_lt h

/-- The numbers in the four bytes of a word. -/
theorem natBits_bytes (a b c d : Nat) (ha : a < 256) (hb : b < 256) (hc : c < 256) (hd : d < 256) :
    natBits (BitVec.ofNat 8 a ++ BitVec.ofNat 8 b ++ BitVec.ofNat 8 c ++ BitVec.ofNat 8 d) 24 8 = a ∧
    natBits (BitVec.ofNat 8 a ++ BitVec.ofNat 8 b ++ BitVec.ofNat 8 c ++ BitVec.ofNat 8 d) 16 8 = b ∧
    natBits (BitVec.ofNat 8 a ++ BitVec.ofNat 8 b ++ BitVec.ofNat 8 c ++ BitVec.ofNat 8 d) 8 8 = c ∧
    natBits (BitVec.ofNat 8 a ++ BitVec.ofNat 8 b ++ BitVec.ofNat 8 c ++ BitVec.ofNat 8 d) 0 8 = d := by
  simp only [natBits_eq, toNat_append_add, BitVec.toNat_ofNat]
  omega

/-- The bytes of a word put together from four. -/
theorem bytes32_append (a b c d : Byte) : bytes32 (a ++ b ++ c ++ d) = [a, b, c, d] := by
  have ha := a.isLt
  have hb := b.isLt
  have hc := c.isLt
  have hd := d.isLt
  have hfield : ∀ (low : Nat) (v : Byte), (a ++ b ++ c ++ d).toNat / 2 ^ low % 2 ^ 8 = v.toNat →
      (a ++ b ++ c ++ d : W32).extractLsb' low 8 = v := by
    intro low v h
    exact BitVec.eq_of_toNat_eq ((natBits_eq _ low 8).trans h)
  have h24 := hfield 24 a (by rw [toNat_append_add, toNat_append_add, toNat_append_add]; omega)
  have h16 := hfield 16 b (by rw [toNat_append_add, toNat_append_add, toNat_append_add]; omega)
  have h8 := hfield 8 c (by rw [toNat_append_add, toNat_append_add, toNat_append_add]; omega)
  have h0 := hfield 0 d (by rw [toNat_append_add, toNat_append_add, toNat_append_add]; omega)
  rw [bytes32, h24, h16, h8, h0]

/-! ### The entries of each kind -/

theorem readFeatureEntry_words {e : FeatureEntry} (hcode : e.code ≠ 0) (hrange : e.inRange = true) :
    readFeatureEntry e.words = some e := by
  obtain ⟨code, pool, weight, cap, mask, start, stop, waiting, linger⟩ := e
  obtain ⟨hpool, hweight, hcap⟩ : pool ≤ 1023 ∧ weight ≤ 4095 ∧ cap ≤ 65535 := of_decide_eq_true hrange
  have h1 := natBits_upper pool (BitVec.ofNat 16 weight) (by omega)
  have h2 := natBits_lower_number (BitVec.ofNat 16 pool) weight (by omega)
  have h3 := natBits_upper cap mask (by omega)
  have h4 := extract_lower (BitVec.ofNat 16 cap) mask
  have hflags : ∀ w l : Bool,
      (BitVec.ofNat 32 ((if l then 2 else 0) + (if w then 1 else 0))).getLsbD 0 = w ∧
      (BitVec.ofNat 32 ((if l then 2 else 0) + (if w then 1 else 0))).getLsbD 1 = l ∧
      natBits (BitVec.ofNat 32 ((if l then 2 else 0) + (if w then 1 else 0))) 2 30 = 0 := by decide
  obtain ⟨h5, h6, h7⟩ := hflags waiting linger
  simp only [readFeatureEntry, FeatureEntry.words, wordAt, List.getD_cons_zero, List.getD_cons_succ, h1, h2, h3, h4, h5, h6, h7]
  rw [if_neg hcode, if_pos ⟨hrange, trivial⟩]

theorem readPoolEntry_words {e : PoolEntry} (hdefined : e.defined = true) (hrange : e.inRange = true) :
    readPoolEntry e.words = some e := by
  obtain ⟨defined, capacity, rp, rg, lm, hm, mr, lt, ri, sg, mw, mwt⟩ := e
  obtain rfl : defined = true := hdefined
  have hbounds : rp + rg ≤ capacity ∧ capacity ≤ Config.maxTokens ∧ lm ≤ hm ∧ hm ≤ Config.maxTokens
      ∧ 10 ≤ ri ∧ ri ≤ 3600 ∧ mw ≤ 4095 ∧ mr ≤ 65535 ∧ lt ≤ 65535 ∧ sg ≤ 65535 ∧ mwt ≤ 65535 := of_decide_eq_true hrange
  have hmax : Config.maxTokens < 4294967296 := by decide
  have h1 := toNat_word capacity (by omega)
  have h2 := toNat_word rp (by omega)
  have h3 := toNat_word rg (by omega)
  have h4 := toNat_word lm (by omega)
  have h5 := toNat_word hm (by omega)
  have h6 := natBits_upper mr (BitVec.ofNat 16 lt) (by omega)
  have h7 := natBits_lower_number (BitVec.ofNat 16 mr) lt (by omega)
  have h8 := natBits_upper ri (BitVec.ofNat 16 sg) (by omega)
  have h9 := natBits_lower_number (BitVec.ofNat 16 ri) sg (by omega)
  have h10 := natBits_upper mw (BitVec.ofNat 16 mwt) (by omega)
  have h11 := natBits_lower_number (BitVec.ofNat 16 mw) mwt (by omega)
  have hflag : natBits (BitVec.ofNat 32 1) 1 31 = 0 := by decide
  simp only [readPoolEntry, PoolEntry.words, wordAt, List.getD_cons_zero, List.getD_cons_succ, h1, h2, h3, h4, h5, h6, h7, h8, h9,
    h10, h11]
  rw [if_neg (by decide), if_pos ⟨hrange, hflag⟩]

theorem ClassSlot.ofByte_byte (c : ClassSlot) : ClassSlot.ofByte c.byte = c := by
  obtain ⟨cls, pace, churn⟩ := c
  cases cls <;> cases pace <;> cases churn <;> rfl

theorem ClassSlot.byte_lt (c : ClassSlot) : c.byte.toNat < 8 := by
  obtain ⟨cls, pace, churn⟩ := c
  cases cls <;> cases pace <;> cases churn <;> decide

theorem SiteEntry.slots_eq {e : SiteEntry} (h : e.slots.length = 8) :
    e.slots = [e.slot 0, e.slot 1, e.slot 2, e.slot 3, e.slot 4, e.slot 5, e.slot 6, e.slot 7] := by
  obtain ⟨defined, group, slots⟩ := e
  match slots, h with
  | [_, _, _, _, _, _, _, _], _ => rfl

theorem readSiteEntry_words {e : SiteEntry} (hdefined : e.defined = true) (hgroup : e.group ≤ 15) (hslots : e.slots.length = 8) :
    readSiteEntry e.words = some e := by
  have hhead : natBits (BitVec.ofNat 8 1 ++ BitVec.ofNat 8 e.group ++ (0 : W16)) 24 8 = 1 ∧
      natBits (BitVec.ofNat 8 1 ++ BitVec.ofNat 8 e.group ++ (0 : W16)) 16 8 = e.group ∧
      natBits (BitVec.ofNat 8 1 ++ BitVec.ofNat 8 e.group ++ (0 : W16)) 0 16 = 0 := by
    have hzero : (0 : W16).toNat = 0 := rfl
    simp only [natBits_eq, toNat_append_add, BitVec.toNat_ofNat, hzero]
    omega
  obtain ⟨h1, h2, h3⟩ := hhead
  have hbytes := bytes32_append (e.slot 0).byte (e.slot 1).byte (e.slot 2).byte (e.slot 3).byte
  have hbytes' := bytes32_append (e.slot 4).byte (e.slot 5).byte (e.slot 6).byte (e.slot 7).byte
  have hread : [(e.slot 0).byte, (e.slot 1).byte, (e.slot 2).byte, (e.slot 3).byte, (e.slot 4).byte, (e.slot 5).byte,
      (e.slot 6).byte, (e.slot 7).byte].map ClassSlot.ofByte = e.slots := by
    simp only [List.map_cons, List.map_nil, ClassSlot.ofByte_byte]
    exact (SiteEntry.slots_eq hslots).symm
  simp only [readSiteEntry, SiteEntry.words, wordAt, wordBytes, List.getD_cons_zero, List.getD_cons_succ, hdefined, if_true, h1, h2, h3,
    hbytes, hbytes', List.cons_append, List.nil_append, hread]
  rw [if_neg (by decide), if_pos ⟨trivial, hgroup, trivial, by simp [ClassSlot.byte_lt]⟩]
  exact congrArg some (congrArg (fun b => (⟨b, e.group, e.slots⟩ : SiteEntry)) hdefined.symm)

theorem readGlobalEntry_words {e : GlobalEntry} (hrange : e.inRange = true) : readGlobalEntry e.words = some e := by
  obtain ⟨bi, di, pmax, pt, cmax, mh, mp, mg, grantLimit⟩ := e
  have hbounds : 1 ≤ bi ∧ bi ≤ 60 ∧ 1 ≤ di ∧ di ≤ 600 ∧ 1 ≤ pmax ∧ pmax ≤ 63 ∧ pt ≤ 63 ∧ 1 ≤ cmax ∧ cmax ≤ 63
      ∧ mh ≤ 3600 ∧ mp + mg ≤ 4096 ∧ 1 ≤ grantLimit ∧ grantLimit ≤ 1024 := of_decide_eq_true hrange
  obtain ⟨h1, h2, h3, h4⟩ := natBits_bytes bi pmax pt cmax (by omega) (by omega) (by omega) (by omega)
  have h5 := natBits_upper di (BitVec.ofNat 16 mh) (by omega)
  have h6 := natBits_lower_number (BitVec.ofNat 16 di) mh (by omega)
  have h7 := natBits_upper mp (BitVec.ofNat 16 mg) (by omega)
  have h8 := natBits_lower_number (BitVec.ofNat 16 mp) mg (by omega)
  have h9 := natBits_upper grantLimit (0 : W16) (by omega)
  have h10 : natBits (BitVec.ofNat 16 grantLimit ++ (0 : W16)) 0 16 = 0 := natBits_lower ..
  simp only [readGlobalEntry, GlobalEntry.words, wordAt, List.getD_cons_zero, List.getD_cons_succ, h1, h2, h3, h4, h5, h6, h7, h8, h9,
    h10]
  rw [if_pos ⟨hrange, trivial⟩]

/-- Settles O44: an empty or undefined entry reads back from its zero words, every other one field by field. -/
theorem entryWordsReadBack : Obligations.EntryWordsReadBack := by
  intro e h
  cases e with
  | feature e =>
    obtain rfl | ⟨hcode, hrange⟩ := h
    · decide
    · exact congrArg (Option.map Entry.feature) (readFeatureEntry_words hcode hrange)
  | pool e =>
    obtain rfl | ⟨hdefined, hrange⟩ := h
    · decide
    · exact congrArg (Option.map Entry.pool) (readPoolEntry_words hdefined hrange)
  | site e =>
    obtain rfl | ⟨hdefined, hgroup, hslots⟩ := h
    · decide
    · exact congrArg (Option.map Entry.site) (readSiteEntry_words hdefined hgroup hslots)
  | global e => exact congrArg (Option.map Entry.global) (readGlobalEntry_words h)

end Sys2Proof.Machine

/-! PROOFS. WRITE ENTRY (R111, R112, R114). -/
namespace Sys2Proof.Machine

variable {s t : State} {c : Instr} {d : Cand} {rest : List Cand} {st : Nat} {k : TableKind} {i : Nat} {e : Entry} {b : Bank}

/-- A read made only in one case, of a word that reads well. -/
theorem Op.read_if {α : Type} {p : Prop} [Decidable p] {m : Op Unit} (h : m s = .ok () s) (f : Unit → Op α) :
    (if p then m >>= f else f ()) s = f () s := by
  split
  · exact Op.bind_ok h
  · rfl

/-! ### The checks of the carried entries -/

theorem Bank.duplicate_iff (b : Bank) (i : Nat) (code : W32) : b.duplicate i code = true ↔ ∃ j, b.lookup code = some j ∧ j ≠ i := by
  unfold Bank.duplicate
  cases b.lookup code <;> simp

theorem Bank.duplicate_false {b : Bank} {code : W32} (h : ∀ j, b.lookup code = some j → j = i) : b.duplicate i code = false := by
  rw [← Bool.not_eq_true, Bank.duplicate_iff]
  rintro ⟨j, hj, hne⟩
  exact hne (h j hj)

/-- The checks of a carried entry that reads as `e`, no word damaged. -/
theorem checkCarried_read {x : Carried} {earlier : List (Nat × Entry)} (hd : s.damage = []) (hi : x.index < k.size) (hspare : x.spare = 0)
    (he : readEntryWords k x.words = some e) :
    checkCarried k x earlier s =
      if (s.standbyBank.writeAll k earlier).duplicate x.index e.featureCode then .ok (.error .duplicateCode) s
      else if s.standbyBank.damaged k x.index then .ok (.error .refusedState) s else .ok (.ok e) s := by
  rw [checkCarried, Op.ite_neg (Nat.not_le.2 hi), Op.ite_neg (not_not.2 hspare), he]
  dsimp only
  rw [Op.get_bind]
  refine (Op.read_if (check_clean hd _) _).trans ?_
  rw [Op.get_bind]
  by_cases hdup : (s.standbyBank.writeAll k earlier).duplicate x.index e.featureCode = true
  · rw [Op.ite_pos hdup, if_pos hdup, Op.pure_apply]
  · rw [Op.ite_neg hdup, if_neg hdup, check_bind_clean hd, Op.get_bind]
    by_cases hdam : s.standbyBank.damaged k x.index = true
    · rw [Op.ite_pos hdam, if_pos hdam, Op.pure_apply]
    · rw [Op.ite_neg hdam, if_neg hdam, Op.pure_apply]

theorem checkCarried_passes {x : Carried} {earlier : List (Nat × Entry)} (hd : s.damage = [])
    (h : x.Passes k s.standbyBank earlier e) : checkCarried k x earlier s = .ok (.ok e) s := by
  obtain ⟨hi, hspare, he, hdup, hdam⟩ := h
  rw [checkCarried_read hd hi hspare he, Bank.duplicate_false hdup, hdam]
  rfl

theorem checkCarried_fails {x : Carried} {earlier : List (Nat × Entry)} {r : Result} (hd : s.damage = [])
    (h : x.Fails k s.standbyBank earlier r) : checkCarried k x earlier s = .ok (.error r) s := by
  obtain ⟨hi, rfl⟩ | ⟨hi, hbad, rfl⟩ | ⟨hi, hspare, e, he, ⟨hdup, rfl⟩ | ⟨hdup, hdam, rfl⟩⟩ := h
  · rw [checkCarried, Op.ite_pos hi, Op.pure_apply]
  · rw [checkCarried, Op.ite_neg (Nat.not_le.2 hi)]
    by_cases hspare : x.spare = 0
    · rw [Op.ite_neg (not_not.2 hspare), hbad.resolve_left (not_not.2 hspare)]
      rfl
    · rw [Op.ite_pos hspare, Op.pure_apply]
  · rw [checkCarried_read hd hi hspare he, if_pos ((Bank.duplicate_iff ..).2 hdup)]
  · rw [checkCarried_read hd hi hspare he, Bank.duplicate_false hdup, hdam]
    rfl

theorem checkAllCarried_pass (hd : s.damage = []) {cs : List Carried} {earlier l : List (Nat × Entry)}
    (h : CarriedPass k s.standbyBank earlier cs l) : checkAllCarried k cs earlier s = .ok (.ok l) s := by
  induction cs generalizing earlier with
  | nil =>
    obtain rfl : l = earlier := h
    rfl
  | cons x cs ih =>
    obtain ⟨e, hpass, hrest⟩ := h
    rw [checkAllCarried, Op.bind_ok (checkCarried_passes hd hpass)]
    exact ih hrest

/-- The first entry that fails gives its result and its position, counted from 0 (R111). -/
theorem checkAllCarried_fail (hd : s.damage = []) {good later : List Carried} {x : Carried} {earlier l : List (Nat × Entry)} {r : Result}
    (h : CarriedPass k s.standbyBank earlier good l) (hx : x.Fails k s.standbyBank l r) :
    checkAllCarried k (good ++ x :: later) earlier s = .ok (.error (r, earlier.length + good.length)) s := by
  induction good generalizing earlier with
  | nil =>
    obtain rfl : l = earlier := h
    rw [List.nil_append, checkAllCarried, Op.bind_ok (checkCarried_fails hd hx)]
    rfl
  | cons y good ih =>
    obtain ⟨e, hpass, hrest⟩ := h
    rw [List.cons_append, checkAllCarried, Op.bind_ok (checkCarried_passes hd hpass)]
    have hlength : (earlier ++ [(y.index, e)]).length + good.length = earlier.length + (y :: good).length := by
      simp [Nat.add_comm, Nat.add_left_comm]
    exact hlength ▸ ih hrest

/-! ### The writes -/

@[simp] theorem State.writeStandby_damage (s : State) (k : TableKind) (i : Nat) (e : Entry) : (s.writeStandby k i e).damage = s.damage := by
  unfold State.writeStandby
  split <;> cases hstandby : s.standby <;> simp [State.setBank, State.setDiffers]

theorem writeCarried_clean (hd : s.damage = []) (k : TableKind) (l : List (Nat × Entry)) :
    writeCarried k l s = .ok () (l.foldl (fun u y => u.writeStandby k y.1 y.2) s) := by
  induction l generalizing s with
  | nil => rfl
  | cons y l ih =>
    rw [writeCarried]
    refine (Op.read_if (p := k = .feature) (checkActive_clean hd .feature y.1) _).trans ?_
    dsimp only
    rw [Op.modify_bind]
    exact ih ((s.writeStandby_damage k y.1 y.2).trans hd)

variable {x : AdmCtx} {n : Nat}

theorem writeEntries_pass {l : List (Nat × Entry)} (hd : s.damage = [])
    (h : CarriedPass k s.standbyBank [] (carriedEntries k.words n (x.body.drop 4)) l) :
    writeEntries x k n s = .ok () ((l.foldl (fun u y => u.writeStandby k y.1 y.2) s).adminReply x .done []) := by
  rw [writeEntries, Op.bind_ok (checkAllCarried_pass hd h)]
  exact Op.bind_ok (writeCarried_clean hd k l)

theorem writeEntries_fail {good later : List Carried} {y : Carried} {l : List (Nat × Entry)} {r : Result} (hd : s.damage = [])
    (hlist : carriedEntries k.words n (x.body.drop 4) = good ++ y :: later) (h : CarriedPass k s.standbyBank [] good l)
    (hy : y.Fails k s.standbyBank l r) : writeEntries x k n s = .ok () (s.adminReply x r (nat16 good.length)) := by
  rw [writeEntries, hlist, Op.bind_ok (checkAllCarried_fail hd h hy)]
  exact congrArg (fun m => EStateM.Result.ok () (s.adminReply x r (nat16 m))) (Nat.zero_add good.length)

/-! ### The command -/

theorem LongOp.isCopy_false {op : LongOp} (h : ∀ k c, op ≠ .copy k c) : op.isCopy = false := by
  cases op with
  | copy k c => exact absurd rfl (h k c)
  | idle | reconcile | scanRevoke | rebuild | audit | reset => rfl

theorem writeEntryRun_busy {kc : TableKind} {cursor : Nat} (h : s.ada.op = .copy kc cursor) :
    writeEntryRun x s = .ok () (s.adminReply x .busy []) := by
  rw [writeEntryRun, Op.get_bind, Op.ite_pos (by rw [h]; rfl)]
  rfl

theorem writeEntryRun_badValue (h : ∀ k c, s.ada.op ≠ .copy k c)
    (hbad : TableKind.ofCode (x.u8 0) = none ∨ x.u16 2 ≠ 0 ∨ x.u8 1 = 0 ∨ 16 < x.u8 1) :
    writeEntryRun x s = .ok () (s.adminReply x .badValue []) := by
  rw [writeEntryRun, Op.get_bind, Op.ite_neg (by simp [LongOp.isCopy_false h])]
  cases hk : TableKind.ofCode (x.u8 0) with
  | none => rfl
  | some k => exact Op.ite_pos (hbad.resolve_left (by simp [hk])) _ _ s

theorem writeEntryRun_entries (h : ∀ k c, s.ada.op ≠ .copy k c) (hk : TableKind.ofCode (x.u8 0) = some k) (hspare : x.u16 2 = 0)
    (hn : x.u8 1 = n) (hlow : 1 ≤ n) (hhigh : n ≤ 16) : writeEntryRun x s = writeEntries x k n s := by
  rw [writeEntryRun, Op.get_bind, Op.ite_neg (by simp [LongOp.isCopy_false h]), hk]
  exact (Op.ite_neg (by omega) _ _ s).trans (by rw [hn])

theorem exec_writeEntry (h : s.AdminHead .writeEntry d rest st)
    (hrun : writeEntryRun (adminCtx .writeEntry d st) (s.adminTaken d rest st) = .ok () t) : exec (.writeEntry []) s = .next t :=
  exec_admin_at (f := fun u => takeAdmin .writeEntry writeEntryRun (u.strike [])) rfl rfl h hrun

/-! ### What an entry written leaves -/

theorem Bank.write_sum (b : Bank) (k : TableKind) (i : Nat) (e : Entry) :
    (b.write k i e).sum = (if b.damaged k i then b.sum else b.sum - (b.entry k i).sum) + e.sum := by
  unfold Bank.write
  dsimp only
  split <;> rfl

theorem Bank.store_mark_directory (b : Bank) (k : TableKind) (i : Nat) (e : Entry) : ((b.store i e).mark k i false).directory = b.directory := by
  cases e <;> cases k <;> rfl

theorem Bank.write_directory_ne (h : k ≠ .feature) (b : Bank) (i : Nat) (e : Entry) : (b.write k i e).directory = b.directory := by
  unfold Bank.write
  dsimp only
  rw [if_neg h]
  exact b.store_mark_directory k i e

/-- The directory after a feature entry is written (R112). -/
theorem Bank.write_directory_feature (b : Bank) (i : Nat) (e : Entry) :
    (b.write .feature i e).directory = (b.redirect i e.featureCode).directory := by
  unfold Bank.write
  dsimp only
  rw [if_pos rfl]
  have h := b.store_mark_directory .feature i e
  simp only [Bank.redirect, h]

/-- What a canonical table gives after pairs are dropped by their records. -/
theorem Tab.get_filter {α : Type} [DecidableEq α] (d : α) (p : α → Bool) (t : Tab α) {lo : Nat} (w : Tab.wfFrom d lo t = true) (k : Nat) :
    Tab.get d (t.filter (fun kv => p kv.2)) k = if p (Tab.get d t k) then Tab.get d t k else d := by
  induction t generalizing lo with
  | nil => exact (ite_self _).symm
  | cons a t ih =>
    obtain ⟨j, v⟩ := a
    obtain ⟨-, hrest⟩ : (decide (lo ≤ j) && decide (v ≠ d)) = true ∧ Tab.wfFrom d (j + 1) t = true := by
      simpa [Tab.wfFrom] using w
    have hgone : Tab.get d t j = d := Tab.get_lt d t hrest (Nat.lt_succ_self j)
    rw [List.filter_cons]
    by_cases hk : j = k
    · subst hk
      cases hp : p v <;> simp [Tab.get, hp, ih hrest, hgone]
    · cases hp : p v <;> simp [Tab.get, hk, ih hrest]

theorem Bank.lookup_redirect_self (b : Bank) (i : Nat) {code : W32} (h : code ≠ 0) : (b.redirect i code).lookup code = some i := by
  rw [Bank.lookup, if_neg h, Bank.redirect, if_neg h]
  exact Tab.get_put_self (none : Option Nat) _ _ (some i)

theorem Bank.lookup_redirect_ne (hb : Tab.wf none b.directory = true) (i : Nat) {code other : W32} (h : other ≠ code) :
    (b.redirect i code).lookup other = if b.lookup other = some i then none else b.lookup other := by
  have hkept : Tab.get none (b.directory.filter (fun kv => decide (kv.2 ≠ some i))) other.toNat =
      if Tab.get none b.directory other.toNat = some i then none else Tab.get none b.directory other.toNat := by
    rw [Tab.get_filter none (fun v => decide (v ≠ some i)) b.directory hb]
    by_cases hv : Tab.get none b.directory other.toNat = some i <;> simp [hv]
  have hne : other.toNat ≠ code.toNat := fun heq => h (BitVec.eq_of_toNat_eq heq)
  have hnew : Tab.get none (b.redirect i code).directory other.toNat =
      Tab.get none (b.directory.filter (fun kv => decide (kv.2 ≠ some i))) other.toNat := by
    unfold Bank.redirect
    dsimp only
    split
    · rfl
    · exact Tab.get_put_ne none _ _ hne
  unfold Bank.lookup
  rw [hnew, hkept]
  split
  · simp
  · rfl

theorem Bank.lookup_congr {b1 b2 : Bank} (h : b1.directory = b2.directory) (code : W32) : b1.lookup code = b2.lookup code := by
  rw [Bank.lookup, Bank.lookup, h]

/-! ### The standby bank of a state -/

theorem State.standby_ne (s : State) : s.tbs.active ≠ s.standby := by
  rw [State.standby]
  cases s.tbs.active <;> decide

theorem State.setStandby_activeBank (s : State) (b : Bank) : (s.setBank s.standby b).activeBank = s.activeBank := by
  rw [State.activeBank, State.setBank_active]
  exact s.bank_setBank_ne s.standby_ne b

theorem State.setStandby_standbyBank (s : State) (b : Bank) : (s.setBank s.standby b).standbyBank = b := by
  have h : (s.setBank s.standby b).standby = s.standby := congrArg BankId.other (s.setBank_active s.standby b)
  rw [State.standbyBank, h, State.bank_setBank_self]

theorem State.setStandby_featureEntry (s : State) (b : Bank) (i : Nat) : (s.setBank s.standby b).featureEntry i = s.featureEntry i := by
  rw [State.featureEntry, State.featureEntry, State.setStandby_activeBank]

theorem State.writeStandby_other (h : k ≠ .feature) (s : State) (i : Nat) (e : Entry) :
    s.writeStandby k i e = s.setBank s.standby (s.standbyBank.write k i e) := if_neg h

theorem State.writeStandby_feature (s : State) (i : Nat) (e : Entry) :
    s.writeStandby .feature i e =
      (s.setBank s.standby (s.standbyBank.write .feature i e)).setDiffers i (s.differsFrom i e.featureCode) := by
  have h : (s.setBank s.standby (s.standbyBank.write .feature i e)).differsFrom i e.featureCode = s.differsFrom i e.featureCode := by
    rw [State.differsFrom, State.differsFrom, State.setStandby_featureEntry]
  have hbody : s.writeStandby .feature i e = (s.setBank s.standby (s.standbyBank.write .feature i e)).setDiffers i
      ((s.setBank s.standby (s.standbyBank.write .feature i e)).differsFrom i e.featureCode) := rfl
  exact hbody.trans (congrArg (fun v => State.setDiffers i v (s.setBank s.standby (s.standbyBank.write .feature i e))) h)

theorem State.writeStandby_banks (s : State) (k : TableKind) (i : Nat) (e : Entry) :
    (s.writeStandby k i e).tbs.active = s.tbs.active ∧ (s.writeStandby k i e).activeBank = s.activeBank ∧
      (s.writeStandby k i e).standbyBank = s.standbyBank.write k i e := by
  have hbanks := And.intro (s.setBank_active s.standby (s.standbyBank.write k i e))
    (And.intro (s.setStandby_activeBank (s.standbyBank.write k i e)) (s.setStandby_standbyBank (s.standbyBank.write k i e)))
  by_cases hk : k = .feature
  · subst hk
    rw [State.writeStandby_feature]
    exact hbanks
  · rw [State.writeStandby_other hk]
    exact hbanks

/-- Settles O45. -/
theorem writeEntryReplacesStandbyEntry : Obligations.WriteEntryReplacesStandbyEntry := by
  refine ⟨?_, ?_, ?_, ?_⟩
  case refine_1 =>
    intro s d rest st n i spare ws h hn t x
    have hd : t.damage = [] := h.sound
    refine ⟨fun k c hop => exec_writeEntry h (writeEntryRun_busy hop), fun hop => ⟨fun hbad => ?_, ?_⟩⟩
    · refine exec_writeEntry h (writeEntryRun_badValue hop ?_)
      obtain hkind | hspare | hzero | hmany := hbad
      · exact .inl ((congrArg TableKind.ofCode hn).trans hkind)
      · exact .inr (.inl (toNat_ne_zero hspare))
      · exact .inr (.inr (.inl (toNat_of_eq hzero)))
      · exact .inr (.inr (.inr hmany))
    intro k hk hspare2 hone hlist
    have hrun : ∀ {u}, writeEntries x k 1 t = .ok () u → exec (.writeEntry []) s = .next u := fun hu =>
      exec_writeEntry h ((writeEntryRun_entries (s := t) (x := x) (n := 1) hop ((congrArg TableKind.ofCode hn).trans hk)
        (toNat_of_eq hspare2) (toNat_of_eq hone) (by decide) (by decide)).trans hu)
    have hfail : ∀ {r}, (⟨i, spare, ws⟩ : Carried).Fails k s.standbyBank [] r →
        exec (.writeEntry []) s = .next (t.adminReply x r [0, 0]) := fun hr =>
      hrun (writeEntries_fail (s := t) (good := []) (later := []) (l := []) hd hlist rfl hr)
    refine ⟨fun hi => hfail (.inl ⟨hi, rfl⟩), fun hi hbad => hfail (.inr (.inl ⟨hi, hbad, rfl⟩)), fun e hi hspare he => ⟨fun hdup =>
      hfail (.inr (.inr ⟨hi, hspare, e, he, .inl ⟨hdup, rfl⟩⟩)), fun hdup => ⟨fun hdam =>
      hfail (.inr (.inr ⟨hi, hspare, e, he, .inr ⟨hdup, hdam, rfl⟩⟩)), fun hdam => ?_⟩⟩⟩
    exact hrun (writeEntries_pass (s := t) (l := [(i, e)]) hd (by
      rw [show carriedEntries k.words 1 (x.body.drop 4) = _ from hlist]
      exact ⟨e, ⟨hi, hspare, he, hdup, hdam⟩, rfl⟩))
  case refine_2 =>
    intro b k i e hkind hdam hglobal b1
    have hself : SameEntry k i k i := ⟨rfl, .inr rfl⟩
    refine ⟨(b.entry_write i hkind k i).trans (if_pos hself), (b.damaged_write k i e k i).trans (if_pos hself), ?_, ?_,
      fun hk => Bank.write_directory_ne hk b i e, ?_, ?_⟩
    · rw [show b1.sum = _ from b.write_sum k i e, hdam]
      rfl
    · intro k2 j hother
      have hne : ¬ SameEntry k i k2 j := by
        rintro ⟨rfl, hsame⟩
        obtain hk | ⟨hk, hj⟩ := hother
        · exact hk rfl
        · exact hsame.elim hk hj
      exact ⟨(b.entry_write i hkind k2 j).trans (if_neg hne), (b.damaged_write k i e k2 j).trans (if_neg hne)⟩
    · rintro rfl hcode
      exact (Bank.lookup_congr (b.write_directory_feature i e) _).trans (b.lookup_redirect_self i hcode)
    · rintro rfl hcanonical code hne
      exact (Bank.lookup_congr (b.write_directory_feature i e) _).trans (Bank.lookup_redirect_ne hcanonical.directory i hne)
  case refine_3 =>
    intro s d rest st k n h hop hk hn hlow hhigh hspare t x cs
    have hd : t.damage = [] := h.sound
    have hrun := writeEntryRun_entries (s := t) (x := x) hop hk (toNat_of_eq hspare) hn hlow hhigh
    exact ⟨fun l hpass => exec_writeEntry h (hrun.trans (writeEntries_pass hd hpass)),
      fun good y later l r hlist hpass hfail => exec_writeEntry h (hrun.trans (writeEntries_fail hd hlist hpass hfail))⟩
  case refine_4 =>
    intro s k i e t
    obtain ⟨hactive, hbank, hstandby⟩ := s.writeStandby_banks k i e
    refine ⟨hactive, hbank, hstandby, fun hk => ?_, ?_⟩
    · rw [show t = _ from State.writeStandby_other hk s i e, State.setBank_differs]
    · rintro rfl j
      rw [show t = _ from s.writeStandby_feature i e]
      have hput : Tab.get false ((s.setBank s.standby (s.standbyBank.write .feature i e)).setDiffers i
          (s.differsFrom i e.featureCode)).tbs.differs j =
          if j = i then s.differsFrom i e.featureCode else Tab.get false s.tbs.differs j := by
        rw [State.setDiffers, State.setBank_differs]
        exact Tab.get_put ..
      exact hput

end Sys2Proof.Machine

/-! PROOFS. COPY BANK and SWAP BANK (R115, R117, R118). -/
namespace Sys2Proof.Machine

variable {s t : State} {c : Instr} {d : Cand} {rest : List Cand} {st : Nat} {k : TableKind} {i p : Nat} {x : AdmCtx}

theorem LongOp.isIdle_iff (op : LongOp) : op.isIdle = true ↔ op = .idle := by cases op <;> simp [LongOp.isIdle]

theorem LongOp.isIdle_false {op : LongOp} (h : op ≠ .idle) : op.isIdle = false := by
  rw [← Bool.not_eq_true, LongOp.isIdle_iff]
  exact h

/-! ### COPY BANK -/

theorem copyBankRun_idle (h : s.ada.op = .idle) : copyBankRun x s = .ok () (s.takeSlot x (.copy .feature 0)) :=
  Op.ite_pos ((LongOp.isIdle_iff _).2 h) _ _ s

theorem copyBankRun_busy (h : s.ada.op ≠ .idle) : copyBankRun x s = .ok () (s.adminReply x .busy []) :=
  Op.ite_neg (by simp [LongOp.isIdle_false h]) _ _ s

theorem settle_copyVisit (hd : s.damage = []) (k : TableKind) (i : Nat) : settle (copyVisit k i) s = s.copyEntry k i :=
  settle_ok (by rw [copyVisit, checkActive_bind_clean hd, Op.get_bind, check_bind_clean hd]; rfl)

/-- What a visit of the copy writes to the standby bank (R115, R123). -/
def State.copied (s : State) (k : TableKind) (i : Nat) : Bank :=
  if s.activeBank.damaged k i then s.standbyBank.mark k i true else s.standbyBank.write k i (s.activeBank.entry k i)

theorem State.copyEntry_other (h : k ≠ .feature) (s : State) (i : Nat) :
    s.copyEntry k i = s.setBank s.standby (s.copied k i) := if_neg h

theorem State.copyEntry_feature (s : State) (i : Nat) :
    s.copyEntry .feature i = (s.setBank s.standby (s.copied .feature i)).setDiffers i false := rfl

theorem State.setBank_frame (s : State) (id : BankId) (b : Bank) : s.setBank id b = { s with tbs := (s.setBank id b).tbs } := by
  cases id <;> rfl

theorem State.copyEntry_frame (s : State) (k : TableKind) (i : Nat) : s.copyEntry k i = { s with tbs := (s.copyEntry k i).tbs } := by
  have h := s.setBank_frame s.standby (s.copied k i)
  by_cases hk : k = .feature
  · subst hk
    rw [State.copyEntry_feature, h]
    rfl
  · rw [State.copyEntry_other hk]
    exact h

theorem State.copyEntry_banks (s : State) (k : TableKind) (i : Nat) :
    (s.copyEntry k i).tbs.active = s.tbs.active ∧ (s.copyEntry k i).activeBank = s.activeBank ∧
      (s.copyEntry k i).standbyBank = s.copied k i := by
  have hbanks := And.intro (s.setBank_active s.standby (s.copied k i))
    (And.intro (s.setStandby_activeBank (s.copied k i)) (s.setStandby_standbyBank (s.copied k i)))
  by_cases hk : k = .feature
  · subst hk
    exact hbanks
  · rw [State.copyEntry_other hk]
    exact hbanks

theorem State.copyEntry_differs (s : State) (k : TableKind) (i j : Nat) :
    Tab.get false (s.copyEntry k i).tbs.differs j = if k = .feature ∧ j = i then false else Tab.get false s.tbs.differs j := by
  by_cases hk : k = .feature
  · subst hk
    rw [State.copyEntry_feature, State.setDiffers, State.setBank_differs]
    simp [Tab.get_put]
  · rw [State.copyEntry_other hk, State.setBank_differs, if_neg (fun h => hk h.1)]

theorem exec_copyBankVisit (hq : s.Quiet) (hop : s.ada.op = .copy k i) (hi : i < k.size) :
    exec (.copyBankVisit []) s = .next { s.copyEntry k i with ada.op := copyAdvance k i } := by
  refine congrArg Host.Outcome.next ((awake_high hq.high _).trans ?_)
  rw [show s.strike [] = s from rfl]
  dsimp only
  rw [hop]
  dsimp only
  rw [if_pos hi, settle_copyVisit hq.sound]

theorem State.copyDone_eq (hop : s.ada.op = .copy .global 1) :
    s.copyDone =
      { State.adminSend s.ada.issuer 0x10 .done []
          { s.setBank s.standby { s.standbyBank with sum := s.activeBank.sum, directory := s.activeBank.directory } with
            tbs.differs := [] } with
        ada.op := .idle } := by
  unfold State.copyDone State.longReply
  dsimp only
  rw [State.setBank_ada, hop]
  rfl

/-- Settles O46. -/
theorem copyBankBringsActiveToStandby : Obligations.CopyBankBringsActiveToStandby := by
  refine ⟨fun s d rest st h => ⟨fun hop => ?_, fun hop => ?_⟩, ?_, fun s hhigh hop => ?_⟩
  · exact exec_admin (run := copyBankRun) rfl h (copyBankRun_idle (s := s.adminTaken d rest st) hop)
  · exact exec_admin (run := copyBankRun) rfl h (copyBankRun_busy (s := s.adminTaken d rest st) hop)
  · intro s k i hq hop hi
    obtain ⟨hactive, hbank, hstandby⟩ := s.copyEntry_banks k i
    refine ⟨_, exec_copyBankVisit hq hop hi, ?_, ?_, hactive, hbank, fun hsound => ?_, fun hlost => ?_, s.copyEntry_differs k i⟩
    · have h := s.copyEntry_frame k i
      generalize s.copyEntry k i = u at h ⊢
      rw [h]
    · cases k <;> rfl
    · exact hstandby.trans (if_neg (by simp [hsound]))
    · exact hstandby.trans (if_pos hlost)
  · refine congrArg Host.Outcome.next ((awake_high hhigh _).trans ?_)
    rw [if_pos hop]
    exact State.copyDone_eq hop

/-! ### The flip: the epochs (R118) -/

/-- Every index of `l` has its epoch advanced, in their order. -/
def State.epochsAdvanced (l : List Nat) (s : State) : State := l.foldl (fun u i => u.advanceEpoch i) s

theorem advanceEpochs_clean (hd : s.damage = []) (l : List Nat) : advanceEpochs l s = .ok () (s.epochsAdvanced l) := by
  induction l generalizing s with
  | nil => rfl
  | cons i l ih =>
    have hone : attempt (do check (.featLive i); modify (·.advanceEpoch i)) s = .ok () (s.advanceEpoch i) :=
      congrArg (EStateM.Result.ok ()) (settle_ok (by rw [check_bind_clean hd]; rfl))
    rw [advanceEpochs, Op.bind_ok hone]
    exact ih hd

theorem State.epochsAdvanced_frame (l : List Nat) (s : State) :
    s.epochsAdvanced l = { s with adm.features := (s.epochsAdvanced l).adm.features } := by
  induction l generalizing s with
  | nil => rfl
  | cons i l ih => exact ih (s.advanceEpoch i)

theorem State.epochsAdvanced_featLive {l : List Nat} (h : l.Nodup) (s : State) (j : Nat) :
    (s.epochsAdvanced l).featLive j = if j ∈ l then ⟨0, (s.featLive j).epoch + 1⟩ else s.featLive j := by
  induction l generalizing s with
  | nil => rfl
  | cons i l ih =>
    obtain ⟨hnot, hl⟩ := List.nodup_cons.1 h
    rw [State.epochsAdvanced, List.foldl_cons, ← State.epochsAdvanced, ih hl, State.advanceEpoch, State.featLive_setFeatLive]
    by_cases hj : j = i
    · subst hj
      simp [hnot]
    · simp [hj]

/-- The indexes of a canonical table stand in it once. -/
theorem Tab.keys_nodup {α : Type} [DecidableEq α] {d : α} {t : Tab α} {lo : Nat} (h : Tab.wfFrom d lo t = true) :
    (∀ j ∈ t.map (·.1), lo ≤ j) ∧ (t.map (·.1)).Nodup := by
  induction t generalizing lo with
  | nil => simp
  | cons a t ih =>
    obtain ⟨j, v⟩ := a
    obtain ⟨⟨hlo, -⟩, hrest⟩ : (lo ≤ j ∧ v ≠ d) ∧ Tab.wfFrom d (j + 1) t = true := by simpa [Tab.wfFrom] using h
    obtain ⟨hlow, hnodup⟩ := ih hrest
    refine ⟨?_, List.nodup_cons.2 ⟨fun hj => Nat.lt_irrefl j (hlow j hj), hnodup⟩⟩
    rintro m (_ | ⟨_, hm⟩)
    · exact hlo
    · exact Nat.le_of_succ_le (Nat.le_trans (Nat.succ_le_succ hlo) (hlow m hm))

/-- A canonical table holds no record at the resting value. -/
theorem Tab.record_ne {α : Type} [DecidableEq α] {d : α} {t : Tab α} {lo j : Nat} {v : α} (h : Tab.wfFrom d lo t = true)
    (hm : (j, v) ∈ t) : v ≠ d := by
  induction t generalizing lo with
  | nil => cases hm
  | cons a t ih =>
    obtain ⟨⟨-, hv⟩, hrest⟩ : (lo ≤ a.1 ∧ a.2 ≠ d) ∧ Tab.wfFrom d (a.1 + 1) t = true := by simpa [Tab.wfFrom] using h
    obtain rfl | hm := List.mem_cons.1 hm
    · exact hv
    · exact ih hrest hm

/-- The indexes a canonical table of flags holds are those whose flag is set. -/
theorem Tab.mem_flags {t : Tab Bool} (h : Tab.wf false t = true) (j : Nat) : j ∈ t.map (·.1) ↔ Tab.get false t j = true := by
  constructor
  · intro hj
    obtain ⟨⟨j', v⟩, hm, rfl⟩ := List.mem_map.1 hj
    have hv : v ≠ false := Tab.record_ne (lo := 0) h hm
    rw [Tab.get_of_mem false t h hm]
    simpa using hv
  · intro hj
    exact List.mem_map.2 ⟨_, Tab.mem_of_get false t (by simp [hj]), rfl⟩

/-! ### The flip: the runs (R57, R118) -/

/-- What a cause for pool `p` does to a run in progress. -/
def Run.causedAt (p : Nat) (r : Run) : Run := if r.pool = p then { r with stage := r.stage.caused } else r

theorem Run.causedAt_pool (p : Nat) (r : Run) : (r.causedAt p).pool = r.pool := by
  unfold Run.causedAt
  split <;> rfl

theorem State.startRun_causes {r : Run} (h : s.ada.op.isRebuild = false) (p : Nat) (hr : r ∈ s.adm.runs) :
    r.causedAt p ∈ (s.startRun p).adm.runs := by
  by_cases hp : ∃ r ∈ s.adm.runs, r.pool = p
  · rw [State.startRun_again h hp]
    exact List.mem_map.2 ⟨r, hr, by simp [Run.causedAt]⟩
  · rw [State.startRun_new h (fun q hq hqp => hp ⟨q, hq, hqp⟩), Run.causedAt, if_neg (fun hrp => hp ⟨r, hr, hrp⟩)]
    exact List.mem_append_left _ hr

theorem State.startRun_runs (h : s.ada.op.isRebuild = false) (p : Nat) : ∃ r ∈ (s.startRun p).adm.runs, r.pool = p := by
  by_cases hp : ∃ r ∈ s.adm.runs, r.pool = p
  · obtain ⟨r, hr, hrp⟩ := hp
    exact ⟨r.causedAt p, State.startRun_causes h p hr, (r.causedAt_pool p).trans hrp⟩
  · rw [State.startRun_new h (fun q hq hqp => hp ⟨q, hq, hqp⟩)]
    exact ⟨_, List.mem_append_right _ (List.mem_singleton_self _), rfl⟩

theorem State.startRun_frame (s : State) (p : Nat) : s.startRun p = { s with adm.runs := (s.startRun p).adm.runs } := by
  unfold State.startRun
  split
  · rfl
  · split <;> rfl

/-- A run of every pool of `l` is started, in their order. -/
def State.runsStarted (l : List Nat) (s : State) : State := l.foldl (fun u p => u.startRun p) s

theorem State.runsStarted_frame (l : List Nat) (s : State) : s.runsStarted l = { s with adm.runs := (s.runsStarted l).adm.runs } := by
  induction l generalizing s with
  | nil => rfl
  | cons p l ih =>
    exact (ih (s.startRun p)).trans (congrArg (fun u : State =>
      { u with adm.runs := (s.runsStarted (p :: l)).adm.runs }) (s.startRun_frame p))

theorem State.runsStarted_keeps (h : s.ada.op.isRebuild = false) (l : List Nat) (hr : ∃ r ∈ s.adm.runs, r.pool = p) :
    ∃ r ∈ (s.runsStarted l).adm.runs, r.pool = p := by
  induction l generalizing s with
  | nil => exact hr
  | cons q l ih =>
    obtain ⟨r, hm, hrp⟩ := hr
    exact ih (s := s.startRun q) (by simpa using h) ⟨r.causedAt q, State.startRun_causes h q hm, (r.causedAt_pool q).trans hrp⟩

theorem State.runsStarted_runs (h : s.ada.op.isRebuild = false) {l : List Nat} (hp : p ∈ l) :
    ∃ r ∈ (s.runsStarted l).adm.runs, r.pool = p := by
  induction l generalizing s with
  | nil => cases hp
  | cons q l ih =>
    have hq : (s.startRun q).ada.op.isRebuild = false := by simpa using h
    obtain rfl | hp := List.mem_cons.1 hp
    · exact State.runsStarted_keeps hq l (State.startRun_runs h p)
    · exact ih hq hp

theorem Run.causedAt_mem (r : Run) (q : Nat) (l : List Nat) :
    (if (r.causedAt q).pool ∈ l then { r.causedAt q with stage := (r.causedAt q).stage.caused } else r.causedAt q) =
      if r.pool ∈ q :: l then { r with stage := r.stage.caused } else r := by
  rw [Run.causedAt_pool]
  unfold Run.causedAt
  by_cases hq : r.pool = q
  · simp [hq]
  · simp [hq]

theorem State.runsStarted_causes {r : Run} (h : s.ada.op.isRebuild = false) (l : List Nat) (hr : r ∈ s.adm.runs) :
    (if r.pool ∈ l then { r with stage := r.stage.caused } else r) ∈ (s.runsStarted l).adm.runs := by
  induction l generalizing s r with
  | nil => exact hr
  | cons q l ih =>
    have hq : (s.startRun q).ada.op.isRebuild = false := by simpa using h
    exact r.causedAt_mem q l ▸ ih hq (State.startRun_causes h q hr)

/-! ### SWAP BANK -/

theorem swapBankRun_busy (h : s.ada.op ≠ .idle) : swapBankRun x s = .ok () (s.adminReply x .busy []) :=
  Op.ite_pos (by simp [LongOp.isIdle_false h]) _ _ s

theorem swapBankRun_mismatch (h : s.ada.op = .idle) (hsum : s.standbyBank.sum ≠ x.u32 0) :
    swapBankRun x s = .ok () (s.adminReply x .sumMismatch (bytes32 s.standbyBank.sum)) :=
  (Op.ite_neg (by simp [(LongOp.isIdle_iff _).2 h]) _ _ s).trans (Op.ite_pos hsum _ _ s)

/-- The state the flip leaves. -/
def State.flipped (x : AdmCtx) (s : State) : State :=
  ((s.takeSlot x (.reconcile .grants 0 .zero)).flipPointer.epochsAdvanced (s.tbs.differs.map (·.1))).runsStarted (List.range 1024)

theorem swapBankRun_flips (hd : s.damage = []) (h : s.ada.op = .idle) (hsum : s.standbyBank.sum = x.u32 0) :
    swapBankRun x s = .ok () (s.flipped x) := by
  refine (Op.ite_neg (by simp [(LongOp.isIdle_iff _).2 h]) _ _ s).trans ((Op.ite_neg (not_not.2 hsum) _ _ s).trans ?_)
  rw [Op.set_bind, flip, Op.modify_bind, Op.get_bind, 
    Op.bind_ok (advanceEpochs_clean (s := (s.takeSlot x (.reconcile .grants 0 .zero)).flipPointer) hd _)]
  rfl

theorem exec_swapBank (h : s.AdminHead .swapBank d rest st)
    (hrun : swapBankRun (adminCtx .swapBank d st) (s.adminTaken d rest st) = .ok () t) : exec (.swapBank []) s = .next t :=
  exec_admin_at (f := fun u => takeAdmin .swapBank swapBankRun (u.strike [])) rfl rfl h hrun

theorem State.runsStarted_epochsAdvanced_frame (s : State) (m l : List Nat) :
    (s.epochsAdvanced m).runsStarted l = { s with
      adm.features := (s.epochsAdvanced m).adm.features
      adm.runs := ((s.epochsAdvanced m).runsStarted l).adm.runs } :=
  (State.runsStarted_frame l _).trans (congrArg (fun u : State =>
    { u with adm.runs := ((s.epochsAdvanced m).runsStarted l).adm.runs }) (State.epochsAdvanced_frame m s))

theorem State.flipped_frame (x : AdmCtx) (s : State) :
    s.flipped x = { (s.takeSlot x (.reconcile .grants 0 .zero)).flipPointer with
      adm.features := ((s.takeSlot x (.reconcile .grants 0 .zero)).flipPointer.epochsAdvanced (s.tbs.differs.map (·.1))).adm.features
      adm.runs := (s.flipped x).adm.runs } := by
  rw [State.flipped]
  exact State.runsStarted_epochsAdvanced_frame ..

/-- Settles O47. -/
theorem swapBankFlips : Obligations.SwapBankFlips := by
  intro s d rest st h
  refine ⟨fun hop => exec_swapBank h (swapBankRun_busy (s := s.adminTaken d rest st) hop), fun hop hsum =>
    exec_swapBank h (swapBankRun_mismatch (s := s.adminTaken d rest st) hop hsum), fun hop hsum hcanonical => ?_⟩
  have hnodup := (Tab.keys_nodup (lo := 0) hcanonical.differs).2
  have hframe := State.flipped_frame (adminCtx .swapBank d st) (s.adminTaken d rest st)
  have hfeat : ∀ i, ((s.adminTaken d rest st).flipped (adminCtx .swapBank d st)).featLive i =
      if Tab.get false s.tbs.differs i = true then ⟨0, (s.featLive i).epoch + 1⟩ else s.featLive i := by
    intro i
    rw [State.featLive_congr (congrArg (·.adm.features) hframe)]
    refine (State.epochsAdvanced_featLive hnodup _ i).trans ?_
    simp only [Tab.mem_flags hcanonical.differs]
    rfl
  generalize hu : ((s.adminTaken d rest st).takeSlot (adminCtx .swapBank d st) (.reconcile .grants 0 .zero)).flipPointer.epochsAdvanced
    (s.tbs.differs.map (·.1)) = u at *
  have hrebuild : u.ada.op.isRebuild = false := by
    rw [← hu, State.epochsAdvanced_frame]
    rfl
  have hruns : u.adm.runs = s.adm.runs := by
    rw [← hu, State.epochsAdvanced_frame]
    rfl
  have hflip : (s.adminTaken d rest st).flipped (adminCtx .swapBank d st) = u.runsStarted (List.range 1024) := hu ▸ rfl
  refine ⟨_, exec_swapBank h (swapBankRun_flips (s := s.adminTaken d rest st) h.sound hop hsum), ?_, ?_, fun i hi => ?_, fun i hi => ?_,
    fun p hp => ?_, fun r hr => ?_⟩
  · rw [hframe]
    rfl
  · rw [hframe]
    rfl
  · rw [hfeat, if_pos hi]
  · rw [hfeat, if_neg (by simp [hi])]
  · rw [hflip]
    exact State.runsStarted_runs hrebuild (List.mem_range.2 hp)
  · have hcause := State.runsStarted_causes (r := r) hrebuild (List.range 1024) (hruns ▸ hr)
    rw [hflip]
    obtain ⟨pool, owed, stage⟩ := r
    cases stage with
    | priority => simpa [RunStage.caused] using hcause
    | general b => simpa [RunStage.caused] using hcause

end Sys2Proof.Machine

/-! PROOFS. The counts and the cursor of a long operation, and the reconcile pass (R119, R120, R161). -/
namespace Sys2Proof.Machine

variable {s t : State} {c : Instr} {d : Cand} {rest : List Cand} {st i p : Nat} {x : AdmCtx} {ph : Phase} {n : Counts} {target : Target}
  {r : Reason}

/-! ### The counts and the cursor of the operation in flight -/

theorem mapCounts_reconcile (h : s.ada.op = .reconcile ph i n) (f : Counts → Counts) :
    s.mapCounts f = { s with ada.op := .reconcile ph i (f n) } := by
  rw [State.mapCounts, h]

theorem mapCounts_scanRevoke (h : s.ada.op = .scanRevoke target ph i n) (f : Counts → Counts) :
    s.mapCounts f = { s with ada.op := .scanRevoke target ph i (f n) } := by
  rw [State.mapCounts, h]

theorem phaseOn_reconcile (h : s.ada.op = .reconcile ph i n) :
    s.phaseOn = { s with ada.op := .reconcile (Phase.advance .pools ph i).1 (Phase.advance .pools ph i).2 n } := by
  rw [State.phaseOn, h]

theorem phaseOn_scanRevoke (h : s.ada.op = .scanRevoke target ph i n) :
    s.phaseOn = { s with ada.op := .scanRevoke target (Phase.advance .waiters ph i).1 (Phase.advance .waiters ph i).2 n } := by
  rw [State.phaseOn, h]

/-- A completion answers DONE with its command's code to the issuing station, and leaves the slot IDLE (R161). -/
theorem completeOp_eq (op : LongOp) (h : s.ada.op = op) (b : List Byte) :
    s.completeOp b = { State.adminSend s.ada.issuer op.commandCode .done b s with ada.op := .idle } := by
  rw [State.completeOp, State.longReply, h]

/-! ### What a release, a recall and a removal leave of the operation in the slot -/

theorem releaseSlot_op (h : s.ada.op.isRebuild = false) (i : Nat) : (s.releaseSlot i).ada.op = s.ada.op :=
  (s.releaseFrom_op true i).trans (by rw [rebuildPassed_idle h])

theorem recallHeld_op (h : s.ada.op.isRebuild = false) (i : Nat) (r : Reason) : (s.recallHeld i r).ada.op = s.ada.op := by
  have hslot : (s.recallSlot i r).ada.op = s.ada.op := congrArg (·.op) (recallSlot_ada h r)
  unfold State.recallHeld
  dsimp only
  split
  · exact (State.tell_op ..).trans hslot
  · exact hslot

theorem dropWaiter_op (s : State) (i : Nat) (r : Reason) (reply : Option Cand) : (s.dropWaiter i r reply).ada.op = s.ada.op := by
  unfold State.dropWaiter
  cases reply <;> simp

theorem removed_op (s : State) (i : Nat) (r : Reason) (reply : Option Cand) : (s.removed i r reply).ada.op = s.ada.op := by
  unfold State.removed
  split
  · exact (congrArg (·.op) (State.startRun_ada ..)).trans (dropWaiter_op ..)
  · exact dropWaiter_op ..

/-- A recall that does not lower Hf is followed by no check and no run (R41). -/
theorem recallRuns_current (h : s.unitsCounted (s.slot i) = false) (t : State) : s.recallRuns i t = t := by
  unfold State.recallRuns
  rw [h]
  split <;> rfl

/-! ### The visits of the reconcile pass -/

theorem exec_reconcileVisit {act : Nat → Op Unit} {u : State} (hc : exec c s = .next (awake s fun u => reconcileVisit ph act (u.strike [])))
    (hq : s.Quiet) (hop : s.ada.op = .reconcile ph i n) (hi : i < ph.size) (hact : act i s = .ok () u) : exec c s = .next u.phaseOn := by
  rw [hc, awake_high hq.high, State.strike_nil, reconcileVisit, hop]
  dsimp only
  rw [if_pos ⟨rfl, hi⟩, settle_ok hact]

theorem reconcileGrant_stands (hd : s.damage = []) (h : (s.slot i).epoch = (s.featLive (s.slot i).feature).epoch ∨
    (s.slot i).state = .free ∨ (s.slot i).state = .bad ∨ (s.slot i).state = .recalled) : reconcileGrant i s = .ok () s := by
  have hcurrent : (check (.featLive (s.slot i).feature) >>= fun _ => get >>= fun u =>
      if u.epochCurrent (s.slot i).feature (s.slot i).epoch then pure () else recallGrant i .tableChanged State.noteRecall) s =
      if (s.slot i).epoch = (s.featLive (s.slot i).feature).epoch then .ok () s
      else recallGrant i .tableChanged State.noteRecall s := by
    rw [check_bind_clean hd, Op.get_bind]
    by_cases he : (s.slot i).epoch = (s.featLive (s.slot i).feature).epoch <;> simp [State.epochCurrent, he]
  rw [reconcileGrant, readSlot_bind_clean hd]
  cases hg : (s.slot i).state with
  | held | stale | linger =>
    refine hcurrent.trans (if_pos (h.resolve_right ?_))
    simp [hg]
  | recalled | free | bad => rfl

/-- A grant whose epoch is not current goes to the recall of its state (R119). -/
theorem reconcileGrant_old (hd : s.damage = []) (hepoch : (s.slot i).epoch ≠ (s.featLive (s.slot i).feature).epoch)
    (h : (s.slot i).state = .held ∨ (s.slot i).state = .stale ∨ (s.slot i).state = .linger) :
    reconcileGrant i s = recallGrant i .tableChanged State.noteRecall s := by
  have hold : (check (.featLive (s.slot i).feature) >>= fun _ => get >>= fun u =>
      if u.epochCurrent (s.slot i).feature (s.slot i).epoch then pure () else recallGrant i .tableChanged State.noteRecall) s =
      recallGrant i .tableChanged State.noteRecall s := by
    rw [check_bind_clean hd, Op.get_bind]
    simp [State.epochCurrent, hepoch]
  rw [reconcileGrant, readSlot_bind_clean hd]
  obtain hg | hg | hg := h
  all_goals
    rw [hg]
    exact hold

theorem waiterReplaced_iff (w : Waiter) : s.waiterReplaced w = true ↔
    w.epoch ≠ (s.featLive w.feature).epoch ∨ ∃ e, s.featureEntry w.feature = some e ∧ e.pool ≠ w.pool := by
  unfold State.waiterReplaced State.epochCurrent
  cases s.featureEntry w.feature <;> simp

theorem reconcileWaiter_removes (hd : s.damage = []) (hused : (s.waiter i).inUse = true) (h : s.waiterReplaced (s.waiter i) = true) :
    reconcileWaiter i s = .ok () (s.removed i .tableChanged none).noteRemoved := by
  rw [reconcileWaiter, check_bind_clean hd, Op.get_bind, Op.ite_pos hused, checkAll_bind_clean hd, Op.get_bind, Op.ite_pos h, Op.bind_ok (removeWaiter_serve hd ..)]
  rfl

theorem reconcileWaiter_stands (hd : s.damage = []) (h : (s.waiter i).inUse = false ∨ s.waiterReplaced (s.waiter i) = false) :
    reconcileWaiter i s = .ok () s := by
  rw [reconcileWaiter, check_bind_clean hd, Op.get_bind]
  by_cases hused : (s.waiter i).inUse = true
  · rw [Op.ite_pos hused, checkAll_bind_clean hd, Op.get_bind, Op.ite_neg (by simp [h.resolve_left (by simp [hused])])]
    rfl
  · rw [Op.ite_neg hused]
    rfl

/-- Settles O48. -/
theorem reconcilePassRecallsAndEnds : Obligations.ReconcilePassRecallsAndEnds := by
  refine ⟨?_, ?_, ?_, ?_, ?_⟩
  case refine_1 =>
    rintro s i n g hq hop hi rfl
    have hrebuild : s.ada.op.isRebuild = false := by rw [hop]; rfl
    have hvisit : ∀ {u}, reconcileGrant i s = .ok () u → exec (.reconcileGrantVisit []) s = .next u.phaseOn :=
      exec_reconcileVisit rfl hq hop hi
    refine ⟨fun h => hvisit (reconcileGrant_stands hq.sound h), fun hepoch => ⟨fun hstate => ?_, fun hstate => ?_⟩⟩
    · have hnote : (s.recallHeld i .tableChanged).noteRecall .recalled = { s.recallHeld i .tableChanged with
          ada.op := .reconcile .grants i { n with recalled := n.recalled + 1 } } :=
        mapCounts_reconcile ((recallHeld_op hrebuild i _).trans hop) _
      have hcount : s.unitsCounted (s.slot i) = false := unitsCounted_false.2 (.inr hepoch)
      have hrecall := recallGrant_held hq.sound .tableChanged State.noteRecall hstate (by simp [hq.sound]) (by simp)
        (fun hlow => absurd hlow.1 (by simp [hcount]))
      rw [recallRuns_current hcount, show State.noteRecall .recalled _ = _ from hnote] at hrecall
      exact hvisit ((reconcileGrant_old hq.sound hepoch (hstate.imp_right .inl)).trans hrecall)
    · intro t hstands
      have hnote : (s.releaseSlot i).noteRecall .released = t :=
        mapCounts_reconcile ((releaseSlot_op hrebuild i).trans hop) _
      have hrecall := recallGrant_linger hq.sound .tableChanged State.noteRecall hstate (by simp [hq.sound]) (hnote ▸ hstands)
      rw [show State.noteRecall .released _ = _ from hnote] at hrecall
      exact hvisit ((reconcileGrant_old hq.sound hepoch (.inr (.inr hstate))).trans hrecall)
  case refine_2 =>
    intro s i n hq hop hi w replaced
    have hvisit : ∀ {u}, reconcileWaiter i s = .ok () u → exec (.reconcileWaiterVisit []) s = .next u.phaseOn :=
      exec_reconcileVisit rfl hq hop hi
    refine ⟨fun hused h => ?_, fun h => hvisit (reconcileWaiter_stands hq.sound (h.imp_right fun hn => ?_))⟩
    · refine (hvisit (reconcileWaiter_removes hq.sound hused ((waiterReplaced_iff w).2 h))).trans ?_
      rw [State.noteRemoved, mapCounts_reconcile ((removed_op ..).trans hop)]
    · rw [← Bool.not_eq_true, waiterReplaced_iff]
      exact hn
  case refine_3 =>
    intro s i n hq hop hi hstands
    refine exec_reconcileVisit (act := reconcilePool) rfl hq hop hi ?_
    rw [reconcilePool, Op.bind_ok (pressure_stands hq.sound hstands)]
    rfl
  case refine_4 =>
    intro s i n hhigh hop hi
    refine congrArg Host.Outcome.next ((awake_high hhigh _).trans ?_)
    rw [hop]
    exact (if_pos hi).trans (completeOp_eq _ hop _)
  case refine_5 =>
    intro s ph i n hop
    rw [phaseOn_reconcile hop]
    cases ph with
    | grants => by_cases hi : i + 1 < 32768 <;> simp [Phase.advance, Phase.size, Phase.next, Config.slots, hi]
    | waiters => by_cases hi : i + 1 < 4096 <;> simp [Phase.advance, Phase.size, Phase.next, Config.waiters, hi]
    | pools => simp [Phase.advance]

end Sys2Proof.Machine

/-! PROOFS. AUDIT and SCAN REVOKE (R162, R163). -/
namespace Sys2Proof.Machine

variable {s t : State} {c : Instr} {d : Cand} {rest : List Cand} {st i p : Nat} {x : AdmCtx} {ph : Phase} {n : Counts} {target : Target}
  {r : Reason} {a : AuditScan} {sel : Selector} {v : W32} {result : Result}

/-! ### AUDIT -/

theorem auditRun_busy (h : s.ada.op ≠ .idle) : auditRun x s = .ok () (s.adminReply x .busy []) :=
  Op.ite_pos (by simp [LongOp.isIdle_false h]) _ _ s

theorem auditRun_takes (h : s.ada.op = .idle) (hspare : x.u8 1 = 0) (hsel : selectorOf (x.u8 0) (x.u32 4) = .ok sel)
    (hstart : x.u16 2 < Config.slots) : auditRun x s = .ok () (s.takeSlot x (.audit ⟨sel, x.u16 2, [], none⟩)) := by
  refine (Op.ite_neg (by simp [(LongOp.isIdle_iff _).2 h]) _ _ s).trans ((Op.ite_neg (not_not.2 hspare) _ _ s).trans ?_)
  rw [hsel]
  exact Op.ite_neg (Nat.not_le.2 hstart) _ _ s

theorem GState.ofCode_code (g : GState) : GState.ofCode g.code = some g := by cases g <;> rfl

theorem selectorOf_state {g : GState} (h : v.toNat = g.code) : selectorOf 4 v = .ok (.state g) := by
  rw [selectorOf, h, GState.ofCode_code]

/-- The selectors an AUDIT may name (R162, R182). -/
theorem selectorOf_ok {kind : Byte} (h : (kind = 1 ∧ v ≠ 0 ∧ sel = .owner v) ∨ (kind = 2 ∧ v.toNat < 1024 ∧ sel = .pool v.toNat) ∨
    (kind = 3 ∧ v.toNat < 16384 ∧ sel = .feature v.toNat) ∨ (kind = 4 ∧ ∃ g, v.toNat = GState.code g ∧ sel = .state g)) :
    selectorOf kind.toNat v = .ok sel := by
  obtain ⟨rfl, hv, rfl⟩ | ⟨rfl, hv, rfl⟩ | ⟨rfl, hv, rfl⟩ | ⟨rfl, g, hv, rfl⟩ := h
  · exact if_neg hv
  · exact if_neg (Nat.not_le.2 hv)
  · exact if_neg (Nat.not_le.2 hv)
  · exact selectorOf_state hv

theorem AuditScan.over_iff (a : AuditScan) : a.over = true ↔ 64 ≤ a.found.length ∨ 32768 ≤ a.cursor := decide_eq_true_iff

/-- What a slot read by the scan leaves of it (R162). -/
theorem AuditScan.see_moveOn (a : AuditScan) (g : Slot) : (a.see a.cursor g).moveOn =
    ⟨a.selector, a.cursor + 1,
      if a.selector.picks g = true then a.found ++ [⟨handleOf a.cursor g.generation, g.cost, g.state, g.pool⟩] else a.found,
      some a.cursor⟩ := by
  unfold AuditScan.see AuditScan.moveOn
  split <;> rfl

theorem exec_auditVisit (hq : s.Quiet) (hop : s.ada.op = .audit a) (hcursor : a.cursor < 32768) (hfound : a.found.length < 64) :
    exec (.auditVisit []) s = .next { s with ada.op := .audit (a.see a.cursor (s.slot a.cursor)).moveOn } := by
  have hover : ¬ a.over = true := by
    rw [AuditScan.over_iff]
    omega
  refine congrArg Host.Outcome.next ((awake_high hq.high _).trans ?_)
  rw [State.strike_nil]
  dsimp only
  rw [hop]
  dsimp only
  rw [if_neg hover, State.auditStep, readSlot_clean hq.sound]

/-- Settles O49. -/
theorem auditListsPickedSlots : Obligations.AuditListsPickedSlots := by
  refine ⟨?_, ?_, ?_, ?_⟩
  case refine_1 =>
    intro s d rest st v start h hv hstart t
    subst hv hstart
    refine ⟨fun hop => exec_admin (run := auditRun) rfl h (auditRun_busy (s := t) hop), fun hop hspare hlow sel hsel => ?_⟩
    exact exec_admin (run := auditRun) rfl h
      (auditRun_takes (s := t) (x := adminCtx .audit d st) hop (toNat_of_eq hspare) (selectorOf_ok hsel) hlow)
  case refine_2 =>
    rintro s a g hq hop hcursor hfound rfl
    rw [exec_auditVisit hq hop hcursor hfound, AuditScan.see_moveOn]
  case refine_3 =>
    intro g
    simp [Selector.picks]
  case refine_4 =>
    intro s a hhigh hop hover
    refine congrArg Host.Outcome.next ((awake_high hhigh _).trans ?_)
    rw [hop]
    exact (if_pos ((AuditScan.over_iff a).2 hover)).trans (completeOp_eq _ hop _)

/-! ### SCAN REVOKE -/

theorem scanRevokeRun_busy (h : s.ada.op ≠ .idle) : scanRevokeRun x s = .ok () (s.adminReply x .busy []) :=
  Op.ite_pos (by simp [LongOp.isIdle_false h]) _ _ s

theorem scanRevokeRun_spare (h : s.ada.op = .idle) (hspare : x.u8 1 ≠ 0 ∨ x.u16 2 ≠ 0) :
    scanRevokeRun x s = .ok () (s.adminReply x .badValue []) :=
  (Op.ite_neg (by simp [(LongOp.isIdle_iff _).2 h]) _ _ s).trans (Op.ite_pos hspare _ _ s)

section
variable (h : s.ada.op = .idle) (hbyte : x.u8 1 = 0) (hword : x.u16 2 = 0)
include h hbyte hword

theorem scanRevokeRun_takes (htarget : targetOf (x.u8 0) (x.u32 4) = .ok target) :
    scanRevokeRun x s = .ok () (s.takeSlot x (.scanRevoke target .grants 0 .zero)) := by
  refine (Op.ite_neg (by simp [(LongOp.isIdle_iff _).2 h]) _ _ s).trans ((Op.ite_neg (by omega) _ _ s).trans ?_)
  rw [htarget]
  rfl

theorem scanRevokeRun_refuses (htarget : targetOf (x.u8 0) (x.u32 4) = .error result) :
    scanRevokeRun x s = .ok () (s.adminReply x result []) := by
  refine (Op.ite_neg (by simp [(LongOp.isIdle_iff _).2 h]) _ _ s).trans ((Op.ite_neg (by omega) _ _ s).trans ?_)
  rw [htarget]
  rfl

end

theorem targetOf_ok {kind : Byte} (h : (kind = 1 ∧ v ≠ 0 ∧ target = .client v) ∨ (kind = 2 ∧ v.toNat < 16384 ∧ target = .feature v.toNat)) :
    targetOf kind.toNat v = .ok target := by
  obtain ⟨rfl, hv, rfl⟩ | ⟨rfl, hv, rfl⟩ := h
  · exact if_neg hv
  · exact if_neg (Nat.not_le.2 hv)

theorem targetOf_badValue {kind : Byte} (h : (kind ≠ 1 ∧ kind ≠ 2) ∨ (kind = 1 ∧ v = 0)) : targetOf kind.toNat v = .error .badValue := by
  obtain ⟨hone, htwo⟩ | ⟨rfl, rfl⟩ := h
  · have hone : kind.toNat ≠ 1 := fun h => hone (BitVec.eq_of_toNat_eq h)
    have htwo : kind.toNat ≠ 2 := fun h => htwo (BitVec.eq_of_toNat_eq h)
    unfold targetOf
    split
    · exact absurd ‹_› hone
    · exact absurd ‹_› htwo
    · rfl
  · rfl

theorem targetOf_badIndex (h : 16384 ≤ v.toNat) : targetOf 2 v = .error .badIndex := if_pos h

theorem Target.picks_iff (owner : W32) (feature : Nat) :
    target.picks owner feature = true ↔ target = .client owner ∨ target = .feature feature := by
  cases target with
  | client id => simp [Target.picks, eq_comm (a := owner)]
  | feature f => simp [Target.picks, eq_comm (a := feature)]

theorem exec_scanVisit {act : Target → Nat → Op Unit} {u : State} (hc : exec c s = .next (awake s fun u => scanVisit ph act (u.strike [])))
    (hq : s.Quiet) (hop : s.ada.op = .scanRevoke target ph i n) (hi : i < ph.size) (hact : act target i s = .ok () u) :
    exec c s = .next u.phaseOn := by
  rw [hc, awake_high hq.high, State.strike_nil, scanVisit, hop]
  dsimp only
  rw [if_pos ⟨rfl, hi⟩, settle_ok hact]

theorem scanGrant_named (hd : s.damage = []) (h : target.picks (s.slot i).owner (s.slot i).feature = true) :
    scanGrant target i s = recallGrant i .revoked State.noteRecall s := by
  rw [scanGrant, readSlot_bind_clean hd]
  exact Op.ite_pos h _ _ s

theorem scanGrant_other (hd : s.damage = []) (h : ¬ target.picks (s.slot i).owner (s.slot i).feature = true) :
    scanGrant target i s = .ok () s := by
  rw [scanGrant, readSlot_bind_clean hd]
  exact Op.ite_neg h _ _ s

theorem scanWaiter_removes (hd : s.damage = []) (hused : (s.waiter i).inUse = true)
    (h : target.picks (s.waiter i).client (s.waiter i).feature = true) :
    scanWaiter target i s = .ok () (s.removed i .revoked none).noteRemoved := by
  rw [scanWaiter, check_bind_clean hd, Op.get_bind, Op.ite_pos (by rw [hused, h]; rfl), Op.bind_ok (removeWaiter_serve hd ..)]
  rfl

theorem scanWaiter_stands (hd : s.damage = [])
    (h : (s.waiter i).inUse = false ∨ ¬ target.picks (s.waiter i).client (s.waiter i).feature = true) :
    scanWaiter target i s = .ok () s := by
  have hnot : ¬ ((s.waiter i).inUse && target.picks (s.waiter i).client (s.waiter i).feature) = true := by
    rw [Bool.and_eq_true]
    exact fun ⟨hused, hpick⟩ => h.elim (by simp [hused]) fun hn => hn hpick
  rw [scanWaiter, check_bind_clean hd, Op.get_bind, Op.ite_neg hnot]
  rfl

/-- Settles O50. -/
theorem scanRevokeRecallsTargetsAndEnds : Obligations.ScanRevokeRecallsTargetsAndEnds := by
  refine ⟨⟨?_, ?_⟩, ?_, ?_, ?_⟩
  case refine_1 =>
    intro s d rest st v h hv t
    subst hv
    have hrun : ∀ {u}, scanRevokeRun (adminCtx .scanRevoke d st) t = .ok () u → exec .scanRevoke s = .next u :=
      exec_admin (run := scanRevokeRun) rfl h
    refine ⟨fun hop => hrun (scanRevokeRun_busy (s := t) hop), fun hop hbyte hword target hnamed => hrun ?_, fun hop hbad => hrun ?_,
      fun hop hbyte hword hkind hv => hrun ?_⟩
    · exact scanRevokeRun_takes (s := t) hop (toNat_of_eq hbyte) (toNat_of_eq hword) (targetOf_ok hnamed)
    · by_cases hspare : byteAt (adminBody d.payload) 1 ≠ 0 ∨ be16 (adminBody d.payload) 2 ≠ 0
      · exact scanRevokeRun_spare hop (hspare.imp toNat_ne_zero toNat_ne_zero)
      · obtain ⟨hbyte, hword⟩ := not_or.1 hspare
        have hvalue := (hbad.resolve_left hbyte).resolve_left hword
        exact scanRevokeRun_refuses (s := t) hop (toNat_of_eq (not_not.1 hbyte)) (toNat_of_eq (not_not.1 hword))
          (targetOf_badValue hvalue)
    · have hindex : targetOf ((adminCtx .scanRevoke d st).u8 0) ((adminCtx .scanRevoke d st).u32 4) = .error .badIndex :=
        (congrArg (fun k : Byte => targetOf k.toNat _) hkind).trans (targetOf_badIndex hv)
      exact scanRevokeRun_refuses (s := t) hop (toNat_of_eq hbyte) (toNat_of_eq hword) hindex
  case refine_2 =>
    rintro s target i n g hq hop hi rfl named
    have hrebuild : s.ada.op.isRebuild = false := by rw [hop]; rfl
    have hvisit : ∀ {u}, scanGrant target i s = .ok () u → exec (.scanRevokeGrantVisit []) s = .next u.phaseOn :=
      exec_scanVisit rfl hq hop hi
    refine ⟨fun h => hvisit ?_, fun hnamed hstate => ?_, fun hnamed hstate => ?_⟩
    · by_cases hpick : target.picks (s.slot i).owner (s.slot i).feature = true
      · have hstate := h.resolve_left (not_not.2 ((Target.picks_iff ..).1 hpick))
        exact (scanGrant_named hq.sound hpick).trans (recallGrant_other hq.sound _ _ (by tauto))
      · exact scanGrant_other hq.sound hpick
    · intro t hstands
      have hnote : (s.recallHeld i .revoked).noteRecall .recalled = t :=
        mapCounts_scanRevoke ((recallHeld_op hrebuild i _).trans hop) _
      have hrecall := recallGrant_held hq.sound .revoked State.noteRecall hstate (by simp [hq.sound]) (by simp) (hnote ▸ hstands)
      rw [show State.noteRecall .recalled _ = _ from hnote] at hrecall
      exact hvisit ((scanGrant_named hq.sound ((Target.picks_iff ..).2 hnamed)).trans hrecall)
    · intro t hstands
      have hnote : (s.releaseSlot i).noteRecall .released = t :=
        mapCounts_scanRevoke ((releaseSlot_op hrebuild i).trans hop) _
      have hrecall := recallGrant_linger hq.sound .revoked State.noteRecall hstate (by simp [hq.sound]) (hnote ▸ hstands)
      rw [show State.noteRecall .released _ = _ from hnote] at hrecall
      exact hvisit ((scanGrant_named hq.sound ((Target.picks_iff ..).2 hnamed)).trans hrecall)
  case refine_3 =>
    intro s target i n hq hop hi w named
    have hvisit : ∀ {u}, scanWaiter target i s = .ok () u → exec (.scanRevokeWaiterVisit []) s = .next u.phaseOn :=
      exec_scanVisit rfl hq hop hi
    refine ⟨fun hused h => ?_, fun h => hvisit (scanWaiter_stands hq.sound (h.imp_right fun hn hpick => hn ((Target.picks_iff ..).1 hpick)))⟩
    refine (hvisit (scanWaiter_removes hq.sound hused ((Target.picks_iff ..).2 h))).trans ?_
    rw [State.noteRemoved, mapCounts_scanRevoke ((removed_op ..).trans hop)]
  case refine_4 =>
    intro s target i n hhigh hop hi
    refine congrArg Host.Outcome.next ((awake_high hhigh _).trans ?_)
    rw [hop]
    exact (if_pos hi).trans (completeOp_eq _ hop _)
  case refine_5 =>
    intro s target ph i n hop hph
    rw [phaseOn_scanRevoke hop]
    cases ph with
    | grants =>
      by_cases hi : i + 1 < 32768
      · simp [Phase.advance, Phase.size, Config.slots, hi, Nat.not_le.2 hi]
      · simp [Phase.advance, Phase.size, Phase.next, Config.slots, hi, Nat.not_lt.1 hi]
    | waiters => simp [Phase.advance]
    | pools => exact absurd rfl hph

end Sys2Proof.Machine

/-! PROOFS. COUNT REBUILD (R164 to R166). -/
namespace Sys2Proof.Machine

variable {s t : State} {c : Instr} {d : Cand} {rest : List Cand} {st i j p : Nat} {x : AdmCtx} {r : Rebuild} {g : Slot}

/-! ### The command -/

theorem countRebuildRun_faulted (h : s.ada.service = .faulted) : countRebuildRun x s = .ok () (s.adminReply x .refusedState []) :=
  Op.ite_pos h _ _ s

theorem countRebuildRun_busy (h : s.ada.service ≠ .faulted) (hop : s.ada.op ≠ .idle) :
    countRebuildRun x s = .ok () (s.adminReply x .busy []) :=
  (Op.ite_neg h _ _ s).trans (Op.ite_pos (by simp [LongOp.isIdle_false hop]) _ _ s)

theorem countRebuildRun_takes (h : s.ada.service ≠ .faulted) (hop : s.ada.op = .idle) :
    countRebuildRun x s = .ok () (s.takeSlot x (.rebuild .start)) :=
  (Op.ite_neg h _ _ s).trans (Op.ite_neg (by simp [(LongOp.isIdle_iff _).2 hop]) _ _ s)

/-! ### The visits -/

theorem mapRebuild_eq (h : s.ada.op = .rebuild r) (f : Rebuild → Rebuild) : s.mapRebuild f = { s with ada.op := .rebuild (f r) } := by
  rw [State.mapRebuild, h]

theorem exec_countRebuildVisit {u : State} (hq : s.Quiet) (hop : s.ada.op = .rebuild r) (hi : r.cursor < 32768)
    (hvisit : rebuildVisit r.cursor s = .ok () u) : exec (.countRebuildVisit []) s = .next u := by
  refine congrArg Host.Outcome.next ((awake_high hq.high _).trans ?_)
  rw [State.strike_nil]
  dsimp only
  rw [hop]
  exact (if_pos hi).trans (settle_ok hvisit)

theorem rebuildVisit_free (hd : s.damage = []) (h : (s.slot i).state = .free) :
    rebuildVisit i s = .ok () (s.mapRebuild Rebuild.moveOn) := by
  rw [rebuildVisit, readSlot_bind_clean hd, h]
  rfl

theorem rebuildVisit_bad (hd : s.damage = []) (h : (s.slot i).state = .bad) : rebuildVisit i s = .ok () (s.rebuildFree i) := by
  rw [rebuildVisit, readSlot_bind_clean hd, h]
  rfl

theorem rebuildVisit_live (hd : s.damage = []) (h : (s.slot i).state.live = true) :
    rebuildVisit i s = rebuildLive i (s.slot i) s := by
  rw [rebuildVisit, readSlot_bind_clean hd]
  generalize s.slot i = g at h ⊢
  cases hg : g.state with
  | held | stale | linger | recalled => rfl
  | free | bad => simp [hg, GState.live] at h

theorem ownerStands_iff : s.ownerStands g = true ↔ (s.client g.ownerIdx).inUse = true ∧ (s.client g.ownerIdx).id = g.owner := by
  simp [State.ownerStands]

theorem rebuildLive_adds (hd : s.damage = []) (h : s.ownerStands (s.slot i) = true) :
    rebuildLive i (s.slot i) s = .ok () (s.rebuildAdd i) := by
  rw [rebuildLive, checkAll_bind_clean hd, Op.get_bind]
  exact Op.ite_pos h _ _ s

/-- While COUNT REBUILD holds the slot the checks after a release start no run (R57). -/
theorem releaseRuns_rebuild (h : t.ada.op.isRebuild = true) (x : Released) : t.releaseRuns x = t := by
  unfold State.releaseRuns
  simp only [State.startRun_rebuild h]
  split
  · exact ite_self _
  · rfl

theorem rebuildLive_orphan (hd : s.damage = []) (h : ¬ s.ownerStands (s.slot i) = true) (hrebuild : (s.rebuildOrphan i).ada.op.isRebuild = true)
    (hud : (s.rebuildOrphan i).damage = []) (hstands : (s.rebuildOrphan i).ReleaseStands (s.releasedOf i)) :
    rebuildLive i (s.slot i) s = .ok () (s.rebuildOrphan i) := by
  have hafter := afterRelease_stands hud hstands
  rw [releaseRuns_rebuild hrebuild] at hafter
  rw [rebuildLive, checkAll_bind_clean hd, Op.get_bind]
  refine (Op.ite_neg h _ _ s).trans ?_
  rw [check_bind_clean hd, Op.get_bind, Op.set_bind]
  exact hafter

theorem get_addAt (t : Tab Nat) (k n j : Nat) : Tab.get 0 (addAt t k n) j = Tab.get 0 t j + if j = k then n else 0 := by
  rw [addAt, Tab.get_put]
  split
  · next h => rw [h]
  · rfl

/-- The sums a visit to a live slot adds (R164). -/
theorem adding_sums (i : Nat) (g : Slot) (units : Bool) (r : Rebuild) :
    (∀ p, Tab.get 0 (r.adding i g units).prioritySums p =
      Tab.get 0 r.prioritySums p + if g.cls = .priority ∧ p = g.pool then g.cost else 0) ∧
    (∀ p, Tab.get 0 (r.adding i g units).generalSums p =
      Tab.get 0 r.generalSums p + if g.cls = .general ∧ p = g.pool then g.cost else 0) ∧
    (∀ f, Tab.get 0 (r.adding i g units).unitSums f = Tab.get 0 r.unitSums f + if f = g.feature ∧ units = true then g.units else 0) := by
  refine ⟨fun p => ?_, fun p => ?_, fun f => ?_⟩
  · by_cases h : g.cls = .priority <;> simp [Rebuild.adding, h, get_addAt]
  · by_cases h : g.cls = .general <;> simp [Rebuild.adding, h, get_addAt]
  · cases units <;> simp [Rebuild.adding, get_addAt]

/-- A release that leaves the chains alone at the rebuild's own slot changes no scan sum (R164, R165). -/
theorem rebuildOrphan_eq (hop : s.ada.op = .rebuild r) (hi : i = r.cursor) :
    s.rebuildOrphan i = { s.releaseFrom false i with ada.op := .rebuild { r with cursor := i + 1 } } := by
  have hsame : (s.releaseFrom false i).ada.op = .rebuild r := by
    rw [State.releaseFrom_op, State.rebuildPassed_op, hop]
    exact if_neg (by omega)
  rw [State.rebuildOrphan, mapRebuild_eq hsame, hi]
  rfl

/-! ### The records the completion writes -/

/-- Only the live records and the client table differ. -/
def SameButRecords (s t : State) : Prop := t = { s with adm.pools := t.adm.pools, adm.features := t.adm.features, clt := t.clt }

theorem SameButRecords.trans {u : State} (h : SameButRecords s t) (h' : SameButRecords t u) : SameButRecords s u := by
  unfold SameButRecords at *
  rw [h']
  rw [h]

theorem SameButRecords.foldl {α : Type} {f : State → α → State} (h : ∀ s a, SameButRecords s (f s a)) (l : List α) (s : State) :
    SameButRecords s (l.foldl f s) := by
  induction l generalizing s with
  | nil => rfl
  | cons a l ih => exact (h s a).trans (ih (f s a))

theorem SameButRecords.swp (h : SameButRecords s t) : t.swp = s.swp := by
  unfold SameButRecords at h
  rw [h]
theorem SameButRecords.damage (h : SameButRecords s t) : t.damage = s.damage := by
  unfold SameButRecords at h
  rw [h]

theorem installClient_records (s : State) (r : Rebuild) (i : Nat) : SameButRecords s (s.installClient r i) := by
  unfold State.installClient State.idleIfQuiet
  dsimp only
  split
  · split
    · split <;> rfl
    · rfl
  · rfl

/-- The pools' part of the completion (R166 point 1). -/
def State.poolsInstalled (r : Rebuild) (s : State) : State :=
  (s.rebuildPools r).foldl (fun s p => s.setPoolLive p (r.pool p (s.poolLive p))) s

/-- The feature indexes' part of the completion (R166 point 2). -/
def State.featuresInstalled (r : Rebuild) (l : List Nat) (s : State) : State :=
  l.foldl (fun s i => s.setFeatLive i (r.feature i (s.featLive i))) s

/-- The client entries' part of the completion (R166 point 3). -/
def State.clientsInstalled (r : Rebuild) (l : List Nat) (s : State) : State := l.foldl (fun s i => s.installClient r i) s

/-- The records as the completion leaves them. -/
def State.installed (r : Rebuild) (s : State) : State :=
  ((s.poolsInstalled r).featuresInstalled r (s.rebuildFeatures r)).clientsInstalled r s.clientsInUse

theorem rebuildDone_eq (s : State) (r : Rebuild) :
    s.rebuildDone r = State.completeOp (s.rebuildFigures r) { s.installed r with grt.liveTotal := r.live, grt.suspect := false } := rfl

theorem poolsInstalled_records (s : State) (r : Rebuild) : SameButRecords s (s.poolsInstalled r) :=
  SameButRecords.foldl (f := fun s p => s.setPoolLive p (r.pool p (s.poolLive p))) (fun _ _ => rfl) _ _

theorem featuresInstalled_records (s : State) (r : Rebuild) (l : List Nat) : SameButRecords s (s.featuresInstalled r l) :=
  SameButRecords.foldl (f := fun s i => s.setFeatLive i (r.feature i (s.featLive i))) (fun _ _ => rfl) _ _

theorem clientsInstalled_records (s : State) (r : Rebuild) (l : List Nat) : SameButRecords s (s.clientsInstalled r l) :=
  SameButRecords.foldl (fun s i => installClient_records s r i) _ _

theorem installed_records (s : State) (r : Rebuild) : SameButRecords s (s.installed r) :=
  ((poolsInstalled_records s r).trans (featuresInstalled_records ..)).trans (clientsInstalled_records ..)

/-! The live records -/

theorem poolsInstalled_poolLive (s : State) (r : Rebuild) (p : Nat) : (s.poolsInstalled r).poolLive p = r.pool p (s.poolLive p) := by
  rw [State.poolsInstalled, installPools_poolLive]
  split
  · rfl
  · next hn =>
    rw [State.rebuildPools, mem_keysWith, mem_keysWith, mem_keysWith] at hn
    have hgeneral : Tab.get 0 r.generalSums p = 0 := Tab.get_not_mem 0 _ p fun v hv => hn (.inr ⟨v, hv⟩)
    have hpriority : Tab.get 0 r.prioritySums p = 0 := Tab.get_not_mem 0 _ p fun v hv => hn (.inl (.inr ⟨v, hv⟩))
    have hpool : s.poolLive p = PoolLive.zero := Tab.get_not_mem _ _ p fun v hv => hn (.inl (.inl (.inr ⟨v, hv⟩)))
    rw [Rebuild.pool, hgeneral, hpriority, hpool]
    rfl

theorem featuresInstalled_get (r : Rebuild) (l : List Nat) (s : State) (i : Nat) :
    (s.featuresInstalled r l).featLive i = if i ∈ l then r.feature i (s.featLive i) else s.featLive i := by
  induction l generalizing s with
  | nil => rfl
  | cons a l ih =>
    have hstep : (s.setFeatLive a (r.feature a (s.featLive a))).featLive i = if i = a then r.feature i (s.featLive i) else s.featLive i := by
      rw [State.featLive_setFeatLive]
      split
      · next h => rw [h]
      · rfl
    refine (ih _).trans ?_
    rw [hstep]
    by_cases ha : i = a
    · subst ha
      simp [Rebuild.feature]
    · simp [ha]

theorem featuresInstalled_featLive (s u : State) (r : Rebuild) (h : u.adm.features = s.adm.features) (i : Nat) :
    (u.featuresInstalled r (s.rebuildFeatures r)).featLive i = r.feature i (s.featLive i) := by
  rw [featuresInstalled_get, State.featLive_congr h]
  split
  · rfl
  · next hn =>
    rw [State.rebuildFeatures, mem_keysWith, mem_keysWith] at hn
    have hunits : Tab.get 0 r.unitSums i = 0 := Tab.get_not_mem 0 _ i fun v hv => hn (.inr ⟨v, hv⟩)
    have hfeat : s.featLive i = FeatLive.zero := Tab.get_not_mem _ _ i fun v hv => hn (.inl (.inr ⟨v, hv⟩))
    rw [Rebuild.feature, hunits, hfeat]
    rfl

/-! The client entries and the idle list -/

theorem setClient_self (s : State) (i : Nat) (c : Client) : (s.setClient i c).client i = c :=
  (State.client_setClient (s := s) i i c).trans (if_pos rfl)

theorem installClient_other (h : j ≠ i) (s : State) (r : Rebuild) :
    (s.installClient r i).client j = s.client j ∧ (j ∈ (s.installClient r i).clt.idle ↔ j ∈ s.clt.idle) := by
  have hset : ∀ c, (s.setClient i c).client j = s.client j := fun c => (State.client_setClient (s := s) i j c).trans (if_neg h)
  unfold State.installClient
  dsimp only
  split
  · split
    · refine ⟨(idleIfQuiet_other h).trans (hset _), ?_⟩
      rw [idleIfQuiet_idle]
      split
      · simp [State.setClient, h]
      · exact Iff.rfl
    · exact ⟨hset _, Iff.rfl⟩
  · exact ⟨hset _, List.mem_erase_of_ne h⟩

/-- The entry as the completion leaves it, its time of last activity apart (R166 point 3). -/
theorem installClient_entry (s : State) (r : Rebuild) (i : Nat) :
    (s.installClient r i).client i = { s.client i with
      grants := (r.client i).count, chain := (r.client i).chain, lastActivity := ((s.installClient r i).client i).lastActivity } := by
  have hset := setClient_self s i
  unfold State.installClient
  dsimp only
  split
  · next h =>
    split
    · have hentry := idleIfQuiet_entry (s.setClient i { s.client i with grants := (r.client i).count, chain := (r.client i).chain }) i
      rw [hset] at hentry
      exact hentry
    · rw [hset]
  · have hentry : ∀ c, ((s.setClient i c).leaveIdle i).client i = c := fun c => hset c
    rw [hentry]

/-- An entry that becomes idle joins the idle list with the time (R68, R166). -/
theorem installClient_joins (hused : (s.client i).inUse = true) (hgrants : (s.client i).grants ≠ 0) (hcount : (r.client i).count = 0)
    (hwaiters : (s.client i).waiters = 0) :
    i ∈ (s.installClient r i).clt.idle ∧ (i ∉ s.clt.idle → ((s.installClient r i).client i).lastActivity = s.swp.mt) := by
  have hset := setClient_self s i
  have hidle : ((s.setClient i { s.client i with grants := (r.client i).count, chain := (r.client i).chain }).client i).isIdle = true := by
    rw [hset]
    simp [Client.isIdle, hused, hcount, hwaiters]
  unfold State.installClient
  dsimp only
  rw [if_pos hcount, if_pos hgrants]
  by_cases hin : i ∈ s.clt.idle
  · refine ⟨?_, fun hout => absurd hin hout⟩
    rw [idleIfQuiet_idle]
    split
    · exact List.mem_append_left _ hin
    · exact hin
  · obtain ⟨hlist, htime⟩ := idleIfQuiet_joins hidle hin
    exact ⟨hlist ▸ List.mem_append_right _ (List.mem_singleton_self i), fun _ => htime⟩

theorem installClient_leaves (honce : s.clt.idle.Nodup) (hcount : (r.client i).count ≠ 0) : i ∉ (s.installClient r i).clt.idle := by
  unfold State.installClient
  dsimp only
  rw [if_neg hcount]
  exact fun hin => absurd rfl ((List.Nodup.mem_erase_iff honce).1 hin).1

theorem installClient_once (honce : s.clt.idle.Nodup) (i : Nat) : (s.installClient r i).clt.idle.Nodup := by
  unfold State.installClient
  dsimp only
  split
  · split
    · exact idleIfQuiet_nodup (s := s.setClient i _) honce i
    · exact honce
  · exact List.Nodup.erase i honce

theorem clientsInstalled_other {l : List Nat} (h : j ∉ l) (s : State) (r : Rebuild) :
    (s.clientsInstalled r l).client j = s.client j ∧ (j ∈ (s.clientsInstalled r l).clt.idle ↔ j ∈ s.clt.idle) := by
  induction l generalizing s with
  | nil => exact ⟨rfl, Iff.rfl⟩
  | cons a l ih =>
    obtain ⟨ha, hl⟩ := not_or.1 (List.mem_cons.not.1 h)
    obtain ⟨hentry, hidle⟩ := installClient_other ha s r
    obtain ⟨hentry', hidle'⟩ := ih hl (s.installClient r a)
    exact ⟨hentry'.trans hentry, hidle'.trans hidle⟩

theorem clientsInstalled_once (honce : s.clt.idle.Nodup) (l : List Nat) : (s.clientsInstalled r l).clt.idle.Nodup := by
  induction l generalizing s with
  | nil => exact honce
  | cons a l ih => exact ih (installClient_once honce a)

/-- What the installation leaves of an entry is what its own step leaves, made on a state where the entry is as it was. -/
theorem clientsInstalled_step {l : List Nat} (h : l.Nodup) (hj : j ∈ l) (s : State) (r : Rebuild) :
    ∃ u : State, u.client j = s.client j ∧ (j ∈ u.clt.idle ↔ j ∈ s.clt.idle) ∧ u.swp = s.swp ∧ (s.clt.idle.Nodup → u.clt.idle.Nodup) ∧
      (s.clientsInstalled r l).client j = (u.installClient r j).client j ∧
      (j ∈ (s.clientsInstalled r l).clt.idle ↔ j ∈ (u.installClient r j).clt.idle) := by
  obtain ⟨a, b, rfl⟩ := List.append_of_mem hj
  obtain ⟨-, hright, hdisjoint⟩ := List.nodup_append.1 h
  have hbefore : j ∉ a := fun hin => hdisjoint j hin j (List.mem_cons_self ..) rfl
  have hafter : j ∉ b := (List.nodup_cons.1 hright).1
  have hsplit : s.clientsInstalled r (a ++ j :: b) = ((s.clientsInstalled r a).installClient r j).clientsInstalled r b :=
    List.foldl_append ..
  obtain ⟨hentry, hidle⟩ := clientsInstalled_other hbefore s r
  obtain ⟨hentry', hidle'⟩ := clientsInstalled_other hafter ((s.clientsInstalled r a).installClient r j) r
  refine ⟨s.clientsInstalled r a, hentry, hidle, (clientsInstalled_records s r a).swp, fun honce =>
    clientsInstalled_once honce a, ?_, ?_⟩
  · rw [hsplit]
    exact hentry'
  · rw [hsplit]
    exact hidle'

theorem clientsInUse_nodup (h : Tab.wf Client.zero s.clt.clients = true) : s.clientsInUse.Nodup :=
  (Tab.keys_nodup (lo := 0) (Tab.wf_filter _ _ _ h)).2

theorem mem_clientsInUse (h : Tab.wf Client.zero s.clt.clients = true) (i : Nat) : i ∈ s.clientsInUse ↔ (s.client i).inUse = true := by
  constructor
  · intro hi
    obtain ⟨⟨k, v⟩, hm, rfl⟩ := List.mem_map.1 hi
    obtain ⟨hmem, hused⟩ := List.mem_filter.1 hm
    rw [State.client, Tab.get_of_mem _ _ h hmem]
    exact hused
  · intro hused
    have hne : s.client i ≠ Client.zero := fun h0 => by
      rw [h0] at hused
      cases hused
    exact List.mem_map.2 ⟨_, List.mem_filter.2 ⟨Tab.mem_of_get _ _ hne, hused⟩, rfl⟩

/-! ### The figures of the reply (R166 point 5) -/

theorem addKey_rising {l : List Nat} (h : l.Pairwise (· < ·)) (k : Nat) : (addKey k l).Pairwise (· < ·) := by
  induction l with
  | nil => exact List.pairwise_singleton ..
  | cons a l ih =>
    obtain ⟨hlow, hl⟩ := List.pairwise_cons.1 h
    unfold addKey
    split
    · next hk =>
      refine List.pairwise_cons.2 ⟨fun b hb => ?_, h⟩
      obtain rfl | hb := List.mem_cons.1 hb
      · exact hk
      · exact Nat.lt_trans hk (hlow b hb)
    · split
      · exact h
      · next hk hne =>
        refine List.pairwise_cons.2 ⟨fun b hb => ?_, ih hl⟩
        obtain rfl | hb := (mem_addKey k b l).1 hb
        · omega
        · exact hlow b hb

theorem keysWith_rising {α : Type} (t : Tab α) {ks : List Nat} (h : ks.Pairwise (· < ·)) : (keysWith t ks).Pairwise (· < ·) := by
  unfold keysWith
  induction t generalizing ks with
  | nil => exact h
  | cons a t ih => exact ih (addKey_rising h a.1)

theorem rising_nodup {l : List Nat} (h : l.Pairwise (· < ·)) : l.Nodup := h.imp fun hlt => Nat.ne_of_lt hlt

/-- Two lists without repetition hold as many indexes that pass, the same ones passing. -/
theorem countWhere_range {l : List Nat} (hl : l.Nodup) {f f' : Nat → Bool} {n : Nat}
    (h : ∀ j, (j ∈ l ∧ f j = true) ↔ (j < n ∧ f' j = true)) : countWhere f l = ((List.range n).filter f').length := by
  refine List.Perm.length_eq ((List.perm_ext_iff_of_nodup (hl.filter _) (List.nodup_range.filter _)).2 fun j => ?_)
  rw [List.mem_filter, List.mem_filter, List.mem_range]
  exact h j

theorem adminSend_lnk_congr (h : t.lnk = s.lnk) (dest : Issuer) (code : Nat) (res : Result) (b : List Byte) :
    (State.adminSend dest code res b t).lnk = (State.adminSend dest code res b s).lnk := by
  have hstation : t.station dest.station = s.station dest.station := by rw [State.station, State.station, State.addrs, State.addrs, h]
  have haddrs : t.addrs = s.addrs := by rw [State.addrs, State.addrs, h]
  unfold State.adminSend
  rw [hstation, haddrs]
  unfold State.originate State.port
  rw [h]
  cases (s.station dest.station).port
  · dsimp only
    split <;> simp [State.setPort, State.countDropped]
  · dsimp only
    split <;> simp [State.setPort, State.countDropped]

end Sys2Proof.Machine

/-! PROOFS. The completion of COUNT REBUILD (R166). -/
namespace Sys2Proof.Machine

variable {s t : State} {r : Rebuild}

/-! ### The checks and runs that follow the completion -/

theorem servePools_stands {l : List Nat} (hd : s.damage = []) (h : ∀ p ∈ l, s.PressureStands p false) :
    servePools l s = .ok () (s.runsStarted l) := by
  induction l generalizing s with
  | nil => rfl
  | cons p l ih =>
    rw [servePools, Op.bind_ok (pressure_stands hd (h p (List.mem_cons_self ..))), Op.modify_bind]
    exact ih ((s.startRun_damage p).trans hd) fun q hq => (State.startRun_pressureStands s p q false).2 (h q (List.mem_cons_of_mem p hq))

theorem rebuildDone_damage (s : State) (r : Rebuild) : (s.rebuildDone r).damage = s.damage := by
  rw [rebuildDone_eq, State.completeOp_damage]
  exact (installed_records s r).damage

theorem rebuildFinish_stands (hd : s.damage = []) (h : ∀ p, p < 1024 → (s.rebuildDone r).PressureStands p false) :
    rebuildFinish r s = .ok () ((s.rebuildDone r).runsStarted (List.range Config.pools)) := by
  rw [rebuildFinish, Op.get_bind, checkAll_bind_clean hd, Op.modify_bind]
  exact servePools_stands ((rebuildDone_damage s r).trans hd) fun p hp => h p (List.mem_range.1 hp)

/-! ### What the completion leaves -/

theorem installClient_adm (s : State) (r : Rebuild) (i : Nat) : (s.installClient r i).adm = s.adm := by
  unfold State.installClient
  dsimp only
  split
  · split <;> simp
  · simp

section
variable (s : State) (r : Rebuild)

theorem rebuildDone_poolLive (p : Nat) :
    (s.rebuildDone r).poolLive p = { s.poolLive p with up := Tab.get 0 r.prioritySums p, ug := Tab.get 0 r.generalSums p } := by
  have hfeatures : ((s.poolsInstalled r).featuresInstalled r (s.rebuildFeatures r)).adm.pools = (s.poolsInstalled r).adm.pools :=
    foldl_keep _ (fun t : State => t.adm.pools) (fun _ _ => by rfl) _ _
  have hclients : (s.installed r).adm.pools = ((s.poolsInstalled r).featuresInstalled r (s.rebuildFeatures r)).adm.pools :=
    foldl_keep _ (fun t : State => t.adm.pools) (fun b a => congrArg Adm.pools (installClient_adm b r a)) _ _
  rw [rebuildDone_eq, State.poolLive_congr (congrArg Adm.pools (State.completeOp_adm ..))]
  exact (State.poolLive_congr (hclients.trans hfeatures) p).trans (poolsInstalled_poolLive s r p)

theorem rebuildDone_featLive (i : Nat) : (s.rebuildDone r).featLive i = { s.featLive i with hf := Tab.get 0 r.unitSums i } := by
  have hpools : (s.poolsInstalled r).adm.features = s.adm.features :=
    foldl_keep _ (fun t : State => t.adm.features) (fun _ _ => by rfl) _ _
  have hclients : (s.installed r).adm.features = ((s.poolsInstalled r).featuresInstalled r (s.rebuildFeatures r)).adm.features :=
    foldl_keep _ (fun t : State => t.adm.features) (fun b a => congrArg Adm.features (installClient_adm b r a)) _ _
  rw [rebuildDone_eq, State.featLive_congr (congrArg Adm.features (State.completeOp_adm ..))]
  exact (State.featLive_congr hclients i).trans (featuresInstalled_featLive s _ r hpools i)

/-- The state with the live records installed, the client entries still as they were. -/
def State.liveInstalled : State := (s.poolsInstalled r).featuresInstalled r (s.rebuildFeatures r)

theorem liveInstalled_clt : (s.liveInstalled r).clt = s.clt :=
  (foldl_keep _ State.clt (fun _ _ => by rfl) _ _).trans (foldl_keep _ State.clt (fun _ _ => by rfl) _ _)

theorem liveInstalled_swp : (s.liveInstalled r).swp = s.swp := ((poolsInstalled_records s r).trans (featuresInstalled_records ..)).swp

theorem rebuildDone_clt : (s.rebuildDone r).clt = ((s.liveInstalled r).clientsInstalled r s.clientsInUse).clt := by
  rw [rebuildDone_eq]
  exact State.completeOp_clt ..

theorem rebuildDone_client (i : Nat) : (s.rebuildDone r).client i = ((s.liveInstalled r).clientsInstalled r s.clientsInUse).client i :=
  State.client_congr (congrArg Clt.clients (rebuildDone_clt s r)) i

theorem liveInstalled_client (i : Nat) : (s.liveInstalled r).client i = s.client i :=
  State.client_congr (congrArg Clt.clients (liveInstalled_clt s r)) i

end

section
variable {i : Nat} (hform : Tab.wf Client.zero s.clt.clients = true)
include hform

/-- An entry in use as the completion leaves it is what its own step of the installation leaves. -/
theorem rebuildDone_step (r : Rebuild) (hused : (s.client i).inUse = true) :
    ∃ u : State, u.client i = s.client i ∧ (i ∈ u.clt.idle ↔ i ∈ s.clt.idle) ∧ u.swp = s.swp ∧ (s.clt.idle.Nodup → u.clt.idle.Nodup) ∧
      (s.rebuildDone r).client i = (u.installClient r i).client i ∧ (i ∈ (s.rebuildDone r).clt.idle ↔ i ∈ (u.installClient r i).clt.idle) := by
  obtain ⟨u, hentry, hidle, hswp, honce, hclient, hlist⟩ :=
    clientsInstalled_step (clientsInUse_nodup hform) ((mem_clientsInUse hform i).2 hused) (s.liveInstalled r) r
  rw [liveInstalled_clt] at hidle honce
  refine ⟨u, hentry.trans (liveInstalled_client s r i), hidle, hswp.trans (liveInstalled_swp s r), honce,
    (rebuildDone_client s r i).trans hclient, ?_⟩
  rw [rebuildDone_clt]
  exact hlist

theorem rebuildDone_entry (r : Rebuild) (hused : (s.client i).inUse = true) :
    (s.rebuildDone r).client i = { s.client i with
      grants := (r.client i).count, chain := (r.client i).chain, lastActivity := ((s.rebuildDone r).client i).lastActivity } := by
  obtain ⟨u, hentry, -, -, -, hclient, -⟩ := rebuildDone_step hform r hused
  have hstep := installClient_entry u r i
  rw [hentry, ← hclient] at hstep
  exact hstep

theorem rebuildDone_entry_other (r : Rebuild) (hused : (s.client i).inUse = false) : (s.rebuildDone r).client i = s.client i := by
  have hout : i ∉ s.clientsInUse := fun hin => by simp [(mem_clientsInUse hform i).1 hin] at hused
  exact (rebuildDone_client s r i).trans ((clientsInstalled_other hout _ r).1.trans (liveInstalled_client s r i))

/-- The entries whose number of grants the completion changes (R166 point 5). -/
theorem rebuildDone_grants_ne (r : Rebuild) (i : Nat) : ((s.rebuildDone r).client i).grants ≠ (s.client i).grants ↔
    (s.client i).inUse = true ∧ (r.client i).count ≠ (s.client i).grants := by
  cases hused : (s.client i).inUse with
  | true =>
    rw [rebuildDone_entry hform r hused]
    exact ⟨fun h => ⟨rfl, h⟩, fun h => h.2⟩
  | false =>
    rw [rebuildDone_entry_other hform r hused]
    exact ⟨fun h => absurd rfl h, fun h => by cases h.1⟩

end

theorem mem_rebuildPools {p : Nat} (h : r.pool p (s.poolLive p) ≠ s.poolLive p) : p ∈ s.rebuildPools r := by
  by_contra hn
  have hsame := poolsInstalled_poolLive s r p
  rw [State.poolsInstalled, installPools_poolLive, if_neg hn] at hsame
  exact h hsame.symm

theorem mem_rebuildFeatures {i : Nat} (h : r.feature i (s.featLive i) ≠ s.featLive i) : i ∈ s.rebuildFeatures r := by
  by_contra hn
  have hsame := featuresInstalled_featLive s s r rfl i
  rw [featuresInstalled_get, if_neg hn] at hsame
  exact h hsame.symm

/-- The figures as counts over the whole tables, no record past a table's end being changed. -/
theorem rebuildFigures_counted {t : State} (hform : Tab.wf Client.zero s.clt.clients = true)
    (hpools : ∀ p, t.poolLive p = r.pool p (s.poolLive p)) (hfeatures : ∀ i, t.featLive i = r.feature i (s.featLive i))
    (hclients : ∀ i, (t.client i).grants ≠ (s.client i).grants ↔ (s.client i).inUse = true ∧ (r.client i).count ≠ (s.client i).grants)
    (hpool : ∀ p, 1024 ≤ p → t.poolLive p = s.poolLive p) (hfeature : ∀ i, 16384 ≤ i → t.featLive i = s.featLive i)
    (hclient : ∀ i, 8192 ≤ i → (s.client i).inUse = false) :
    s.rebuildFigures r = nat32 r.badFreed
      ++ nat32 ((List.range 1024).filter (fun p => decide (t.poolLive p ≠ s.poolLive p))).length
      ++ nat32 ((List.range 16384).filter (fun i => decide (t.featLive i ≠ s.featLive i))).length
      ++ nat32 ((List.range 8192).filter (fun i => decide ((t.client i).grants ≠ (s.client i).grants))).length
      ++ nat32 r.restarts := by
  have hrisingPools : (s.rebuildPools r).Pairwise (· < ·) := keysWith_rising _ (keysWith_rising _ (keysWith_rising _ .nil))
  have hrisingFeatures : (s.rebuildFeatures r).Pairwise (· < ·) := keysWith_rising _ (keysWith_rising _ .nil)
  have hcountPools := countWhere_range (rising_nodup hrisingPools) (n := 1024) (f := fun p => r.pool p (s.poolLive p) ≠ s.poolLive p)
    (f' := fun p => decide (t.poolLive p ≠ s.poolLive p)) fun p => by
      rw [decide_eq_true_iff, decide_eq_true_iff, hpools]
      refine and_congr_left fun hne => iff_of_true (mem_rebuildPools hne) (Nat.lt_of_not_le fun hp => hne ?_)
      rw [← hpools, hpool p hp]
  have hcountFeatures := countWhere_range (rising_nodup hrisingFeatures) (n := 16384)
    (f := fun i => r.feature i (s.featLive i) ≠ s.featLive i) (f' := fun i => decide (t.featLive i ≠ s.featLive i)) fun i => by
      rw [decide_eq_true_iff, decide_eq_true_iff, hfeatures]
      refine and_congr_left fun hne => iff_of_true (mem_rebuildFeatures hne) (Nat.lt_of_not_le fun hi => hne ?_)
      rw [← hfeatures, hfeature i hi]
  have hcountClients := countWhere_range (clientsInUse_nodup hform) (n := 8192) (f := fun i => (r.client i).count ≠ (s.client i).grants)
    (f' := fun i => decide ((t.client i).grants ≠ (s.client i).grants)) fun i => by
      rw [decide_eq_true_iff, decide_eq_true_iff, hclients, mem_clientsInUse hform]
      refine (and_iff_right_of_imp fun h => Nat.lt_of_not_le fun hi => ?_).symm
      simp [hclient i hi] at h
  rw [State.rebuildFigures, hcountPools, hcountFeatures, hcountClients]

theorem completeOp_lnk_congr {op : LongOp} (hop : s.ada.op = op) (hada : t.ada = s.ada) (hlnk : t.lnk = s.lnk) (b : List Byte) :
    (t.completeOp b).lnk = (State.adminSend s.ada.issuer op.commandCode .done b s).lnk := by
  rw [completeOp_eq op (by rw [hada, hop]), hada]
  exact adminSend_lnk_congr hlnk ..

theorem rebuildDone_lnk (hop : s.ada.op = .rebuild r) :
    (s.rebuildDone r).lnk = (State.adminSend s.ada.issuer 0x14 .done (s.rebuildFigures r) s).lnk := by
  have hframe := installed_records s r
  have hada : (s.installed r).ada = s.ada := by
    unfold SameButRecords at hframe
    rw [hframe]
  have hlnk : (s.installed r).lnk = s.lnk := by
    unfold SameButRecords at hframe
    rw [hframe]
  rw [rebuildDone_eq]
  exact completeOp_lnk_congr (t := { s.installed r with grt.liveTotal := r.live, grt.suspect := false }) hop hada hlnk _

/-- The rest of the state after the completion (R166). -/
theorem rebuildDone_frame (s : State) (r : Rebuild) :
    (s.rebuildDone r).grt = { s.grt with liveTotal := r.live, suspect := false } ∧ (s.rebuildDone r).ada.op = .idle ∧
      (s.rebuildDone r).adm.runs = s.adm.runs ∧ (s.rebuildDone r).wts = s.wts ∧ (s.rebuildDone r).tbs = s.tbs ∧
      (s.rebuildDone r).swp = s.swp ∧ (s.rebuildDone r).exu = s.exu ∧ (s.rebuildDone r).fnu = s.fnu ∧
      (s.rebuildDone r).ada.service = s.ada.service := by
  have hframe : s.installed r = _ := installed_records s r
  rw [rebuildDone_eq]
  refine ⟨(State.completeOp_grt ..).trans ?_, rfl, (congrArg Adm.runs (State.completeOp_adm ..)).trans ?_,
    (State.completeOp_wts ..).trans ?_, (State.completeOp_tbs ..).trans ?_, (State.completeOp_swp ..).trans ?_,
    (State.completeOp_exu ..).trans ?_, (State.completeOp_fnu ..).trans ?_, (State.longReply_service ..).trans ?_⟩
  all_goals
    rw [hframe]

theorem exec_countRebuildCompletion {u : State} (hq : s.Quiet) (hop : s.ada.op = .rebuild r) (hcursor : 32768 ≤ r.cursor)
    (hrun : rebuildFinish r s = .ok () u) : exec (.countRebuildCompletion []) s = .next u := by
  refine congrArg Host.Outcome.next ((awake_high hq.high _).trans ?_)
  rw [State.strike_nil]
  dsimp only
  rw [hop]
  exact (if_pos hcursor).trans (settle_ok hrun)

/-- Settles O51. -/
theorem countRebuildVisitsAndInstalls : Obligations.CountRebuildVisitsAndInstalls := by
  refine ⟨⟨?_, ?_⟩, ?_, ?_⟩
  case refine_1 =>
    intro s d rest st h t
    have hrun : ∀ {u}, countRebuildRun (adminCtx .countRebuild d st) t = .ok () u → exec .countRebuild s = .next u :=
      exec_admin (run := countRebuildRun) rfl h
    exact ⟨fun hs => hrun (countRebuildRun_faulted (s := t) hs), fun hs hop => hrun (countRebuildRun_busy (s := t) hs hop),
      fun hs hop => hrun (countRebuildRun_takes (s := t) hs hop)⟩
  case refine_2 =>
    rintro s r i g hq hop rfl hi rfl
    refine ⟨fun hfree => ?_, fun hbad => ?_, fun hlive howner => ?_, fun hlive howner => ?_⟩
    · refine (exec_countRebuildVisit hq hop hi (rebuildVisit_free hq.sound hfree)).trans ?_
      rw [mapRebuild_eq hop]
      rfl
    · refine (exec_countRebuildVisit hq hop hi (rebuildVisit_bad hq.sound hbad)).trans ?_
      rw [State.rebuildFree, mapRebuild_eq (s := s.freeSlot r.cursor) hop]
      rfl
    · have hadd := (rebuildVisit_live hq.sound hlive).trans (rebuildLive_adds hq.sound (ownerStands_iff.2 howner))
      rw [State.rebuildAdd, mapRebuild_eq hop] at hadd
      obtain ⟨hpriority, hgeneral, hunits⟩ := adding_sums r.cursor (s.slot r.cursor) (s.unitsCounted (s.slot r.cursor)) r
      refine ⟨_, exec_countRebuildVisit hq hop hi hadd, rfl, rfl, rfl, rfl, hpriority, hgeneral, fun f => ?_, fun j =>
        Rebuild.client_adding r.cursor (s.slot r.cursor) (s.unitsCounted (s.slot r.cursor)) r j⟩
      refine (hunits f).trans ?_
      simp only [unitsCounted_iff]
    · intro t hstands
      have horphan := rebuildOrphan_eq hop rfl
      have hvisit := rebuildLive_orphan (i := r.cursor) hq.sound (fun h => ?_) (by rw [horphan]; rfl)
        (by rw [horphan]; exact (State.releaseFrom_damage ..).trans hq.sound) (by rw [horphan]; exact hstands)
      · refine ⟨exec_countRebuildVisit hq hop hi ((rebuildVisit_live hq.sound hlive).trans (hvisit.trans (congrArg (EStateM.Result.ok ()) horphan))), ?_, ?_⟩
        · exact State.releaseFrom_clt s false r.cursor
        · exact (congrArg Slot.state (State.slot_releaseFrom s false r.cursor r.cursor)).trans (by rw [if_pos rfl]; rfl)
      · obtain ⟨hused, hid⟩ := ownerStands_iff.1 h
        exact howner.elim (by simp [hused]) fun hne => hne hid
  case refine_3 =>
    intro s r hq hop hcursor hstands
    exact exec_countRebuildCompletion hq hop hcursor (rebuildFinish_stands hq.sound hstands)
  case refine_4 =>
    intro s r hcanonical t
    have hform := hcanonical.clients
    obtain ⟨hgrt, hop, hruns, hwts, htbs, hswp, hexu, hfnu, hservice⟩ := rebuildDone_frame s r
    refine ⟨rebuildDone_poolLive s r, rebuildDone_featLive s r, fun i hused => ?_, fun i => rebuildDone_entry_other hform r,
      fun i hused hgrants hcount hwaiters => ?_, fun i honce hused hcount => ?_, hgrt, hop, hruns, hwts, htbs, hswp, hexu, hfnu, hservice,
      fun hrebuild hpool hfeature hclient => ?_⟩
    · rw [show t.client i = _ from rebuildDone_entry hform r hused]
      exact ⟨rfl, rfl, rfl, rfl, hused⟩
    · obtain ⟨u, hentry, hidle, hmt, -, hstep, hlist⟩ := rebuildDone_step hform r hused
      obtain ⟨hin, htime⟩ := installClient_joins (s := u) (r := r) (i := i) (hentry ▸ hused) (hentry ▸ hgrants) hcount (hentry ▸ hwaiters)
      refine ⟨hlist.2 hin, fun hout => ?_⟩
      rw [show t.client i = _ from hstep, htime fun h => hout (hidle.1 h), hmt]
    · obtain ⟨u, -, -, -, hnodup, -, hlist⟩ := rebuildDone_step hform r hused
      exact fun hin => installClient_leaves (hnodup honce) hcount (hlist.1 hin)
    · rw [show t.lnk = _ from rebuildDone_lnk hrebuild, rebuildFigures_counted (t := t) hform (rebuildDone_poolLive s r) (rebuildDone_featLive s r)
        (rebuildDone_grants_ne hform r) hpool hfeature hclient]

end Sys2Proof.Machine

/-! PROOFS. SERVICE RESET (R161, R167, R168). -/
namespace Sys2Proof.Machine

variable {s t : State} {c : Instr} {d : Cand} {rest : List Cand} {st i j : Nat} {p q : Port} {x : AdmCtx}

/-! ### The command -/

theorem serviceResetRun_busy (h : s.ada.op = .reset) : serviceResetRun x s = .ok () (s.adminReply x .busy []) :=
  Op.ite_pos (by rw [h]; rfl) _ _ s

theorem serviceResetRun_idle (h : s.ada.op = .idle) : serviceResetRun x s = .ok () (s.takeSlot x .reset) := by
  refine (Op.ite_neg (by rw [h]; exact Bool.false_ne_true) _ _ s).trans ?_
  rw [if_pos ((LongOp.isIdle_iff _).2 h)]
  rfl

theorem serviceResetRun_aborts (h : s.ada.op ≠ .idle) (hreset : s.ada.op ≠ .reset) :
    serviceResetRun x s = .ok () (s.abortOp.takeSlot x .reset) := by
  refine (Op.ite_neg (by rw [not_isReset hreset]; exact Bool.false_ne_true) _ _ s).trans ?_
  rw [if_neg (by rw [LongOp.isIdle_false h]; exact Bool.false_ne_true)]
  rfl

/-! ### A composed frame at its port (R150, R152) -/

theorem originate_ident (s : State) (q : Port) (a : Addressing) (b : List Byte) :
    (s.originate q none a b).lnk.ident = s.lnk.ident + 1 := by
  unfold State.originate
  dsimp only
  split
  · cases q <;> rfl
  · rfl

theorem originate_port_ne (h : p ≠ q) (s : State) (a : Addressing) (b : List Byte) : (s.originate q none a b).port p = s.port p := by
  unfold State.originate
  dsimp only
  split
  · cases p <;> cases q
    · exact absurd rfl h
    · rfl
    · rfl
    · exact absurd rfl h
  · cases p <;> rfl

theorem originate_joins (h : (s.port q).originate.length < 256) (a : Addressing) (b : List Byte) :
    (s.originate q none a b).ada = s.ada ∧ (s.originate q none a b).port q =
      { s.port q with originate := (s.port q).originate ++ [⟨composeFrame a s.lnk.ident b, none⟩] } := by
  have hport : (({ s with lnk.ident := s.lnk.ident + 1 } : State).port q) = s.port q := by cases q <;> rfl
  unfold State.originate
  dsimp only
  rw [hport, if_pos (show (s.port q).originate.length < Config.originateQueue from h)]
  cases q <;> exact ⟨rfl, rfl⟩

theorem originate_full (h : 256 ≤ (s.port q).originate.length) (a : Addressing) (b : List Byte) :
    (s.originate q none a b).ada.stats.dropped = s.ada.stats.dropped + 1 ∧ (s.originate q none a b).port q = s.port q := by
  have hport : (({ s with lnk.ident := s.lnk.ident + 1 } : State).port q) = s.port q := by cases q <;> rfl
  unfold State.originate
  dsimp only
  rw [hport, if_neg (show ¬ (s.port q).originate.length < Config.originateQueue from Nat.not_lt.2 h)]
  cases q <;> exact ⟨rfl, rfl⟩

/-! ### What the completion clears (R168) -/

theorem queueNotice_changes_fnu (s : State) (b : NoticeBody) : s.queueNotice b = { s with fnu := (s.queueNotice b).fnu } := by
  unfold State.queueNotice State.noticeLost
  dsimp only
  split
  · split
    · rfl
    · split <;> rfl
  · rfl

theorem queueNotice_room (h : s.fnu.notices.length < 32) (b : NoticeBody) : s.queueNotice b = s.appendNotice b :=
  if_neg (by rw [State.noticeQueueFull_iff]; omega)

theorem serviceOn_frame (s : State) : s.serviceOn = { s with ada.service := .on, fnu := s.serviceOn.fnu } := by
  unfold State.serviceOn
  split
  · next h => rw [← h]
  · exact queueNotice_changes_fnu ..

/-- The state the completion leaves before its reply. -/
def State.resetCleared (s : State) : State := s.clearRecords.restartPasses.serviceOn

theorem restartPasses_frame (s : State) : s.restartPasses = { s with swp := s.restartPasses.swp } := by
  unfold State.restartPasses
  split <;> rfl

theorem resetCleared_frame (s : State) :
    s.resetCleared = { s.clearRecords with swp := s.clearRecords.restartPasses.swp, ada.service := .on, fnu := s.resetCleared.fnu } := by
  exact (serviceOn_frame s.clearRecords.restartPasses).trans
    (congrArg (fun u : State => { u with ada.service := .on, fnu := s.resetCleared.fnu }) (restartPasses_frame s.clearRecords))

theorem enterService_room (h : s.fnu.notices.length < 32) (n : Service) : (s.enterService n).fnu =
    { s.fnu with notices := s.fnu.notices ++ [⟨s.swp.mt, .serviceState s.ada.service n s.swp.mt⟩] } :=
  congrArg State.fnu (queueNotice_room (s := { s with ada.service := n }) h _)

/-- The passes' restart leaves everything but the sweeper, and the seconds count and the wall time stand (R168). -/
theorem restartPasses_parts (s : State) : s.restartPasses.ada = s.ada ∧ s.restartPasses.fnu = s.fnu ∧
    s.restartPasses.swp.mt = s.swp.mt ∧ s.restartPasses.swp.dtOffset = s.swp.dtOffset ∧
    s.restartPasses.swp.dtValid = s.swp.dtValid := by
  unfold State.restartPasses
  split <;> exact ⟨rfl, rfl, rfl, rfl, rfl⟩

/-- The notices and captures after the completion (R168, R177). -/
theorem resetCleared_fnu (s : State) :
    s.resetCleared.fnu.hard = s.fnu.hard ∧ (s.ada.service = .on → s.resetCleared.fnu = s.fnu) ∧
      (s.ada.service ≠ .on → s.fnu.notices.length < 32 → s.resetCleared.fnu =
        { s.fnu with notices := s.fnu.notices ++ [⟨s.swp.mt, .serviceState s.ada.service .on s.swp.mt⟩] }) := by
  obtain ⟨hada, hfnu, hmt, -, -⟩ := restartPasses_parts s.clearRecords
  have hservice : s.clearRecords.restartPasses.ada.service = s.ada.service := congrArg (·.service) hada
  have hfnu : s.clearRecords.restartPasses.fnu = s.fnu := hfnu
  unfold State.resetCleared State.serviceOn
  rw [hservice]
  by_cases hon : s.ada.service = .on
  · rw [if_pos hon, hfnu]
    exact ⟨rfl, fun _ => rfl, fun hne => absurd hon hne⟩
  · rw [if_neg hon]
    refine ⟨(State.queueNotice_hard ..).trans (congrArg Fnu.hard hfnu), fun h => absurd h hon, fun _ hroom => ?_⟩
    rw [enterService_room (by rw [hfnu]; exact hroom), hfnu, hmt, hservice]
    rfl

theorem restartPasses_faulted (h : s.ada.service = .faulted) :
    s.restartPasses.swp = { s.swp with grantPass.cursor := 0, waiterPass.cursor := 0, clientPass.cursor := 0 } := by
  rw [State.restartPasses, if_pos h]

theorem restartPasses_other (h : s.ada.service ≠ .faulted) : s.restartPasses = s := if_neg h

theorem exec_serviceResetCompletion (hhigh : s.resetLow = false) (hop : s.ada.op = .reset) :
    exec .serviceResetCompletion s = .next s.resetDone :=
  congrArg Host.Outcome.next ((awake_high hhigh _).trans (if_pos (by rw [hop]; rfl)))

/-- The completion's reply is sent from the cleared state to the issuing station (R161, R168). -/
theorem resetDone_eq (hop : s.ada.op = .reset) :
    s.resetDone = { State.adminSend s.ada.issuer 0x15 .done [] s.resetCleared with ada.op := .idle } := by
  have hframe := resetCleared_frame s
  have hada : s.resetCleared.ada.op = .reset ∧ s.resetCleared.ada.issuer = s.ada.issuer := by
    rw [hframe]
    exact ⟨hop, rfl⟩
  rw [State.resetDone, ← State.resetCleared, completeOp_eq .reset hada.1, hada.2]
  rfl

/-- The reply's addresses (R150). -/
def State.replyAddressing (s : State) : Addressing :=
  { dstMac := s.ada.issuer.mac, srcMac := s.addrs.partMac, vlan := s.ada.issuer.vlan, srcIp := s.addrs.mgmtIp,
    srcPort := s.addrs.mgmtPort, dstIp := s.ada.issuer.ip, dstPort := s.ada.issuer.udp }

theorem resetReply_eq (s : State) : State.adminSend s.ada.issuer 0x15 .done [] s.resetCleared =
    s.resetCleared.originate (s.station s.ada.issuer.station).port none s.replyAddressing
      (adminReplyDatagram 0x15 .done s.ada.issuer.seq []) := by
  have haddrs : s.resetCleared.addrs = s.addrs := by
    rw [resetCleared_frame]
    rfl
  rw [State.adminSend, State.station, State.station, haddrs]
  rfl

/-- The parts of the cleared state that the completion keeps, or clears (R168). -/
theorem resetCleared_parts (s : State) :
    s.resetCleared.grt = .clear ∧ s.resetCleared.wts = .clear ∧ s.resetCleared.clt = .clear ∧ s.resetCleared.adm.pools = [] ∧
      s.resetCleared.adm.features = [] ∧ s.resetCleared.tbs = s.tbs ∧ s.resetCleared.exu = s.exu ∧ s.resetCleared.lnk = s.lnk ∧
      s.resetCleared.ada = { s.ada with service := .on, stats := .zero } ∧ s.resetCleared.swp = s.clearRecords.restartPasses.swp := by
  rw [resetCleared_frame]
  exact ⟨rfl, rfl, rfl, rfl, rfl, rfl, rfl, rfl, rfl, rfl⟩

theorem freeFifoFull_eq : freeFifoFull = List.range 32768 := (List.range_eq_range' ..).symm

/-- Settles O52. -/
theorem serviceResetTakesSlotAndClears : Obligations.ServiceResetTakesSlotAndClears := by
  refine ⟨fun s d rest st h => ?_, fun s hhigh hop => ?_⟩
  · intro t
    have hrun : ∀ {u}, serviceResetRun (adminCtx .serviceReset d st) t = .ok () u → exec .serviceReset s = .next u :=
      exec_admin (run := serviceResetRun) rfl h
    exact ⟨fun hop => hrun (serviceResetRun_idle (s := t) hop), fun hop => hrun (serviceResetRun_busy (s := t) hop),
      fun hop hreset => hrun (serviceResetRun_aborts (s := t) hop hreset)⟩
  · obtain ⟨hgrt, hwts, hclt, hpools, hfeatures, htbs, hexu, hlnk, hada, hswp⟩ := resetCleared_parts s
    obtain ⟨hhard, hon, hnotice⟩ := resetCleared_fnu s
    obtain ⟨-, -, hmt, hoffset, hvalid⟩ := restartPasses_parts s.clearRecords
    have hport : ∀ p, s.resetCleared.port p = s.port p := fun p => by
      cases p <;> simp only [State.port, hlnk]
    have hsent := (resetDone_eq hop).trans (congrArg (fun u : State => { u with ada.op := .idle }) (resetReply_eq s))
    generalize hq : (s.station s.ada.issuer.station).port = q at hsent
    have hout := originate_output s.resetCleared q s.replyAddressing (adminReplyDatagram 0x15 .done s.ada.issuer.seq [])
    have hident := originate_ident s.resetCleared q s.replyAddressing (adminReplyDatagram 0x15 .done s.ada.issuer.seq [])
    have hother := fun p (h : p ≠ q) => originate_port_ne h s.resetCleared s.replyAddressing
      (adminReplyDatagram 0x15 .done s.ada.issuer.seq [])
    have hjoins := fun h => originate_joins (s := s.resetCleared) (q := q) h s.replyAddressing
      (adminReplyDatagram 0x15 .done s.ada.issuer.seq [])
    have hfull := fun h => originate_full (s := s.resetCleared) (q := q) h s.replyAddressing
      (adminReplyDatagram 0x15 .done s.ada.issuer.seq [])
    rw [hport, hlnk] at hjoins
    rw [hport] at hfull
    generalize s.resetCleared.originate q none s.replyAddressing (adminReplyDatagram 0x15 .done s.ada.issuer.seq []) = v at *
    have hvgrt := hout.grt.trans hgrt
    have hvwts := hout.wts.trans hwts
    have hvclt := hout.clt.trans hclt
    have hvada := hout.ada
    rw [hada] at hvada
    have hvlnk := hout.lnk
    rw [hlnk] at hvlnk
    have hvpools : v.adm.pools = [] := (congrArg Adm.pools hout.adm).trans hpools
    have hvfeatures : v.adm.features = [] := (congrArg Adm.features hout.adm).trans hfeatures
    have hvswp : v.swp = s.clearRecords.restartPasses.swp := hout.swp.trans hswp
    have hvfnu : s.ada.service ≠ .on → s.fnu.notices.length < 32 → v.fnu =
        { s.fnu with notices := s.fnu.notices ++ [⟨s.swp.mt, .serviceState s.ada.service .on s.swp.mt⟩] } := fun h hroom =>
      hout.fnu.trans (hnotice h hroom)
    refine ⟨_, (exec_serviceResetCompletion hhigh hop).trans (congrArg Host.Outcome.next hsent), congrArg Ada.service hvada, rfl,
      fun i => congrArg (fun g : Grt => Tab.get Slot.zero g.slots i) hvgrt, (congrArg Grt.freeFifo hvgrt).trans freeFifoFull_eq,
      congrArg Grt.suspect hvgrt, congrArg Grt.exhausted hvgrt, congrArg Grt.liveTotal hvgrt,
      fun p => congrArg (fun g : Grt => Tab.get [] g.linger p) hvgrt, fun p => congrArg (Tab.get PoolLive.zero · p) hvpools,
      fun i => congrArg (Tab.get FeatLive.zero · i) hvfeatures, fun i => congrArg (fun w : Wts => Tab.get Waiter.zero w.waiters i) hvwts,
      fun p c => ?_, congrArg Wts.np hvwts, congrArg Wts.ng hvwts, fun i => congrArg (fun c : Clt => Tab.get Client.zero c.clients i) hvclt,
      congrArg Clt.idle hvclt, ?_, hout.tbs.trans htbs, (congrArg Swp.mt hvswp).trans hmt, (congrArg Swp.dtOffset hvswp).trans hoffset,
      (congrArg Swp.dtValid hvswp).trans hvalid, (congrArg Fnu.hard hout.fnu).trans hhard, fun hroom => ?_, fun h => hout.fnu.trans (hon h),
      fun h hroom => congrArg Fnu.notices (hvfnu h hroom), fun h => ?_, fun h => hvswp.trans (by rw [restartPasses_other (s := s.clearRecords) h]; rfl),
      (congrArg Ada.bootCopy hvada :), (congrArg Ada.flash hvada :), (congrArg Ada.intake hvada :), congrArg Exu.intake (hout.exu.trans hexu),
      (congrArg Lnk.addrs hvlnk :), (congrArg Lnk.neighbours hvlnk :), (congrArg (fun l : Lnk => l.portF.forward) hvlnk :),
      (congrArg (fun l : Lnk => l.portS.forward) hvlnk :), (congrArg (fun l : Lnk => l.portF.mark) hvlnk :),
      (congrArg (fun l : Lnk => l.portS.mark) hvlnk :), ?_⟩
    · exact congrArg (fun w : Wts => (Tab.get Queues.none w.queues p).of c) hvwts |>.trans (by cases c <;> rfl)
    · exact congrArg Ada.stats hvada
    · by_cases hs : s.ada.service = .on
      · exact ⟨congrArg Fnu.soft (hout.fnu.trans (hon hs)), congrArg Fnu.lost (hout.fnu.trans (hon hs))⟩
      · exact ⟨(congrArg Fnu.soft (hvfnu hs hroom) :), (congrArg Fnu.lost (hvfnu hs hroom) :)⟩
    · have hpasses := hvswp.trans (restartPasses_faulted (s := s.clearRecords) h)
      exact ⟨congrArg (fun w : Swp => w.grantPass.cursor) hpasses, congrArg (fun w : Swp => w.waiterPass.cursor) hpasses,
        congrArg (fun w : Swp => w.clientPass.cursor) hpasses⟩
    · subst hq
      have hsame : ∀ p, ({ v with ada.op := .idle } : State).port p = v.port p := fun p => by cases p <;> rfl
      refine ⟨hident.trans (congrArg (fun l : Lnk => l.ident + 1) hlnk), fun p h => (hsame p).trans ((hother p h).trans (hport p)),
        fun h => ?_, fun h => ?_⟩
      · obtain ⟨hstats, hqueue⟩ := hjoins h
        exact ⟨congrArg (fun a : Ada => a.stats.dropped) (hstats.trans hada), (hsame _).trans hqueue⟩
      · obtain ⟨hstats, hqueue⟩ := hfull h
        exact ⟨hstats.trans (congrArg (fun a : Ada => a.stats.dropped + 1) hada), (hsame _).trans hqueue⟩

end Sys2Proof.Machine

/-! PROOFS. The checked reads: a legible word, a lost bank word and a lost word that takes the device to FAULTED (R110, R122, R171 to R175). -/
namespace Sys2Proof.Machine

variable {s t u : State} {w v : MemWord} {dm : Damage} {e : Event} {b : BankId} {k : TableKind} {i j p : Nat} {code : W32}

/-! ### What an event leaves -/

theorem hardEvent_locks (s : State) (e : Event) : (s.hardEvent e).fnu.hard.locked = true := by
  rw [State.hardEvent_hard]
  exact Capture.give_locked ..

theorem softEvent_hard (s : State) (e : Event) : (s.softEvent e).fnu.hard = s.fnu.hard := by
  unfold State.softEvent
  dsimp only
  split
  · rfl
  · exact State.queueNotice_hard ..

/-! ### Legible words (R171) -/

theorem damageAt_congr (h : t.damage = s.damage) (w : MemWord) : t.damageAt w = s.damageAt w := by
  rw [State.damageAt, State.damageAt, h]

/-- The word reads without loss. -/
abbrev State.Legible (s : State) (w : MemWord) : Prop := s.damageAt w = none ∨ s.damageAt w = some .correctable

/-- The state after the read of a legible word. -/
def State.corrected (w : MemWord) (s : State) : State :=
  if s.damageAt w = none then s else (s.heal w).softEvent (wordSoftEvent s w)

theorem checkOr_legible (h : s.Legible w) (l : Damage → Op Unit) : checkOr w l s = .ok () (s.corrected w) := by
  unfold checkOr State.corrected
  obtain h | h := h
  · rw [h]
    rfl
  · rw [h]
    rfl

theorem checkOr_lost (h : s.damageAt w = some dm) (hdm : dm ≠ .correctable) (l : Damage → Op Unit) : checkOr w l s = l dm (s.heal w) := by
  unfold checkOr
  rw [h]
  exact congrArg (fun m : EStateM.Result Stop State Unit => m) (if_neg hdm)

theorem corrected_frame (s : State) (w : MemWord) :
    s.corrected w = { s with damage := (s.corrected w).damage, fnu := (s.corrected w).fnu } := by
  unfold State.corrected
  split
  · rfl
  · unfold State.softEvent
    dsimp only
    split
    · rfl
    · rw [queueNotice_changes_fnu]
      rfl

theorem corrected_hard (s : State) (w : MemWord) : (s.corrected w).fnu.hard = s.fnu.hard := by
  unfold State.corrected
  split
  · rfl
  · exact softEvent_hard ..

theorem corrected_damageAt (h : v ≠ w) (s : State) : (s.corrected w).damageAt v = s.damageAt v := by
  unfold State.corrected
  split
  · rfl
  · rw [damageAt_congr (State.softEvent_damage ..), State.damageAt_heal, if_neg h]

/-! ### A lost bank word (R110, R122) -/

theorem Bank.store_mark_sum (b : Bank) (k : TableKind) (i : Nat) (e : Entry) (m : Bool) : ((b.store i e).mark k i m).sum = b.sum := by
  cases e <;> cases k <;> rfl

theorem Bank.store_mark_lookup (b : Bank) (k : TableKind) (i : Nat) (e : Entry) (m : Bool) (code : W32) :
    ((b.store i e).mark k i m).lookup code = b.lookup code :=
  Bank.lookup_congr (by cases e <;> cases k <;> rfl) code

theorem hardEvent_bank (s : State) (e : Event) (b : BankId) : (s.hardEvent e).bank b = s.bank b := by
  cases b <;> simp [State.bank]

theorem damageEntry_bank (s : State) (b : BankId) (k : TableKind) (i : Nat) :
    (s.damageEntry b k i).bank b = ((s.bank b).store i (Entry.zero k)).mark k i true := by
  rw [State.damageEntry, hardEvent_bank, State.bank_setBank_self]

/-- A lost bank entry reads as zero and damaged, its words staying in the sum (R122). -/
theorem damageEntry_entry (s : State) (b : BankId) (k : TableKind) (i : Nat) :
    ((s.damageEntry b k i).bank b).damaged k i = true ∧ ((s.damageEntry b k i).bank b).entry k i = Entry.zero k ∧
      ((s.damageEntry b k i).bank b).sum = (s.bank b).sum := by
  have hsame : SameEntry k i k i := ⟨rfl, .inr rfl⟩
  rw [damageEntry_bank]
  exact ⟨(Bank.damaged_mark ..).trans (if_pos hsame), (Bank.entry_mark ..).trans ((Bank.entry_store ..).trans (if_pos (by rw [Entry.kind_zero]; exact hsame))),
    Bank.store_mark_sum ..⟩

/-- What the loss of a bank word leaves of the rest. -/
structure SameButBank (s t : State) : Prop where
  grt : t.grt = s.grt
  adm : t.adm = s.adm
  ada : t.ada = s.ada
  wts : t.wts = s.wts
  clt : t.clt = s.clt

theorem damageEntry_rest (s : State) (b : BankId) (k : TableKind) (i : Nat) : SameButBank s (s.damageEntry b k i) := by
  constructor <;> simp [State.damageEntry]

theorem forgetCode_rest (s : State) (b : BankId) (code : W32) : SameButBank s (s.forgetCode b code) := by
  constructor <;> simp [State.forgetCode]

theorem SameButBank.trans (h : SameButBank s t) (h' : SameButBank t u) : SameButBank s u :=
  ⟨h'.grt.trans h.grt, h'.adm.trans h.adm, h'.ada.trans h.ada, h'.wts.trans h.wts, h'.clt.trans h.clt⟩

/-- A forgotten code gives no index; every other one, and the entries, stand (R110). -/
theorem forgetCode_bank (s : State) (b : BankId) (code : W32) :
    ((s.forgetCode b code).bank b).lookup code = none ∧
      (∀ other, other ≠ code → ((s.forgetCode b code).bank b).lookup other = (s.bank b).lookup other) ∧
      ((s.forgetCode b code).bank b).sum = (s.bank b).sum ∧
      ∀ k j, ((s.forgetCode b code).bank b).entry k j = (s.bank b).entry k j ∧
        ((s.forgetCode b code).bank b).damaged k j = (s.bank b).damaged k j := by
  rw [State.forgetCode, State.bank_setBank_self]
  refine ⟨?_, fun other h => ?_, rfl, fun k j => ⟨Bank.entry_directory .., Bank.damaged_directory ..⟩⟩
  · unfold Bank.lookup
    split
    · rfl
    · exact Tab.get_erase_self ..
  · unfold Bank.lookup
    split
    · rfl
    · exact Tab.get_erase_ne _ _ fun heq => h (BitVec.eq_of_toNat_eq heq)

/-- A lost directory word that names an index is lost as that entry (R110). -/
theorem loseDirectory_entry (h : (s.bank b).lookup code = some i) :
    s.loseDirectory b code false = (s.forgetCode b code).damageEntry b .feature i := by
  unfold State.loseDirectory
  dsimp only
  rw [if_neg Bool.false_ne_true, h]

theorem loseDirectory_absent {lost : Bool} (h : lost = true ∨ (s.bank b).lookup code = none) :
    s.loseDirectory b code lost = s.forgetCode b code := by
  unfold State.loseDirectory
  dsimp only
  split
  · rfl
  · next hlost => rw [h.resolve_left hlost]

theorem loseDirectory_rest (s : State) (b : BankId) (code : W32) (lost : Bool) : SameButBank s (s.loseDirectory b code lost) ∧
    ((s.loseDirectory b code lost).bank b).lookup code = none ∧
      (∀ other, other ≠ code → ((s.loseDirectory b code lost).bank b).lookup other = (s.bank b).lookup other) ∧
      ((s.loseDirectory b code lost).bank b).sum = (s.bank b).sum := by
  obtain ⟨hgone, hother, hsum, -⟩ := forgetCode_bank s b code
  by_cases h : lost = true ∨ (s.bank b).lookup code = none
  · rw [loseDirectory_absent h]
    exact ⟨forgetCode_rest s b code, hgone, hother, hsum⟩
  · obtain ⟨hlost, hfound⟩ := not_or.1 h
    obtain ⟨i, hi⟩ := Option.ne_none_iff_exists'.1 hfound
    rw [Bool.not_eq_true] at hlost
    rw [hlost, loseDirectory_entry hi, damageEntry_bank]
    exact ⟨(forgetCode_rest s b code).trans (damageEntry_rest ..), (Bank.store_mark_lookup ..).trans hgone,
      fun other ho => (Bank.store_mark_lookup ..).trans (hother other ho), (Bank.store_mark_sum ..).trans hsum⟩

/-! ### A lost word that takes the device to FAULTED (R171 to R173) -/

/-- The state after the loss of such a word. -/
def State.lostFatal (w : MemWord) (s : State) : State := ((s.zeroWord w).hardEvent (wordFatalEvent w)).enterFaulted

theorem loseFatal_eq (w : MemWord) (s : State) : loseFatal w s = .error .ended (s.lostFatal w) := rfl

theorem check_fatal (hw : fatalWord w = true) (h : s.damageAt w = some dm) (hdm : dm ≠ .correctable) :
    check w s = .error .ended ((s.heal w).lostFatal w) := by
  rw [check, checkOr_lost h hdm]
  cases w with
  | waiterRec | queueStore | clientEnt | idleStore | grantLink | poolLive | featLive => exact loseFatal_eq ..
  | grantRec | bankEntry | codeDir => cases hw

theorem attends_of {x : Service} (h : x = .on ∨ x = .drain ∨ x = .off) : x.attends = true := by
  obtain rfl | rfl | rfl := h <;> rfl

/-- What the entry to FAULTED writes (points 3 to 6 of R173). -/
theorem enterFaulted_parts (h : s.ada.service.attends = true) :
    s.enterFaulted.grt = s.grt ∧ s.enterFaulted.adm = s.adm ∧ s.enterFaulted.tbs = s.tbs ∧ s.enterFaulted.resetLow = s.resetLow ∧
      s.enterFaulted.exu = { s.exu with work := none } ∧
      s.enterFaulted.swp = { s.swp with grantPass.rounds := [], waiterPass.rounds := [], clientPass.rounds := [] } ∧
      s.enterFaulted.fnu = (s.enterService .faulted).fnu ∧
      s.enterFaulted.ada.op = if s.ada.op.isRebuild then .idle else s.ada.op := by
  rw [State.enterFaulted_attending h]
  split
  · exact ⟨by simp [State.faultedCleared], by simp [State.faultedCleared], by simp [State.faultedCleared], by simp [State.faultedCleared],
      by simp [State.faultedCleared], by simp [State.faultedCleared], by simp [State.faultedCleared], rfl⟩
  · exact ⟨by simp [State.faultedCleared], by simp [State.faultedCleared], by simp [State.faultedCleared], by simp [State.faultedCleared],
      rfl, rfl, rfl, State.enterService_op ..⟩

theorem enterService_hard (s : State) (n : Service) : (s.enterService n).fnu.hard = s.fnu.hard := State.queueNotice_hard ..

theorem zeroWord_slot (hw : w ≠ .grantLink j) (s : State) : (s.zeroWord w).slot j = s.slot j := by
  cases w with
  | grantLink i =>
    have hne : j ≠ i := fun h => hw (congrArg MemWord.grantLink h.symm)
    exact (State.slot_setSlot (s := s) i j _).trans (if_neg hne)
  | waiterRec | queueStore | clientEnt | idleStore | poolLive | featLive | grantRec | bankEntry | codeDir => rfl

theorem zeroWord_poolLive (s : State) (p : Nat) :
    (s.zeroWord (.poolLive p)).poolLive p = .zero ∧ (s.zeroWord (.poolLive p)).grt.suspect = true :=
  ⟨(State.poolLive_setPoolLive (s := s) p p _).trans (if_pos rfl), rfl⟩

theorem zeroWord_featLive (s : State) (i : Nat) :
    (s.zeroWord (.featLive i)).featLive i = .zero ∧ (s.zeroWord (.featLive i)).grt.suspect = true :=
  ⟨(State.featLive_setFeatLive (s := s) i i _).trans (if_pos rfl), rfl⟩

end Sys2Proof.Machine

/-! PROOFS. A lost word in FAULTED and in the states that attend to clients, and a lost grant record (R44, R165, R171 to R175). -/
namespace Sys2Proof.Machine

variable {s t u : State} {w v : MemWord} {dm : Damage} {e : Event} {b : BankId} {k : TableKind} {i j p : Nat} {code : W32}

/-! ### The notices of a lost word (R173, R175, R177) -/

theorem hardEvent_room (hlocked : s.fnu.hard.locked = false) (hroom : s.fnu.notices.length < 32) (e : Event) :
    (s.hardEvent e).fnu = { s.fnu with
      hard := (s.hardEvent e).fnu.hard, notices := s.fnu.notices ++ [⟨s.swp.mt, .hardEvent (s.hardEvent e).fnu.hard⟩] } := by
  rw [State.hardEvent_unlocked hlocked, queueNotice_room]
  · rfl
  · exact hroom

/-- The service state notice follows a hard event that finds the capture locked. -/
theorem faultNotices_locked (hlocked : s.fnu.hard.locked = true) (hroom : s.fnu.notices.length < 32) (e : Event) (n : Service) :
    ((s.hardEvent e).enterService n).fnu.notices = s.fnu.notices ++ [⟨s.swp.mt, .serviceState s.ada.service n s.swp.mt⟩] := by
  rw [State.hardEvent_locked hlocked]
  exact congrArg Fnu.notices (enterService_room (s := { s with fnu.hard.second := true }) hroom n)

/-- The service state notice follows that of the hard event (R173). -/
theorem faultNotices_unlocked (hlocked : s.fnu.hard.locked = false) (hroom : s.fnu.notices.length < 31) (e : Event) (n : Service) :
    ((s.hardEvent e).enterService n).fnu.notices = s.fnu.notices ++
      [⟨s.swp.mt, .hardEvent ((s.hardEvent e).enterService n).fnu.hard⟩, ⟨s.swp.mt, .serviceState s.ada.service n s.swp.mt⟩] := by
  have hevent := hardEvent_room hlocked (Nat.lt_succ_of_lt hroom) e
  have hnotices := congrArg Fnu.notices hevent
  have hroom' : (s.hardEvent e).fnu.notices.length < 32 := by
    rw [hnotices, List.length_append]
    exact Nat.succ_lt_succ hroom
  rw [enterService_room hroom', hnotices, State.hardEvent_swp, State.hardEvent_ada]
  simp

/-! ### A lost word that is fatal -/

/-- What the loss of such a word leaves in any state: the word's record, the grant slots' and the hard event. -/
theorem lostWord_parts (s : State) (w : MemWord) (e : Event) :
    (∀ j, w ≠ .grantLink j → (((s.heal w).zeroWord w).hardEvent e).slot j = s.slot j) ∧
      (∀ p, w = .poolLive p → (((s.heal w).zeroWord w).hardEvent e).poolLive p = .zero ∧
        (((s.heal w).zeroWord w).hardEvent e).grt.suspect = true) ∧
      (∀ i, w = .featLive i → (((s.heal w).zeroWord w).hardEvent e).featLive i = .zero ∧
        (((s.heal w).zeroWord w).hardEvent e).grt.suspect = true) := by
  refine ⟨fun j hw => ?_, ?_, ?_⟩
  · exact (State.slot_congr (congrArg Grt.slots (State.hardEvent_grt ..)) j).trans (zeroWord_slot hw _)
  · rintro p rfl
    obtain ⟨hzero, hsuspect⟩ := zeroWord_poolLive (s.heal (.poolLive p)) p
    exact ⟨(State.poolLive_congr (congrArg Adm.pools (State.hardEvent_adm ..)) p).trans hzero,
      (congrArg Grt.suspect (State.hardEvent_grt ..)).trans hsuspect⟩
  · rintro i rfl
    obtain ⟨hzero, hsuspect⟩ := zeroWord_featLive (s.heal (.featLive i)) i
    exact ⟨(State.featLive_congr (congrArg Adm.features (State.hardEvent_adm ..)) i).trans hzero,
      (congrArg Grt.suspect (State.hardEvent_grt ..)).trans hsuspect⟩

/-- The records of waiter and client memory that a lost word leaves 0 in FAULTED (R171). -/
theorem lostWord_zero (s : State) (w : MemWord) :
    (∀ i, w = .waiterRec i → (s.zeroWord w).waiter i = .zero) ∧ (∀ i, w = .clientEnt i → (s.zeroWord w).client i = .zero) ∧
      (w = .idleStore → (s.zeroWord w).clt.idle = []) ∧ (∀ p c, w = .queueStore p → (s.zeroWord w).queue p c = []) := by
  refine ⟨?_, ?_, ?_, ?_⟩
  · rintro i rfl
    exact (State.waiter_setWaiter (s := s) i i _).trans (if_pos rfl)
  · rintro i rfl
    exact setClient_self s i _
  · rintro rfl
    rfl
  · rintro p c rfl
    have hqueues : (s.zeroWord (.queueStore p)).queues p = Queues.none :=
      Tab.get_put_self Queues.none s.wts.queues p Queues.none
    rw [State.queue, hqueues]
    cases c <;> rfl

theorem lostFatal_faulted (h : s.ada.service = .faulted) (w : MemWord) :
    (s.heal w).lostFatal w = ((s.heal w).zeroWord w).hardEvent (wordFatalEvent w) :=
  enterFaulted_stays _ (by rw [State.hardEvent_ada, State.zeroWord_ada, State.heal_ada, h]; rfl)

/-- The service state before the entry to FAULTED. -/
theorem lostWord_attends (h : s.ada.service = .on ∨ s.ada.service = .drain ∨ s.ada.service = .off) (w : MemWord) :
    (((s.heal w).zeroWord w).hardEvent (wordFatalEvent w)).ada.service.attends = true := by
  rw [State.hardEvent_ada, State.zeroWord_ada, State.heal_ada]
  exact attends_of h

/-! ### A lost grant record (R44, R165) -/

theorem slotBad_hard (s : State) (i : Nat) : (s.slotBad i).fnu.hard = s.fnu.hard.give ⟨0x81, i, 0, 0⟩ s.swp.mt := by
  unfold State.slotBad
  dsimp only
  rw [State.hardEvent_hard]
  split <;> split <;> split <;> simp [State.setSuspect]

theorem slotBad_linger (s : State) (i p : Nat) : (s.slotBad i).lingerList p =
    if (s.slot i).state = .linger ∧ p = (s.slot i).pool then (s.lingerList p).erase i else s.lingerList p := by
  have hlinger : ∀ u : State, u.grt.linger = (if (s.slot i).state = .linger then s.leaveLinger i (s.slot i).pool else s).grt.linger →
      u.lingerList p = if (s.slot i).state = .linger ∧ p = (s.slot i).pool then (s.lingerList p).erase i else s.lingerList p := by
    intro u hu
    have hlist : u.lingerList p = (if (s.slot i).state = .linger then s.leaveLinger i (s.slot i).pool else s).lingerList p :=
      congrArg (fun l => Tab.get [] l p) hu
    rw [hlist]
    by_cases hs : (s.slot i).state = .linger
    · rw [if_pos hs, State.leaveLinger, State.lingerList_setLinger]
      by_cases hp : p = (s.slot i).pool
      · rw [if_pos hp, if_pos ⟨hs, hp⟩, hp]
      · rw [if_neg hp, if_neg (fun h => hp h.2)]
    · rw [if_neg hs, if_neg (fun h => hs h.1)]
  refine hlinger _ ?_
  unfold State.slotBad
  dsimp only
  rw [State.hardEvent_grt]
  split <;> split <;> split <;> simp [State.setSuspect, State.setSlot]

/-- The operation in the slot is touched only by a rebuild that has passed the live slot (R165). -/
theorem slotBad_ada (h : ∀ rb, s.ada.op = .rebuild rb → (s.slot i).state.live = false ∨ rb.cursor ≤ i) : (s.slotBad i).ada = s.ada := by
  have hpassed : ∀ (u : State) (f : Rebuild → Rebuild), (s.slot i).state.live = true → u.ada = s.ada → (u.rebuildPassed i f).ada = s.ada := by
    intro u f hlive hu
    unfold State.rebuildPassed
    rw [hu]
    split
    · next rb hop =>
      rw [if_neg (Nat.not_lt.2 ((h rb hop).resolve_left (by simp [hlive])))]
      exact hu
    · exact hu
  unfold State.slotBad
  dsimp only
  rw [State.hardEvent_ada]
  refine (show ∀ v : State, v.setSuspect.ada = v.ada from fun _ => rfl) _ |>.trans ?_
  split
  · next hlive =>
    refine hpassed _ _ hlive ?_
    split <;> split <;> rfl
  · split <;> split <;> rfl

/-! The departure from the owner's chain (R31, R70) -/

theorem countUnderflow_clt (s : State) (i : Nat) : (s.countUnderflow i).clt = s.clt := State.hardEvent_clt ..

/-- The owner's entry after the departure, its count clamped at 0. -/
theorem leaveChain_owner (hi : i ∈ (s.client (s.slot i).ownerIdx).chain) :
    ((s.leaveChain i).client (s.slot i).ownerIdx).chain = (s.client (s.slot i).ownerIdx).chain.erase i ∧
      ((s.leaveChain i).client (s.slot i).ownerIdx).grants = (s.client (s.slot i).ownerIdx).grants - 1 ∧
      ∀ j, j ≠ (s.slot i).ownerIdx → (s.leaveChain i).client j = s.client j := by
  by_cases hcount : (s.client (s.slot i).ownerIdx).grants = 0
  · have hclient : ∀ j, (((s.setClient (s.slot i).ownerIdx
        { s.client (s.slot i).ownerIdx with chain := (s.client (s.slot i).ownerIdx).chain.erase i }).countUnderflow
          (s.slot i).ownerIdx).client j) =
        if j = (s.slot i).ownerIdx then { s.client (s.slot i).ownerIdx with chain := (s.client (s.slot i).ownerIdx).chain.erase i }
        else s.client j := fun j =>
      (State.client_congr (congrArg Clt.clients (countUnderflow_clt ..)) j).trans (State.client_setClient ..)
    rw [State.leaveChain, if_pos (by simpa using hi), State.dropGrantCount, setClient_self, if_pos hcount]
    refine ⟨?_, ?_, fun j hj => ?_⟩
    · rw [idleIfQuiet_entry, hclient, if_pos rfl]
    · rw [idleIfQuiet_entry, hclient, if_pos rfl]
      exact hcount.trans (by rw [hcount])
    · rw [idleIfQuiet_other hj, hclient, if_neg hj]
  · obtain ⟨hentry, hothers, -, -⟩ := leaveChain_ownerLeft hi (Nat.pos_of_ne_zero hcount)
    exact ⟨congrArg Client.chain hentry, congrArg Client.grants hentry, hothers⟩

/-! The reads at a lost record (R71; log entry 8) -/

theorem loseRecord_unchained (h : i ∉ (s.client (s.slot i).ownerIdx).chain) : loseRecord i s = .ok () (s.slotBad i) := by
  rw [loseRecord, Op.get_bind, Op.set_bind]
  exact Op.ite_neg (by rw [inChain_iff]; exact h) _ _ _

section
variable (h : i ∈ (s.client (s.slot i).ownerIdx).chain)
include h

theorem loseRecord_chained : loseRecord i s = (checkOr (.clientEnt (s.slot i).ownerIdx)
      (fun _ => loseFatal (.clientEnt (s.slot i).ownerIdx)) >>= fun _ => checkOr .idleStore (fun _ => loseFatal .idleStore) >>= fun _ =>
        modify (·.leaveChain i)) (s.slotBad i) := by
  rw [loseRecord, Op.get_bind, Op.set_bind]
  exact Op.ite_pos (inChain_iff.2 h) _ _ _

/-- The state after the two reads, both legible. -/
def State.ownerRead (s : State) (i : Nat) : State := ((s.slotBad i).corrected (.clientEnt (s.slot i).ownerIdx)).corrected .idleStore

theorem loseRecord_legible (hclient : s.Legible (.clientEnt (s.slot i).ownerIdx)) (hidle : s.Legible .idleStore) :
    loseRecord i s = .ok () ((s.ownerRead i).leaveChain i) := by
  have hbad : ∀ w, (s.slotBad i).damageAt w = s.damageAt w := damageAt_congr (State.slotBad_damage ..)
  have hread := corrected_damageAt (w := .clientEnt (s.slot i).ownerIdx) (v := .idleStore) (by simp) (s.slotBad i)
  rw [loseRecord_chained h, Op.bind_ok (checkOr_legible (by rw [State.Legible, hbad]; exact hclient) _),
    Op.bind_ok (checkOr_legible (by rw [State.Legible, hread, hbad]; exact hidle) _)]
  rfl

/-- One of the two words lost: the operation ends in the loss of that word, the slot BAD by then (log entry 8). -/
theorem loseRecord_lost {d2 : Damage} (hlost : (s.damageAt (.clientEnt (s.slot i).ownerIdx) = some d2 ∧ d2 ≠ .correctable) ∨
      (s.damageAt .idleStore = some d2 ∧ d2 ≠ .correctable)) :
    ∃ (u : State) (w : MemWord), loseRecord i s = .error .ended ((u.heal w).lostFatal w) ∧ u.grt = (s.slotBad i).grt ∧
      u.ada.service = s.ada.service ∧ (w = .clientEnt (s.slot i).ownerIdx ∨ w = .idleStore) := by
  have hbad : ∀ w, (s.slotBad i).damageAt w = s.damageAt w := damageAt_congr (State.slotBad_damage ..)
  have hservice := slotBad_service s i
  rw [loseRecord_chained h]
  by_cases hclient : s.Legible (.clientEnt (s.slot i).ownerIdx)
  · have hidle := hlost.resolve_left fun ⟨hsome, hne⟩ => by
      rcases hclient with hnone | hsoft
      · cases hnone.symm.trans hsome
      · exact hne (Option.some.inj (hsoft.symm.trans hsome)).symm
    have hread := corrected_damageAt (w := .clientEnt (s.slot i).ownerIdx) (v := .idleStore) (by simp) (s.slotBad i)
    have hframe := corrected_frame (s.slotBad i) (.clientEnt (s.slot i).ownerIdx)
    refine ⟨(s.slotBad i).corrected (.clientEnt (s.slot i).ownerIdx), .idleStore, ?_, ?_, ?_, .inr rfl⟩
    · rw [Op.bind_ok (checkOr_legible (by rw [State.Legible, hbad]; exact hclient) _)]
      exact Op.bind_error (checkOr_lost (hread.trans ((hbad _).trans hidle.1)) hidle.2 _)
    · rw [hframe]
    · rw [hframe]
      exact hservice
  · obtain ⟨hnone, hsoft⟩ := not_or.1 hclient
    obtain ⟨d3, hd3⟩ := Option.ne_none_iff_exists'.1 hnone
    refine ⟨s.slotBad i, .clientEnt (s.slot i).ownerIdx, ?_, rfl, hservice, .inl rfl⟩
    exact Op.bind_error (checkOr_lost ((hbad _).trans hd3) (fun hcorrectable => hsoft (hcorrectable ▸ hd3)) _)

end

end Sys2Proof.Machine

/-! PROOFS. The checked read of each kind of memory word. -/
namespace Sys2Proof.Machine

variable {s t : State} {w : MemWord} {dm : Damage} {i : Nat}

/-- What the loss of a grant record leaves, whatever follows for its owner (R44, R165). -/
structure State.RecordLost (s : State) (i : Nat) (t : State) : Prop where
  slot : t.slot i = { Slot.zero with state := .bad, generation := (s.slot i).generation, ownerIdx := (s.slot i).ownerIdx }
  others : ∀ j, j ≠ i → t.slot j = s.slot j
  suspect : t.grt.suspect = true
  locked : t.fnu.hard.locked = true
  reported : s.fnu.hard.locked = false → t.fnu.hard.Reports 0x81 i 0 0
  fifo : t.grt.freeFifo = if (s.slot i).state = .free then s.grt.freeFifo.erase i else s.grt.freeFifo
  linger : ∀ p, t.lingerList p = if (s.slot i).state = .linger ∧ p = (s.slot i).pool then (s.lingerList p).erase i else s.lingerList p
  total : t.grt.liveTotal = if (s.slot i).state.live = true then s.grt.liveTotal - 1 else s.grt.liveTotal
  restarts : ∀ rb, s.ada.op = .rebuild rb → (s.slot i).state.live = true → i < rb.cursor →
    t.ada.op = .rebuild ⟨0, [], [], [], [], 0, rb.badFreed, rb.restarts + 1⟩
  stands : (∀ rb, s.ada.op = .rebuild rb → (s.slot i).state.live = false ∨ rb.cursor ≤ i) → t.ada = s.ada
  adm : t.adm = s.adm
  wts : t.wts = s.wts
  tbs : t.tbs = s.tbs
  swp : t.swp = s.swp
  lnk : t.lnk = s.lnk
  exu : t.exu = s.exu
  service : t.ada.service = s.ada.service

theorem slotBad_recordLost (s : State) (i : Nat) : s.RecordLost i (s.slotBad i) where
  slot := (State.slotBad_slot s i i).trans (if_pos rfl)
  others j hj := (State.slotBad_slot s i j).trans (if_neg hj)
  suspect := (State.slotBad_rest s i).2.2
  locked := by
    rw [slotBad_hard]
    exact Capture.give_locked ..
  reported h := by
    rw [slotBad_hard]
    exact Capture.reports_give h ..
  fifo := (State.slotBad_rest s i).1
  linger := slotBad_linger s i
  total := (State.slotBad_rest s i).2.1
  restarts rb hop hlive hi := by
    rw [State.slotBad_op, if_pos hlive, State.rebuildPassed_op, hop]
    exact if_pos hi
  stands := slotBad_ada
  adm := State.slotBad_adm ..
  wts := State.slotBad_wts ..
  tbs := State.slotBad_tbs ..
  swp := State.slotBad_swp ..
  lnk := State.slotBad_lnk ..
  exu := State.slotBad_exu ..
  service := slotBad_service s i

/-- Only the damaged words, the soft capture and the notices differ. -/
structure SameButNotices (s t : State) : Prop where
  frame : t = { s with damage := t.damage, fnu := t.fnu }
  hard : t.fnu.hard = s.fnu.hard

theorem corrected_same (s : State) (w : MemWord) : SameButNotices s (s.corrected w) := ⟨corrected_frame s w, corrected_hard s w⟩

theorem SameButNotices.trans {u : State} (h : SameButNotices s t) (h' : SameButNotices t u) : SameButNotices s u :=
  ⟨h'.frame.trans (congrArg (fun v : State => { v with damage := u.damage, fnu := u.fnu }) h.frame), h'.hard.trans h.hard⟩

theorem SameButNotices.parts (h : SameButNotices s t) : t.grt = s.grt ∧ t.clt = s.clt ∧ t.adm = s.adm ∧ t.wts = s.wts ∧ t.tbs = s.tbs ∧
    t.swp = s.swp ∧ t.lnk = s.lnk ∧ t.exu = s.exu ∧ t.ada = s.ada := by
  rw [h.frame]
  exact ⟨rfl, rfl, rfl, rfl, rfl, rfl, rfl, rfl, rfl⟩

theorem ownerRead_same (s : State) (i : Nat) : SameButNotices (s.slotBad i) (s.ownerRead i) :=
  (corrected_same ..).trans (corrected_same ..)

/-- With SUSPECT set the departure from a chain leaves the grant table. -/
theorem leaveChain_grt_suspect (h : s.grt.suspect = true) (i : Nat) : (s.leaveChain i).grt = s.grt := by
  rw [State.leaveChain_grt, h, Bool.true_or, ← h]

/-- The departure from the owner's chain, after its reads, leaves the rest of the loss as it stands. -/
theorem ownerLeaves_recordLost (s : State) (i : Nat) : s.RecordLost i ((s.ownerRead i).leaveChain i) := by
  have hbad := slotBad_recordLost s i
  obtain ⟨hgrt, -, hadm, hwts, htbs, hswp, hlnk, hexu, hada⟩ := (ownerRead_same s i).parts
  have hleft : ((s.ownerRead i).leaveChain i).grt = (s.slotBad i).grt :=
    (leaveChain_grt_suspect (by rw [hgrt]; exact hbad.suspect) i).trans hgrt
  have hleftAda : ((s.ownerRead i).leaveChain i).ada = (s.slotBad i).ada := (State.leaveChain_ada ..).trans hada
  have hhard : ((s.ownerRead i).leaveChain i).fnu.hard = (s.slotBad i).fnu.hard ∨ ∃ e mt,
      ((s.ownerRead i).leaveChain i).fnu.hard = (s.slotBad i).fnu.hard.give e mt := by
    rw [State.leaveChain_hard, (ownerRead_same s i).hard]
    split
    · exact .inr ⟨_, _, rfl⟩
    · exact .inl rfl
  constructor
  case slot => exact (State.slot_congr (congrArg Grt.slots hleft) i).trans hbad.slot
  case others => exact fun j hj => (State.slot_congr (congrArg Grt.slots hleft) j).trans (hbad.others j hj)
  case suspect => exact (congrArg Grt.suspect hleft).trans hbad.suspect
  case locked =>
    obtain hsame | ⟨e, mt, hgiven⟩ := hhard
    · exact hsame ▸ hbad.locked
    · exact hgiven ▸ Capture.give_locked ..
  case reported =>
    intro hopen
    obtain hsame | ⟨e, mt, hgiven⟩ := hhard
    · exact hsame ▸ hbad.reported hopen
    · exact hgiven ▸ (hbad.reported hopen).give e mt
  case fifo => exact (congrArg Grt.freeFifo hleft).trans hbad.fifo
  case linger => exact fun p => (congrArg (fun g : Grt => Tab.get [] g.linger p) hleft).trans (hbad.linger p)
  case total => exact (congrArg Grt.liveTotal hleft).trans hbad.total
  case restarts => exact fun rb hop hlive hi => (congrArg Ada.op hleftAda).trans (hbad.restarts rb hop hlive hi)
  case stands => exact fun h => hleftAda.trans (hbad.stands h)
  case adm => exact (State.leaveChain_adm ..).trans (hadm.trans hbad.adm)
  case wts => exact (State.leaveChain_wts ..).trans (hwts.trans hbad.wts)
  case tbs => exact (State.leaveChain_tbs ..).trans (htbs.trans hbad.tbs)
  case swp => exact (State.leaveChain_swp ..).trans (hswp.trans hbad.swp)
  case lnk => exact (State.leaveChain_lnk ..).trans (hlnk.trans hbad.lnk)
  case exu => exact (State.leaveChain_exu ..).trans (hexu.trans hbad.exu)
  case service => exact (congrArg Ada.service hleftAda).trans hbad.service

/-- The owner's entry, the slot having left its chain. -/
theorem ownerLeaves_client (hi : i ∈ (s.client (s.slot i).ownerIdx).chain) :
    (((s.ownerRead i).leaveChain i).client (s.slot i).ownerIdx).chain = (s.client (s.slot i).ownerIdx).chain.erase i ∧
      (((s.ownerRead i).leaveChain i).client (s.slot i).ownerIdx).grants = (s.client (s.slot i).ownerIdx).grants - 1 ∧
      ∀ j, j ≠ (s.slot i).ownerIdx → ((s.ownerRead i).leaveChain i).client j = s.client j := by
  obtain ⟨hgrt, hclt, -⟩ := (ownerRead_same s i).parts
  have hclient : ∀ j, (s.ownerRead i).client j = s.client j :=
    State.client_congr (congrArg Clt.clients (hclt.trans (State.slotBad_clt ..)))
  have hslot : ((s.ownerRead i).slot i).ownerIdx = (s.slot i).ownerIdx := by
    rw [State.slot_congr (congrArg Grt.slots hgrt), State.slotBad_slot, if_pos rfl]
  have howner := leaveChain_owner (s := s.ownerRead i) (i := i) (by rw [hslot, hclient]; exact hi)
  simp only [hslot, hclient] at howner
  exact howner

/-- A lost record of a slot in no chain, or in one whose owner's words are legible (R44, R165). -/
theorem loseRecord_kept (h : i ∉ (s.client (s.slot i).ownerIdx).chain ∨
      (s.Legible (.clientEnt (s.slot i).ownerIdx) ∧ s.Legible .idleStore)) :
    ∃ t, loseRecord i s = .ok () t ∧ s.RecordLost i t ∧ (i ∉ (s.client (s.slot i).ownerIdx).chain → t.clt = s.clt) ∧
      (i ∈ (s.client (s.slot i).ownerIdx).chain →
        (t.client (s.slot i).ownerIdx).chain = (s.client (s.slot i).ownerIdx).chain.erase i ∧
          (t.client (s.slot i).ownerIdx).grants = (s.client (s.slot i).ownerIdx).grants - 1) ∧
      ∀ j, j ≠ (s.slot i).ownerIdx → t.client j = s.client j := by
  by_cases hin : i ∈ (s.client (s.slot i).ownerIdx).chain
  · obtain ⟨hclient, hidle⟩ := h.resolve_left (fun hnot => hnot hin)
    obtain ⟨hchain, hgrants, hothers⟩ := ownerLeaves_client hin
    exact ⟨_, loseRecord_legible hin hclient hidle, ownerLeaves_recordLost s i, fun hnot => absurd hin hnot,
      fun _ => ⟨hchain, hgrants⟩, hothers⟩
  · have hclt : (s.slotBad i).clt = s.clt := State.slotBad_clt ..
    exact ⟨_, loseRecord_unchained hin, slotBad_recordLost s i, fun _ => hclt, fun hnot => absurd hnot hin,
      fun j _ => State.client_congr (congrArg Clt.clients hclt) j⟩

theorem zeroWord_grt (h : w = .clientEnt i ∨ w = .idleStore) (s : State) : (s.zeroWord w).grt = s.grt := by
  obtain rfl | rfl := h <;> rfl

/-- A lost word of the owner at a lost record: FAULTED, the slot BAD by then (R71, R173; log entry 8). -/
theorem loseRecord_faults (hin : i ∈ (s.client (s.slot i).ownerIdx).chain)
    (hservice : s.ada.service = .on ∨ s.ada.service = .drain ∨ s.ada.service = .off)
    (hlost : (s.damageAt (.clientEnt (s.slot i).ownerIdx) = some dm ∧ dm ≠ .correctable) ∨
      (s.damageAt .idleStore = some dm ∧ dm ≠ .correctable)) :
    ∃ t, loseRecord i s = .error .ended t ∧ t.ada.service = .faulted ∧ t.clt = .clear ∧ t.grt = (s.slotBad i).grt := by
  obtain ⟨u, w, hended, hgrt, hada, hw⟩ := loseRecord_lost hin hlost
  have hattends := lostWord_attends (s := u) (hada ▸ hservice) w
  obtain ⟨hclt, -, hfaulted⟩ := enterFaulted_clears _ hattends
  obtain ⟨hstands, -⟩ := enterFaulted_parts hattends
  refine ⟨_, hended, hfaulted, hclt, hstands.trans ?_⟩
  rw [State.hardEvent_grt, zeroWord_grt hw, State.heal_grt, hgrt]

/-- What the first hard event, a lost bank entry, reports (R175). -/
theorem damageEntry_reports (h : s.fnu.hard.locked = false) (b : BankId) (k : TableKind) (i : Nat) :
    (s.damageEntry b k i).fnu.hard.Reports 0x82 i b.code (BitVec.ofNat 32 k.code) := by
  rw [State.damageEntry, State.hardEvent_hard, State.setBank_fnu]
  exact Capture.reports_give h ..

/-- A lost directory word that names an index reports that entry (R110, R175). -/
theorem loseDirectory_found {b : BankId} {code : W32} (h : (s.bank b).lookup code = some i) :
    ((s.loseDirectory b code false).bank b).damaged .feature i = true ∧
      ((s.loseDirectory b code false).bank b).entry .feature i = .feature .empty ∧
      (s.loseDirectory b code false).fnu.hard.locked = true ∧
      (s.fnu.hard.locked = false → (s.loseDirectory b code false).fnu.hard.code = 0x82 ∧
        (s.loseDirectory b code false).fnu.hard.index = i) := by
  rw [loseDirectory_entry h]
  obtain ⟨hdamaged, hentry, -⟩ := damageEntry_entry (s.forgetCode b code) b .feature i
  refine ⟨hdamaged, hentry, hardEvent_locks .., fun hopen => ?_⟩
  have hreports := damageEntry_reports (s := s.forgetCode b code) (by simpa [State.forgetCode] using hopen) b .feature i
  exact ⟨hreports.code, hreports.index⟩

/-- A lost directory word without an index reports nothing (log entry 23). -/
theorem loseDirectory_silent {b : BankId} {code : W32} {lost : Bool} (h : lost = true ∨ (s.bank b).lookup code = none) :
    (s.loseDirectory b code lost).fnu = s.fnu ∧ ∀ k j, ((s.loseDirectory b code lost).bank b).entry k j = (s.bank b).entry k j ∧
      ((s.loseDirectory b code lost).bank b).damaged k j = (s.bank b).damaged k j := by
  rw [loseDirectory_absent h]
  exact ⟨by simp [State.forgetCode], (forgetCode_bank s b code).2.2.2⟩

/-- FAULTED with every clause of the obligation, from a state that attends to clients. -/
theorem lostFatal_attending (h : s.ada.service = .on ∨ s.ada.service = .drain ∨ s.ada.service = .off) (w : MemWord) :
    ((s.heal w).lostFatal w).ada.service = .faulted ∧ ((s.heal w).lostFatal w).wts = .clear ∧ ((s.heal w).lostFatal w).clt = .clear ∧
      ((s.heal w).lostFatal w).fnu = ((((s.heal w).zeroWord w).hardEvent (wordFatalEvent w)).enterService .faulted).fnu ∧
      ((s.heal w).lostFatal w).resetLow = s.resetLow ∧ ((s.heal w).lostFatal w).exu.work = none ∧
      ((s.heal w).lostFatal w).tbs = s.tbs ∧
      ((s.heal w).lostFatal w).grt = (((s.heal w).zeroWord w).hardEvent (wordFatalEvent w)).grt ∧
      ((s.heal w).lostFatal w).adm = (((s.heal w).zeroWord w).hardEvent (wordFatalEvent w)).adm ∧
      ((s.heal w).lostFatal w).ada.op = (if s.ada.op.isRebuild then .idle else s.ada.op) ∧
      ((s.heal w).lostFatal w).swp =
        { s.swp with grantPass.rounds := [], waiterPass.rounds := [], clientPass.rounds := [] } := by
  have hattends := lostWord_attends h w
  obtain ⟨hclt, hwts, hservice⟩ := enterFaulted_clears _ hattends
  obtain ⟨hgrt, hadm, htbs, hreset, hexu, hswp, hfnu, hop⟩ := enterFaulted_parts hattends
  refine ⟨hservice, hwts, hclt, hfnu, hreset.trans (by simp), congrArg Exu.work hexu, htbs.trans (by simp), hgrt, hadm,
    hop.trans (by simp), hswp.trans (by simp)⟩

theorem faultN_locked (h : s.fnu.hard.locked = true) : s.faultN = !s.resetLow := by
  simp [State.faultN, h]

/-- Settles O53: each kind of word by the rule for its memory, the reads at a lost grant record by those of its owner's words. -/
theorem checkedReadsFollowTheirMemory : Obligations.CheckedReadsFollowTheirMemory := by
  intro s w
  refine ⟨fun h => ?_, fun dm _ => ?_, fun h => ?_, ?_, ?_, ?_, ?_⟩
  case refine_1 => exact check_sound h
  case refine_2 =>
    rw [State.damageAt_heal, if_pos rfl]
  case refine_3 =>
    have hcorrected : s.corrected w = (s.heal w).softEvent (wordSoftEvent s w) := if_neg (by simp [h])
    exact hcorrected ▸ checkOr_legible (.inr h) (lose w)
  case refine_4 =>
    rintro i g dm rfl rfl hdm hne o
    have hcheck : check (.grantRec i) s = loseRecord i (s.heal (.grantRec i)) := checkOr_lost hdm hne _
    have hheal : ∀ v, v ≠ .grantRec i → (s.heal (.grantRec i)).damageAt v = s.damageAt v := fun v hv =>
      (State.damageAt_heal ..).trans (if_neg hv)
    have hclient := hheal (.clientEnt o) (by simp)
    have hidle := hheal .idleStore (by simp)
    rw [hcheck]
    refine ⟨fun h => ?_, fun hin hservice hlost => ?_⟩
    · rw [← hclient, ← hidle] at h
      obtain ⟨t, hkept, hbad, hclt, hchain, hothers⟩ := loseRecord_kept (s := s.heal (.grantRec i)) h
      exact ⟨t, hkept, hbad.slot, hbad.others, hbad.suspect, hbad.locked,
        fun hopen => ⟨(hbad.reported hopen).code, (hbad.reported hopen).index, (hbad.reported hopen).pool, (hbad.reported hopen).client⟩,
        hbad.fifo, hbad.linger, hbad.total, hclt, hchain, hothers, hbad.restarts, hbad.stands, hbad.adm, hbad.wts, hbad.tbs,
        hbad.swp, hbad.lnk, hbad.exu, hbad.service⟩
    · rw [← hclient, ← hidle, ← exists_or] at hlost
      obtain ⟨d2, hlost⟩ := hlost
      obtain ⟨t, hended, hfaulted, hclt, hgrt⟩ := loseRecord_faults (s := s.heal (.grantRec i)) hin hservice hlost
      have hbad := slotBad_recordLost (s.heal (.grantRec i)) i
      exact ⟨t, hended, hfaulted, hclt, (congrArg Grt.suspect hgrt).trans hbad.suspect,
        (State.slot_congr (congrArg Grt.slots hgrt) i).trans hbad.slot⟩
  case refine_5 =>
    rintro b k i dm rfl hdm hne
    obtain ⟨hdamaged, hentry, hsum⟩ := damageEntry_entry (s.heal (.bankEntry b k i)) b k i
    have hrest := damageEntry_rest (s.heal (.bankEntry b k i)) b k i
    exact ⟨_, checkOr_lost hdm hne _, hdamaged, hentry, hsum, hardEvent_locks .., hrest.grt, hrest.adm, hrest.ada⟩
  case refine_6 =>
    rintro b code dm rfl hdm hne
    obtain ⟨hrest, hgone, hother, hsum⟩ := loseDirectory_rest (s.heal (.codeDir b code)) b code (decide (dm = .indexLost))
    refine ⟨_, checkOr_lost hdm hne _, hgone, hother, hsum, hrest.grt, hrest.adm, hrest.ada, hrest.wts, hrest.clt, ?_, fun h => ?_⟩
    · rintro i rfl hi
      exact loseDirectory_found (s := s.heal (.codeDir b code)) hi
    · exact loseDirectory_silent (s := s.heal (.codeDir b code)) (h.imp_left fun hlost => decide_eq_true hlost)
  case refine_7 =>
    intro dm hdm hne hw
    obtain ⟨hslots, hpools, hfeatures⟩ := lostWord_parts s w (wordFatalEvent w)
    rw [check_fatal hw hdm hne]
    refine ⟨fun hservice => ?_, fun hservice => ?_⟩
    · obtain ⟨hfaulted, hwts, hclt, hfnu, hreset, hwork, htbs, hgrt, hadm, hop, hswp⟩ := lostFatal_attending hservice w
      have hlocked : ((s.heal w).lostFatal w).fnu.hard.locked = true := by
        rw [hfnu, enterService_hard]
        exact hardEvent_locks ..
      refine ⟨_, rfl, hfaulted, hwts, hclt, hlocked, (faultN_locked hlocked).trans (congrArg not hreset), hwork, htbs, fun j hj => ?_,
        fun p hp => ?_, fun i hi => ?_, fun h => hop.trans (if_pos h), fun h => hop.trans (if_neg (by simp [h])), hswp,
        fun hheld hroom => ?_, fun hopen hroom => ?_⟩
      · exact (State.slot_congr (congrArg Grt.slots hgrt) j).trans (hslots j hj)
      · exact ⟨(State.poolLive_congr (congrArg Adm.pools hadm) p).trans (hpools p hp).1,
          (congrArg Grt.suspect hgrt).trans (hpools p hp).2⟩
      · exact ⟨(State.featLive_congr (congrArg Adm.features hadm) i).trans (hfeatures i hi).1,
          (congrArg Grt.suspect hgrt).trans (hfeatures i hi).2⟩
      · have hnotices := faultNotices_locked (s := (s.heal w).zeroWord w) (by simpa using hheld) (by simpa using hroom)
          (wordFatalEvent w) .faulted
        rw [hfnu, hnotices]
        simp
      · have hnotices := faultNotices_unlocked (s := (s.heal w).zeroWord w) (by simpa using hopen) (by simpa using hroom)
          (wordFatalEvent w) .faulted
        rw [hfnu, hnotices]
        simp
    · obtain ⟨hwaiters, hclients, hidle, hqueues⟩ := lostWord_zero (s.heal w) w
      rw [lostFatal_faulted hservice w]
      refine ⟨_, rfl, by simp, by simp, by simp, by simp, by simp, hardEvent_locks .., ?_, hslots, hpools, hfeatures, fun i hi => ?_,
        fun i hi => ?_, fun hi => ?_, fun p c hp => ?_⟩
      · rw [damageAt_congr (State.hardEvent_damage ..), damageAt_congr (State.zeroWord_damage ..), State.damageAt_heal, if_pos rfl]
      · exact (State.waiter_congr (congrArg Wts.waiters (State.hardEvent_wts ..)) i).trans (hwaiters i hi)
      · exact (State.client_congr (congrArg Clt.clients (State.hardEvent_clt ..)) i).trans (hclients i hi)
      · exact (congrArg Clt.idle (State.hardEvent_clt ..)).trans (hidle hi)
      · have hsame := State.queues_congr (congrArg Wts.queues (State.hardEvent_wts (s := (s.heal w).zeroWord w) (wordFatalEvent w))) p
        exact (congrArg (·.of c) hsame).trans (hqueues p c hp)

end Sys2Proof.Machine
